-- ==== Sys2Proof/Word.lean ====
section
/-!
DEFINITION. The plain words of the model: bytes, raw codes, text, and the numbers that name the part's
zones, hatches, banks, loops, readers, channels, groups, addresses, tray positions and aisles.

The spec numbers every one of these but the aisles from 1 (00_scope.md, Numbering). A `Fin` here counts
from 0, so the number the host writes is one more than the index.
-/

namespace Sys2Proof

/-- One byte on a serial line: a reader's line (R55) or the host line (R178). -/
abbrev Byte := BitVec 8

/-- A raw converter code, 0 to 65535 (R6). -/
abbrev Code := BitVec 16

/-- The minute counter and every stamp taken from it, 0 to 4294967295, wrapping (R202). -/
abbrev Minute := BitVec 32

/-- Text that crosses a wire: labels, field values, report details. -/
abbrev Text := List Char

/-- Zone 1 to 4, as index 0 to 3. -/
abbrev Zone := Fin 4

/-- Hatch 1 or 2, as index 0 or 1. -/
abbrev HatchId := Fin 2

/-- Bank 1 to 4, as index 0 to 3. -/
abbrev BankId := Fin 4

/-- Detection loop L1 or L2, as index 0 or 1. -/
abbrev LoopId := Fin 2

/-- Staging reader S1 to S4, as index 0 to 3. -/
abbrev ReaderId := Fin 4

/-- Sensor channel CH01 to CH24, as index 0 to 23. -/
abbrev Channel := Fin 24

/-- Scan group 1 or 2, as index 0 or 1. -/
abbrev Group := Fin 2

/-- Scan timer TA or TB, as index 0 or 1. -/
abbrev TimerId := Fin 2

/-- Detector address 1 to 32, as index 0 to 31. -/
abbrev Address := Fin 32

/-- Tray position 1 to 24, as index 0 to 23. -/
abbrev TrayIdx := Fin 24

/-- Aisle position 0 to 12; aisles are numbered from 0 (00_scope.md, Numbering). -/
abbrev Aisle := Fin 13

end Sys2Proof
end

