-- ==== Sys2Proof/Syntax.lean ====
section
/-!
DEFINITION. The commands of the block, one constructor of `Instr` for each row of spec/opcode_table.json, and
the operands they carry.

A row is a request taken on the host line, a field input that changed, a timer that ran out, or an operation
that ended. The table gives the rows no operands and no bits, so the operands are those the row's rule names.
A request carries the values of its fields as they stand once the line has passed steps 1 to 3 of R183: numbers
as integers, words and labels as text; a field the rule lets the host leave out is an `Option`. The `index=` and
`value=` of a WRITE-SETTING are numbers or words as the catalogue gives them for its name (section 10.3); the `index=`
of a READ-SETTING, whose type depends on the name, is the text as written.
-/

namespace Sys2Proof

/-- The side of a hatch (R88). -/
inductive Side where
  | outer
  | inner
  deriving DecidableEq, Repr

/-- The two duties of a zone (R28). -/
inductive Duty where
  | dehumidifier
  | humidifier
  deriving DecidableEq, Repr

/-- The fields `SET-SETPOINTS` may carry (R21); a field left out keeps its present value. -/
structure SetpointFields where
  tset : Option Int := none
  hset : Option Int := none
  band : Option Int := none
  step : Option Int := none
  cap : Option Int := none
  rhband : Option Int := none
  tband : Option Int := none
  period : Option Int := none
  burst : Option Int := none
  deriving DecidableEq, Repr

/-- The five home fields of ADD-CARTRIDGE and SET-HOME (R45, R49), as the host wrote them. -/
structure HomeFields where
  bank : Int
  carriage : Int
  face : Text
  shelf : Int
  slot : Int
  deriving DecidableEq, Repr

/-- The five exposure fields of SUBMIT-INBOUND and ANSWER-QUERY (R76): all given or none. -/
structure SummaryFields where
  tmax : Option Int := none
  tmin : Option Int := none
  hmax : Option Int := none
  hmin : Option Int := none
  minutes : Option Int := none
  deriving DecidableEq, Repr

/-- The fields of ANSWER-QUERY but `hatch=` (R103). -/
structure AnswerFields where
  items : Option (List Text) := none
  decline : Option Text := none
  validity : Option Int := none
  summary : SummaryFields := {}
  deriving DecidableEq, Repr

/-- A climate setting of the catalogue (R200). -/
inductive ClimateName where
  | tset | hset | band | step | cap | rhband | tband | period | burst
  deriving DecidableEq, Repr

/-- HOLD-KT or HOLD-KH (R61). -/
inductive HoldWeight where
  | kT | kH
  deriving DecidableEq, Repr

/-- A hatch setting other than HATCH-ZONE (R87). -/
inductive HatchTiming where
  | unlockTimeout | openAlarm | queryWait | rejectTimeout | condLimit | standbyTime | purgeBand | condMargin
  deriving DecidableEq, Repr

/-- FIRE-COUNTDOWN, FIRE-SOAK or FIRE-VENT (R159). -/
inductive FireTime where
  | countdown | soak | vent
  deriving DecidableEq, Repr

/-- The run of bytes between two silences on a reader's line, and whether any byte of it came with a framing
or noise error (R55). -/
structure LabelRun where
  bytes : List Byte
  lineError : Bool := false
  deriving DecidableEq, Repr

/-- One attempt of a tray scan at one position: a run of bytes, or no record within 100 ms (R92). -/
inductive Attempt where
  | noResponse
  | run (r : LabelRun)
  deriving DecidableEq, Repr

/-- What a tray scan read at one position: the attempts made in its turn and, where the position was read once more at
the end of the pass, those of that second reading (R92). -/
structure TrayRead where
  first : List Attempt := []
  again : Option (List Attempt) := none
  deriving DecidableEq, Repr

/-- The conversions of one channel in a calibration: 16 of the low and 16 of the high reference (R13). -/
structure CalCodes where
  low : Vector Code 16
  high : Vector Code 16
  deriving DecidableEq, Repr

/-- The commands, in the order of spec/opcode_table.json. -/
inductive Instr where
  | powerUp
  | powerOff
  | replyComplete
  | lineGapTimeout
  | lineBreak
  | lineDiscarded
  | badRequest (field : Option Text)
  | unknownRequest
  | calibrate (group : Int)
  | readChannel (channel : Int)
  | setSetpoints (zone : Int) (fields : SetpointFields)
  | setClimateMode (broadcast : Bool) (mode : Text) (zone : Option Int)
  | burst (zone : Int)
  | readZone (zone : Int)
  | addCartridge (label media : Text) (home : HomeFields)
  | removeCartridge (label : Text)
  | readCartridge (label : Text)
  | listCartridges (start : Int) (custody : Option Text) (zone : Option Int)
  | setHome (label : Text) (home : HomeFields)
  | markMissing (label : Text)
  | markFound (label : Text)
  | releaseHold (label : Text)
  | readStaging (reader : Int)
  | submitOutbound (hatch courier validity : Int) (items : List Text)
  | submitInbound (hatch courier validity : Int) (items : List Text) (summary : SummaryFields)
  | guidePicks (id : Int)
  | cancelManifest (id : Int)
  | readManifest (id : Int) (start : Option Int)
  | listManifests (start : Option Int)
  | loadHatch (hatch id : Int)
  | answerQuery (hatch : Int) (answer : AnswerFields)
  | abortHandover (hatch : Int)
  | releaseHatch (hatch : Int)
  | clearStuck (hatch : Int) (side : Text)
  | fetchReceipt (hatch : Int) (start : Option Int)
  | clearReceipt (hatch : Int)
  | readHatch (hatch : Int) (tray : Option Int)
  | openAisle (bank aisle : Int)
  | clearAisleQueue (bank : Int)
  | resetBank (bank : Int)
  | readBank (bank : Int)
  | setDetector (loop address : Int) (enabled : Text)
  | readDetector (loop address : Int)
  | readLoop (loop : Int) (start : Option Int)
  | startVent (zone : Int)
  | resetFireZone (zone : Int)
  | restoreAgent (zone : Int)
  | readFireZone (zone : Int) (start : Option Int)
  | identify
  | status
  | readSetting (name : Text) (index : Option Text) (loop address : Option Int)
  | fetchReports (max : Option Int)
  | restart
  | writeSettingChannel (index : Option Int) (kind owner : Option Text) (group : Option Int)
  | writeSettingChOffset (index value : Option Int)
  | writeSettingChGain (index value : Option Int)
  | writeSettingScanPeriod (index : Option Text) (value : Option Int)
  | writeSettingGroupTimer (index : Option Int) (value : Option Text)
  | writeSettingDisagreeLimit (index value : Option Int)
  | writeSettingZoneClimate (name : ClimateName) (index value : Option Int)
  | writeSettingClimateMode (index : Option Int) (value : Option Text)
  | writeSettingHoldKtKh (weight : HoldWeight) (index : Option Text) (value : Option Int)
  | writeSettingHoldMin (index : Option Text) (value : Option Int)
  | writeSettingHoldMax (index : Option Text) (value : Option Int)
  | writeSettingHatchZone (index value : Option Int)
  | writeSettingHatchTiming (name : HatchTiming) (index value : Option Int)
  | writeSettingBankZone (index value : Option Int)
  | writeSettingBankCarriages (index value : Option Int)
  | writeSettingBankPark (index value : Option Int)
  | writeSettingBankStep (index value : Option Int)
  | writeSettingDetector (loop address zone : Option Int) (type : Option Text)
  | writeSettingDetPrealarm (index : Option Text) (value : Option Int)
  | writeSettingDetAlarm (index : Option Text) (value : Option Int)
  | writeSettingFireCoincidence (index value : Option Int)
  | writeSettingFireTimes (time : FireTime) (index value : Option Int)
  | writeSettingLineRate (index value : Option Text)
  | writeSettingStationAddress (index : Option Text) (value : Option Int)
  | minuteIncrease
  | holdEnded (label : Text)
  | manifestExpired (id : Nat)
  | conditionTimeout (hatch : HatchId)
  | scanTimerExpiry (timer : TimerId)
  | scanComplete (group : Group) (codes : Vector Code 24)
  | calibrationComplete (group : Group) (codes : Vector CalCodes 24)
  | periodStart (zone : Zone)
  | dutyOff (zone : Zone) (duty : Duty)
  | burstTimerExpiry (zone : Zone)
  | stagingLabelRecord (reader : ReaderId) (run : LabelRun)
  | stagingIndicatorTimeout (reader : ReaderId)
  | repeatWindowEnd (reader : ReaderId)
  | badgeRead (hatch : HatchId) (courier : Option Nat)
  | hatchIndicatorTimeout (hatch : HatchId)
  | queryWaitExpiry (hatch : HatchId)
  | shutterOpened (hatch : HatchId) (side : Side)
  | shutterClosed (hatch : HatchId) (side : Side)
  | shutterForced (hatch : HatchId) (side : Side)
  | unlockTimerExpiry (hatch : HatchId) (side : Side)
  | openAlarmExpiry (hatch : HatchId) (side : Side)
  | closerClosed (hatch : HatchId) (side : Side)
  | shutterNotSecured (hatch : HatchId) (side : Side)
  | innerRequestButton (hatch : HatchId)
  | trayPresenceChange (hatch : HatchId) (pos : TrayIdx) (occupied : Bool)
  | trayScanEnd (hatch : HatchId) (reads : Vector TrayRead 24)
  | rejectClearTimerExpiry (hatch : HatchId)
  | idleTimerExpiry (hatch : HatchId)
  | blockTimerExpiry (bank : BankId)
  | curtainClear (bank : BankId) (aisle : Aisle)
  | curtainBroken (bank : BankId) (aisle : Aisle)
  | homeSensorActive (bank : BankId)
  | aisleSensorActive (bank : BankId) (aisle : Aisle)
  | homingTimerExpiry (bank : BankId)
  | travelTimerExpiry (bank : BankId)
  | pollAnswered (loop : LoopId) (level : Byte)
  | pollUnanswered (loop : LoopId)
  | alert (loop : LoopId) (alerting : List Address)
  | roundEnd (loop : LoopId)
  | itemAbandoned (loop : LoopId)
  | abortStationChange (zone : Zone) (held : Bool)
  | isolateKeyChange (zone : Zone) (on : Bool)
  | dischargeConfirmChange (zone : Zone) (active : Bool)
  | countdownExpiry (zone : Zone)
  | releasePulseExpiry (zone : Zone)
  | confirmWaitExpiry (zone : Zone)
  | soakExpiry (zone : Zone)
  | ventExpiry (zone : Zone)
  | characterReceived (code : Byte) (lineError : Bool)
  | replyStart
  | shutterCaught (hatch : HatchId) (side : Side)
  | writeSettingUnknownName (name : Text)
  deriving DecidableEq, Repr

end Sys2Proof
end

