-- ==== Sys2Proof/Decode.lean ====
section
/-!
DEFINITION. The command that a word spells by the bits of spec/opcode_table.json. No row of the table gives bits: the
block takes its commands as lines, inputs and expiries, not as words.
-/

namespace Sys2Proof

/-- The command a word spells: none, since no row has bits (log entry 15). -/
def decodeTableWord (_nbits _w : Nat) : Option Instr := none

end Sys2Proof
end

