-- ==== Sys2Proof/Config.lean ====
section
/-!
DEFINITION. What the spec leaves open, as constants with no body: no proof can learn what they are, so a
statement that holds of the model holds whatever they are.

Each but `fieldName` is applied to `State.choice`, the model's own counter of the free choices taken so far, so that
every use is a fresh value; the names of reply fields are fixed for the part. Log entries 2, 3 and 4 say where each is
used.
-/

namespace Sys2Proof

/-- The order in which blocks take something handed to all of them at once: the receiver of the lower rank
goes first, in the listed order where ranks are equal. The spec lets the receivers take a fire state (R158), a
minute (R202) and the start (R203) 'in any order among themselves'. Log entry 2. -/
opaque Config.rank : Nat → Nat → Nat

/-- The names of the fields that no rule names, by the number of the reply and the number of the field in it (R187 gives
the form, most reading rules give the values only). Log entry 3. -/
opaque Config.fieldName : Nat → Nat → Text

/-- The reason of a REFUSED reply whose own rule names none (R187 has every REFUSED give `reason=`). Log entry 3. -/
opaque Config.replyReason : Nat → Text

/-- What decides a LOADED item that is gone from the tray when no side is recorded as last opened
(R99 step 1 names the outer and the inner side only): `true` is the outer side. Log entry 4. -/
opaque Config.goneByOuter : Nat → Bool

end Sys2Proof
end

