-- ==== Sys2Proof/Machine/State.lean ====
section
/-!
DEFINITION. The state of the part as plain data: the custody store (R197), the live state of every block
(the state tables that open chapters 1 to 10), the field inputs as they read, and the queue of waiting commands.

A quantity the spec states as a function of other state is not stored twice: the prior mode is the stored mode
selection (section 2.5), ATTN is a function of the queue, receipts and queries (R196), MONITORING-DEGRADED is a
function of the loops (R175), the fire zone's counts are functions of the detectors (R161). INVENTORY.md lists
every item.
-/

namespace Sys2Proof.Machine

/-! ### Custody store: sensor front end (chapter 1) -/

/-- What a channel measures (R1). -/
inductive ChanKind where
  | rh | temp | probe | unused
  deriving DecidableEq, Repr

/-- Whom a channel serves (R1). -/
inductive Owner where
  | zone (z : Zone)
  | hatch (h : HatchId)
  deriving DecidableEq, Repr

/-- A channel table entry (R1). -/
structure ChanEntry where
  kind : ChanKind
  owner : Owner
  group : Group
  deriving DecidableEq, Repr

/-- A channel's calibration coefficients (R6). -/
structure Coef where
  offset : Int := 0
  gain : Int := 32768
  deriving DecidableEq, Repr

/-- The timer a scan group is assigned to (R4). -/
inductive GroupTimer where
  | ta | tb | off
  deriving DecidableEq, Repr

/-! ### Custody store: zone climate (chapter 2) -/

/-- A zone's climate settings (R21), at the defaults of its table. -/
structure ClimateSettings where
  tset : Int := 180
  hset : Int := 400
  band : Int := 20
  step : Int := 10
  cap : Nat := 3
  rhband : Int := 80
  tband : Int := 30
  period : Nat := 240
  burst : Nat := 600
  deriving DecidableEq, Repr

/-- The mode selection, which is also the prior mode (section 2.5, R32). -/
inductive Selection where
  | run | economy
  deriving DecidableEq, Repr

/-! ### Custody store: cartridges (chapter 3) -/

/-- The face of a carriage (R42). -/
inductive Face where
  | front | back
  deriving DecidableEq, Repr

/-- A cartridge's shelf place (R42); carriage 1 to 12, shelf 1 to 8, slot 1 to 40. -/
structure Home where
  bank : BankId
  carriage : Nat
  face : Face
  shelf : Nat
  slot : Nat
  deriving DecidableEq, Repr

/-- The nine custody states, each with the fields that are present in it (R42). -/
inductive Custody where
  | shelved
  | reserved (manifest : Nat)
  | picked (manifest : Nat)
  | inHatchOut (manifest : Nat)
  | out (courier : Nat)
  | inHatchIn (manifest : Nat)
  | quarantine (hold : Nat)
  | reshelve
  | missing
  deriving DecidableEq, Repr

/-- A custody state's name alone, as replies and reports give it. -/
inductive CustodyName where
  | shelved | reserved | picked | inHatchOut | out | inHatchIn | quarantine | reshelve | missing
  deriving DecidableEq, Repr

/-- A cartridge record (R42). -/
structure Cartridge where
  label : Text
  media : Char
  home : Home
  custody : Custody
  noExposure : Bool := false
  condensationReleased : Bool := false
  crossManifest : Bool := false
  holdReleasedEarly : Bool := false
  checkouts : Nat := 0
  deriving DecidableEq, Repr

/-- The hold settings (R61). -/
structure HoldSettings where
  kT : Nat := 60
  kH : Nat := 20
  holdMin : Nat := 60
  holdMax : Nat := 2880
  deriving DecidableEq, Repr

/-! ### Custody store: manifests (chapter 4) -/

/-- Which way the cartridges of a manifest travel (R69). -/
inductive Direction where
  | out | in_
  deriving DecidableEq, Repr

/-- An item's status (R70). -/
inductive ItemStatus where
  | reserved | picked | loaded | departed | left
  | expected | received | notReturned
  deriving DecidableEq, Repr

/-- One item of a manifest (R69). -/
structure Item where
  label : Text
  status : ItemStatus
  deriving DecidableEq, Repr

/-- The exposure summary of a return trip (R69). -/
structure Exposure where
  tmax : Int
  tmin : Int
  hmax : Int
  hmin : Int
  minutes : Nat
  deriving DecidableEq, Repr

/-- A manifest (R69); `active` is its state, ACTIVE or OPEN. -/
structure Manifest where
  id : Nat
  direction : Direction
  hatch : HatchId
  courier : Nat
  items : List Item
  validity : Nat
  active : Bool
  exposure : Option Exposure
  deriving DecidableEq, Repr

/-! ### Custody store: hatches (chapter 5) -/

/-- A hatch's settings (R87), at the defaults of its table but for the zone. -/
structure HatchSettings where
  zone : Zone
  unlockTimeout : Nat := 30
  openAlarm : Nat := 120
  queryWait : Nat := 60
  rejectTimeout : Nat := 300
  condLimit : Nat := 120
  standbyTime : Nat := 900
  purgeBand : Int := 30
  condMargin : Int := 20
  deriving DecidableEq, Repr

/-- Why a label record is UNREADABLE (R55), or a tray position unread (R91, R92). -/
inductive UnreadReason where
  | line | length | mark | character | crc
  | noResponse | notScanned
  deriving DecidableEq, Repr

/-- A tray position's presence (R91). -/
inductive Presence where
  | empty
  | present (label : Text) (media : Char)
  | unreadable (reason : UnreadReason)
  deriving DecidableEq, Repr

/-- A tray position's verdict (R91). -/
inductive Verdict where
  | none | accepted | rejected
  deriving DecidableEq, Repr

/-- One entry of the tray table (R91), with the CROSS-MANIFEST mark of R117. -/
structure TrayPos where
  presence : Presence := .empty
  verdict : Verdict := .none
  cross : Bool := false
  hold : Option Nat := none
  deriving DecidableEq, Repr

/-- The tray table: 24 positions (R91). -/
abbrev Tray := Vector TrayPos 24

/-- The phase classes of section 5.4. -/
inductive PhaseClass where
  | load | wait | outAccess | outUnload | abortUnload | inAccess | inCondition | inStaff | receipt
  deriving DecidableEq, Repr

/-- The result of a receipt entry (R112). -/
inductive EntryResult where
  | departed | left | received | cross | notReturned | rejectedRemoved
  deriving DecidableEq, Repr

/-- A receipt entry (R112). -/
structure Entry where
  label : Option Text
  result : EntryResult
  side : Option Side := none
  hold : Option Nat := none
  missing : Bool := false
  deriving DecidableEq, Repr

/-- The handover record (R114). -/
structure Handover where
  manifest : Nat
  direction : Direction
  phaseClass : PhaseClass
  tray : Tray
  entries : List Entry := []
  start : Minute
  risk : Bool := false
  recovered : Bool := false
  deriving DecidableEq, Repr

/-- How a handover ended (R112). -/
inductive HandoverOutcome where
  | complete | partly | aborted | interrupted
  deriving DecidableEq, Repr

/-- A receipt (R112). -/
structure Receipt where
  hatch : HatchId
  manifest : Nat
  direction : Direction
  courier : Nat
  outcome : HandoverOutcome
  start : Minute
  finish : Minute
  entries : List Entry
  furtherRejects : Nat
  deriving DecidableEq, Repr

/-! ### Custody store: banks, loops, fire zones (chapters 6 to 8) -/

/-- A bank's settings (R122). -/
structure BankSettings where
  zone : Zone
  carriages : Nat := 12
  park : Nat := 6
  step : Nat := 3
  deriving DecidableEq, Repr

/-- A detector's type (R139). -/
inductive DetType where
  | smoke | heat | manual
  deriving DecidableEq, Repr

/-- A detector table entry (R139), at its factory value. -/
structure DetEntry where
  zone : Zone := 0
  type : DetType := .smoke
  enabled : Bool := false
  deriving DecidableEq, Repr

/-- The prealarm and alarm levels of one type (R142). -/
structure Levels where
  prealarm : Nat
  alarm : Nat
  deriving DecidableEq, Repr

/-- A zone's fire settings (R159), at the defaults of its table. -/
structure FireSettings where
  coincidence : Nat := 2
  countdown : Nat := 30
  soak : Nat := 600
  vent : Nat := 900
  deriving DecidableEq, Repr

/-- The custody store (R197): everything that outlives power-off. -/
structure Store where
  channels : Vector ChanEntry 24
  coefs : Vector Coef 24
  scanPeriod : Vector Nat 2
  groupTimer : Vector GroupTimer 2
  disagreeLimit : Vector Int 4
  climate : Vector ClimateSettings 4
  selection : Vector Selection 4
  cartridges : List Cartridge
  hold : HoldSettings
  manifests : List Manifest
  lastManifest : Nat
  hatch : Vector HatchSettings 2
  handover : Vector (Option Handover) 2
  receipt : Vector (Option Receipt) 2
  bank : Vector BankSettings 4
  detectors : Vector (Vector DetEntry 32) 2
  smoke : Levels
  heat : Levels
  fire : Vector FireSettings 4
  spent : Vector Bool 4
  rate : Nat
  station : Nat
  deriving DecidableEq, Repr

/-- The channel table the part leaves the factory with (R1). -/
def factoryChannels : Vector ChanEntry 24 :=
  let zoneEntry (z : Zone) (k : ChanKind) : ChanEntry := { kind := k, owner := .zone z, group := 0 }
  let hatchEntry (h : HatchId) (k : ChanKind) : ChanEntry := { kind := k, owner := .hatch h, group := 1 }
  #v[zoneEntry 0 .rh, zoneEntry 0 .rh, zoneEntry 0 .temp, zoneEntry 0 .temp,
     zoneEntry 1 .rh, zoneEntry 1 .rh, zoneEntry 1 .temp, zoneEntry 1 .temp,
     zoneEntry 2 .rh, zoneEntry 2 .rh, zoneEntry 2 .temp, zoneEntry 2 .temp,
     zoneEntry 3 .rh, zoneEntry 3 .rh, zoneEntry 3 .temp, zoneEntry 3 .temp,
     hatchEntry 0 .rh, hatchEntry 0 .temp, hatchEntry 0 .probe,
     hatchEntry 1 .rh, hatchEntry 1 .temp, hatchEntry 1 .probe,
     zoneEntry 0 .unused, zoneEntry 0 .unused]

/-- The store as the part leaves the factory (R197 and the settings catalogue of section 10.3). -/
def Store.factory : Store where
  channels := factoryChannels
  coefs := Vector.replicate 24 {}
  scanPeriod := #v[100, 10]
  groupTimer := #v[.ta, .tb]
  disagreeLimit := Vector.replicate 4 50
  climate := Vector.replicate 4 {}
  selection := Vector.replicate 4 .run
  cartridges := []
  hold := {}
  manifests := []
  lastManifest := 0
  hatch := #v[{ zone := 0 }, { zone := 1 }]
  handover := Vector.replicate 2 none
  receipt := Vector.replicate 2 none
  bank := #v[{ zone := 0 }, { zone := 1 }, { zone := 2 }, { zone := 3 }]
  detectors := Vector.replicate 2 (Vector.replicate 32 {})
  smoke := { prealarm := 40, alarm := 80 }
  heat := { prealarm := 50, alarm := 65 }
  fire := Vector.replicate 4 {}
  spent := Vector.replicate 4 false
  rate := 19200
  station := 1

/-! ### Live state: sensor front end (chapter 1) -/

/-- A scan group's state (section 1.2). `calibrating` keeps whether the group was READY when its calibration
began, since the channels keep the values they held (R12, log entry 11). -/
inductive GroupState where
  | notReady (discards : Nat)
  | ready
  | calibrating (wasReady : Bool)
  deriving DecidableEq, Repr

/-- A scan group's live state: its state, and whether a scan of it is in progress (R4). -/
structure GroupLive where
  state : GroupState := .notReady 2
  scanning : Bool := false
  deriving DecidableEq, Repr

/-- A channel's live state (section 1.4); `lastRaw` is the last raw code of a used scan (R19). -/
structure ChanLive where
  window : List Int := []
  fault : Bool := false
  railRun : Nat := 0
  goodRun : Nat := 0
  lastRaw : Option Code := none
  deriving DecidableEq, Repr

/-- The front end's live state; `timers` holds the units of 100 ms left on TA and TB. -/
structure FrontEnd where
  timers : Vector Nat 2
  groups : Vector GroupLive 2 := Vector.replicate 2 {}
  chans : Vector ChanLive 24 := Vector.replicate 24 {}
  disagree : Vector Bool 4 := Vector.replicate 4 false
  deriving DecidableEq, Repr

/-- A value with its status (section 1.6). -/
inductive Value where
  | valid (v : Int)
  | notReady
  | invalid
  deriving DecidableEq, Repr

/-- An owner value: its value and status, and the CAL flag (R18). -/
structure Reading where
  value : Value := .notReady
  cal : Bool := false
  deriving DecidableEq, Repr

/-! ### Live state: zone climate (chapter 2) -/

/-- The climate modes (section 2.5). -/
inductive ClimateMode where
  | run | economy | economyBurst | hold | shed
  deriving DecidableEq, Repr

/-- The dew point (R24): VALID with its value, the temperature and humidity it was last computed from and its
CAL flag, or INVALID. -/
inductive DewPoint where
  | valid (td : Int) (fromT fromH : Int) (cal : Bool)
  | invalid
  deriving DecidableEq, Repr

/-- A zone climate controller's live state; `elapsed` is none while the duty period is STOPPED, `burst` is none
while the burst timer is stopped. -/
structure Climate where
  rh : Reading := {}
  temp : Reading := {}
  dew : DewPoint := .invalid
  outRh : Bool := false
  outTemp : Bool := false
  mode : ClimateMode := .hold
  dh : Nat := 0
  hu : Nat := 0
  dhOn : Bool := false
  huOn : Bool := false
  period : Nat
  elapsed : Option Nat := some 0
  burst : Option Nat := none
  deferredBreak : Bool := false
  deferredBurst : Bool := false
  deriving DecidableEq, Repr

/-! ### Live state: staging ports (chapter 3) -/

/-- The colours of an indicator (R60, R97). -/
inductive Colour where
  | off | green | amber | red
  deriving DecidableEq, Repr

/-- How a fresh read was decided (R57, R58). -/
inductive ReadOutcome where
  | readerFireHold
  | unknownLabel
  | mediaMismatch
  | cartridgeFireHold
  | custody (found : CustodyName)
  deriving DecidableEq, Repr

/-- A staging port's last read with its result (R60). -/
inductive LastRead where
  | good (label : Text) (media : Char) (outcome : ReadOutcome)
  | again (label : Text) (media : Char)
  | unreadable (reason : UnreadReason)
  deriving DecidableEq, Repr

/-- A staging reader port's live state; `since` counts the seconds since the last read, `window` the seconds
left in the repeat window, `shown` is the colour last shown for the last good label, `left` the seconds the
present colour still shows. -/
structure Staging where
  lastRead : Option LastRead := none
  since : Nat := 0
  lastGood : Option (Text × Char) := none
  window : Option Nat := none
  shown : Colour := .off
  colour : Colour := .off
  left : Option Nat := none
  deriving DecidableEq, Repr

/-! ### Live state: hatches (chapter 5) -/

/-- The phases of section 5.4. -/
inductive Phase where
  | idle | standby | loading | loadScan | loadReject | awaitCourier | query | courierAccess | reconcile
  | rejectClear | heldStuck | unload | conditioning | staffAccess | receiptPending | heldFire
  deriving DecidableEq, Repr

/-- A shutter: its lock, its position sensor, the seconds left on its unlock and open alarm timers, and its
closer's drive with the seconds left until SHUTTER-NOT-SECURED (R88 to R90). `sensorOpen` is a field input. -/
structure Shutter where
  locked : Bool := true
  sensorOpen : Bool := false
  unlock : Option Nat := none
  openAlarm : Option Nat := none
  closer : Bool := false
  closerTimer : Option Nat := none
  deriving DecidableEq, Repr

/-- What the tray scan in flight was started for; `setAside` is a scan whose readings a fire hold set aside
(R92, R115, R117). -/
inductive ScanFor where
  | load | unload | reconcile | resume | setAside
  deriving DecidableEq, Repr

/-- A query waiting: the courier ID and the seconds left on its wait timer (R103). -/
structure Query where
  courier : Nat
  wait : Nat
  deriving DecidableEq, Repr

/-- A condition of the conditioning gate (R107). -/
inductive GateCond where
  | met | failing | unknown
  deriving DecidableEq, Repr

/-- A hatch controller's live state.
`heldClass` and `heldTray` are what HELD-FIRE remembers (R115); `recovering` holds from a start with a handover
record to the end of the first resume scan (R121); `rejectExpired` is an expiry of the reject-clear timer not
yet acted on (R105); `unlockDue` is an unlock kept due (R88); `sensors` are the tray presence sensors, a field
input; `colourLeft` is none for a steady colour. -/
structure Hatch where
  phase : Phase := .idle
  heldClass : Option PhaseClass := none
  heldTray : Option Tray := none
  recovering : Bool := false
  outer : Shutter := {}
  inner : Shutter := {}
  unlockDue : Option Side := none
  lastOpened : Option Side := none
  tray : Tray := Vector.replicate 24 {}
  sensors : Vector Bool 24 := Vector.replicate 24 false
  scan : Option ScanFor := none
  manifest : Option Nat := none
  query : Option Query := none
  rejectTimer : Option Nat := none
  rejectExpired : Bool := false
  limitCount : Nat := 0
  limitPosted : Bool := false
  purge : GateCond := .unknown
  condensation : GateCond := .unknown
  purgeOn : Bool := false
  heaterOn : Bool := false
  risk : Bool := false
  idle : Option Nat := none
  readerOn : Bool := true
  colour : Colour := .off
  colourLeft : Option Nat := none
  rh : Reading := {}
  temp : Reading := {}
  probe : Reading := {}
  deriving DecidableEq, Repr

/-! ### Live state: banks (chapter 6) -/

/-- The motion states of section 6.1, with what a PARKING bank is doing. -/
inductive Motion where
  | idle | waitClear | homing | moving | stopped
  | parkWait | parkHoming | parkTravel
  | parked | fault
  deriving DecidableEq, Repr

/-- The drive output (R123). -/
inductive Drive where
  | off | up | down
  deriving DecidableEq, Repr

/-- A bank controller's live state; `position` is none while UNKNOWN or travelling, `travel` holds the aisle left
and the aisle sought while the drive runs toward an aisle; `justArrived` says that the travel was begun by the arrival
that ended the one before it, within this same second (the model's own field, log entry 8); `curtains` (true is BROKEN)
and `sensors` (true is ACTIVE) are field inputs. -/
structure Bank where
  motion : Motion := .idle
  position : Option Nat := none
  travel : Option (Nat × Nat) := none
  queue : List Nat := []
  block : Option Nat := none
  homing : Option Nat := none
  moving : Option Nat := none
  parkDemand : Bool := false
  blockedPosted : Bool := false
  drive : Drive := .off
  lastStop : Option (Nat × Motion) := none
  justArrived : Bool := false
  curtains : Vector Bool 13 := Vector.replicate 13 false
  sensors : Vector Bool 13 := Vector.replicate 13 false
  deriving DecidableEq, Repr

/-! ### Live state: loops (chapter 7) -/

/-- Detector states (chapter 7). -/
inductive DetState where
  | normal | prealarm | alarm | fault
  deriving DecidableEq, Repr

/-- A detector's live state; `order` is the alarm level carried in its last poll order, which the detector keeps to
decide when to alert (R144, R151); `handedLevel` is the level as last handed to its fire zone controller (chapter 8's
detector view), whose other fields are at every moment those last handed (R150). -/
structure Detector where
  order : Option Nat := none
  level : Option Nat := none
  state : DetState := .normal
  miss : Nat := 0
  alarmRun : Nat := 0
  lowRun : Nat := 0
  latch : Bool := false
  handedLevel : Option Nat := none
  deriving DecidableEq, Repr

/-- The item in progress on a loop (section 7.2): none on a loop with no enabled entry, a pass poll, an
identification round with the addresses that seized the loop, or its priority poll. -/
inductive LoopItem where
  | none
  | passPoll (a : Address)
  | round (alerting : List Address)
  | priorityPoll (a : Address)
  deriving DecidableEq, Repr

/-- A loop controller's live state; `void` says that the entry polled has been disabled since its poll began, so that
the answer is set aside (R141); `roundTaken` holds from the start of a round until a pass poll ends, so that a pass
poll stands between every two rounds (R151). -/
structure Loop where
  position : Option Address := none
  item : LoopItem := .none
  void : Bool := false
  roundTaken : Bool := false
  busErrors : Nat := 0
  fault : Bool := false
  firstPass : Bool := false
  dets : Vector Detector 32 := Vector.replicate 32 {}
  deriving DecidableEq, Repr

/-! ### Live state: fire zones (chapter 8) -/

/-- The fire states (section 8.1). -/
inductive FireState where
  | starting | normal | prealarm | alarm | predischarge | discharged | vent
  deriving DecidableEq, Repr

/-- The countdown (R167). -/
inductive Countdown where
  | stopped
  | running (secs : Nat)
  | frozen (secs : Nat)
  deriving DecidableEq, Repr

/-- A fire zone controller's live state; `abortHeld`, `isolateOn` and `confirmActive` are its field inputs as
recorded (R160). -/
structure FireZone where
  state : FireState := .starting
  abortHeld : Bool := false
  isolateOn : Bool := false
  confirmActive : Bool := false
  countdown : Countdown := .stopped
  pulse : Option Nat := none
  confirmWait : Option Nat := none
  confirmSeen : Bool := false
  soak : Option Nat := none
  soakComplete : Bool := false
  vent : Option Nat := none
  releaseOut : Bool := false
  ventOut : Bool := false
  deriving DecidableEq, Repr

/-! ### Reports (R193) -/

/-- Why the part started (R203, R204). -/
inductive StartCause where
  | powerOn | restart
  deriving DecidableEq, Repr

/-- The causes of a FIRE-STATE report (R158). -/
inductive FireCause where
  | firstPass | noDetectors | detectors | coincidence | manual | isolateOn | isolateOff | agentRestored
  | expiry | startVent | ventEnd | reset
  deriving DecidableEq, Repr

/-- How a channel's calibration came out (R14). -/
inductive CalOutcome where
  | ok | order | gain | offset
  deriving DecidableEq, Repr

/-- One channel's row of a CAL-DONE report (R15). -/
structure CalRow where
  channel : Channel
  outcome : CalOutcome
  low : Nat
  high : Nat
  coef : Coef
  deriving DecidableEq, Repr

/-- The quantity of an excursion (R25). -/
inductive Quantity where
  | rh | temp
  deriving DecidableEq, Repr

/-- Why an aisle request of a RESHELVE scan failed (R59). -/
inductive AisleRefusal where
  | noSuchAisle | full
  deriving DecidableEq, Repr

/-- Why a query ended without a manifest (R103). -/
inductive QueryEnd where
  | declined | expired | fire
  deriving DecidableEq, Repr

/-- What a record of CUSTODY-CONFLICT names: the courier or the manifest that holds the cartridge (R58). -/
inductive Holder where
  | courier (id : Nat)
  | manifest (id : Nat)
  deriving DecidableEq, Repr

/-- What a report says: its kind, subject and details in one (R193 and its table of kinds). -/
inductive Event where
  | powerUp (cause : StartCause)
  | lost (count : Nat)
  | channelFaultEntered (c : Channel) (code : Code)
  | channelFaultCleared (c : Channel) (unused : Bool)
  | calDone (g : Group) (rows : List CalRow)
  | sensorDisagree (z : Zone) (pair : Option (Int × Int))
  | excursion (z : Zone) (q : Quantity) (entered : Bool) (value setpoint band : Int)
  | climateBreak (z : Zone) (entered : Option Quantity)
  | unknownLabel (r : ReaderId) (label : Text)
  | mediaMismatch (r : ReaderId) (label : Text) (read recorded : Char)
  | found (r : ReaderId) (label : Text) (state : CustodyName)
  | strayScan (r : ReaderId) (label : Text) (state : CustodyName)
  | earlyReshelve (r : ReaderId) (label : Text) (state : CustodyName) (hold : Nat)
  | custodyConflict (r : ReaderId) (label : Text) (state : CustodyName) (holder : Holder)
  | holdEnded (label : Text) (z : Zone) (home : Home) (hold : Option Nat)
  | stagingFireHold (r : ReaderId) (label : Text) (z : Zone)
  | aisleRefused (b : BankId) (aisle : Nat) (label : Text) (reason : AisleRefusal)
  | manifestExpired (id : Nat) (d : Direction) (h : HatchId) (courier : Nat) (cancelled : Bool)
      (fromReserved fromPicked : List Text)
  | manifestReleased (id : Nat) (h : HatchId)
  | shutterForced (h : HatchId) (side : Side)
  | shutterOpenLong (h : HatchId) (side : Side) (phase : Phase)
  | shutterNotSecured (h : HatchId) (side : Side)
  | badgeMismatch (h : HatchId) (badge id : Nat)
  | manifestQuery (h : HatchId) (courier : Nat)
  | queryEnded (h : HatchId) (courier : Nat) (cause : QueryEnd)
  | hatchStuck (h : HatchId) (id : Option Nat) (rejected : List TrayIdx)
  | conditionTimeout (h : HatchId) (id : Option Nat) (purge condensation : GateCond)
  | receiptReady (h : HatchId) (id : Nat) (outcome : HandoverOutcome)
  | cartridgeMissing (h : HatchId) (label : Text)
  | aisleOpen (b : BankId) (aisle : Nat)
  | aisleBlocked (b : BankId) (aisle : Nat) (broken : List Aisle)
  | bankStopped (b : BankId) (curtain : Aisle) (interrupted : Motion) (sought : Option Nat)
  | homingTimeout (b : BankId) (target : Option Nat)
  | travelTimeout (b : BankId) (left sought : Nat)
  | bankBlocked (b : BankId) (broken : List Aisle)
  | bankParked (b : BankId) (aisle : Nat)
  | detectorState (l : LoopId) (a : Address) (z : Zone) (t : DetType) (level : Option Nat) (state : DetState)
  | detectorFaultEntered (l : LoopId) (a : Address) (z : Zone) (t : DetType)
  | detectorFaultCleared (l : LoopId) (a : Address) (z : Zone) (t : DetType)
  | detectorFaultDisabled (l : LoopId) (a : Address)
  | loopFault (l : LoopId) (entered : Bool) (zones : List Zone)
  | monitoringDegraded (z : Zone) (on : Bool)
  | fireState (z : Zone) (left entered : FireState) (cause : FireCause)
  | isolated (z : Zone)
  | agentSpent (z : Zone)
  | isolateKey (z : Zone) (on : Bool) (state : FireState)
  | abort (z : Zone) (held : Bool) (secs : Nat)
  | dischargeConfirmed (z : Zone) (secs : Nat)
  | dischargeFault (z : Zone)
  | soakComplete (z : Zone)
  | agentRestored (z : Zone)
  deriving DecidableEq, Repr

/-- A report entry: its stamp and what it says (R193). -/
structure Report where
  stamp : Minute
  event : Event
  deriving DecidableEq, Repr

/-! ### Replies (section 9.4) -/

/-- The eleven status words. -/
inductive StatusWord where
  | ok | clamped | busy | refused | notFound | full | fireHold | tooLate | badValue | badRequest
  | unknownRequest
  deriving DecidableEq, Repr

/-- The failure of one item of a submission (R74). -/
inductive ItemFault where
  | notFound
  | wrongState (found : CustodyName)
  | duplicate
  | fireHold
  deriving DecidableEq, Repr

/-- One failing item: its position from 1, its label and its reason (R74). -/
structure ItemFailure where
  pos : Nat
  label : Text
  fault : ItemFault
  deriving DecidableEq, Repr

/-- The outcome of an aisle request (R125); places count from 1 at the head. -/
inductive AisleOutcome where
  | fireHold
  | satisfied
  | merged (place : Nat)
  | full
  | queued (place : Nat)
  deriving DecidableEq, Repr

/-- One bank's row of a GUIDE-PICKS reply (R78). -/
structure PickRow where
  bank : BankId
  items : Nat
  taken : Nat
  full : Nat
  fireHold : Nat
  noSuchAisle : Nat
  deriving DecidableEq, Repr

/-- One row of a LIST-CARTRIDGES page (R48). -/
structure CartridgeRow where
  index : Nat
  label : Text
  media : Char
  state : CustodyName
  zone : Zone
  deriving DecidableEq, Repr

/-- The reply of READ-CHANNEL (R19). -/
structure ChannelView where
  entry : ChanEntry
  group : GroupState
  live : Option ChanLive
  value : Option Value
  cal : Bool
  coef : Coef
  deriving DecidableEq, Repr

/-- The reply of READ-ZONE (R40), which opens with the zone (the worked sequence of chapter 9). -/
structure ZoneView where
  zone : Zone
  climate : Climate
  disagree : Bool
  prior : Selection
  fire : FireState
  deriving DecidableEq, Repr

/-- The reply of READ-HATCH without `tray=` (R119). -/
structure HatchView where
  live : Hatch
  receiptHeld : Bool
  recordHeld : Bool
  deriving DecidableEq, Repr

/-- The reply of READ-BANK (R137), which opens with the bank (the worked sequence of chapter 9); `curtains` and `sensors`
list aisle positions 0 to c. -/
structure BankView where
  bank : BankId
  settings : BankSettings
  live : Bank
  inService : Option Nat
  fire : FireState
  curtains : List Bool
  sensors : List Bool
  deriving DecidableEq, Repr

/-- The reply of READ-DETECTOR (R156). -/
structure DetectorView where
  entry : DetEntry
  live : Detector
  prealarm : Option Nat
  alarm : Nat
  deriving DecidableEq, Repr

/-- One detector of a READ-LOOP or READ-FIRE-ZONE page (R156, R176). -/
structure DetectorRow where
  loop : LoopId
  address : Address
  zone : Zone
  type : DetType
  state : DetState
  latch : Bool
  deriving DecidableEq, Repr

/-- The reply of READ-LOOP (R156). -/
structure LoopView where
  position : Option Address
  item : LoopItem
  busErrors : Nat
  fault : Bool
  firstPass : Bool
  page : List DetectorRow
  next : Option Nat
  deriving DecidableEq, Repr

/-- The four counts of a fire zone and its effective coincidence (R161). -/
structure FireCounts where
  auto : Nat
  manual : Nat
  prealarm : Nat
  usable : Nat
  deriving DecidableEq, Repr

/-- The reply of READ-FIRE-ZONE (R176). -/
structure FireView where
  live : FireZone
  inHoldSet : Bool
  inShedSet : Bool
  settings : FireSettings
  spent : Bool
  counts : FireCounts
  coincidence : Nat
  degraded : Bool
  page : List DetectorRow
  next : Option Nat
  deriving DecidableEq, Repr

/-- The reply of IDENTIFY, the values that are not constants of the part (R190). -/
structure IdentityView where
  station : Nat
  rate : Nat
  minute : Minute
  cartridges : Nat
  manifests : Nat
  reports : Nat
  detectors1 : Nat
  detectors2 : Nat
  deriving DecidableEq, Repr

/-- One zone of the STATUS reply (R191). -/
structure StatusZone where
  mode : ClimateMode
  fire : FireState
  degraded : Bool
  spent : Bool
  deriving DecidableEq, Repr

/-- One hatch of the STATUS reply (R191). -/
structure StatusHatch where
  phase : Phase
  heldClass : Option PhaseClass
  receipt : Bool
  query : Bool
  deriving DecidableEq, Repr

/-- One bank of the STATUS reply (R191). -/
structure StatusBank where
  motion : Motion
  position : Option Nat
  deriving DecidableEq, Repr

/-- The reply of STATUS (R191). -/
structure StatusView where
  minute : Minute
  zones : List StatusZone
  hatches : List StatusHatch
  banks : List StatusBank
  reports : Nat
  lost : Nat
  attn : Bool
  deriving DecidableEq, Repr

/-- A stored setting's value as READ-SETTING returns it (R201). -/
inductive SettingView where
  | number (value min max default : Int)
  | name (value : Text)
  | channel (entry : ChanEntry)
  | detector (entry : DetEntry)
  deriving DecidableEq, Repr

/-- The reason of a REFUSED reply that gives nothing else. -/
inductive RefusedFor where
  | wrongDirection | wrongHatch | active | nothingToLoad | latched
  deriving DecidableEq, Repr

/-- What a reply carries after its status word. A `next` of none is `next=END`. -/
inductive Body where
  | empty
  | badField (name : Text)
  | refusedFor (reason : RefusedFor)
  | wrongState (found : CustodyName)
  | duplicate (label : Bool) (slotHolder : Option Text)
  | slotTaken (holder : Text)
  | items (failures : List ItemFailure)
  | fireZones (zones : List Zone)
  | fireRefused (state : FireState) (soakLeft : Option Nat)
  | used (values : List (Text × Int))
  | carriages (clamped : Option Int) (park : Option Nat)
  | submitted (id validity : Nat) (clamped : List (Text × Int))
  | mode (m : ClimateMode)
  | channel (v : ChannelView)
  | zone (v : ZoneView)
  | index (n : Nat)
  | cartridge (c : Cartridge) (z : Zone) (aisle index : Nat)
  | cartridges (rows : List CartridgeRow) (next : Option Nat)
  | minutes (n : Nat)
  | staging (p : Staging)
  | picks (rows : List PickRow)
  | manifest (m : Manifest) (page : List (Nat × Item)) (next : Option Nat)
  | manifests (rows : List (Nat × Manifest)) (next : Option Nat)
  | receipt (r : Receipt) (page : List Entry) (next : Option Nat)
  | settled (id : Nat) (reopened : Bool)
  | risk (yes : Bool)
  | hatch (v : HatchView)
  | tray (page : List (Nat × TrayPos)) (next : Option Nat)
  | aisle (o : AisleOutcome)
  | removed (n : Nat)
  | bank (v : BankView)
  | detector (v : DetectorView)
  | loop (v : LoopView)
  | fireZone (v : FireView)
  | identity (v : IdentityView)
  | status (v : StatusView)
  | setting (v : SettingView)
  | reports (max : Option Int) (entries : List Report) (left : Nat)
  deriving DecidableEq, Repr

/-- What a request is answered: a status word and what follows it. -/
structure Answer where
  word : StatusWord
  body : Body := .empty
  deriving DecidableEq, Repr

/-- A reply: the station address in force when the request was taken, and the answer (R186). -/
structure Reply where
  station : Nat
  answer : Answer
  deriving DecidableEq, Repr

/-! ### Live state: the host line (chapter 9) -/

/-- The target of the line being collected (R179). -/
inductive Target where
  | station | broadcast
  deriving DecidableEq, Repr

/-- The receiver's state (section 9.2). -/
inductive Receiver where
  | hunt
  | address
  | collect (t : Target)
  deriving DecidableEq, Repr

/-- The reply state with the reply it concerns (R185). -/
inductive ReplyState where
  | none
  | owed (r : Reply)
  | sending (r : Reply)
  deriving DecidableEq, Repr

/-- The host line's live state: the rate and address in force (R178), the receiver with its buffer and the units
of 100 ms since the line's last character, the reply state, the driver, the text being sent, and whether the
reply owed is the OK of a RESTART (R204). -/
structure HostLine where
  rate : Nat
  station : Nat
  receiver : Receiver := .hunt
  buffer : List Byte := []
  gap : Nat := 0
  reply : ReplyState := .none
  driving : Bool := false
  outgoing : Text := []
  restartDue : Bool := false
  deriving DecidableEq, Repr

/-! ### The whole state -/

/-- The state of the part. `pending` is the queue of commands waiting, first in first out; `choice` counts the
free choices taken (the model's own field, log entry 1); `powered` says whether the supply is up. -/
structure State where
  pending : List Instr := []
  choice : Nat := 0
  powered : Bool := true
  store : Store
  front : FrontEnd
  climate : Vector Climate 4
  staging : Vector Staging 4 := Vector.replicate 4 {}
  hatch : Vector Hatch 2
  bank : Vector Bank 4 := Vector.replicate 4 {}
  loop : Vector Loop 2
  fire : Vector FireZone 4
  line : HostLine
  reports : List Report := []
  minute : Minute := 0
  seconds : Nat := 0
  deriving DecidableEq, Repr

/-- The faults a step can stop with: none. Every command of this block runs to a next state, because the spec
gives each of them an effect, and a command whose occasion is not present changes nothing (log entry 5). Safe. -/
inductive Fault where
  deriving DecidableEq, Repr

/-- The refusals a step can stop with. -/
inductive Refusal where
  /-- Raised by an arm of `exec` that has no meaning yet, and by nothing else; no arm is left so. Safe. -/
  | notModelled (mnemonic : String)
  deriving DecidableEq, Repr

/-- The part right after reset: a part as it left the factory (R197), just powered up (R203), its field inputs at
rest (every shutter closed, tray empty, curtain CLEAR, no sensor ACTIVE, abort station RELEASED, isolate key OFF,
confirm INACTIVE: log entry 6).

No detector is enabled, so both first passes are complete at start (R155) and each zone has left STARTING for
NORMAL with cause NO-DETECTORS (R162); each hatch was held at start (R120) and its resume scan is in flight
(R117). The four FIRE-STATE reports stand in zone order, one of the orders R203 allows (log entry 6). -/
def State.reset : State where
  store := Store.factory
  front := { timers := #v[100, 10] }
  climate := Vector.replicate 4 { rh := {}, temp := {}, period := 240 }
  hatch := Vector.replicate 2
    { phase := .heldFire, heldTray := some (Vector.replicate 24 {}), scan := some .resume }
  loop := Vector.replicate 2 { firstPass := true }
  fire := Vector.replicate 4 { state := .normal }
  line := { rate := 19200, station := 1 }
  reports :=
    [ { stamp := 0, event := .powerUp .powerOn },
      { stamp := 0, event := .fireState 0 .starting .normal .noDetectors },
      { stamp := 0, event := .fireState 1 .starting .normal .noDetectors },
      { stamp := 0, event := .fireState 2 .starting .normal .noDetectors },
      { stamp := 0, event := .fireState 3 .starting .normal .noDetectors } ]

end Sys2Proof.Machine
end

