-- ==== Sys2Proof/Machine/Operands.lean ====
section
/-!
DEFINITION. Operand forms: how the numbers and words of a request name things, how a number is brought into
range, how text is written, the CRC of labels and lines, and the label record.
-/

namespace Sys2Proof.Machine

/-! ### Numbers -/

/-- The thing a number names where the spec numbers `n` of them from 1; none where it names nothing. -/
def indexOf (n : Nat) (k : Int) : Option (Fin n) :=
  if h : 1 ≤ k ∧ k ≤ n then some ⟨(k - 1).toNat, by omega⟩ else none

/-- The number the spec gives the thing of index `i`. -/
def num {n : Nat} (i : Fin n) : Nat := i.val + 1

/-- A value brought into the range `lo` to `hi`. -/
def clamp (lo hi v : Int) : Int := max lo (min v hi)

/-- A quotient rounded to the nearest whole number, halves away from zero (00_scope.md, Arithmetic). -/
def roundDiv (a : Int) (b : Nat) : Int :=
  if 0 ≤ a then (2 * a + b) / (2 * b) else -((2 * -a + b) / (2 * b))

/-- The least whole number not below `a / b`, for `a` not negative. -/
def ceilDiv (a b : Int) : Int := (a + b - 1) / b

/-- The distance of two values. -/
def absDiff (a b : Int) : Int := max (a - b) (b - a)

/-! ### Words and labels -/

/-- A capital letter. -/
def isCapital (c : Char) : Bool := 65 ≤ c.toNat && c.toNat ≤ 90

/-- A decimal digit. -/
def isDigit (c : Char) : Bool := 48 ≤ c.toNat && c.toNat ≤ 57

/-- A character of a label: A to Z or 0 to 9 (R42). -/
def isLabelChar (c : Char) : Bool := isCapital c || isDigit c

/-- Eight label characters (section 3.2). -/
def labelOk (t : Text) : Bool := t.length == 8 && t.all isLabelChar

/-- The media code a one-letter word names (R42). -/
def mediaOf : Text → Option Char
  | [c] => if isCapital c then some c else none
  | _ => none

/-- The entry of a table of words that `t` is. -/
def wordOf {α : Type} (table : List (String × α)) (t : Text) : Option α :=
  match table with
  | [] => none
  | (w, a) :: rest => if t = w.toList then some a else wordOf rest t

/-- The word a table writes for `a`. -/
def textIn {α : Type} [DecidableEq α] (table : List (String × α)) (a : α) : Text :=
  match table with
  | [] => []
  | (w, b) :: rest => if a = b then w.toList else textIn rest a

/-- Channel kinds as words (R1). -/
def kindWords : List (String × ChanKind) :=
  [("RH", .rh), ("TEMP", .temp), ("PROBE", .probe), ("UNUSED", .unused)]

/-- Owners as words (R2). -/
def ownerWords : List (String × Owner) :=
  [("Z1", .zone 0), ("Z2", .zone 1), ("Z3", .zone 2), ("Z4", .zone 3), ("H1", .hatch 0), ("H2", .hatch 1)]

/-- Group timers as words (R4). -/
def timerWords : List (String × GroupTimer) := [("TA", .ta), ("TB", .tb), ("OFF", .off)]

/-- Scan timers as index words (R3). -/
def timerIndexWords : List (String × TimerId) := [("A", 0), ("B", 1)]

/-- Mode selections as words (R32). -/
def selectionWords : List (String × Selection) := [("RUN", .run), ("ECONOMY", .economy)]

/-- Faces as words (R42). -/
def faceWords : List (String × Face) := [("F", .front), ("B", .back)]

/-- Custody states as words (R42). -/
def custodyWords : List (String × CustodyName) :=
  [("SHELVED", .shelved), ("RESERVED", .reserved), ("PICKED", .picked), ("IN-HATCH-OUT", .inHatchOut),
   ("OUT", .out), ("IN-HATCH-IN", .inHatchIn), ("QUARANTINE", .quarantine), ("RESHELVE", .reshelve),
   ("MISSING", .missing)]

/-- Hatch sides as words (R106). -/
def sideWords : List (String × Side) := [("OUTER", .outer), ("INNER", .inner)]

/-- Detector types as words (R139). -/
def typeWords : List (String × DetType) := [("SMOKE", .smoke), ("HEAT", .heat), ("MANUAL", .manual)]

/-- YES and NO. -/
def yesNoWords : List (String × Bool) := [("YES", true), ("NO", false)]

/-- The home five fields name, or none where a value names nothing; `carriages` is the present carriage count
of each bank (R45 check 1). -/
def homeOf (carriages : BankId → Nat) (f : HomeFields) : Option Home :=
  match indexOf 4 f.bank, wordOf faceWords f.face with
  | some b, some face =>
    if 1 ≤ f.carriage ∧ f.carriage ≤ carriages b ∧ f.carriage ≤ 12 ∧ 1 ≤ f.shelf ∧ f.shelf ≤ 8 ∧
        1 ≤ f.slot ∧ f.slot ≤ 40 then
      some { bank := b, carriage := f.carriage.toNat, face := face, shelf := f.shelf.toNat, slot := f.slot.toNat }
    else none
  | _, _ => none

/-- The line rates as words (R178): a set of names, compared as written. -/
def rateWords : List (String × Nat) := [("9600", 9600), ("19200", 19200), ("38400", 38400), ("57600", 57600)]

/-! ### Text -/

/-- A number in decimal. -/
def natText (n : Nat) : Text := Nat.toDigits 10 n

/-- A number in decimal with a leading hyphen where it is negative (section 9.3). -/
def intText : Int → Text
  | .ofNat n => natText n
  | .negSucc n => '-' :: natText (n + 1)

/-- A number in decimal with at least two digits (the station address, R193's channel and detector forms). -/
def twoDigits (n : Nat) : Text := if n < 10 then '0' :: natText n else natText n

/-- Parts with `sep` between them. -/
def joinText (sep : Char) : List Text → Text
  | [] => []
  | [t] => t
  | t :: rest => t ++ sep :: joinText sep rest

/-- A text cut at every `sep`; never empty. -/
def splitText (sep : Char) : Text → List Text
  | [] => [[]]
  | c :: rest =>
    if c = sep then [] :: splitText sep rest
    else
      match splitText sep rest with
      | [] => [[c]]
      | t :: ts => (c :: t) :: ts

/-- The value of a run of decimal digits. -/
def digitsValue (t : Text) : Nat := t.foldl (fun n c => 10 * n + (c.toNat - 48)) 0

/-- A number as section 9.3 has a request write it: an optional leading hyphen and 1 to 10 digits. A hyphen before zeros
alone is taken as 0: the model's choice (log entry 22). -/
def numberOf (t : Text) : Option Int :=
  let magnitude (d : Text) : Option Nat :=
    if 1 ≤ d.length ∧ d.length ≤ 10 ∧ d.all isDigit then some (digitsValue d) else none
  match t with
  | '-' :: d => (magnitude d).map fun n => -(n : Int)
  | d => (magnitude d).map fun n => (n : Int)

/-! ### The CRC and the label record -/

/-- One bit time of the CRC register: polynomial x^16 + x^12 + x^5 + 1 (sections 3.4 and 9.3). -/
def crcShift (r : BitVec 16) : BitVec 16 := if r.msb then (r <<< 1) ^^^ 0x1021 else r <<< 1

/-- One byte into the CRC register, most significant bit first. -/
def crcByte (r : BitVec 16) (b : Byte) : BitVec 16 :=
  let r := r ^^^ (b.setWidth 16 <<< 8)
  crcShift (crcShift (crcShift (crcShift (crcShift (crcShift (crcShift (crcShift r)))))))

/-- The CRC-16 of labels and lines: a register that starts at all ones, no reflection, no final inversion. -/
def crc16 (bytes : List Byte) : BitVec 16 := bytes.foldl crcByte 0xFFFF

/-- The character a byte codes. -/
def charOf (b : Byte) : Char := Char.ofNat b.toNat

/-- The byte that codes a character. -/
def byteOf (c : Char) : Byte := BitVec.ofNat 8 c.toNat

/-- The judgement of a run of bytes from a reader: a good read with its label and media code, or UNREADABLE with
the first reason that applies in the order LINE, LENGTH, MARK, CHARACTER, CRC (R55). -/
def readLabel (r : LabelRun) : Except UnreadReason (Text × Char) :=
  if r.lineError then .error .line
  else if r.bytes.length ≠ 12 then .error .length
  else if r.bytes.head? ≠ some 0x5E then .error .mark
  else
    let label := ((r.bytes.drop 1).take 8).map charOf
    let media := charOf (r.bytes.getD 9 0)
    if label.all isLabelChar && isCapital media then
      if crc16 (r.bytes.take 10) = r.bytes.getD 10 0 ++ r.bytes.getD 11 0 then .ok (label, media)
      else .error .crc
    else .error .character

/-- What the attempts at one tray position show: the first good record, else the reason of the last attempt,
else NOT-SCANNED (R92). -/
def readAttempts : List Attempt → Presence
  | [] => .unreadable .notScanned
  | [.noResponse] => .unreadable .noResponse
  | [.run r] =>
    match readLabel r with
    | .ok (l, m) => .present l m
    | .error e => .unreadable e
  | .noResponse :: rest => readAttempts rest
  | .run r :: rest =>
    match readLabel r with
    | .ok (l, m) => .present l m
    | .error _ => readAttempts rest

/-- What a scan shows of one position whose sensor reads occupied at its end: the second reading decides where one was
made, else the attempts of the position's turn (R92). -/
def readPosition (r : TrayRead) : Presence := readAttempts (r.again.getD r.first)

end Sys2Proof.Machine
end

