-- ==== Sys2Proof/Machine/Flags.lean ====
section
/-!
DEFINITION. The conditions and flags the rules compute from other state: the two sets of fire states, the fire
zone's counts, MONITORING-DEGRADED, ATTN, a custody state's name and fields, a shutter's state.
-/

namespace Sys2Proof.Machine

/-! ### Fire states -/

/-- The fire hold set: STARTING, ALARM, PREDISCHARGE, DISCHARGED and VENT (R158). -/
def FireState.holds : FireState → Bool
  | .normal => false
  | .prealarm => false
  | _ => true

/-- The shed set: ALARM, PREDISCHARGE, DISCHARGED and VENT (R158). -/
def FireState.sheds : FireState → Bool
  | .starting => false
  | .normal => false
  | .prealarm => false
  | _ => true

/-- The fire state of a zone. -/
def State.fireState (s : State) (z : Zone) : FireState := s.fire[z].state

/-- The zone is in the fire hold set. -/
def State.held (s : State) (z : Zone) : Bool := (s.fireState z).holds

/-- The zone is in the shed set. -/
def State.shed (s : State) (z : Zone) : Bool := (s.fireState z).sheds

/-- A bank's zone (R122). -/
def State.bankZone (s : State) (b : BankId) : Zone := s.store.bank[b].zone

/-- A hatch's zone (R87). -/
def State.hatchZone (s : State) (h : HatchId) : Zone := s.store.hatch[h].zone

/-- A cartridge's zone: that of its home bank (R43). -/
def State.zoneOf (s : State) (c : Cartridge) : Zone := s.bankZone c.home.bank

/-- The aisle a home faces: carriage - 1 for face F, carriage for face B (R43). -/
def Home.aisle (h : Home) : Nat :=
  match h.face with
  | .front => h.carriage - 1
  | .back => h.carriage

/-! ### Detectors as a fire zone counts them -/

/-- A detector of zone `z` on loop `l`: its address, entry and live state. -/
structure ZoneDetector where
  loop : LoopId
  address : Address
  entry : DetEntry
  live : Detector

/-- The table entry of a detector. -/
def State.detEntry (s : State) (l : LoopId) (a : Address) : DetEntry := s.store.detectors[l][a]

/-- The live state of a detector. -/
def State.det (s : State) (l : LoopId) (a : Address) : Detector := s.loop[l].dets[a]

/-- The enabled detectors of a zone on one loop, in ascending address. -/
def State.detectorsOn (s : State) (z : Zone) (l : LoopId) : List ZoneDetector :=
  (List.finRange 32).filterMap fun a =>
    let e := s.detEntry l a
    if e.enabled && e.zone == z then some { loop := l, address := a, entry := e, live := s.det l a } else none

/-- The detectors of a zone: the enabled entries, on either loop, whose zone field names it (R139, R161). -/
def State.detectorsOf (s : State) (z : Zone) : List ZoneDetector := s.detectorsOn z 0 ++ s.detectorsOn z 1

/-- A loop carries a detector of the zone (R139). -/
def State.carries (s : State) (l : LoopId) (z : Zone) : Bool := !(s.detectorsOn z l).isEmpty

/-- A SMOKE or HEAT detector. -/
def DetType.automatic : DetType → Bool
  | .manual => false
  | _ => true

/-- The four counts of a zone (R161). -/
def State.counts (s : State) (z : Zone) : FireCounts :=
  let ds := s.detectorsOf z
  { auto := ds.countP fun d => d.entry.type.automatic && d.live.latch
    manual := ds.countP fun d => !d.entry.type.automatic && d.live.latch
    prealarm := ds.countP fun d => d.live.state == .prealarm
    usable := ds.countP fun d => d.entry.type.automatic && d.live.state != .fault }

/-- The effective coincidence: the setting, lowered to 1 when the usable automatic detectors number fewer than
2 (R161). -/
def State.coincidence (s : State) (z : Zone) : Nat :=
  if (s.counts z).usable < 2 then 1 else s.store.fire[z].coincidence

/-- MONITORING-DEGRADED: a loop in LOOP-FAULT carries a detector of the zone (R175). -/
def State.degraded (s : State) (z : Zone) : Bool :=
  (s.loop[0].fault && s.carries 0 z) || (s.loop[1].fault && s.carries 1 z)

/-- The prealarm level of a type, none for MANUAL (R142). -/
def Store.prealarmLevel (st : Store) : DetType → Option Nat
  | .smoke => some st.smoke.prealarm
  | .heat => some st.heat.prealarm
  | .manual => none

/-- The alarm level of a type: DET-ALARM, or 255 for MANUAL (R142, R144). -/
def Store.alarmLevel (st : Store) : DetType → Nat
  | .smoke => st.smoke.alarm
  | .heat => st.heat.alarm
  | .manual => 255

/-! ### Hatches -/

/-- The shutter of one side. -/
def Hatch.shutter (h : Hatch) : Side → Shutter
  | .outer => h.outer
  | .inner => h.inner

/-- The other side. -/
def otherSide : Side → Side
  | .outer => .inner
  | .inner => .outer

/-- LOCKED with its sensor reading CLOSED (R88). -/
def Shutter.secured (sh : Shutter) : Bool := sh.locked && !sh.sensorOpen

/-- UNLOCKED: lock released and sensor CLOSED (R88). -/
def Shutter.unlocked (sh : Shutter) : Bool := !sh.locked && !sh.sensorOpen

/-- OPEN: lock released and sensor OPEN (R88). -/
def Shutter.isOpen (sh : Shutter) : Bool := !sh.locked && sh.sensorOpen

/-- The tray is EMPTY when all 24 positions are (R91). -/
def trayEmpty (t : Tray) : Bool := t.toList.all fun p => p.presence == .empty

/-- The phase class a phase belongs to, for a handover of the given direction; UNLOAD keeps the class of its
record (section 5.4). -/
def Phase.phaseClass (d : Direction) (unload : PhaseClass) : Phase → Option PhaseClass
  | .loading => some .load
  | .loadScan => some .load
  | .loadReject => some .load
  | .awaitCourier => some .wait
  | .courierAccess => some (match d with | .out => .outAccess | .in_ => .inAccess)
  | .reconcile => some (match d with | .out => .outAccess | .in_ => .inAccess)
  | .rejectClear => some (match d with | .out => .outAccess | .in_ => .inAccess)
  | .heldStuck => some (match d with | .out => .outAccess | .in_ => .inAccess)
  | .unload => some unload
  | .conditioning => some .inCondition
  | .staffAccess => some .inStaff
  | .receiptPending => some .receipt
  | .idle => none
  | .standby => none
  | .query => none
  | .heldFire => none

/-! ### The report queue's output -/

/-- Either hatch holds a receipt. -/
def State.receiptHeld (s : State) (h : HatchId) : Bool := s.store.receipt[h].isSome

/-- The hatch is in QUERY. -/
def State.querying (s : State) (h : HatchId) : Bool := s.hatch[h].phase == .query

/-- ATTN is ASSERTED while the queue holds an entry, a hatch holds a receipt or a hatch is in QUERY (R196);
an unpowered part drives nothing (R205). -/
def State.attn (s : State) : Bool :=
  s.powered && (!s.reports.isEmpty || s.receiptHeld 0 || s.receiptHeld 1 || s.querying 0 || s.querying 1)

/-! ### Custody -/

/-- The name of a custody state. -/
def Custody.name : Custody → CustodyName
  | .shelved => .shelved
  | .reserved _ => .reserved
  | .picked _ => .picked
  | .inHatchOut _ => .inHatchOut
  | .out _ => .out
  | .inHatchIn _ => .inHatchIn
  | .quarantine _ => .quarantine
  | .reshelve => .reshelve
  | .missing => .missing

/-! ### Readings -/

/-- The number of a VALID value. -/
def Value.toInt? : Value → Option Int
  | .valid v => some v
  | _ => none

end Sys2Proof.Machine
end

