-- ==== Sys2Proof/Machine/Ops.lean ====
section
/-!
DEFINITION. The named operations every block shares: reading and writing one block's part of the state, posting a
report, taking a request line and owing its reply, acting in a free order, and acting only while powered.
-/

namespace Sys2Proof.Machine

/-! ### Writing one part of the state -/

/-- Writes the custody store. -/
def State.setStore (s : State) (st : Store) : State := { s with store := st }

/-- Writes the front end's live state. -/
def State.setFront (s : State) (f : FrontEnd) : State := { s with front := f }

/-- Writes a zone climate controller's live state. -/
def State.setClimate (s : State) (z : Zone) (c : Climate) : State := { s with climate := s.climate.set z c }

/-- Writes a staging port's live state. -/
def State.setStaging (s : State) (r : ReaderId) (p : Staging) : State := { s with staging := s.staging.set r p }

/-- Writes a hatch controller's live state. -/
def State.setHatch (s : State) (h : HatchId) (x : Hatch) : State := { s with hatch := s.hatch.set h x }

/-- Writes a bank controller's live state. -/
def State.setBank (s : State) (b : BankId) (x : Bank) : State := { s with bank := s.bank.set b x }

/-- Writes a loop controller's live state. -/
def State.setLoop (s : State) (l : LoopId) (x : Loop) : State := { s with loop := s.loop.set l x }

/-- Writes a fire zone controller's live state. -/
def State.setFire (s : State) (z : Zone) (x : FireZone) : State := { s with fire := s.fire.set z x }

/-- Writes the host line's live state. -/
def State.setLine (s : State) (x : HostLine) : State := { s with line := x }

/-- Writes the report queue. -/
def State.setReports (s : State) (q : List Report) : State := { s with reports := q }

/-! ### Reports -/

/-- The entry is a LOST marker. -/
def Report.isLost (r : Report) : Bool :=
  match r.event with
  | .lost _ => true
  | _ => false

/-- The queue after a report is posted (R194): counted in the LOST marker where one stands, appended where fewer
than 63 entries stand, and otherwise replaced by a marker with count 1. -/
def enqueue (q : List Report) (r : Report) : List Report :=
  match q.getLast? with
  | some { stamp := t, event := .lost n } => q.dropLast ++ [{ stamp := t, event := .lost (min (n + 1) 65535) }]
  | _ => if q.length < 63 then q ++ [r] else q ++ [{ stamp := r.stamp, event := .lost 1 }]

/-- Posts a report, stamped with the minute counter (R193, R194). -/
def post (e : Event) (s : State) : State := s.setReports (enqueue s.reports { stamp := s.minute, event := e })

/-- Posts reports in the order given. -/
def postAll (es : List Event) (s : State) : State := es.foldl (fun s e => post e s) s

/-! ### A free order -/

/-- Puts an entry before the first of a higher rank. -/
def insertByRank {α : Type} (rank : Nat → Nat) (x : α × Nat) : List (α × Nat) → List (α × Nat)
  | [] => [x]
  | y :: ys => if rank x.2 < rank y.2 then x :: y :: ys else y :: insertByRank rank x ys

/-- The list in the order of its places' ranks, equal ranks in list order. -/
def sortByRank {α : Type} (rank : Nat → Nat) (l : List α) : List α :=
  (l.zipIdx.foldl (fun acc x => insertByRank rank x acc) []).map Prod.fst

/-- Takes the actions of a list one after another, in the given order. -/
def actAll {α : Type} (act : α → State → State) (l : List α) (s : State) : State :=
  l.foldl (fun s a => act a s) s

/-- Takes the actions of a list in an order the spec leaves free: a fresh `Config.rank` decides (log entry 2). -/
def inFreeOrder {α : Type} (act : α → State → State) (l : List α) (s : State) : State :=
  actAll act (sortByRank (Config.rank s.choice) l) { s with choice := s.choice + 1 }

/-! ### Requests -/

/-- A request's effect and its answer. -/
abbrev Request := State → State × Answer

/-- An answer that changes nothing. -/
def answer (w : StatusWord) (b : Body := .empty) : Request := fun s => (s, { word := w, body := b })

/-- BAD-REQUEST with the field at fault (R183, R187). -/
def badRequest (field : String) : Request := answer .badRequest (.badField field.toList)

/-- The receiver back in HUNT, as at a line's carriage return (R179). -/
def hunt (s : State) : State := s.setLine { s.line with receiver := .hunt }

/-- The reply to a taken line becomes OWED, under the station address in force (R182, R186). -/
def owe (a : Answer) (s : State) : State :=
  s.setLine { s.line with reply := .owed { station := s.line.station, answer := a } }

/-- A good station line completed: taken and answered while no reply stands, discarded unanswered while one is
OWED, unseen while one is SENDING or the part is unpowered (R182, R185). -/
def takeLine (r : Request) (s : State) : State :=
  if s.powered then
    match s.line.reply with
    | .none => owe (r (hunt s)).2 (r (hunt s)).1
    | .owed _ => hunt s
    | .sending _ => s
  else s

/-- A request as a command. -/
def request (r : Request) (s : State) : Host.Outcome State Fault Refusal := .next (takeLine r s)

/-- An event of the powered part as a command; an unpowered part takes none (R205). -/
def event (f : State → State) (s : State) : Host.Outcome State Fault Refusal :=
  .next (if s.powered then f s else s)

/-- A field input that changes whether or not the part is powered: `input` is the input itself, `react` what the
powered part makes of it. -/
def fieldEvent (input react : State → State) (s : State) : Host.Outcome State Fault Refusal :=
  .next (if s.powered then react s else input s)

/-- A request that names one of `n` things by a number, BAD-VALUE where the number names nothing. -/
def naming (n : Nat) (k : Int) (f : Fin n → Request) : Request := fun s =>
  match indexOf n k with
  | some i => f i s
  | none => answer .badValue .empty s

/-! ### Settings requests -/

/-- Steps 2 and 3 of R199 for a setting with an index: BAD-REQUEST with `field=index` or `field=value` where one is
missing, BAD-VALUE where the index names nothing. -/
def indexedSetting {ι α β : Type} (index : Option ι) (value : Option β) (find : ι → Option α) (f : α → β → Request) :
    Request := fun s =>
  match index, value with
  | none, _ => badRequest "index" s
  | some _, none => badRequest "value" s
  | some i, some v =>
    match find i with
    | some a => f a v s
    | none => answer .badValue .empty s

/-- Steps 2 and 3 of R199 for a setting without an index. -/
def plainSetting {ι β : Type} (index : Option ι) (value : Option β) (f : β → Request) : Request := fun s =>
  match index, value with
  | some _, _ => badRequest "index" s
  | none, none => badRequest "value" s
  | none, some v => f v s

/-- The reply to a number brought into range: CLAMPED with `value=` where `used` is not what was given (R199
step 5), also where `used` is the value stored: the model's choice (log entry 22). -/
def usedAnswer (given used : Int) : Answer :=
  if given = used then { word := .ok } else { word := .clamped, body := .used [("value".toList, used)] }

end Sys2Proof.Machine
end

