-- ==== Sys2Proof/Machine/Banks.lean ====
section
/-!
DEFINITION. The rack bank controllers (chapter 6): settings, the aisle request queue, motion, fire park, and the
commands OPEN-AISLE, CLEAR-AISLE-QUEUE, RESET-BANK, READ-BANK, the bank rows of WRITE-SETTING, the curtain and
sensor inputs and the three timers.
-/

namespace Sys2Proof.Machine

/-- The bank's settings. -/
def State.bankSettings (s : State) (b : BankId) : BankSettings := s.store.bank[b]

/-- Changes a bank controller's live state. -/
def State.modBank (s : State) (b : BankId) (f : Bank → Bank) : State := s.setBank b (f s.bank[b])

/-- Writes a bank's settings. -/
def State.setBankSettings (s : State) (b : BankId) (st : BankSettings) : State :=
  s.setStore { s.store with bank := s.store.bank.set b st }

/-- The aisle positions 0 to c whose curtains read BROKEN; those above c are not read (R123). They ascend, and so they
stand in AISLE-BLOCKED and BANK-BLOCKED, for which R129 and R135 name no order: the model's choice (log entry 13). -/
def brokenCurtains (c : Nat) (x : Bank) : List Aisle :=
  (List.finRange 13).filter fun a => decide (a.val ≤ c) && x.curtains[a]

/-- The broken curtains of a bank in the state. -/
def State.broken (s : State) (b : BankId) : List Aisle := brokenCurtains (s.bankSettings b).carriages s.bank[b]

/-- The drive direction from aisle `a` toward `k` (R131). -/
def driveToward (a k : Nat) : Drive := if a < k then .up else .down

/-- The length of a travel timer (R131). -/
def travelTime (step a k : Nat) : Nat := 2 * (absDiff a k).toNat * step + 5

/-! ### Serving the queue -/

/-- The start of a homing: drive DOWN and the homing timer; no sensor stays ACTIVE once the drive runs (R130, log
entry 8). -/
def startHoming (m : Motion) (st : BankSettings) (x : Bank) : Bank :=
  { x with
    motion := m, drive := .down, block := none, homing := some (2 * st.carriages * st.step), position := none,
    sensors := Vector.replicate 13 false }

/-- The start of a travel from aisle `a` to aisle `k` (R131). The bank has no position while it travels, so STATUS gives
UNKNOWN (R191): the model's choice (log entry 17). -/
def startTravel (m : Motion) (st : BankSettings) (a k : Nat) (x : Bank) : Bank :=
  { x with
    motion := m, drive := driveToward a k, block := none, moving := some (travelTime st.step a k), position := none,
    travel := some (a, k), sensors := Vector.replicate 13 false, justArrived := false }

/-- Entry to WAIT-CLEAR for the head `k`, with the motion start made at once where every curtain reads CLEAR (R128,
R129). -/
def waitClear (b : BankId) (k : Nat) (s : State) : State :=
  if (s.broken b).isEmpty then
    s.modBank b fun x =>
      match x.position with
      | none => startHoming .homing (s.bankSettings b) x
      | some a => startTravel .moving (s.bankSettings b) a k x
  else s.modBank b fun x => { x with motion := .waitClear, block := some 120 }

/-- The home sensor gives an UNKNOWN position where it reads ACTIVE (R128). -/
def locate (x : Bank) : Bank :=
  match x.position with
  | none => if x.sensors[0] then { x with position := some 0 } else x
  | some _ => x

/-- The position sensor of aisle `k` reads ACTIVE; those above the carriage count are not read (R123). -/
def readsActive (carriages k : Nat) (x : Bank) : Bool := decide (k ≤ carriages) && (x.sensors[k]?.getD false)

/-- The bank at aisle `k`, its sensor alone ACTIVE (log entry 8). -/
def standAt (k : Nat) (x : Bank) : Bank :=
  { x with position := some k, sensors := Vector.ofFn fun i : Fin 13 => i.val == k }

/-- The queue taken head by head (R128): a head at the open aisle is reached at once with AISLE-OPEN, any other is
waited for; an empty queue leaves the bank IDLE. A motion start toward an aisle whose sensor reads ACTIVE already
reaches it at once (R131, log entry 8). -/
def serve (b : BankId) : List Nat → State → State
  | [], s => s.modBank b fun x => { x with motion := .idle, queue := [] }
  | k :: rest, s =>
    let s := s.modBank b fun x => { locate x with queue := k :: rest }
    if s.bank[b].position = some k then serve b rest (post (.aisleOpen b k) s)
    else if (s.broken b).isEmpty && s.bank[b].position.isSome &&
        readsActive (s.bankSettings b).carriages k s.bank[b] then
      serve b rest (post (.aisleOpen b k) (s.modBank b (standAt k)))
    else waitClear b k s

/-- A bank at rest takes its head at once where its zone is outside the shed set and its queue is not empty
(R128). -/
def takeHead (b : BankId) (s : State) : State :=
  if s.shed (s.bankZone b) || s.bank[b].queue.isEmpty then s else serve b s.bank[b].queue s

/-- The bank to IDLE, taking its head where it has one. -/
def toIdle (b : BankId) (s : State) : State := takeHead b (s.modBank b fun x => { x with motion := .idle })

/-! ### Fire park -/

/-- A motion start toward the park aisle from a known position, every curtain reading CLEAR (R135); a park aisle whose
sensor reads ACTIVE already is reached at once. -/
def parkMove (b : BankId) (p : Nat) (s : State) : State :=
  let st := s.bankSettings b
  if p = st.park then post (.bankParked b p) (s.modBank b fun x => { x with motion := .parked })
  else if readsActive st.carriages st.park s.bank[b] then
    post (.bankParked b st.park) (s.modBank b fun x => { standAt st.park x with motion := .parked })
  else s.modBank b (startTravel .parkTravel st p st.park)

/-- A motion start under fire park (R135): waits while a curtain is BROKEN, with BANK-BLOCKED the first time under
this demand, homes first where the position is UNKNOWN, and otherwise goes toward the park aisle. A home sensor
already ACTIVE is home at once. -/
def parkStart (b : BankId) (s : State) : State :=
  let s := s.modBank b fun x => { x with motion := .parkWait }
  if (s.broken b).isEmpty then
    match (locate s.bank[b]).position with
    | none => s.modBank b (startHoming .parkHoming (s.bankSettings b))
    | some p => parkMove b p (s.modBank b locate)
  else if s.bank[b].blockedPosted then s
  else post (.bankBlocked b (s.broken b)) (s.modBank b fun x => { x with blockedPosted := true })

/-- What a bank does where it comes to rest: PARKING under the park demand, else IDLE and its head (R131, R134). -/
def comeToRest (b : BankId) (s : State) : State := if s.bank[b].parkDemand then parkStart b s else toIdle b s

/-- Entry of the bank's zone into the shed set (R134). -/
def parkBegins (b : BankId) (s : State) : State :=
  let s := s.modBank b fun x => { x with parkDemand := true, blockedPosted := false }
  match s.bank[b].motion with
  | .idle => parkStart b s
  | .stopped => parkStart b s
  | .waitClear => parkStart b (s.modBank b fun x => { x with block := none })
  | _ => s

/-- Departure of the bank's zone from the shed set (R136). -/
def parkEnds (b : BankId) (s : State) : State :=
  let s := s.modBank b fun x => { x with parkDemand := false }
  match s.bank[b].motion with
  | .parked => toIdle b s
  | .parkWait => toIdle b s
  | .stopped => takeHead b s
  | _ => s

/-- A fire state handed to a bank controller (R134, R136). -/
def bankTakesFire (b : BankId) (left entered : FireState) (s : State) : State :=
  if !left.sheds && entered.sheds then parkBegins b s
  else if left.sheds && !entered.sheds then parkEnds b s
  else s

/-! ### Motion events -/

/-- The drive runs. -/
def Drive.runs : Drive → Bool
  | .off => false
  | _ => true

/-- An arrival that ends with the drive running again toward the next aisle: a curtain break that reaches the bank
together with it, before the second is out, is still to find the drive off (R132, log entry 8). -/
def markArrival (b : BankId) (s : State) : State := s.modBank b fun x => { x with justArrived := x.drive.runs }

/-- The home sensor seen while the bank homes (R130, R134, R136): an arrival where aisle 0 is the target sought. -/
def homed (b : BankId) (s : State) : State :=
  let reached := !s.bank[b].parkDemand && s.bank[b].queue.head? == some 0
  let s := comeToRest b (s.modBank b fun x => { x with drive := .off, homing := none, position := some 0 })
  if reached then markArrival b s else s

/-- Arrival at the aisle sought (R131): the target leaves the head of the queue where it still stands there. -/
def arrived (b : BankId) (k : Nat) (s : State) : State :=
  let s := s.modBank b fun x =>
    { x with
      drive := .off, moving := none, travel := none, position := some k,
      queue := if x.queue.head? = some k then x.queue.tail else x.queue }
  markArrival b (comeToRest b (post (.aisleOpen b k) s))

/-- Arrival at the park aisle (R135), or the plain finish of a travel whose demand has been cleared (R136). -/
def parkArrived (b : BankId) (k : Nat) (s : State) : State :=
  let s := s.modBank b fun x => { x with drive := .off, moving := none, travel := none, position := some k }
  if s.bank[b].parkDemand then post (.bankParked b k) (s.modBank b fun x => { x with motion := .parked })
  else markArrival b (toIdle b s)

/-- The aisle a bank whose drive runs is seeking, none for a homing under park (R132). A homing whose queue
CLEAR-AISLE-QUEUE has emptied seeks none either, or the head queued since: the model's choice (log entry 17). -/
def soughtAisle (x : Bank) : Option Nat :=
  match x.motion with
  | .homing => if x.parkDemand then none else x.queue.head?
  | .parkHoming => none
  | _ => x.travel.map Prod.snd

/-- A curtain broken while the drive runs (R132). -/
def bankStops (b : BankId) (a : Aisle) (s : State) : State :=
  let x := s.bank[b]
  let s := s.modBank b fun x =>
    { x with
      motion := .stopped, drive := .off, homing := none, moving := none, travel := none, position := none,
      lastStop := some (a.val, x.motion) }
  let s := post (.bankStopped b a x.motion (soughtAisle x)) s
  if s.bank[b].parkDemand then parkStart b s else takeHead b s

/-- A position sensor goes ACTIVE (R123): of those read only that one is ACTIVE then (log entry 8); one above the
carriage count, which is not read, leaves the others as they are. -/
def sensorInput (b : BankId) (a : Aisle) (s : State) : State :=
  let seen := decide (a.val ≤ (s.bankSettings b).carriages)
  s.modBank b fun x => { x with sensors := (if seen then Vector.replicate 13 false else x.sensors).set a true }

/-- A position sensor reaches the controller: home while homing, the aisle sought while travelling, and otherwise of
no account (R123). -/
def sensorActive (b : BankId) (a : Aisle) (s : State) : State :=
  let s := sensorInput b a s
  if (s.bankSettings b).carriages < a.val then s
  else
    let x := s.bank[b]
    match x.motion with
    | .homing => if a.val = 0 then homed b s else s
    | .parkHoming => if a.val = 0 then homed b s else s
    | .moving => if x.travel.map Prod.snd = some a.val then arrived b a.val s else s
    | .parkTravel => if x.travel.map Prod.snd = some a.val then parkArrived b a.val s else s
    | _ => s

/-- A curtain's reading. -/
def curtainInput (b : BankId) (a : Aisle) (broken : Bool) (s : State) : State :=
  s.modBank b fun x => { x with curtains := x.curtains.set a broken }

/-- A curtain clears (R129, R135): the last BROKEN one makes the motion start that waits for it. -/
def curtainClears (b : BankId) (a : Aisle) (s : State) : State :=
  let s := curtainInput b a false s
  if (s.broken b).isEmpty then
    match s.bank[b].motion with
    | .waitClear => serve b s.bank[b].queue (s.modBank b fun x => { x with block := none })
    | .parkWait => parkStart b s
    | _ => s
  else s

/-- A curtain broken together with the arrival that began the travel under way (R132): the arrival is taken first and
the break finds the drive off at the aisle `k` reached, so the motion start from there is made anew, against the broken
curtain. -/
def breakAtArrival (b : BankId) (k : Nat) (s : State) : State :=
  comeToRest b (s.modBank b fun x =>
    { standAt k x with drive := .off, moving := none, travel := none, justArrived := false })

/-- A curtain breaks: it stops a running drive, but for one that an arrival of this same second has just begun, and is
otherwise of no account (R132). That a break within the second of the arrival reaches the bank together with it is the
model's choice (log entry 8). -/
def curtainBreaks (b : BankId) (a : Aisle) (s : State) : State :=
  let s := curtainInput b a true s
  if s.bank[b].drive.runs ∧ a.val ≤ (s.bankSettings b).carriages then
    match s.bank[b].justArrived, s.bank[b].travel with
    | true, some (k, _) => breakAtArrival b k s
    | _, _ => bankStops b a s
  else s

/-- The block timer expires with a curtain BROKEN: the head is given up (R129). -/
def blockExpires (b : BankId) (s : State) : State :=
  let x := s.bank[b]
  match x.motion, x.block, x.queue with
  | .waitClear, some _, k :: rest =>
    if (s.broken b).isEmpty then s
    else
      let s := s.modBank b fun x => { x with motion := .idle, block := none, queue := rest }
      takeHead b (post (.aisleBlocked b k (s.broken b)) s)
  | _, _, _ => s

/-- A homing or travel timer expires: the bank to FAULT with position UNKNOWN (R130, R131). -/
def toFault (x : Bank) : Bank :=
  { x with
    motion := .fault, drive := .off, homing := none, moving := none, travel := none, position := none
    justArrived := false }

/-- The homing timer expires (R130). -/
def homingExpires (b : BankId) (s : State) : State :=
  match s.bank[b].homing with
  | some _ => post (.homingTimeout b s.bank[b].queue.head?) (s.modBank b toFault)
  | none => s

/-- The travel timer expires (R131). -/
def travelExpires (b : BankId) (s : State) : State :=
  match s.bank[b].moving, s.bank[b].travel with
  | some _, some (a, k) => post (.travelTimeout b a k) (s.modBank b toFault)
  | _, _ => s

/-! ### Requests -/

/-- The place of an aisle in the queue, from 1 at the head. -/
def placeOf (k : Nat) (q : List Nat) : Option Nat := (q.findIdx? (· == k)).map (· + 1)

/-- An aisle request decided (R125). -/
def aisleRequest (b : BankId) (k : Nat) (s : State) : State × AisleOutcome :=
  let x := s.bank[b]
  if s.held (s.bankZone b) then (s, .fireHold)
  else if x.motion = .idle ∧ x.position = some k then (s, .satisfied)
  else
    match placeOf k x.queue with
    | some p => (s, .merged p)
    | none =>
      if 8 ≤ x.queue.length then (s, .full)
      else
        let s := s.modBank b fun x => { x with queue := x.queue ++ [k] }
        (if x.motion = .idle ∨ x.motion = .stopped then takeHead b s else s, .queued (x.queue.length + 1))

/-- The answer to an aisle request (R126). -/
def aisleAnswer : AisleOutcome → Answer
  | .fireHold => { word := .fireHold }
  | .full => { word := .full }
  | o => { word := .ok, body := .aisle o }

/-- OPEN-AISLE (R126). -/
def openAisle (bank aisle : Int) : Request :=
  naming 4 bank fun b s =>
    if 0 ≤ aisle ∧ aisle ≤ (s.bankSettings b).carriages then
      ((aisleRequest b aisle.toNat s).1, aisleAnswer (aisleRequest b aisle.toNat s).2)
    else answer .badValue .empty s

/-- The bank after its queue is cleared (R127). -/
def clearQueue (x : Bank) : Bank :=
  match x.motion with
  | .waitClear => { x with queue := [], motion := .idle, block := none }
  | _ => { x with queue := [] }

/-- CLEAR-AISLE-QUEUE (R127). -/
def clearAisleQueue (bank : Int) : Request :=
  naming 4 bank fun b s =>
    (s.modBank b clearQueue, { word := .ok, body := .removed s.bank[b].queue.length })

/-- RESET-BANK (R133, R134). -/
def resetBank (bank : Int) : Request :=
  naming 4 bank fun b s =>
    if s.bank[b].motion = .fault then
      (comeToRest b (s.modBank b fun x => { x with motion := .idle, position := none }), { word := .ok })
    else answer .refused .empty s

/-- The target in service (R124). -/
def inService (x : Bank) : Option Nat :=
  match x.motion with
  | .waitClear => x.queue.head?
  | .homing => x.queue.head?
  | .moving => x.queue.head?
  | _ => none

/-- READ-BANK (R137). -/
def readBank (bank : Int) : Request :=
  naming 4 bank fun b s =>
    let st := s.bankSettings b
    let x := s.bank[b]
    (s, { word := .ok, body := .bank {
      bank := b, settings := st, live := x, inService := inService x, fire := s.fireState st.zone
      curtains := x.curtains.toList.take (st.carriages + 1), sensors := x.sensors.toList.take (st.carriages + 1) } })

/-! ### Settings -/

/-- A bank setting's write, BUSY outside IDLE and STOPPED (R122). -/
def atRest (b : BankId) (f : Request) : Request := fun s =>
  if s.bank[b].motion = .idle ∨ s.bank[b].motion = .stopped then f s else answer .busy .empty s

/-- The bank and its cartridges to another zone, whose fire state the bank takes as it stands (R122). -/
def moveBank (b : BankId) (z : Zone) (s : State) : State :=
  let old := s.fireState (s.bankZone b)
  bankTakesFire b old (s.fireState z) (s.setBankSettings b { s.bankSettings b with zone := z })

/-- WRITE-SETTING of BANK-ZONE (R122). -/
def writeBankZone (index value : Option Int) : Request :=
  indexedSetting index value (indexOf 4) fun b v s =>
    match indexOf 4 v with
    | none => answer .badValue .empty s
    | some z =>
      atRest b (fun s => (if z = s.bankZone b then s else moveBank b z s, { word := .ok })) s

/-- The bank's settings and live state under another carriage count (R122). -/
def changeCarriages (b : BankId) (c : Nat) (s : State) : State :=
  let st := s.bankSettings b
  (s.setBankSettings b { st with carriages := c, park := min st.park c }).modBank b fun x => { x with position := none }

/-- WRITE-SETTING of BANK-CARRIAGES (R122): a park aisle above the new count is lowered to it and answered. -/
def writeBankCarriages (index value : Option Int) : Request :=
  indexedSetting index value (indexOf 4) fun b v => atRest b fun s =>
    let st := s.bankSettings b
    let used := clamp 1 12 v
    let word : StatusWord := if used = v then .ok else .clamped
    let clamped := if used = v then none else some used
    if used = st.carriages then (s, { word := word, body := .carriages clamped none })
    else
      (changeCarriages b used.toNat s,
        { word := word, body := .carriages clamped (if used.toNat < st.park then some used.toNat else none) })

/-- WRITE-SETTING of BANK-PARK (R122). -/
def writeBankPark (index value : Option Int) : Request :=
  indexedSetting index value (indexOf 4) fun b v => atRest b fun s =>
    let st := s.bankSettings b
    let used := clamp 0 st.carriages v
    (s.setBankSettings b { st with park := used.toNat }, usedAnswer v used)

/-- WRITE-SETTING of BANK-STEP (R122). -/
def writeBankStep (index value : Option Int) : Request :=
  indexedSetting index value (indexOf 4) fun b v => atRest b fun s =>
    let used := clamp 1 10 v
    (s.setBankSettings b { s.bankSettings b with step := used.toNat }, usedAnswer v used)

/-- A bank's live state at a start: IDLE, position UNKNOWN, queue empty; the field inputs stand (R138). -/
def Bank.start (x : Bank) : Bank := { curtains := x.curtains, sensors := x.sensors }

/-! ### The commands -/

/-- OPEN_AISLE (R126). -/
def execOpenAisle (bank aisle : Int) (s : State) : Host.Outcome State Fault Refusal := request (openAisle bank aisle) s

/-- CLEAR_AISLE_QUEUE (R127). -/
def execClearAisleQueue (bank : Int) (s : State) : Host.Outcome State Fault Refusal :=
  request (clearAisleQueue bank) s

/-- RESET_BANK (R133). -/
def execResetBank (bank : Int) (s : State) : Host.Outcome State Fault Refusal := request (resetBank bank) s

/-- READ_BANK (R137). -/
def execReadBank (bank : Int) (s : State) : Host.Outcome State Fault Refusal := request (readBank bank) s

/-- WRITE_SETTING_BANK_ZONE (R122). -/
def execWriteSettingBankZone (index value : Option Int) (s : State) : Host.Outcome State Fault Refusal :=
  request (writeBankZone index value) s

/-- WRITE_SETTING_BANK_CARRIAGES (R122). -/
def execWriteSettingBankCarriages (index value : Option Int) (s : State) : Host.Outcome State Fault Refusal :=
  request (writeBankCarriages index value) s

/-- WRITE_SETTING_BANK_PARK (R122). -/
def execWriteSettingBankPark (index value : Option Int) (s : State) : Host.Outcome State Fault Refusal :=
  request (writeBankPark index value) s

/-- WRITE_SETTING_BANK_STEP (R122). -/
def execWriteSettingBankStep (index value : Option Int) (s : State) : Host.Outcome State Fault Refusal :=
  request (writeBankStep index value) s

/-- BLOCK_TIMER_EXPIRY (R129). -/
def execBlockTimerExpiry (b : BankId) (s : State) : Host.Outcome State Fault Refusal := event (blockExpires b) s

/-- CURTAIN_CLEAR (R129, R135). -/
def execCurtainClear (b : BankId) (a : Aisle) (s : State) : Host.Outcome State Fault Refusal :=
  fieldEvent (curtainInput b a false) (curtainClears b a) s

/-- CURTAIN_BROKEN (R132). -/
def execCurtainBroken (b : BankId) (a : Aisle) (s : State) : Host.Outcome State Fault Refusal :=
  fieldEvent (curtainInput b a true) (curtainBreaks b a) s

/-- HOME_SENSOR_ACTIVE (R130). -/
def execHomeSensorActive (b : BankId) (s : State) : Host.Outcome State Fault Refusal :=
  fieldEvent (sensorInput b 0) (sensorActive b 0) s

/-- AISLE_SENSOR_ACTIVE (R131). -/
def execAisleSensorActive (b : BankId) (a : Aisle) (s : State) : Host.Outcome State Fault Refusal :=
  fieldEvent (sensorInput b a) (sensorActive b a) s

/-- HOMING_TIMER_EXPIRY (R130). -/
def execHomingTimerExpiry (b : BankId) (s : State) : Host.Outcome State Fault Refusal := event (homingExpires b) s

/-- TRAVEL_TIMER_EXPIRY (R131). -/
def execTravelTimerExpiry (b : BankId) (s : State) : Host.Outcome State Fault Refusal := event (travelExpires b) s

end Sys2Proof.Machine
end

