-- ==== Sys2Proof/Machine/Climate.lean ====
section
/-!
DEFINITION. The zone climate controllers (chapter 2): settings, dew point, excursions, duties, climate modes, and
the commands SET-SETPOINTS, SET-CLIMATE-MODE, BURST, PERIOD_START, DUTY_OFF and BURST_TIMER_EXPIRY with the climate
rows of WRITE-SETTING.
-/

namespace Sys2Proof.Machine

/-! ### Dew point -/

/-- The depressions D[0] to D[9] in tenths of a degree, at 10 % to 100 %RH (section 2.2). -/
def depressions : List Int := [326, 237, 181, 140, 107, 80, 56, 36, 17, 0]

/-- The depression at a humidity (R23, steps 1 to 3). -/
def depression (h : Int) : Int :=
  let h := clamp 100 1000 h
  let i := ((h - 100) / 100).toNat
  let f := (h - 100) % 100
  let d := depressions.getD i 0
  d - ((d - depressions.getD (i + 1) 0) * f + 50) / 100

/-- The dew point of air at temperature `t` and humidity `h` (R23). -/
def dewPoint (t h : Int) : Int := max (-400) (t - depression h)

/-- The dew point after a handing of zone values (R24): INVALID unless both are VALID, computed anew when either
differs from the value last used, and otherwise standing. The numbers alone are compared, so that values newly flagged
CAL at an accepted CALIBRATE leave the dew point and its flag as they stand: the model's choice (log entry 20). -/
def nextDew (old : DewPoint) (rh temp : Reading) : DewPoint :=
  match rh.value, temp.value with
  | .valid h, .valid t =>
    let fresh : DewPoint := .valid (dewPoint t h) t h (rh.cal || temp.cal)
    match old with
    | .invalid => fresh
    | .valid _ t0 h0 _ => if t = t0 ∧ h = h0 then old else fresh
  | _, _ => .invalid

/-! ### Duties -/

/-- The length of one eighth of the period in force (R27). -/
def Climate.eighth (c : Climate) : Nat := c.period / 8

/-- The two duties computed from a humidity, before any cap (R28). -/
def duties (st : ClimateSettings) (h : Int) : Nat × Nat :=
  let e := h - st.hset
  if e > st.band then (min 8 (ceilDiv (e - st.band) st.step).toNat, 0)
  else if e < -st.band then (0, min 8 (ceilDiv (-e - st.band) st.step).toNat)
  else (0, 0)

/-- A duty lowered to `cap`, and its output, which turns off where the elapsed time is already at or past the new
number of eighths (R29, R31). -/
def lowerDuty (c : Climate) (cap duty : Nat) (on : Bool) : Nat × Bool :=
  if duty > cap then (cap, on && decide (c.elapsed.getD 0 < cap * c.eighth)) else (duty, on)

/-- Both duties lowered to the cap where they stand above it (R31). -/
def capDuties (cap : Nat) (c : Climate) : Climate :=
  let d := lowerDuty c cap c.dh c.dhOn
  let u := lowerDuty c cap c.hu c.huOn
  { c with dh := d.1, dhOn := d.2, hu := u.1, huOn := u.2 }

/-! ### Modes -/

/-- Entry into ECONOMY: the burst timer stands stopped and the duties are lowered to the cap (R31). -/
def toEconomy (st : ClimateSettings) (c : Climate) : Climate :=
  { capDuties st.cap c with mode := .economy, burst := none }

/-- Entry into RUN; the burst timer stands stopped. -/
def toRun (c : Climate) : Climate := { c with mode := .run, burst := none }

/-- Entry into the selected mode. -/
def toSelected (st : ClimateSettings) (sel : Selection) (c : Climate) : Climate :=
  match sel with
  | .run => toRun c
  | .economy => toEconomy st c

/-- The mode is one of those in which duties are computed (R28). -/
def ClimateMode.computes : ClimateMode → Bool
  | .run => true
  | .economy => true
  | .economyBurst => true
  | _ => false

/-- The start of a duty period (R27, R28): the stored length, no time elapsed, duties computed in RUN, ECONOMY and
ECONOMY-BURST (capped in ECONOMY) and carried otherwise, each output on where its duty is above 0 (R29). -/
def beginPeriod (st : ClimateSettings) (c : Climate) : Climate :=
  let d : Nat × Nat :=
    match c.mode.computes, c.rh.value with
    | true, .valid h => duties st h
    | _, _ => (c.dh, c.hu)
  let d := if c.mode = .economy then (min d.1 st.cap, min d.2 st.cap) else d
  { c with period := st.period, elapsed := some 0, dh := d.1, hu := d.2, dhOn := decide (0 < d.1), huOn := decide (0 < d.2) }

/-- The zone's climate settings. -/
def State.climateSettings (s : State) (z : Zone) : ClimateSettings := s.store.climate[z]

/-- Changes a zone climate controller's live state. -/
def State.modClimate (s : State) (z : Zone) (f : Climate → Climate) : State := s.setClimate z (f s.climate[z])

/-- A break event: the entry of a quantity into excursion (R33). -/
def breakEvent (z : Zone) (q : Quantity) (s : State) : State :=
  match s.climate[z].mode with
  | .run => s
  | .economy => post (.climateBreak z (some q)) (s.modClimate z toRun)
  | .economyBurst => post (.climateBreak z (some q)) (s.modClimate z toRun)
  | .hold => s.modClimate z fun c => { c with deferredBreak := true }
  | .shed => s.modClimate z fun c => { c with deferredBreak := true }

/-- A burst event: an inner shutter's opening or a BURST request (R34). -/
def burstEvent (z : Zone) (s : State) : State :=
  match s.climate[z].mode with
  | .economy => s.modClimate z fun c => { c with mode := .economyBurst, burst := some (s.climateSettings z).burst }
  | .economyBurst => s.modClimate z fun c => { c with burst := some (s.climateSettings z).burst }
  | .run => s
  | .hold => s
  | .shed => s.modClimate z fun c => { c with deferredBurst := true }

/-- Entry into HOLD: a running burst timer is abandoned, the duties in force stand (R36). -/
def toHold (c : Climate) : Climate := { c with mode := .hold, burst := none }

/-- Departure from HOLD (R37): to the prior mode, then to RUN where a break was deferred and the zone is now in
ECONOMY; both flags are cleared. -/
def leaveHold (z : Zone) (s : State) : State :=
  let deferred := s.climate[z].deferredBreak
  let s := s.modClimate z (toSelected (s.climateSettings z) s.store.selection[z])
  let s :=
    if deferred ∧ s.climate[z].mode = .economy then post (.climateBreak z none) (s.modClimate z toRun) else s
  s.modClimate z fun c => { c with deferredBreak := false, deferredBurst := false }

/-- The mode step of a handing in which zone RH was formed (R36, R37). -/
def modeStep (z : Zone) (s : State) : State :=
  let c := s.climate[z]
  match c.rh.value with
  | .valid _ => if c.mode = .hold then leaveHold z s else s
  | _ => if c.mode.computes then s.modClimate z toHold else s

/-- The excursion state of a quantity after a test of a VALID value (R25). -/
def nextOut (out : Bool) (value setpoint band : Int) : Bool :=
  if out then !decide (absDiff value setpoint ≤ band - 10) else decide (absDiff value setpoint > band)

/-- The excursion test of one quantity on a VALID value: a change posts EXCURSION, an entry is a break event
(R25). -/
def testExcursion (z : Zone) (q : Quantity) (r : Reading) (s : State) : State :=
  match r.value with
  | .valid v =>
    let st := s.climateSettings z
    let c := s.climate[z]
    let old := match q with | .rh => c.outRh | .temp => c.outTemp
    let sp := match q with | .rh => st.hset | .temp => st.tset
    let band := match q with | .rh => st.rhband | .temp => st.tband
    let new := nextOut old v sp band
    if new = old then s
    else
      let s := s.modClimate z fun c =>
        match q with
        | .rh => { c with outRh := new }
        | .temp => { c with outTemp := new }
      let s := post (.excursion z q new v sp band) s
      if new then breakEvent z q s else s
  | _ => s

/-- Zone values handed by the front end (R24, R25, R36, R37). A value not formed this time (`none`, R18: held
through a calibration) stands and is not tested again (R26). The mode step comes before the excursion tests
where the zone leaves HOLD (R37). That it does so too where a zone in ECONOMY goes to HOLD, whose break a temperature
found OUT in the same handing then defers, and that RH is tested before temperature, are fixed orders of the model's
(log entry 2). -/
def handZone (z : Zone) (rh temp : Option Reading) (s : State) : State :=
  let s := s.modClimate z fun c =>
    let r := rh.getD c.rh
    let t := temp.getD c.temp
    { c with rh := r, temp := t, dew := nextDew c.dew r t }
  let s := match rh with | some _ => modeStep z s | none => s
  let s := match rh with | some r => testExcursion z .rh r s | none => s
  match temp with
  | some t => testExcursion z .temp t s
  | none => s

/-- Entry into SHED (R38): duties 0, outputs off, the period stopped; a running burst timer is abandoned and the
deferred-burst flag is set for it. -/
def toShed (c : Climate) : Climate :=
  { c with
    mode := .shed, dh := 0, hu := 0, dhOn := false, huOn := false, elapsed := none, burst := none,
    deferredBurst := c.deferredBurst || c.burst.isSome }

/-- The mode a zone leaves SHED for, its report and its flags (R39 steps 1 to 4). -/
def shedReturn (z : Zone) (s : State) : State :=
  let st := s.climateSettings z
  let c := s.climate[z]
  match c.rh.value with
  | .valid _ =>
    let s := s.modClimate z (toSelected st s.store.selection[z])
    let economy := s.climate[z].mode = .economy
    let s :=
      if c.deferredBreak then
        if economy then post (.climateBreak z none) (s.modClimate z toRun) else s
      else if c.deferredBurst ∧ economy then
        s.modClimate z fun c => { c with mode := .economyBurst, burst := some st.burst }
      else s
    s.modClimate z fun c => { c with deferredBreak := false, deferredBurst := false }
  | _ => s.modClimate z fun c => { c with mode := .hold, burst := none, deferredBurst := false }

/-- Departure from SHED, with the new duty period that begins at once (R39). -/
def leaveShed (z : Zone) (s : State) : State :=
  let s := shedReturn z s
  s.modClimate z (beginPeriod (s.climateSettings z))

/-- A fire state handed to the zone's climate controller: entry into the shed set is entry into SHED, departure
from it is the return of R39, and any other move changes nothing (R38, R39). -/
def climateTakesFire (z : Zone) (left entered : FireState) (s : State) : State :=
  if !left.sheds && entered.sheds then s.modClimate z toShed
  else if left.sheds && !entered.sheds then leaveShed z s
  else s

/-- The controller's state at a start (R41). -/
def Climate.start (st : ClimateSettings) (rh temp : Reading) : Climate := { rh := rh, temp := temp, period := st.period }

/-! ### Settings -/

/-- Where the zone is in ECONOMY, the duties at the cap (R22, R31). -/
def applyCap (z : Zone) (s : State) : State :=
  if s.climate[z].mode = .economy then s.modClimate z (capDuties (s.climateSettings z).cap) else s

/-- The value used for a climate setting: clamped to its range, the period lowered to a multiple of 8 (R21). -/
def usedClimate (n : ClimateName) (v : Int) : Int :=
  match n with
  | .tset => clamp 100 300 v
  | .hset => clamp 200 600 v
  | .band => clamp 0 100 v
  | .step => clamp 1 100 v
  | .cap => clamp 0 8 v
  | .rhband => clamp 10 300 v
  | .tband => clamp 10 200 v
  | .period => clamp 64 960 v / 8 * 8
  | .burst => clamp 60 3600 v

/-- A climate setting written. -/
def ClimateSettings.write (st : ClimateSettings) (n : ClimateName) (v : Int) : ClimateSettings :=
  match n with
  | .tset => { st with tset := v }
  | .hset => { st with hset := v }
  | .band => { st with band := v }
  | .step => { st with step := v }
  | .cap => { st with cap := v.toNat }
  | .rhband => { st with rhband := v }
  | .tband => { st with tband := v }
  | .period => { st with period := v.toNat }
  | .burst => { st with burst := v.toNat }

/-- A climate setting read. -/
def ClimateSettings.read (st : ClimateSettings) : ClimateName → Int
  | .tset => st.tset
  | .hset => st.hset
  | .band => st.band
  | .step => st.step
  | .cap => st.cap
  | .rhband => st.rhband
  | .tband => st.tband
  | .period => st.period
  | .burst => st.burst

/-- The field name of a climate setting (R21). -/
def climateFields : List (String × ClimateName) :=
  [("tset", .tset), ("hset", .hset), ("band", .band), ("step", .step), ("cap", .cap), ("rhband", .rhband),
   ("tband", .tband), ("period", .period), ("burst", .burst)]

/-- The settings a SET-SETPOINTS request gives, in the order of R21's table. That a CLAMPED reply lists them in that order,
and not in that of the line, is the model's choice (log entry 3). -/
def givenFields (f : SetpointFields) : List (ClimateName × Int) :=
  let one (n : ClimateName) (v : Option Int) : List (ClimateName × Int) := (v.map fun x => (n, x)).toList
  one .tset f.tset ++ one .hset f.hset ++ one .band f.band ++ one .step f.step ++ one .cap f.cap ++
    one .rhband f.rhband ++ one .tband f.tband ++ one .period f.period ++ one .burst f.burst

/-- Writes a zone's climate settings whole and puts a written cap to use at once in ECONOMY (R21, R22, R31). -/
def writeClimate (z : Zone) (given : List (ClimateName × Int)) (s : State) : State :=
  let st := given.foldl (fun st g => st.write g.1 (usedClimate g.1 g.2)) (s.climateSettings z)
  let s := s.setStore { s.store with climate := s.store.climate.set z st }
  if given.any fun g => g.1 == .cap then applyCap z s else s

/-- SET-SETPOINTS (R21): CLAMPED with every setting of the request where any was clamped or lowered. -/
def setSetpoints (zone : Int) (fields : SetpointFields) : Request :=
  naming 4 zone fun z s =>
    let given := givenFields fields
    let ans : Answer :=
      if given.all fun g => usedClimate g.1 g.2 == g.2 then { word := .ok }
      else { word := .clamped, body := .used (given.map fun g => (textIn climateFields g.1, usedClimate g.1 g.2)) }
    (writeClimate z given s, ans)

/-- Writes a zone's mode selection and moves its mode (R32). -/
def selectMode (sel : Selection) (z : Zone) (s : State) : State :=
  let s := s.setStore { s.store with selection := s.store.selection.set z sel }
  if s.climate[z].mode.computes then
    match s.climate[z].mode, sel with
    | .economy, .economy => s
    | .run, .run => s
    | _, _ => s.modClimate z (toSelected (s.climateSettings z) sel)
  else s

/-- The zones a SET-CLIMATE-MODE names: one, or all four where the field is left out (R32). -/
def zonesNamed : Option Int → Option (List Zone)
  | none => some (List.finRange 4)
  | some k => (indexOf 4 k).map fun z => [z]

/-- SET-CLIMATE-MODE as an addressed request (R32). -/
def setClimateMode (mode : Text) (zone : Option Int) : Request := fun s =>
  match wordOf selectionWords mode, zonesNamed zone with
  | some sel, some zs => (actAll (selectMode sel) zs s, { word := .ok })
  | _, _ => answer .badValue .empty s

/-- A good broadcast line: acted on and answered by nothing while no reply stands, discarded while one is OWED
(R184). -/
def takeBroadcast (r : Request) (s : State) : State :=
  if s.powered then
    match s.line.reply with
    | .none => (r (hunt s)).1
    | .owed _ => hunt s
    | .sending _ => s
  else s

/-- BURST (R34): a burst event, answered with the mode after it. -/
def burst (zone : Int) : Request :=
  naming 4 zone fun z s =>
    let s := burstEvent z s
    (s, { word := .ok, body := .mode s.climate[z].mode })

/-! ### The commands -/

/-- SET_SETPOINTS (R21). -/
def execSetSetpoints (zone : Int) (fields : SetpointFields) (s : State) : Host.Outcome State Fault Refusal :=
  request (setSetpoints zone fields) s

/-- SET_CLIMATE_MODE, addressed or broadcast (R32, R184). -/
def execSetClimateMode (broadcast : Bool) (mode : Text) (zone : Option Int) (s : State) :
    Host.Outcome State Fault Refusal :=
  if broadcast then .next (takeBroadcast (setClimateMode mode zone) s) else request (setClimateMode mode zone) s

/-- BURST (R34). -/
def execBurst (zone : Int) (s : State) : Host.Outcome State Fault Refusal := request (burst zone) s

/-- PERIOD_START (R28): the period running ends and the next begins; a period STOPPED in SHED does neither. -/
def execPeriodStart (z : Zone) (s : State) : Host.Outcome State Fault Refusal :=
  event (fun s => if s.climate[z].elapsed.isSome then s.modClimate z (beginPeriod (s.climateSettings z)) else s) s

/-- DUTY_OFF (R29): the duty's eighths have elapsed and its output turns off; a duty of 8 lasts the whole period.
The elapsed time stands at least at that point. -/
def execDutyOff (z : Zone) (d : Duty) (s : State) : Host.Outcome State Fault Refusal :=
  event (fun s => s.modClimate z fun c =>
    let n := match d with | .dehumidifier => c.dh | .humidifier => c.hu
    match c.elapsed with
    | none => c
    | some t =>
      if 8 ≤ n then c
      else
        let c := { c with elapsed := some (max t (n * c.eighth)) }
        match d with
        | .dehumidifier => { c with dhOn := false }
        | .humidifier => { c with huOn := false }) s

/-- BURST_TIMER_EXPIRY (R35): due while the timer stands at 0. A burst event taken first has reloaded the timer, and
the expiry is then no longer due. -/
def execBurstTimerExpiry (z : Zone) (s : State) : Host.Outcome State Fault Refusal :=
  event (fun s =>
    if s.climate[z].mode = .economyBurst ∧ s.climate[z].burst = some 0 then
      s.modClimate z (toEconomy (s.climateSettings z))
    else s) s

/-- WRITE-SETTING of a climate name (R200): SET-SETPOINTS for the zone of the index with one field, the value
answered under `value=`. -/
def writeZoneClimate (n : ClimateName) (index value : Option Int) : Request :=
  indexedSetting index value (indexOf 4) fun z v s => (writeClimate z [(n, v)] s, usedAnswer v (usedClimate n v))

/-- WRITE-SETTING of CLIMATE-MODE (R200): SET-CLIMATE-MODE for the zone of the index. -/
def writeClimateMode (index : Option Int) (value : Option Text) : Request :=
  indexedSetting index value (indexOf 4) fun z v s =>
    match wordOf selectionWords v with
    | some sel => (selectMode sel z s, { word := .ok })
    | none => answer .badValue .empty s

/-- WRITE_SETTING_ZONE_CLIMATE (R200). -/
def execWriteSettingZoneClimate (n : ClimateName) (index value : Option Int) (s : State) :
    Host.Outcome State Fault Refusal :=
  request (writeZoneClimate n index value) s

/-- WRITE_SETTING_CLIMATE_MODE (R200). -/
def execWriteSettingClimateMode (index : Option Int) (value : Option Text) (s : State) : Host.Outcome State Fault Refusal :=
  request (writeClimateMode index value) s

end Sys2Proof.Machine
end

