-- ==== Sys2Proof/Machine/Custody.lean ====
section
/-!
DEFINITION. The cartridge custody table (chapter 3, sections 3.1, 3.2, 3.3 and 3.5): records, lookups, custody
transitions with the manifest item that goes with them, the quarantine hold, and the commands ADD-CARTRIDGE to
RELEASE-HOLD, the hold rows of WRITE-SETTING and HOLD_ENDED.
-/

namespace Sys2Proof.Machine

/-! ### Records -/

/-- The order of labels: characters rank 0 to 9 before A to Z, the first character highest (R44). -/
def labelBefore : Text → Text → Bool
  | [], [] => false
  | [], _ :: _ => true
  | _ :: _, [] => false
  | a :: as, b :: bs => if a = b then labelBefore as bs else decide (a.toNat < b.toNat)

/-- A record put in its place in label order (R44). -/
def insertCartridge (c : Cartridge) : List Cartridge → List Cartridge
  | [] => [c]
  | d :: ds => if labelBefore c.label d.label then c :: d :: ds else d :: insertCartridge c ds

/-- The record of a label's eight characters (R43). -/
def State.cartridge? (s : State) (label : Text) : Option Cartridge := s.store.cartridges.find? (·.label == label)

/-- A record's index: its position from 0 in label order (R44). -/
def State.indexOfLabel (s : State) (label : Text) : Nat := s.store.cartridges.findIdx (·.label == label)

/-- How a label with its media code is found in the table (R43). -/
inductive Lookup where
  | found (c : Cartridge)
  | mediaMismatch (c : Cartridge)
  | notInTable
  deriving DecidableEq, Repr

/-- The lookup of a label with its media code (R43). -/
def State.lookup (s : State) (label : Text) (media : Char) : Lookup :=
  match s.cartridge? label with
  | none => .notInTable
  | some c => if c.media = media then .found c else .mediaMismatch c

/-- Changes the record of a label. -/
def Store.modCartridge (st : Store) (label : Text) (f : Cartridge → Cartridge) : Store :=
  { st with cartridges := st.cartridges.map fun c => if c.label = label then f c else c }

/-- Changes the record of a label in the state. -/
def State.modCartridge (s : State) (label : Text) (f : Cartridge → Cartridge) : State :=
  s.setStore (s.store.modCartridge label f)

/-- Changes the manifest of an ID. -/
def Store.modManifest (st : Store) (id : Nat) (f : Manifest → Manifest) : Store :=
  { st with manifests := st.manifests.map fun m => if m.id = id then f m else m }

/-- A manifest with the status of one of its labels changed. -/
def Manifest.setItem (m : Manifest) (label : Text) (status : ItemStatus) : Manifest :=
  { m with items := m.items.map fun i => if i.label = label then { i with status := status } else i }

/-- A custody change with the item status that goes with it, in one step (R53, R83). -/
def Store.moveItem (st : Store) (id : Nat) (label : Text) (f : Cartridge → Cartridge) (status : ItemStatus) : Store :=
  (st.modCartridge label f).modManifest id fun m => m.setItem label status

/-- A custody change with the item status that goes with it. -/
def State.moveItem (s : State) (id : Nat) (label : Text) (f : Cartridge → Cartridge) (status : ItemStatus) : State :=
  s.setStore (s.store.moveItem id label f status)

/-! ### Transitions (R53, R54) -/

/-- Entry into a custody state with its fields; the fields of the state left go with it (R42). -/
def Cartridge.enter (c : Cartridge) (k : Custody) : Cartridge := { c with custody := k }

/-- SHELVED to RESERVED: the manifest ID written, the four flags cleared (R42, R53). -/
def Cartridge.reserve (id : Nat) (c : Cartridge) : Cartridge :=
  { c with
    custody := .reserved id, noExposure := false, condensationReleased := false, crossManifest := false,
    holdReleasedEarly := false }

/-- IN-HATCH-OUT to OUT: the courier ID written and the check-out count raised, stopping at 65535 (R42, R53). -/
def Cartridge.depart (courier : Nat) (c : Cartridge) : Cartridge :=
  { c with custody := .out courier, checkouts := min (c.checkouts + 1) 65535 }

/-- OUT to IN-HATCH-IN, with CROSS-MANIFEST set where the manifest did not list the cartridge (R54). -/
def Cartridge.receive (id : Nat) (cross : Bool) (c : Cartridge) : Cartridge :=
  { c with custody := .inHatchIn id, crossManifest := c.crossManifest || cross }

/-! ### The quarantine hold -/

/-- The hold of a return with an exposure summary, by the six stages of R63. -/
def holdWithSummary (k : HoldSettings) (tset hset : Int) (e : Exposure) (risk : Bool) : Nat :=
  let dT := (clamp 0 1000 (max (absDiff e.tmax tset) (absDiff tset e.tmin))).toNat
  let dH := (clamp 0 1000 (max (absDiff e.hmax hset) (absDiff hset e.hmin))).toNat
  let h1 := (k.kT * dT + k.kH * dH + 9) / 10
  let h2 := min h1 (4 * e.minutes)
  let h3 := max h2 k.holdMin
  let h4 := if risk then 2 * h3 else h3
  min h4 k.holdMax

/-- The hold of a return: HoldMax where its manifest has no summary (R63, R64). -/
def holdFor (k : HoldSettings) (tset hset : Int) (e : Option Exposure) (risk : Bool) : Nat :=
  match e with
  | some e => holdWithSummary k tset hset e risk
  | none => k.holdMax

/-- A cartridge removed from the tray takes its hold, lowered to the present HoldMax: QUARANTINE, or RESHELVE with
HOLD-ENDED for a hold of 0 (R65). -/
def takeHold (label : Text) (hold : Nat) (s : State) : State :=
  match s.cartridge? label with
  | none => s
  | some c =>
    let n := min hold s.store.hold.holdMax
    if n = 0 then
      post (.holdEnded label (s.zoneOf c) c.home (some 0)) (s.modCartridge label (·.enter .reshelve))
    else s.modCartridge label (·.enter (.quarantine n))

/-- One minute of one record's hold (R66). -/
def countHold (c : Cartridge) : Cartridge :=
  match c.custody with
  | .quarantine n => if n ≤ 1 then c.enter .reshelve else c.enter (.quarantine (n - 1))
  | _ => c

/-- The hold remaining reaches 0 with this minute. -/
def holdEnds (c : Cartridge) : Bool :=
  match c.custody with
  | .quarantine n => decide (n ≤ 1)
  | _ => false

/-- The HOLD-ENDED report of a countdown (R66). -/
def holdEndedReport (s : State) (c : Cartridge) : Event := .holdEnded c.label (s.zoneOf c) c.home none

/-- A minute handed to the custody table (R66). The HOLD-ENDED reports of holds that end at one minute are posted in
label order, a fixed order of the model's (log entry 2). -/
def custodyMinute (s : State) : State :=
  postAll ((s.store.cartridges.filter holdEnds).map (holdEndedReport s))
    (s.setStore { s.store with cartridges := s.store.cartridges.map countHold })

/-- One record's share of a minute that ends its hold (R66). -/
def endHold (label : Text) (s : State) : State :=
  match s.cartridge? label with
  | none => s
  | some c => if holdEnds c then post (holdEndedReport s c) (s.modCartridge label countHold) else s

/-! ### Requests -/

/-- A request on the record of a label: BAD-VALUE for a malformed label, NOT-FOUND where there is none
(section 3.2). -/
def onCartridge (label : Text) (f : Cartridge → Request) : Request := fun s =>
  if labelOk label then
    match s.cartridge? label with
    | some c => f c s
    | none => answer .notFound .empty s
  else answer .badValue .empty s

/-- The fire hold test of R52. -/
def unheld (z : Zone) (f : Request) : Request := fun s => if s.held z then answer .fireHold .empty s else f s

/-- The refusal for a cartridge's state (section 3.2). -/
def wrongState (c : Cartridge) : Request := answer .refused (.wrongState c.custody.name)

/-- The label of the record that holds a home. -/
def State.holderOf (s : State) (h : Home) : Option Text := (s.store.cartridges.find? (·.home == h)).map (·.label)

/-- The home five fields name, by the present carriage counts. -/
def State.homeNamed (s : State) (f : HomeFields) : Option Home := homeOf (fun b => s.store.bank[b].carriages) f

/-- A record as ADD-CARTRIDGE creates it (R45). -/
def newCartridge (label : Text) (media : Char) (home : Home) : Cartridge :=
  { label := label, media := media, home := home, custody := .shelved }

/-- ADD-CARTRIDGE (R45). -/
def addCartridge (label media : Text) (home : HomeFields) : Request := fun s =>
  match labelOk label, mediaOf media, s.homeNamed home with
  | true, some m, some h =>
    if s.held (s.bankZone h.bank) then answer .fireHold .empty s
    else if 2048 ≤ s.store.cartridges.length then answer .full .empty s
    else if (s.cartridge? label).isSome ∨ (s.holderOf h).isSome then
      answer .refused (.duplicate (s.cartridge? label).isSome (s.holderOf h)) s
    else
      let t := s.setStore { s.store with cartridges := insertCartridge (newCartridge label m h) s.store.cartridges }
      (t, { word := .ok, body := .index (t.indexOfLabel label) })
  | _, _, _ => answer .badValue .empty s

/-- REMOVE-CARTRIDGE (R46). -/
def removeCartridge (label : Text) : Request :=
  onCartridge label fun c s =>
    unheld (s.zoneOf c) (fun s =>
      if c.custody = .shelved ∨ c.custody = .missing then
        (s.setStore { s.store with cartridges := s.store.cartridges.filter (·.label != label) }, { word := .ok })
      else wrongState c s) s

/-- READ-CARTRIDGE (R47). -/
def readCartridge (label : Text) : Request :=
  onCartridge label fun c s =>
    (s, { word := .ok, body := .cartridge c (s.zoneOf c) c.home.aisle (s.indexOfLabel label) })

/-- One row of a page of the custody table (R48). -/
def cartridgeRow (s : State) (i : Nat) (c : Cartridge) : CartridgeRow :=
  { index := i, label := c.label, media := c.media, state := c.custody.name, zone := s.zoneOf c }

/-- The records listed from index `i`, at most `room` of them, with the place of the next page or none at the
table's end (R48). -/
def cartridgePage (s : State) (ok : Cartridge → Bool) : Nat → Nat → List Cartridge → List CartridgeRow × Option Nat
  | _, _, [] => ([], none)
  | 0, i, _ :: _ => ([], some i)
  | room + 1, i, c :: cs =>
    if ok c then
      let p := cartridgePage s ok room (i + 1) cs
      (cartridgeRow s i c :: p.1, p.2)
    else cartridgePage s ok (room + 1) (i + 1) cs

/-- The test a LIST-CARTRIDGES filter makes; none where it names nothing (R48). -/
def listFilter (s : State) (custody : Option Text) (zone : Option Int) : Option (Cartridge → Bool) :=
  let byState : Option (Cartridge → Bool) :=
    match custody with
    | none => some fun _ => true
    | some t => (wordOf custodyWords t).map fun k c => c.custody.name == k
  let byZone : Option (Cartridge → Bool) :=
    match zone with
    | none => some fun _ => true
    | some k => (indexOf 4 k).map fun z c => s.zoneOf c == z
  match byState, byZone with
  | some p, some q => some fun c => p c && q c
  | _, _ => none

/-- LIST-CARTRIDGES (R48); a start below 0 is a place outside the table and gives an empty page (log entry 9). -/
def listCartridges (start : Int) (custody : Option Text) (zone : Option Int) : Request := fun s =>
  match listFilter s custody zone with
  | none => answer .badValue .empty s
  | some ok =>
    if 0 ≤ start then
      let p := cartridgePage s ok 8 start.toNat (s.store.cartridges.drop start.toNat)
      (s, { word := .ok, body := .cartridges p.1 p.2 })
    else (s, { word := .ok, body := .cartridges [] none })

/-- SET-HOME (R49). -/
def setHome (label : Text) (home : HomeFields) : Request := fun s =>
  match s.homeNamed home with
  | none => answer .badValue .empty s
  | some h =>
    onCartridge label (fun c s =>
      unheld (s.zoneOf c) (unheld (s.bankZone h.bank) fun s =>
        if c.custody ≠ .shelved then wrongState c s
        else if c.home = h then (s, { word := .ok })
        else
          match s.holderOf h with
          | some holder => answer .refused (.slotTaken holder) s
          | none => (s.modCartridge label fun c => { c with home := h }, { word := .ok })) s) s

/-- MARK-MISSING (R50). -/
def markMissing (label : Text) : Request :=
  onCartridge label fun c s =>
    unheld (s.zoneOf c) (fun s =>
      if c.custody = .shelved ∨ c.custody = .reshelve then
        (s.modCartridge label (·.enter .missing), { word := .ok })
      else wrongState c s) s

/-- MARK-FOUND (R50). -/
def markFound (label : Text) : Request :=
  onCartridge label fun c s =>
    unheld (s.zoneOf c) (fun s =>
      if c.custody = .missing then (s.modCartridge label (·.enter .shelved), { word := .ok })
      else wrongState c s) s

/-- RELEASE-HOLD (R51). -/
def releaseHold (label : Text) : Request :=
  onCartridge label fun c s =>
    unheld (s.zoneOf c) (fun s =>
      match c.custody with
      | .quarantine n =>
        (s.modCartridge label fun c => { c with custody := .reshelve, holdReleasedEarly := true },
          { word := .ok, body := .minutes n })
      | _ => wrongState c s) s

/-! ### Settings -/

/-- WRITE-SETTING of HOLD-KT or HOLD-KH (R61). -/
def writeHoldWeight (w : HoldWeight) (index : Option Text) (value : Option Int) : Request :=
  plainSetting index value fun v s =>
    let used := clamp 0 255 v
    let k := s.store.hold
    let k := match w with
      | .kT => { k with kT := used.toNat }
      | .kH => { k with kH := used.toNat }
    (s.setStore { s.store with hold := k }, usedAnswer v used)

/-- WRITE-SETTING of HOLD-MIN (R61): clamped, then lowered to HoldMax. -/
def writeHoldMin (index : Option Text) (value : Option Int) : Request :=
  plainSetting index value fun v s =>
    let used := min (clamp 0 1440 v) s.store.hold.holdMax
    (s.setStore { s.store with hold := { s.store.hold with holdMin := used.toNat } }, usedAnswer v used)

/-- A hold remaining lowered to HoldMax (R61). -/
def lowerHold (n : Nat) (c : Cartridge) : Cartridge :=
  match c.custody with
  | .quarantine k => if n < k then c.enter (.quarantine n) else c
  | _ => c

/-- WRITE-SETTING of HOLD-MAX (R61): clamped, then raised to HoldMin; holds remaining above it are lowered. -/
def writeHoldMax (index : Option Text) (value : Option Int) : Request :=
  plainSetting index value fun v s =>
    let used := max (clamp 60 10080 v) s.store.hold.holdMin
    (s.setStore { s.store with
        hold := { s.store.hold with holdMax := used.toNat }
        cartridges := s.store.cartridges.map (lowerHold used.toNat) },
      usedAnswer v used)

/-! ### The commands -/

/-- ADD_CARTRIDGE (R45). -/
def execAddCartridge (label media : Text) (home : HomeFields) (s : State) : Host.Outcome State Fault Refusal :=
  request (addCartridge label media home) s

/-- REMOVE_CARTRIDGE (R46). -/
def execRemoveCartridge (label : Text) (s : State) : Host.Outcome State Fault Refusal :=
  request (removeCartridge label) s

/-- READ_CARTRIDGE (R47). -/
def execReadCartridge (label : Text) (s : State) : Host.Outcome State Fault Refusal := request (readCartridge label) s

/-- LIST_CARTRIDGES (R48). -/
def execListCartridges (start : Int) (custody : Option Text) (zone : Option Int) (s : State) :
    Host.Outcome State Fault Refusal :=
  request (listCartridges start custody zone) s

/-- SET_HOME (R49). -/
def execSetHome (label : Text) (home : HomeFields) (s : State) : Host.Outcome State Fault Refusal :=
  request (setHome label home) s

/-- MARK_MISSING (R50). -/
def execMarkMissing (label : Text) (s : State) : Host.Outcome State Fault Refusal := request (markMissing label) s

/-- MARK_FOUND (R50). -/
def execMarkFound (label : Text) (s : State) : Host.Outcome State Fault Refusal := request (markFound label) s

/-- RELEASE_HOLD (R51). -/
def execReleaseHold (label : Text) (s : State) : Host.Outcome State Fault Refusal := request (releaseHold label) s

/-- WRITE_SETTING_HOLD_KT_KH (R61). -/
def execWriteSettingHoldKtKh (w : HoldWeight) (index : Option Text) (value : Option Int) (s : State) :
    Host.Outcome State Fault Refusal :=
  request (writeHoldWeight w index value) s

/-- WRITE_SETTING_HOLD_MIN (R61). -/
def execWriteSettingHoldMin (index : Option Text) (value : Option Int) (s : State) : Host.Outcome State Fault Refusal :=
  request (writeHoldMin index value) s

/-- WRITE_SETTING_HOLD_MAX (R61). -/
def execWriteSettingHoldMax (index : Option Text) (value : Option Int) (s : State) : Host.Outcome State Fault Refusal :=
  request (writeHoldMax index value) s

/-- HOLD_ENDED (R66): one record's share of the minute that ends its hold. -/
def execHoldEnded (label : Text) (s : State) : Host.Outcome State Fault Refusal := event (endHold label) s

end Sys2Proof.Machine
end

