-- ==== Sys2Proof/Machine/Shutters.lean ====
section
/-!
DEFINITION. What every hatch rule stands on (sections 5.1 to 5.3 and 5.12): the hatch's settings, its shutters and
locks, its idle timer, its indicator, the tray table and what a tray scan reads.
-/

namespace Sys2Proof.Machine

/-- The hatch's settings. -/
def State.hatchSettings (s : State) (h : HatchId) : HatchSettings := s.store.hatch[h]

/-- Changes a hatch controller's live state. -/
def State.modHatch (s : State) (h : HatchId) (f : Hatch → Hatch) : State := s.setHatch h (f s.hatch[h])

/-- Writes a hatch's settings. -/
def State.setHatchSettings (s : State) (h : HatchId) (st : HatchSettings) : State :=
  s.setStore { s.store with hatch := s.store.hatch.set h st }

/-! ### Idle timer and indicator -/

/-- Entry to IDLE: the idle timer starts, no side stands as last opened, the tray reader is on (R92, R118). -/
def Hatch.toIdle (x : Hatch) (standby : Nat) : Hatch :=
  { x with
    phase := .idle, heldClass := none, heldTray := none, idle := some standby, lastOpened := none, manifest := none,
    unlockDue := none, readerOn := true }

/-- Entry to IDLE in the state. -/
def enterIdle (h : HatchId) (s : State) : State := s.modHatch h fun x => x.toIdle (s.hatchSettings h).standbyTime

/-- A badge read, a sensor change or a request that names the hatch (R118): STANDBY returns to IDLE, and in IDLE the
timer is reloaded. -/
def wake (h : HatchId) (s : State) : State :=
  match s.hatch[h].phase with
  | .standby => enterIdle h s
  | .idle => s.modHatch h fun x => { x with idle := some (s.hatchSettings h).standbyTime }
  | _ => s

/-- The indicator shows a colour, for 3 s or steadily (R97, R103). -/
def light (h : HatchId) (c : Colour) (secs : Option Nat) (s : State) : State :=
  s.modHatch h fun x => { x with colour := c, colourLeft := secs }

/-! ### Shutters -/

/-- Writes one shutter. -/
def Hatch.setShutter (x : Hatch) (sd : Side) (sh : Shutter) : Hatch :=
  match sd with
  | .outer => { x with outer := sh }
  | .inner => { x with inner := sh }

/-- Changes one shutter. -/
def State.modShutter (s : State) (h : HatchId) (sd : Side) (f : Shutter → Shutter) : State :=
  s.modHatch h fun x => x.setShutter sd (f (x.shutter sd))

/-- The two conditions of a release: the other shutter LOCKED and CLOSED, the zone outside the fire hold set (R88). -/
def canUnlock (h : HatchId) (sd : Side) (s : State) : Bool :=
  (s.hatch[h].shutter (otherSide sd)).secured && !s.held (s.hatchZone h)

/-- A lock released: UNLOCKED with the unlock timer, or OPEN with the open alarm timer where the sensor reads OPEN
(R88, R89, log entry 12). -/
def releaseLock (st : HatchSettings) (sh : Shutter) : Shutter :=
  if sh.sensorOpen then { sh with locked := false, openAlarm := some st.openAlarm }
  else { sh with locked := false, unlock := some st.unlockTimeout }

/-- An unlock a phase rule calls for: made where both conditions of R88 hold, kept due where one fails. -/
def unlock (h : HatchId) (sd : Side) (s : State) : State :=
  if (s.hatch[h].shutter sd).locked then
    if canUnlock h sd s then
      (s.modShutter h sd (releaseLock (s.hatchSettings h))).modHatch h fun x => { x with unlockDue := none }
    else s.modHatch h fun x => { x with unlockDue := some sd }
  else s

/-- An unlock still due, made where both conditions of R88 now hold. -/
def serveDue (h : HatchId) (s : State) : State :=
  match s.hatch[h].unlockDue with
  | some sd => if canUnlock h sd s then unlock h sd s else s
  | none => s

/-- A lock engaged; the timers of the shutter stop (R89, R115). -/
def engage (sh : Shutter) : Shutter := { sh with locked := true, unlock := none, openAlarm := none }

/-- The hatch in another phase; an unlock due under the phase left is dropped (R88). -/
def toPhase (h : HatchId) (p : Phase) (s : State) : State :=
  s.modHatch h fun x => { x with phase := p, unlockDue := none, idle := none }

/-- The drive of a closer for a shutter whose sensor reads OPEN, with the 10 s of R90. Where the closer is driven
already, as on a second entry to PREDISCHARGE, the 10 s are loaded anew and SHUTTER-NOT-SECURED can be posted again
(the model's choice, log entry 12). -/
def driveCloser (sh : Shutter) : Shutter :=
  if sh.sensorOpen then { sh with closer := true, closerTimer := some 10 } else sh

/-- A closer stopped. -/
def stopCloser (sh : Shutter) : Shutter := { sh with closer := false, closerTimer := none }

/-- Both shutters changed alike. -/
def Hatch.bothShutters (x : Hatch) (f : Shutter → Shutter) : Hatch := { x with outer := f x.outer, inner := f x.inner }

/-! ### The tray -/

/-- The label at a position, with its media code. -/
def labelAt (t : Tray) (p : TrayIdx) : Option (Text × Char) :=
  match t[p].presence with
  | .present l m => some (l, m)
  | _ => none

/-- The label stands at this position. -/
def holdsLabel (t : Tray) (l : Text) (p : TrayIdx) : Bool :=
  match labelAt t p with
  | some (k, _) => k == l
  | none => false

/-- The label is found somewhere on the tray, by its eight characters. -/
def onTray (t : Tray) (l : Text) : Bool := (List.finRange 24).any (holdsLabel t l)

/-- The label is found in an earlier position. -/
def seenBefore (t : Tray) (p : TrayIdx) (l : Text) : Bool :=
  (List.finRange 24).any fun q => decide (q < p) && holdsLabel t l q

/-- Some position has the verdict. -/
def hasVerdict (t : Tray) (v : Verdict) : Bool := t.toList.any fun p => p.verdict == v

/-- The positions of a verdict, ascending, which is the model's choice of their order in HATCH-STUCK, for which R105
names none (log entry 13). -/
def verdictPositions (t : Tray) (v : Verdict) : List TrayIdx := (List.finRange 24).filter fun p => t[p].verdict == v

/-- The ACCEPTED positions with their labels, in ascending order. -/
def acceptedLabels (t : Tray) : List (Text × TrayPos) :=
  (List.finRange 24).filterMap fun p =>
    if t[p].verdict = .accepted then (labelAt t p).map fun l => (l.1, t[p]) else none

/-- A tray as its presence sensors show it (R91, R120). -/
def trayFromSensors (sensors : Vector Bool 24) : Tray :=
  sensors.map fun occupied => if occupied then { presence := .unreadable .notScanned } else {}

/-- What a tray scan reads: EMPTY where the sensor shows nothing at the scan's end, else what the readings show; every
verdict none (R92, log entry 16). -/
def scannedTray (sensors : Vector Bool 24) (reads : Vector TrayRead 24) : Tray :=
  Vector.ofFn fun p : TrayIdx => if sensors[p] then { presence := readPosition reads[p] } else {}

/-- Writes the live tray table. -/
def setTray (h : HatchId) (t : Tray) (s : State) : State := s.modHatch h fun x => { x with tray := t }

/-- A tray scan started (R92). -/
def startScan (h : HatchId) (why : ScanFor) (s : State) : State := s.modHatch h fun x => { x with scan := some why }

/-! ### The handover record -/

/-- The hatch's handover record. -/
def State.handover (s : State) (h : HatchId) : Option Handover := s.store.handover[h]

/-- Writes or erases a handover record. -/
def State.setHandover (s : State) (h : HatchId) (r : Option Handover) : State :=
  s.setStore { s.store with handover := s.store.handover.set h r }

/-- Changes a handover record where there is one. -/
def State.modHandover (s : State) (h : HatchId) (f : Handover → Handover) : State :=
  s.setHandover h ((s.handover h).map f)

/-- The live tray table copied into the handover record (R114). -/
def saveTray (h : HatchId) (s : State) : State := s.modHandover h fun r => { r with tray := s.hatch[h].tray }

/-- The class of the handover record changed: the record is written whole, with the live tray table (R114). -/
def setClass (h : HatchId) (c : PhaseClass) (s : State) : State :=
  s.modHandover h fun r => { r with phaseClass := c, tray := s.hatch[h].tray }

/-- An entry added to the handover record, in place of one of the same label where there is one (R114). -/
def addEntry (h : HatchId) (e : Entry) (s : State) : State :=
  s.modHandover h fun r =>
    { r with entries :=
        if e.label.isSome ∧ e.result ≠ .rejectedRemoved ∧
            r.entries.any (fun d => d.label == e.label && d.result != .rejectedRemoved) then
          r.entries.map fun d => if d.label = e.label ∧ d.result ≠ .rejectedRemoved then e else d
        else r.entries ++ [e] }

end Sys2Proof.Machine
end

