-- ==== Sys2Proof/Machine/Manifests.lean ====
section
/-!
DEFINITION. The manifest table (chapter 4): submission, picks, validity, expiry, cancellation, take-up, letting go
and settlement, with the commands SUBMIT-OUTBOUND to LIST-MANIFESTS and MANIFEST_EXPIRED.
-/

namespace Sys2Proof.Machine

/-! ### The table -/

/-- The manifest of an ID. -/
def State.manifest? (s : State) (id : Nat) : Option Manifest := s.store.manifests.find? (·.id == id)

/-- The manifest of the ID a request writes. -/
def State.manifestNamed (s : State) (id : Int) : Option Manifest := s.store.manifests.find? fun m => (m.id : Int) == id

/-- Changes the manifest of an ID in the state. -/
def State.modManifest (s : State) (id : Nat) (f : Manifest → Manifest) : State := s.setStore (s.store.modManifest id f)

/-- The first ID after `n`, wrapping from 65535 to 1, that is not taken (R72); 17 steps always suffice. -/
def freshId (taken : List Nat) : Nat → Nat → Nat
  | 0, n => n
  | fuel + 1, n =>
    let k := n % 65535 + 1
    if taken.contains k then freshId taken fuel k else k

/-- The ID the next manifest takes (R72). -/
def State.nextManifestId (s : State) : Nat := freshId (s.store.manifests.map (·.id)) 17 s.store.lastManifest

/-- A manifest put at the end of the table with its ID issued, its outbound cartridges reserved (R72, R75, R76). -/
def createManifest (m : Manifest) (s : State) : State :=
  let st := { s.store with manifests := s.store.manifests ++ [m], lastManifest := m.id }
  s.setStore (match m.direction with
    | .out => m.items.foldl (fun st i => st.modCartridge i.label (Cartridge.reserve m.id)) st
    | .in_ => st)

/-! ### Submission -/

/-- The failure of one item, `earlier` being the labels before it in the list (R74, R76). -/
def itemFault (d : Direction) (s : State) (earlier : List Text) (label : Text) : Option ItemFault :=
  match s.cartridge? label with
  | none => some .notFound
  | some c =>
    let right : Bool := match d, c.custody with
      | .out, .shelved => true
      | .in_, .out _ => true
      | _, _ => false
    if !right then some (.wrongState c.custody.name)
    else if earlier.contains label then some .duplicate
    else if d = .out ∧ s.held (s.zoneOf c) then some .fireHold
    else none

/-- The failures of a list, in list order (R74); `pos` counts from 1. -/
def itemFailures (d : Direction) (s : State) : List Text → Nat → List Text → List ItemFailure
  | _, _, [] => []
  | earlier, pos, l :: ls =>
    let rest := itemFailures d s (earlier ++ [l]) (pos + 1) ls
    match itemFault d s earlier l with
    | some f => { pos := pos, label := l, fault := f } :: rest
    | none => rest

/-- The values of a submission name something (R73 step 2). -/
def submissionOk (courier : Int) (items : List Text) : Bool :=
  decide (1 ≤ courier ∧ courier ≤ 999999 ∧ 1 ≤ items.length ∧ items.length ≤ 24) && items.all labelOk

/-- Some but not all of the five fields are given: the first one missing (R76). -/
def partialSummary (f : SummaryFields) : Option String :=
  let given := [("tmax", f.tmax.isSome), ("tmin", f.tmin.isSome), ("hmax", f.hmax.isSome), ("hmin", f.hmin.isSome),
    ("minutes", f.minutes.isSome)]
  if given.all (fun g => !g.2) then none else (given.find? (fun g => !g.2)).map Prod.fst

/-- The summary used, each value clamped to its range (R76). -/
def usedSummary (f : SummaryFields) : Option Exposure :=
  match f.tmax, f.tmin, f.hmax, f.hmin, f.minutes with
  | some a, some b, some c, some d, some e =>
    some { tmax := clamp (-400) 1250 a, tmin := clamp (-400) 1250 b, hmax := clamp 0 1000 c, hmin := clamp 0 1000 d,
           minutes := (clamp 0 65535 e).toNat }
  | _, _, _, _, _ => none

/-- A value that was clamped, under its field's name. -/
def clampedField (name : String) (lo hi : Int) (v : Option Int) : List (Text × Int) :=
  match v with
  | some x => if clamp lo hi x = x then [] else [(name.toList, clamp lo hi x)]
  | none => []

/-- The clamped values of a summary (R76). -/
def clampedSummary (f : SummaryFields) : List (Text × Int) :=
  clampedField "tmax" (-400) 1250 f.tmax ++ clampedField "tmin" (-400) 1250 f.tmin ++
    clampedField "hmax" 0 1000 f.hmax ++ clampedField "hmin" 0 1000 f.hmin ++
    clampedField "minutes" 0 65535 f.minutes

/-- The manifest a submission creates. -/
def submittedManifest (s : State) (d : Direction) (h : HatchId) (courier : Int) (validity : Int) (items : List Text)
    (active : Bool) (summary : SummaryFields) : Manifest :=
  { id := s.nextManifestId, direction := d, hatch := h, courier := courier.toNat
    items := items.map fun l => { label := l, status := match d with | .out => .reserved | .in_ => .expected }
    validity := (clamp 1 1440 validity).toNat, active := active, exposure := usedSummary summary }

/-- Checks 3 and 4 of R73 and the acceptance (R75, R76): the state after, the answer, and the manifest accepted. -/
def submitChecked (d : Direction) (h : HatchId) (courier validity : Int) (items : List Text) (active : Bool)
    (summary : SummaryFields) (s : State) : (State × Answer) × Option Manifest :=
  if 16 ≤ s.store.manifests.length then (answer .full .empty s, none)
  else
    match itemFailures d s [] 1 items with
    | f :: fs => (answer .refused (.items (f :: fs)) s, none)
    | [] =>
      let m := submittedManifest s d h courier validity items active summary
      let clamped := clampedSummary summary
      let word : StatusWord := if clamp 1 1440 validity = validity ∧ clamped = [] then .ok else .clamped
      ((createManifest m s, { word := word, body := .submitted m.id m.validity clamped }), some m)

/-- A request that names a hatch wakes it before its own rule is taken (R118, R188). -/
def onHatch (hatch : Int) (f : HatchId → Request) : Request := fun s =>
  match indexOf 2 hatch with
  | some h => f h (wake h s)
  | none => answer .badValue .empty s

/-- SUBMIT-OUTBOUND (R73 to R75). -/
def submitOutbound (hatch courier validity : Int) (items : List Text) : Request :=
  onHatch hatch fun h s =>
    if submissionOk courier items then (submitChecked .out h courier validity items false {} s).1
    else answer .badValue .empty s

/-- SUBMIT-INBOUND (R76). -/
def submitInbound (hatch courier validity : Int) (items : List Text) (summary : SummaryFields) : Request := fun s =>
  match partialSummary summary with
  | some missing => badRequest missing s
  | none =>
    onHatch hatch (fun h s =>
      if submissionOk courier items then (submitChecked .in_ h courier validity items false summary s).1
      else answer .badValue .empty s) s

/-! ### Picks -/

/-- The row of a bank with one more request decided (R78). -/
def PickRow.count (r : PickRow) : Option AisleOutcome → PickRow
  | none => { r with items := r.items + 1, noSuchAisle := r.noSuchAisle + 1 }
  | some .full => { r with items := r.items + 1, full := r.full + 1 }
  | some .fireHold => { r with items := r.items + 1, fireHold := r.fireHold + 1 }
  | some _ => { r with items := r.items + 1, taken := r.taken + 1 }

/-- The aisle request of one cartridge, none where its aisle is above the bank's count (R78). -/
def pickAisle (c : Cartridge) (s : State) : State × Option AisleOutcome :=
  if s.store.bank[c.home.bank].carriages < c.home.aisle then (s, none)
  else ((aisleRequest c.home.bank c.home.aisle s).1, some (aisleRequest c.home.bank c.home.aisle s).2)

/-- The aisle requests of a list of labels, one after another. -/
def guide : List Text → State → Vector PickRow 4 → State × Vector PickRow 4
  | [], s, rows => (s, rows)
  | l :: ls, s, rows =>
    match s.cartridge? l with
    | none => guide ls s rows
    | some c => guide ls (pickAisle c s).1 (rows.set c.home.bank (rows[c.home.bank].count (pickAisle c s).2))

/-- Rows with nothing counted. -/
def noPicks : Vector PickRow 4 :=
  Vector.ofFn fun b => { bank := b, items := 0, taken := 0, full := 0, fireHold := 0, noSuchAisle := 0 }

/-- The labels of a manifest's items in a status, in list order, which is the model's choice of their order in
MANIFEST-EXPIRED, for which R80 names none (log entry 13). -/
def Manifest.labelsIn (m : Manifest) (st : ItemStatus) : List Text :=
  (m.items.filter (·.status == st)).map (·.label)

/-- GUIDE-PICKS (R78). -/
def guidePicks (id : Int) : Request := fun s =>
  match s.manifestNamed id with
  | none => answer .notFound .empty s
  | some m =>
    match m.direction with
    | .in_ => answer .refused (.refusedFor .wrongDirection) s
    | .out =>
      let g := guide (m.labelsIn .reserved) s noPicks
      (g.1, { word := .ok, body := .picks (g.2.toList.filter fun r => decide (0 < r.items)) })

/-! ### Validity, expiry and cancellation -/

/-- A manifest removed with its cartridges released (R80): RESERVED to SHELVED and PICKED to RESHELVE. -/
def releaseManifest (m : Manifest) (st : Store) : Store :=
  let st := { st with manifests := st.manifests.filter (·.id != m.id) }
  match m.direction with
  | .in_ => st
  | .out =>
    let st := (m.labelsIn .reserved).foldl (fun st l => st.modCartridge l (·.enter .shelved)) st
    (m.labelsIn .picked).foldl (fun st l => st.modCartridge l (·.enter .reshelve)) st

/-- The MANIFEST-EXPIRED report (R80, R81). -/
def expiredReport (m : Manifest) (cancelled : Bool) : Event :=
  match m.direction with
  | .in_ => .manifestExpired m.id m.direction m.hatch m.courier cancelled [] []
  | .out => .manifestExpired m.id m.direction m.hatch m.courier cancelled (m.labelsIn .reserved) (m.labelsIn .picked)

/-- A manifest expires or is cancelled (R80, R81). -/
def expireManifest (cancelled : Bool) (m : Manifest) (s : State) : State :=
  post (expiredReport m cancelled) (s.setStore (releaseManifest m s.store))

/-- One minute of one manifest's validity (R79). -/
def countValidity (m : Manifest) : Manifest := if m.active then m else { m with validity := m.validity - 1 }

/-- An OPEN manifest expires with this minute. -/
def validityEnds (m : Manifest) : Bool := !m.active && decide (m.validity ≤ 1)

/-- A minute handed to the manifest table (R79, R80). The MANIFEST-EXPIRED reports of one minute stand in table order, a
fixed order of the model's (log entry 2). -/
def manifestMinute (s : State) : State :=
  actAll (expireManifest false) (s.store.manifests.filter validityEnds)
    (s.setStore { s.store with manifests := s.store.manifests.map countValidity })

/-- One manifest's share of the minute that ends its validity (R79, R80). -/
def endValidity (id : Nat) (s : State) : State :=
  match s.manifest? id with
  | some m => if validityEnds m then expireManifest false m s else s
  | none => s

/-- A RESERVED or PICKED item's cartridge stands in a zone in the fire hold set (R81). -/
def Manifest.touchesFire (m : Manifest) (s : State) : Bool :=
  m.direction == .out && (m.labelsIn .reserved ++ m.labelsIn .picked).any fun l =>
    match s.cartridge? l with
    | some c => s.held (s.zoneOf c)
    | none => false

/-- CANCEL-MANIFEST (R81). -/
def cancelManifest (id : Int) : Request := fun s =>
  match s.manifestNamed id with
  | none => answer .notFound .empty s
  | some m =>
    if m.active then answer .busy .empty s
    else if m.touchesFire s then answer .fireHold .empty s
    else (expireManifest true m s, { word := .ok })

/-! ### At the hatch -/

/-- An outbound manifest has an item in RESERVED or PICKED. -/
def Manifest.workLeft (m : Manifest) : Bool := m.items.any fun i => i.status == .reserved || i.status == .picked

/-- Take-up: ACTIVE, the validity standing (R82). -/
def takeUp (id : Nat) (s : State) : State := s.modManifest id fun m => { m with active := true }

/-- Back to OPEN with its items as they stand (R84). -/
def reopen (id : Nat) (s : State) : State := s.modManifest id fun m => { m with active := false }

/-- The manifest returns to OPEN at settlement: it is outbound with work left (R84). -/
def Manifest.reopens (m : Manifest) : Bool := m.direction == .out && m.workLeft

/-- The settlement of a manifest (R84): back to OPEN, or removed. -/
def settle (id : Nat) (s : State) : State :=
  match s.manifest? id with
  | none => s
  | some m =>
    if m.reopens then reopen id s
    else s.setStore { s.store with manifests := s.store.manifests.filter (·.id != id) }

/-- The manifest a badge takes up: the first OPEN inbound one for the hatch and the courier (R82). -/
def State.inboundFor (s : State) (h : HatchId) (courier : Nat) : Option Manifest :=
  s.store.manifests.find? fun m => !m.active && m.direction == .in_ && m.hatch == h && m.courier == courier

/-! ### Reading -/

/-- A page of at most `room` entries of a list numbered from `base`, from the place `start`, with the place of the
next page (R85, R113). -/
def pageOf {α : Type} (base room : Nat) (start : Int) (l : List α) : List (Nat × α) × Option Nat :=
  if (base : Int) ≤ start ∧ start < base + l.length then
    let i := (start - base).toNat
    let page := (l.drop i).take room
    (page.zipIdx.map fun x => (base + i + x.2, x.1),
      if i + page.length < l.length then some (base + i + page.length) else none)
  else ([], none)

/-- READ-MANIFEST (R85). -/
def readManifest (id : Int) (start : Option Int) : Request := fun s =>
  match s.manifestNamed id with
  | none => answer .notFound .empty s
  | some m =>
    let p := pageOf 1 12 (start.getD 1) m.items
    (s, { word := .ok, body := .manifest m p.1 p.2 })

/-- LIST-MANIFESTS (R85). -/
def listManifests (start : Option Int) : Request := fun s =>
  let p := pageOf 0 8 (start.getD 0) s.store.manifests
  (s, { word := .ok, body := .manifests p.1 p.2 })

/-! ### The commands -/

/-- SUBMIT_OUTBOUND (R73). -/
def execSubmitOutbound (hatch courier validity : Int) (items : List Text) (s : State) :
    Host.Outcome State Fault Refusal :=
  request (submitOutbound hatch courier validity items) s

/-- SUBMIT_INBOUND (R76). -/
def execSubmitInbound (hatch courier validity : Int) (items : List Text) (summary : SummaryFields) (s : State) :
    Host.Outcome State Fault Refusal :=
  request (submitInbound hatch courier validity items summary) s

/-- GUIDE_PICKS (R78). -/
def execGuidePicks (id : Int) (s : State) : Host.Outcome State Fault Refusal := request (guidePicks id) s

/-- CANCEL_MANIFEST (R81). -/
def execCancelManifest (id : Int) (s : State) : Host.Outcome State Fault Refusal := request (cancelManifest id) s

/-- READ_MANIFEST (R85). -/
def execReadManifest (id : Int) (start : Option Int) (s : State) : Host.Outcome State Fault Refusal :=
  request (readManifest id start) s

/-- LIST_MANIFESTS (R85). -/
def execListManifests (start : Option Int) (s : State) : Host.Outcome State Fault Refusal :=
  request (listManifests start) s

/-- MANIFEST_EXPIRED (R80): one manifest's share of the minute that ends its validity. -/
def execManifestExpired (id : Nat) (s : State) : Host.Outcome State Fault Refusal := event (endValidity id) s

end Sys2Proof.Machine
end

