-- ==== Sys2Proof/Machine/Hatch.lean ====
section
/-!
DEFINITION. The hatch controllers' phases (sections 5.4 to 5.8, 5.11 and 5.13): load scans, reconciles, rejects,
unloading, conditioning, receipts as they are written, fire hold, resume and recovery.
-/

namespace Sys2Proof.Machine

/-- The manifest a hatch holds. -/
def State.activeManifest (s : State) (h : HatchId) : Option Manifest :=
  match s.hatch[h].manifest with
  | some id => s.manifest? id
  | none => none

/-- A tray with its verdicts rewritten. -/
def withVerdicts (t : Tray) (v : TrayIdx → Verdict) : Tray := Vector.ofFn fun p : TrayIdx => { t[p] with verdict := v p }

/-- Applies a change for each of a list of labels. -/
def forLabels (f : Text → State → State) (ls : List Text) (s : State) : State := ls.foldl (fun s l => f l s) s

/-- The labels of a list that a tray nowhere shows. -/
def goneFrom (t : Tray) (ls : List Text) : List Text := ls.filter fun l => !onTray t l

/-! ### Take-up and letting go -/

/-- The handover record a take-up writes (R93, R102, R114). -/
def newHandover (s : State) (h : HatchId) (m : Manifest) (c : PhaseClass) : Handover :=
  { manifest := m.id, direction := m.direction, phaseClass := c, tray := s.hatch[h].tray, start := s.minute }

/-- A manifest taken up with its handover record (R82, R93, R102). That the live released-with-risk mark is cleared and the
new record starts with it clear is the model's choice (log entry 10). -/
def beginHandover (h : HatchId) (m : Manifest) (c : PhaseClass) (s : State) : State :=
  (s.setHandover h (some (newHandover s h m c))).modHatch h fun x =>
    { x with manifest := some m.id, risk := false, query := none, rejectTimer := none, rejectExpired := false }

/-- The manifest let go without a receipt, the record erased, the hatch to IDLE (R84, R96, R98). -/
def letGo (h : HatchId) (s : State) : State :=
  let s := match s.hatch[h].manifest with
    | some id => reopen id s
    | none => s
  enterIdle h (s.setHandover h none)

/-- COURIER-ACCESS with the outer shutter unlocked (R97, R102, R103). -/
def toCourierAccess (h : HatchId) (s : State) : State := unlock h .outer (toPhase h .courierAccess s)

/-! ### Receipts -/

/-- The entry of an item of an outbound handover: as the record gathered it (R112). -/
def outboundEntry (es : List Entry) (i : Item) : Option Entry :=
  es.find? fun e => e.label == some i.label && (e.result == .departed || e.result == .left)

/-- The entry of an item of an inbound handover: RECEIVED as gathered or by its status, else NOT-RETURNED (R112). -/
def inboundEntry (es : List Entry) (i : Item) : Entry :=
  match es.find? fun e => e.label == some i.label && e.result == .received with
  | some e => e
  | none =>
    { label := some i.label, result := match i.status with | .received => .received | _ => .notReturned }

/-- The entries of items and cross-manifest cartridges, in the order of R112. -/
def settledEntries (m : Manifest) (r : Handover) : List Entry :=
  (match m.direction with
    | .out => m.items.filterMap (outboundEntry r.entries)
    | .in_ => m.items.map (inboundEntry r.entries)) ++ r.entries.filter (·.result == .cross)

/-- The REJECTED-REMOVED entries, in the order removed. -/
def rejectEntries (r : Handover) : List Entry := r.entries.filter (·.result == .rejectedRemoved)

/-- The outcome of a handover (R112). -/
def outcomeOf (r : Handover) (es : List Entry) : HandoverOutcome :=
  if r.recovered then .interrupted
  else if r.phaseClass = .abortUnload then .aborted
  else if es.all fun e => e.result != .left && e.result != .notReturned && e.result != .rejectedRemoved then .complete
  else .partly

/-- The receipt of a handover: up to 48 entries, the rejects beyond that counted (R112). -/
def receiptOf (h : HatchId) (now : Minute) (m : Manifest) (r : Handover) : Receipt :=
  let settled := settledEntries m r
  let rejects := rejectEntries r
  { hatch := h, manifest := r.manifest, direction := r.direction, courier := m.courier
    outcome := outcomeOf r (settled ++ rejects), start := r.start, finish := now
    entries := (settled ++ rejects).take 48, furtherRejects := (settled ++ rejects).length - 48 }

/-- Entry to RECEIPT-PENDING: the receipt written and the record erased in one write, RECEIPT-READY posted (R112). -/
def toReceipt (h : HatchId) (s : State) : State :=
  match s.handover h with
  | none => s
  | some r =>
    match s.manifest? r.manifest with
    | none => s
    | some m =>
      let rec_ := receiptOf h s.minute m r
      let s := s.setStore { s.store with
        handover := s.store.handover.set h none, receipt := s.store.receipt.set h (some rec_) }
      let s := (toPhase h .receiptPending s).modHatch h fun x => { x with rejectTimer := none, rejectExpired := false }
      post (.receiptReady h r.manifest rec_.outcome) s

/-! ### Load scans -/

/-- The verdict of a position in a load scan (R95). -/
def loadVerdict (s : State) (m : Manifest) (t : Tray) (p : TrayIdx) : Verdict :=
  match t[p].presence with
  | .empty => .none
  | .unreadable _ => .rejected
  | .present l media =>
    if seenBefore t p l then .rejected
    else
      match s.lookup l media with
      | .found c =>
        if m.items.any (fun i => i.label == l && i.status == .loaded) || c.custody == .reserved m.id ||
            c.custody == .picked m.id then .accepted
        else .rejected
      | _ => .rejected

/-- The move after the verdicts of a load scan (R96), or of the scan of a LOAD resume (R117): a resume that accepts
nothing lets the manifest go, also where a position is REJECTED, since R117 says so of the resume alone (log entry 16). -/
def afterLoad (h : HatchId) (resumed : Bool) (t : Tray) (s : State) : State :=
  if resumed && !hasVerdict t .accepted then letGo h s
  else if hasVerdict t .rejected then unlock h .inner (toPhase h .loadReject (setClass h .load s))
  else if hasVerdict t .accepted then toPhase h .awaitCourier (setClass h .wait s)
  else letGo h s

/-- The end of a load scan (R95, R96), or of a resume scan taken as one (R117). -/
def loadScanEnd (h : HatchId) (resumed : Bool) (t : Tray) (s : State) : State :=
  match s.activeManifest h with
  | none => setTray h t s
  | some m =>
    let t := withVerdicts t (loadVerdict s m t)
    let s := forLabels (fun l s => s.moveItem m.id l (·.enter (.inHatchOut m.id)) .loaded)
      ((acceptedLabels t).map Prod.fst) s
    let s := forLabels (fun l s => s.moveItem m.id l (·.enter (.picked m.id)) .picked)
      (goneFrom t (m.labelsIn .loaded)) s
    afterLoad h resumed t (saveTray h (setTray h t s))

/-! ### Rejects -/

/-- The REJECTED positions of the record's tray found EMPTY, entered as REJECTED-REMOVED (R105). The side is that of the
shutter last opened, and none where none is recorded; where one scan finds several they are entered in ascending
position, and so stand in the receipt (R112). Both are the model's choice (log entry 10). -/
def enterRemoved (h : HatchId) (t : Tray) (s : State) : State :=
  match s.handover h with
  | none => s
  | some r =>
    ((List.finRange 24).filter fun p => r.tray[p].verdict == .rejected && t[p].presence == .empty).foldl
      (fun s p => addEntry h
        { label := (labelAt r.tray p).map Prod.fst, result := .rejectedRemoved, side := s.hatch[h].lastOpened } s) s

/-- Entry to HELD-STUCK: the outer shutter locked and HATCH-STUCK posted (R105). -/
def toStuck (h : HatchId) (s : State) : State :=
  let s := s.modShutter h .outer engage
  let s := post (.hatchStuck h s.hatch[h].manifest (verdictPositions s.hatch[h].tray .rejected)) s
  (toPhase h .heldStuck s).modHatch h fun x => { x with rejectTimer := none, rejectExpired := false }

/-- Entry to REJECT-CLEAR with its timer and the outer shutter unlocked (R105). -/
def toRejectClear (h : HatchId) (s : State) : State :=
  let s := (toPhase h .rejectClear s).modHatch h fun x =>
    { x with rejectTimer := some (s.hatchSettings h).rejectTimeout, rejectExpired := false }
  unlock h .outer s

/-- A reconcile scan that leaves a REJECTED position (R105, R106): HELD-STUCK stays, REJECT-CLEAR unlocks again or
is stuck where its timer has expired, and a first scan enters REJECT-CLEAR. -/
def rejectsRemain (h : HatchId) (s : State) : State :=
  match s.hatch[h].phase with
  | .heldStuck => s
  | .rejectClear => if s.hatch[h].rejectExpired then toStuck h s else unlock h .outer s
  | _ => toRejectClear h s

/-- A reconcile scan with no REJECTED position stops the reject-clear timer (R105). -/
def rejectsGone (h : HatchId) (s : State) : State :=
  s.modHatch h fun x => { x with rejectTimer := none, rejectExpired := false }

/-! ### Outbound reconcile -/

/-- The side that decides a LOADED item gone from the tray: the last side opened, and a free choice where none stands
(R99 step 1, log entry 4). -/
def goneSide (h : HatchId) (s : State) : Side × State :=
  match s.hatch[h].lastOpened with
  | some sd => (sd, s)
  | none => (if Config.goneByOuter s.choice then .outer else .inner, { s with choice := s.choice + 1 })

/-- A LOADED item taken by a side: DEPARTED and OUT by the outer, LEFT and RESHELVE by the inner (R99 step 1). -/
def takenBy (h : HatchId) (m : Manifest) (sd : Side) (l : Text) (s : State) : State :=
  match sd with
  | .outer =>
    addEntry h { label := some l, result := .departed } (s.moveItem m.id l (Cartridge.depart m.courier) .departed)
  | .inner => addEntry h { label := some l, result := .left } (s.moveItem m.id l (·.enter .reshelve) .left)

/-- Step 1 of R99. -/
def settleGone (h : HatchId) (m : Manifest) (t : Tray) (s : State) : State :=
  match goneFrom t (m.labelsIn .loaded) with
  | [] => s
  | gone => forLabels (takenBy h m (goneSide h s).1) gone (goneSide h s).2

/-- The verdict of a position in an outbound reconcile (R99 step 2). -/
def outboundVerdict (m : Manifest) (t : Tray) (p : TrayIdx) : Verdict :=
  match t[p].presence with
  | .empty => .none
  | .unreadable _ => .rejected
  | .present l _ => if !seenBefore t p l && (m.labelsIn .loaded).contains l then .accepted else .rejected

/-- UNLOAD, or RECEIPT-PENDING where the tray is EMPTY (R99, R100, R117). -/
def toUnload (h : HatchId) (t : Tray) (s : State) : State :=
  if trayEmpty t then toReceipt h s else unlock h .inner (toPhase h .unload s)

/-- Step 4 of R99: what is still on the tray is LEFT. -/
def finishOutbound (h : HatchId) (m : Manifest) (t : Tray) (s : State) : State :=
  let left := m.labelsIn .loaded
  let t := withVerdicts t fun _ => .none
  let s := forLabels (takenBy h m .inner) left (rejectsGone h s)
  let s := setTray h t s
  if left.isEmpty then toReceipt h (saveTray h s)
  else unlock h .inner (toPhase h .unload (saveTray h (setClass h .outUnload s)))

/-- The end of an outbound reconcile scan (R99, R105). -/
def outboundScanEnd (h : HatchId) (t : Tray) (s : State) : State :=
  let s := enterRemoved h t s
  match s.activeManifest h with
  | none => setTray h t s
  | some m0 =>
    let s := settleGone h m0 t s
    let m := (s.activeManifest h).getD m0
    let t := withVerdicts t (outboundVerdict m t)
    let s := saveTray h (setTray h t s)
    if hasVerdict t .rejected then rejectsRemain h s else finishOutbound h m t s

/-! ### Inbound reconcile -/

/-- The classes of R104. -/
inductive InboundClass where
  | reject | manifest | cross
  deriving DecidableEq, Repr

/-- The class of a PRESENT position in an inbound reconcile, none for an EMPTY one (R104). -/
def inboundClass (s : State) (m : Manifest) (t : Tray) (p : TrayIdx) : Option InboundClass :=
  match t[p].presence with
  | .empty => none
  | .unreadable _ => some .reject
  | .present l media =>
    if seenBefore t p l then some .reject
    else
      match s.lookup l media with
      | .found c =>
        match c.custody, m.items.find? (·.label == l) with
        | .out _, some i => if i.status = .expected then some .manifest else some .reject
        | .out _, none => some .cross
        | _, _ => some .reject
      | _ => some .reject

/-- The tray after an inbound reconcile with no reject: manifest and cross positions ACCEPTED (R104). -/
def acceptedTray (s : State) (m : Manifest) (t : Tray) : Tray :=
  Vector.ofFn fun p : TrayIdx =>
    match inboundClass s m t p with
    | some .manifest => { t[p] with verdict := .accepted, cross := false, hold := none }
    | some .cross => { t[p] with verdict := .accepted, cross := true, hold := none }
    | _ => t[p]

/-- CONDITIONING entered: conditions UNKNOWN, outputs off, the limit count from 0, the risk mark clear (R107,
R117). -/
def toConditioning (h : HatchId) (s : State) : State :=
  let s := s.modHandover h fun r => { r with phaseClass := .inCondition, risk := false }
  (toPhase h .conditioning s).modHatch h fun x =>
    { x with
      purge := .unknown, condensation := .unknown, purgeOn := false, heaterOn := false, limitCount := 0,
      limitPosted := false, risk := false }

/-- A cartridge accepted from the courier's tray (R104 steps 1 and 2). -/
def receiveOne (h : HatchId) (m : Manifest) (a : Text × TrayPos) (s : State) : State :=
  if a.2.cross then
    addEntry h { label := some a.1, result := .cross } (s.modCartridge a.1 (Cartridge.receive m.id true))
  else s.moveItem m.id a.1 (Cartridge.receive m.id false) .received

/-- An EXPECTED item that was not on the tray (R104 step 3). -/
def Manifest.expire (m : Manifest) : Manifest :=
  { m with items := m.items.map fun i => if i.status = .expected then { i with status := .notReturned } else i }

/-- The end of an inbound reconcile scan (R104, R105). -/
def inboundScanEnd (h : HatchId) (t : Tray) (s : State) : State :=
  let s := enterRemoved h t s
  match s.activeManifest h with
  | none => setTray h t s
  | some m =>
    let isReject (p : TrayIdx) : Bool := inboundClass s m t p == some .reject
    if (List.finRange 24).any isReject then
      let t := withVerdicts t fun p => if isReject p then .rejected else .none
      rejectsRemain h (saveTray h (setTray h t s))
    else
      let t := acceptedTray s m t
      let s := (acceptedLabels t).foldl (fun s a => receiveOne h m a s) (rejectsGone h s)
      let s := saveTray h (setTray h t (s.modManifest m.id Manifest.expire))
      if hasVerdict t .accepted then toConditioning h s else toReceipt h s

/-- The end of a reconcile scan of the handover's direction. -/
def reconcileScanEnd (h : HatchId) (t : Tray) (s : State) : State :=
  match s.handover h with
  | none => setTray h t s
  | some r =>
    match r.direction with
    | .out => outboundScanEnd h t s
    | .in_ => inboundScanEnd h t s

/-! ### Unloading -/

/-- In an UNLOAD of class ABORT-UNLOAD, each LOADED item found nowhere goes back to PICKED with its entry (R100,
R112). -/
def unloadGone (h : HatchId) (t : Tray) (s : State) : State :=
  match s.activeManifest h with
  | none => s
  | some m =>
    forLabels (fun l s => addEntry h { label := some l, result := .left }
      (s.moveItem m.id l (·.enter (.picked m.id)) .picked)) (goneFrom t (m.labelsIn .loaded)) s

/-- The unload is one after an abort. -/
def State.aborting (s : State) (h : HatchId) : Bool :=
  match s.handover h with
  | some r => r.phaseClass == .abortUnload
  | none => false

/-- The end of an unload scan (R100). -/
def unloadScanEnd (h : HatchId) (t : Tray) (s : State) : State :=
  let s := if s.aborting h then unloadGone h t s else s
  toUnload h t (saveTray h (setTray h t s))

/-! ### Conditioning -/

/-- A condition from a comparison of two readings, UNKNOWN where either is missing (R107). -/
def gateCond (a b : Option Int) (met : Int → Int → Bool) : GateCond :=
  match a, b with
  | some a, some b => if met a b then .met else .failing
  | _, _ => .unknown

/-- The dew point's value where VALID. -/
def DewPoint.toInt? : DewPoint → Option Int
  | .valid td _ _ _ => some td
  | .invalid => none

/-- The purge condition (R107). -/
def purgeCond (h : HatchId) (s : State) : GateCond :=
  let z := s.hatchZone h
  gateCond s.hatch[h].rh.value.toInt? s.climate[z].rh.value.toInt? fun a b =>
    decide (a ≤ b + (s.hatchSettings h).purgeBand)

/-- The condensation condition (R107). -/
def condensationCond (h : HatchId) (s : State) : GateCond :=
  let z := s.hatchZone h
  gateCond s.hatch[h].probe.value.toInt? s.climate[z].dew.toInt? fun a b =>
    decide (a ≥ b + (s.hatchSettings h).condMargin)

/-- The hold of a tray position computed and kept, with NO-EXPOSURE set on the record where there is no summary (R62
to R64). -/
def keepHold (h : HatchId) (m : Manifest) (risk : Bool) (s : State) : State :=
  let z := s.hatchZone h
  let hold := holdFor s.store.hold (s.climateSettings z).tset (s.climateSettings z).hset m.exposure risk
  let accepted := (acceptedLabels s.hatch[h].tray).map Prod.fst
  let s := s.modHatch h fun x =>
    { x with tray := x.tray.map fun p => if p.verdict = .accepted then { p with hold := some hold } else p }
  forLabels (fun l s => s.modCartridge l fun c =>
    { c with
      noExposure := c.noExposure || m.exposure.isNone, condensationReleased := c.condensationReleased || risk })
    accepted s

/-- The gate opens (R108, R110): outputs off, the risk mark set or cleared, a hold kept with every ACCEPTED position,
STAFF-ACCESS with the inner shutter unlocked. -/
def openGate (h : HatchId) (risk : Bool) (s : State) : State :=
  let s := match s.activeManifest h with
    | some m => keepHold h m risk s
    | none => s
  let s := s.modHatch h fun x => { x with purgeOn := false, heaterOn := false, risk := risk }
  let s := saveTray h (s.modHandover h fun r => { r with phaseClass := .inStaff, risk := risk })
  unlock h .inner (toPhase h .staffAccess s)

/-- The gate evaluated at a completion of a group 2 scan (R107). -/
def evaluateGate (h : HatchId) (s : State) : State :=
  if s.hatch[h].phase = .conditioning then
    let p := purgeCond h s
    let c := condensationCond h s
    let s := s.modHatch h fun x =>
      { x with purge := p, condensation := c, purgeOn := p == .failing, heaterOn := c == .failing }
    if p = .met ∧ c = .met then openGate h false s else s
  else s

/-- A minute handed to a hatch controller (R109). A count that a lower COND-LIMIT has been written under has reached the
limit at its next minute: the model's choice (log entry 16). -/
def hatchMinute (h : HatchId) (s : State) : State :=
  let x := s.hatch[h]
  if x.phase = .conditioning then
    let s := s.modHatch h fun x => { x with limitCount := x.limitCount + 1 }
    if (s.hatchSettings h).condLimit ≤ x.limitCount + 1 ∧ !x.limitPosted then
      post (.conditionTimeout h x.manifest x.purge x.condensation)
        (s.modHatch h fun x => { x with limitPosted := true })
    else s
  else s

/-- An ACCEPTED cartridge removed in STAFF-ACCESS, or found gone at a resume of class IN-STAFF: its hold handed to the
custody table and its result entered (R111, R117). -/
def takenToStaff (h : HatchId) (l : Text) (p : TrayPos) (s : State) : State :=
  addEntry h { label := some l, result := if p.cross then .cross else .received, hold := p.hold }
    (takeHold l (p.hold.getD 0) s)

/-- STAFF-ACCESS ends where the tray is EMPTY and the inner shutter closed and locked (R111). A tray EMPTY under a shutter
CLOSED but still UNLOCKED waits for the lock: the model's choice (log entry 16). -/
def staffDone (h : HatchId) (s : State) : State :=
  if s.hatch[h].phase = .staffAccess ∧ trayEmpty s.hatch[h].tray ∧ s.hatch[h].inner.secured then toReceipt h s else s

/-! ### Fire hold -/

/-- The class a hatch remembers on entry to HELD-FIRE (R115 step 5). -/
def rememberedClass (h : HatchId) (s : State) : Option PhaseClass :=
  match s.hatch[h].phase with
  | .idle => none
  | .standby => none
  | .query => none
  | .receiptPending => some .receipt
  | p =>
    match s.handover h with
    | some r => p.phaseClass r.direction r.phaseClass
    | none => none

/-- A query ends without a manifest (R103): red for 3 s and QUERY-ENDED. -/
def endQuery (h : HatchId) (cause : QueryEnd) (s : State) : State :=
  match s.hatch[h].query with
  | none => s
  | some q =>
    post (.queryEnded h q.courier cause)
      (light h .red (some 3) (s.modHatch h fun x => { x with query := none }))

/-- A scan in flight whose readings will be set aside (R115 step 3). -/
def asideScan (x : Hatch) : Hatch := { x with scan := x.scan.map fun _ => .setAside }

/-- The zone enters the fire hold set (R115). A hatch already in HELD-FIRE keeps its class and its remembered tray
(R117). -/
def holdHatch (h : HatchId) (s : State) : State :=
  let s := s.modHatch h fun x => asideScan { x.bothShutters engage with unlockDue := none }
  if s.hatch[h].phase = .heldFire then s
  else
    let c := rememberedClass h s
    let s := if s.hatch[h].phase = .query then endQuery h .fire s else s
    s.modHatch h fun x =>
      { x with
        phase := .heldFire, heldClass := c, heldTray := some x.tray, idle := none, purgeOn := false, heaterOn := false,
        rejectTimer := none, rejectExpired := false, readerOn := true }

/-- A fire state handed to a hatch controller (R90, R115, R117). -/
def hatchTakesFire (h : HatchId) (left entered : FireState) (s : State) : State :=
  let s := if !left.holds && entered.holds then holdHatch h s else s
  let s := if entered = .predischarge ∧ left ≠ .predischarge then s.modHatch h (·.bothShutters driveCloser) else s
  if left.holds && !entered.holds then
    let s := s.modHatch h (·.bothShutters stopCloser)
    if s.hatch[h].phase = .heldFire then startScan h .resume s else s
  else s

/-! ### Resume and recovery -/

/-- A cartridge found gone: MISSING, its outbound item LEFT, its entry made and CARTRIDGE-MISSING posted (R83, R117,
R121). -/
def goesMissing (h : HatchId) (r : Handover) (mark : Bool) (l : Text) (p : TrayPos) (s : State) : State :=
  let s := match r.direction with
    | .out => s.moveItem r.manifest l (·.enter .missing) .left
    | .in_ => s.modCartridge l (·.enter .missing)
  let result : EntryResult := match r.direction with
    | .out => .left
    | .in_ => if p.cross then .cross else .received
  post (.cartridgeMissing h l) (addEntry h { label := some l, result := result, hold := p.hold, missing := mark } s)

/-- One ACCEPTED label of the remembered tray that the resume scan found nowhere (R117, R121). -/
def settleLost (h : HatchId) (r : Handover) (recovering : Bool) (a : Text × TrayPos) (s : State) : State :=
  if recovering then goesMissing h r true a.1 a.2 s
  else
    match r.phaseClass with
    | .wait => goesMissing h r false a.1 a.2 s
    | .inCondition => goesMissing h r true a.1 a.2 s
    | .inStaff => takenToStaff h a.1 a.2 s
    | _ => s

/-- The remembered verdicts given again: each remembered ACCEPTED label at the first position where the scan finds it,
with its hold and its CROSS-MANIFEST mark (R117). -/
def reaccept (held t : Tray) : Tray :=
  Vector.ofFn fun p : TrayIdx =>
    match labelAt t p with
    | none => t[p]
    | some (l, _) =>
      if seenBefore t p l then t[p]
      else
        match (acceptedLabels held).find? (·.1 == l) with
        | some a => { t[p] with verdict := .accepted, hold := a.2.hold, cross := a.2.cross }
        | none => t[p]

/-- The phase a class resumes in (R117), the scan's tray being `t` and the tray with its verdicts given again `u`. -/
def resumeIn (h : HatchId) (c : PhaseClass) (t u : Tray) (s : State) : State :=
  match c with
  | .load => loadScanEnd h true t (toPhase h .loadScan s)
  | .wait => toPhase h .awaitCourier (saveTray h (setTray h u s))
  | .outAccess => outboundScanEnd h t (toPhase h .reconcile s)
  | .outUnload => toUnload h u (saveTray h (setTray h u s))
  | .abortUnload => toUnload h u (saveTray h (setTray h u (unloadGone h t s)))
  | .inAccess => inboundScanEnd h t (toPhase h .reconcile s)
  | .inCondition => toConditioning h (saveTray h (setTray h u s))
  | .inStaff => toConditioning h (saveTray h (setTray h u s))
  | .receipt => toPhase h .receiptPending (setTray h t s)

/-- The end of a resume scan (R117, R121). The labels found nowhere are dealt with in ascending position of the remembered
tray, and so stand their CARTRIDGE-MISSING reports: a fixed order of the model's (log entry 2). -/
def resumeHatch (h : HatchId) (t : Tray) (s : State) : State :=
  let x := s.hatch[h]
  let held := x.heldTray.getD x.tray
  let s := s.modHatch h fun x => { x with heldClass := none, heldTray := none, recovering := false }
  match x.heldClass, s.handover h with
  | none, _ => enterIdle h (setTray h t s)
  | some .receipt, _ => resumeIn h .receipt t t s
  | some _, none => enterIdle h (setTray h t s)
  | some c, some r =>
    let lost := (acceptedLabels held).filter fun a => !onTray t a.1
    let s := lost.foldl (fun s a => settleLost h { r with phaseClass := c } x.recovering a s) s
    resumeIn h c t (reaccept held t) s

/-- The end of a tray scan (R92): the table rewritten from it and the rule that started it taken on; readings set
aside leave the table as it was (R115). -/
def scanEnds (h : HatchId) (reads : Vector TrayRead 24) (s : State) : State :=
  let t := scannedTray s.hatch[h].sensors reads
  match s.hatch[h].scan with
  | none => s
  | some why =>
    let s := s.modHatch h fun x => { x with scan := none }
    match why with
    | .load => loadScanEnd h false t s
    | .unload => unloadScanEnd h t s
    | .reconcile => reconcileScanEnd h t s
    | .resume => resumeHatch h t s
    | .setAside => s

/-! ### What the phase does when a shutter closes or relocks -/

/-- The phase is told that a shutter closed (R94, R96, R98, R100, R105, R106, R111). -/
def phaseClosed (h : HatchId) (sd : Side) (s : State) : State :=
  match s.hatch[h].phase, sd with
  | .loading, .inner => startScan h .load (toPhase h .loadScan s)
  | .loadReject, .inner => startScan h .load s
  | .courierAccess, .outer => startScan h .reconcile (toPhase h .reconcile s)
  | .rejectClear, .outer => startScan h .reconcile s
  | .heldStuck, _ => startScan h .reconcile s
  | .unload, .inner => startScan h .unload s
  | .staffAccess, .inner => staffDone h s
  | _, _ => s

/-- The phase is told that a shutter relocked unopened (R94, R98, R100, R105, R106, R111). -/
def phaseRelocked (h : HatchId) (sd : Side) (s : State) : State :=
  match s.hatch[h].phase, sd with
  | .courierAccess, .outer =>
    match s.handover h with
    | some r =>
      match r.direction with
      | .out => toPhase h .awaitCourier (setClass h .wait s)
      | .in_ => letGo h s
    | none => s
  | .rejectClear, .outer => unlock h .outer s
  | .staffAccess, .inner => staffDone h s
  | _, _ => s

/-- The last side opened, with the burst event of an inner opening (R89). -/
def recordOpening (h : HatchId) (sd : Side) (s : State) : State :=
  let s := s.modHatch h fun x => { x with lastOpened := some sd }
  match sd with
  | .outer => s
  | .inner => burstEvent (s.hatchZone h) s

/-- A hatch controller at a start, before its zone's fire state is taken (R120, R121). -/
def startHatch (h : HatchId) (s : State) : State :=
  let x := s.hatch[h]
  let st := s.hatchSettings h
  let start (sh : Shutter) : Shutter := driveCloser { sensorOpen := sh.sensorOpen }
  let fresh : Hatch :=
    { outer := start x.outer, inner := start x.inner, sensors := x.sensors, tray := trayFromSensors x.sensors,
      rh := x.rh, temp := x.temp, probe := x.probe }
  match s.handover h, s.store.receipt[h] with
  | some r, _ =>
    (s.setHandover h (some { r with recovered := true })).setHatch h
      { fresh with
        phase := .heldFire, heldClass := some r.phaseClass, heldTray := some r.tray, recovering := true,
        manifest := some r.manifest, risk := r.risk }
  | none, some c => s.setHatch h { fresh with phase := .receiptPending, manifest := some c.manifest }
  | none, none => s.setHatch h (fresh.toIdle st.standbyTime)

end Sys2Proof.Machine
end

