-- ==== Sys2Proof/Machine/HatchCommands.lean ====
section
/-!
DEFINITION. The commands of the hatch controllers (chapter 5): the host's requests, the hatch rows of WRITE-SETTING,
badges, shutters, closers, the tray, and the timers.
-/

namespace Sys2Proof.Machine

/-! ### Requests -/

/-- Why a manifest cannot be taken up by LOAD-HATCH (R93 check 5). -/
def loadRefusal (h : HatchId) (m : Manifest) : Option RefusedFor :=
  if m.direction = .in_ then some .wrongDirection
  else if m.hatch ≠ h then some .wrongHatch
  else if m.active then some .active
  else if m.workLeft then none
  else some .nothingToLoad

/-- The take-up of an outbound manifest (R93). -/
def beginLoad (h : HatchId) (m : Manifest) (s : State) : State :=
  unlock h .inner (toPhase h .loading (beginHandover h m .load (takeUp m.id s)))

/-- LOAD-HATCH (R93). -/
def loadHatch (hatch id : Int) : Request :=
  onHatch hatch fun h s =>
    if s.hatch[h].phase = .heldFire ∨ s.held (s.hatchZone h) then answer .fireHold .empty s
    else if s.hatch[h].phase ≠ .idle then answer .busy .empty s
    else
      match s.manifestNamed id with
      | none => answer .notFound .empty s
      | some m =>
        match loadRefusal h m with
        | some r => answer .refused (.refusedFor r) s
        | none => (beginLoad h m s, { word := .ok })

/-- A query ends by decline or expiry (R103). -/
def closeQuery (h : HatchId) (cause : QueryEnd) (s : State) : State := enterIdle h (endQuery h cause s)

/-- An inbound handover begun: the indicator green, COURIER-ACCESS (R102, R103). -/
def beginInbound (h : HatchId) (m : Manifest) (s : State) : State :=
  toCourierAccess h (light h .green (some 3) (beginHandover h m .inAccess s))

/-- The answer of a query handed to the manifest table (R77, R103). The reply of an accepted answer carries `validity=`
beside `id=`, as that of a submission does (R73), where R77 and R103 name the ID alone; and where the validity or a value
of the summary was clamped it is CLAMPED and lists the values used, as R76 has it, by which R77 has the answer checked,
where R103 says OK. Both are the model's choice (log entry 3). -/
def answerItems (h : HatchId) (courier : Nat) (items : List Text) (a : AnswerFields) : Request := fun s =>
  if submissionOk courier items then
    match submitChecked .in_ h courier (a.validity.getD 60) items true a.summary s with
    | ((t, ans), some m) => (beginInbound h m t, ans)
    | ((t, ans), none) => (t, ans)
  else answer .badValue .empty s

/-- ANSWER-QUERY (R77, R103). -/
def answerQuery (hatch : Int) (a : AnswerFields) : Request := fun s =>
  match partialSummary a.summary, a.decline, a.items with
  | some missing, _, _ => badRequest missing s
  | none, none, none => badRequest "items" s
  | none, decline, items =>
    onHatch hatch (fun h s =>
      match s.hatch[h].phase, s.hatch[h].query with
      | .query, some q =>
        match decline, items with
        | some d, _ =>
          if d = "YES".toList then (closeQuery h .declined s, { word := .ok }) else answer .badValue .empty s
        | none, some ls => answerItems h q.courier ls a s
        | none, none => answer .badValue .empty s
      | _, _ => answer .tooLate .empty s) s

/-- ABORT-HANDOVER (R101). -/
def abortHandover (hatch : Int) : Request :=
  onHatch hatch fun h s =>
    match s.hatch[h].phase with
    | .awaitCourier => (unlock h .inner (toPhase h .unload (setClass h .abortUnload s)), { word := .ok })
    | .query => (closeQuery h .declined s, { word := .ok })
    | .heldFire => answer .fireHold .empty s
    | _ => answer .refused .empty s

/-- RELEASE-HATCH (R110). -/
def releaseHatch (hatch : Int) : Request :=
  onHatch hatch fun h s =>
    match s.hatch[h].phase with
    | .conditioning =>
      let risk := s.hatch[h].condensation != .met
      (openGate h risk s, { word := .ok, body := .risk risk })
    | .heldFire => answer .fireHold .empty s
    | _ => answer .refused .empty s

/-- CLEAR-STUCK (R106): BUSY while a scan is in flight or a shutter it unlocked is not yet relocked. Two points are the
model's choice (log entry 16): the side is judged first, so that one that names nothing is BAD-VALUE in every phase; and
a request made while an earlier unlock is only kept due is answered OK and puts its own side in that one's place. -/
def clearStuck (hatch : Int) (side : Text) : Request :=
  onHatch hatch fun h s =>
    match wordOf sideWords side with
    | none => answer .badValue .empty s
    | some sd =>
      match s.hatch[h].phase with
      | .heldStuck =>
        if s.hatch[h].scan.isSome || !s.hatch[h].outer.locked || !s.hatch[h].inner.locked then answer .busy .empty s
        else (unlock h sd s, { word := .ok })
      | .heldFire => answer .fireHold .empty s
      | _ => answer .refused .empty s

/-- FETCH-RECEIPT (R113). -/
def fetchReceipt (hatch : Int) (start : Option Int) : Request :=
  onHatch hatch fun h s =>
    match s.store.receipt[h] with
    | none => answer .notFound .empty s
    | some r =>
      let p := pageOf 1 8 (start.getD 1) r.entries
      (s, { word := .ok, body := .receipt r (p.1.map Prod.snd) p.2 })

/-- The hatch once its receipt is cleared (R113). -/
def afterReceipt (h : HatchId) (s : State) : State :=
  match s.hatch[h].phase with
  | .receiptPending => enterIdle h s
  | .heldFire => s.modHatch h fun x => { x with heldClass := none, manifest := none }
  | _ => s

/-- Whether a settled manifest returns to OPEN. -/
def willReopen (id : Nat) (s : State) : Bool :=
  match s.manifest? id with
  | some m => m.reopens
  | none => false

/-- CLEAR-RECEIPT (R84, R113). -/
def clearReceipt (hatch : Int) : Request :=
  onHatch hatch fun h s =>
    match s.store.receipt[h] with
    | none => answer .notFound .empty s
    | some r =>
      let t := settle r.manifest (s.setStore { s.store with receipt := s.store.receipt.set h none })
      (afterReceipt h t, { word := .ok, body := .settled r.manifest (willReopen r.manifest s) })

/-- READ-HATCH (R119): the summary, or 12 tray positions from the one named. -/
def readHatch (hatch : Int) (tray : Option Int) : Request :=
  onHatch hatch fun h s =>
    match tray with
    | none =>
      (s, { word := .ok, body := .hatch {
        live := s.hatch[h], receiptHeld := s.receiptHeld h, recordHeld := (s.handover h).isSome } })
    | some k =>
      match indexOf 24 k with
      | none => answer .badValue .empty s
      | some p =>
        let page := pageOf 1 12 (num p) s.hatch[h].tray.toList
        (s, { word := .ok, body := .tray page.1 page.2 })

/-! ### Settings -/

/-- The hatch's zone changed, with the new zone's fire state taken as it stands (R87). Where that state is PREDISCHARGE and
the old zone's is not, the closers are driven as on an entry to it (R90): the model's choice (log entry 12). -/
def moveHatch (h : HatchId) (z : Zone) (s : State) : State :=
  hatchTakesFire h (s.fireState (s.hatchZone h)) (s.fireState z)
    (s.setHatchSettings h { s.hatchSettings h with zone := z })

/-- WRITE-SETTING of HATCH-ZONE (R87). -/
def writeHatchZone (index value : Option Int) : Request :=
  indexedSetting index value (indexOf 2) fun h v s =>
    match indexOf 4 v with
    | none => answer .badValue .empty s
    | some z =>
      if s.hatch[h].phase = .idle ∨ s.hatch[h].phase = .standby then
        (if z = s.hatchZone h then s else moveHatch h z s, { word := .ok })
      else answer .busy .empty s

/-- The value used for a hatch setting (R87). -/
def usedTiming (n : HatchTiming) (v : Int) : Int :=
  match n with
  | .unlockTimeout => clamp 10 120 v
  | .openAlarm => clamp 30 900 v
  | .queryWait => clamp 15 600 v
  | .rejectTimeout => clamp 60 1800 v
  | .condLimit => clamp 10 1440 v
  | .standbyTime => clamp 60 3600 v
  | .purgeBand => clamp 0 200 v
  | .condMargin => clamp 0 100 v

/-- A hatch setting written. -/
def HatchSettings.write (st : HatchSettings) (n : HatchTiming) (v : Int) : HatchSettings :=
  match n with
  | .unlockTimeout => { st with unlockTimeout := v.toNat }
  | .openAlarm => { st with openAlarm := v.toNat }
  | .queryWait => { st with queryWait := v.toNat }
  | .rejectTimeout => { st with rejectTimeout := v.toNat }
  | .condLimit => { st with condLimit := v.toNat }
  | .standbyTime => { st with standbyTime := v.toNat }
  | .purgeBand => { st with purgeBand := v }
  | .condMargin => { st with condMargin := v }

/-- A hatch setting read. -/
def HatchSettings.read (st : HatchSettings) : HatchTiming → Int
  | .unlockTimeout => st.unlockTimeout
  | .openAlarm => st.openAlarm
  | .queryWait => st.queryWait
  | .rejectTimeout => st.rejectTimeout
  | .condLimit => st.condLimit
  | .standbyTime => st.standbyTime
  | .purgeBand => st.purgeBand
  | .condMargin => st.condMargin

/-- WRITE-SETTING of a hatch setting other than HATCH-ZONE (R87). -/
def writeHatchTiming (n : HatchTiming) (index value : Option Int) : Request :=
  indexedSetting index value (indexOf 2) fun h v s =>
    (s.setHatchSettings h ((s.hatchSettings h).write n (usedTiming n v)), usedAnswer v (usedTiming n v))

/-! ### Badges and buttons -/

/-- A badge at an IDLE hatch (R102, R103): the manifest found is taken up, or a query begins. -/
def badgeInIdle (h : HatchId) (courier : Nat) (s : State) : State :=
  match s.inboundFor h courier with
  | some m => beginInbound h m (takeUp m.id s)
  | none =>
    let s := (toPhase h .query s).modHatch h fun x =>
      { x with query := some { courier := courier, wait := (s.hatchSettings h).queryWait } }
    light h .amber none (post (.manifestQuery h courier) s)

/-- A badge at a hatch in AWAIT-COURIER (R97). -/
def badgeInAwait (h : HatchId) (courier : Nat) (s : State) : State :=
  match s.activeManifest h with
  | none => s
  | some m =>
    if m.courier = courier then toCourierAccess h (setClass h .outAccess (light h .green (some 3) s))
    else post (.badgeMismatch h courier m.id) (light h .red (some 3) s)

/-- A badge read; none is one the reader cannot decode (R97, R102). While a scan is in flight badges are ignored (R92),
at a hatch in HELD-FIRE too, where R116 shows red: R92 over R116 is the model's choice (log entry 16). A badge that
cannot be decoded shows red in IDLE too and amber in RECEIPT-PENDING, R102 over R97: the model's choice (log entry 16). -/
def badgeTaken (h : HatchId) (badge : Option Nat) (s : State) : State :=
  let s := wake h s
  if s.hatch[h].scan.isSome then s
  else
    match s.hatch[h].phase, badge with
    | .idle, some c => badgeInIdle h c s
    | .idle, none => light h .red (some 3) s
    | .awaitCourier, some c => badgeInAwait h c s
    | .awaitCourier, none => light h .red (some 3) s
    | .receiptPending, _ => light h .amber (some 3) s
    | .heldFire, _ => light h .red (some 3) s
    | _, _ => s

/-- The phases in which the inner request button is taken (R89). -/
def Phase.takesButton : Phase → Bool
  | .loading => true
  | .loadReject => true
  | .unload => true
  | .staffAccess => true
  | _ => false

/-- The inner request button (R89, R92). -/
def buttonPressed (h : HatchId) (s : State) : State :=
  let x := s.hatch[h]
  if x.phase.takesButton && x.scan.isNone && x.inner.secured then unlock h .inner s else s

/-! ### Shutters -/

/-- A shutter's position sensor as an input. -/
def sensorReads (h : HatchId) (sd : Side) (isOpen : Bool) (s : State) : State :=
  s.modShutter h sd fun sh => { sh with sensorOpen := isOpen }

/-- An UNLOCKED shutter's sensor reads OPEN (R89). -/
def shutterOpens (h : HatchId) (sd : Side) (s : State) : State :=
  if (s.hatch[h].shutter sd).unlocked then
    let s := s.modShutter h sd fun sh =>
      { sh with sensorOpen := true, unlock := none, openAlarm := some (s.hatchSettings h).openAlarm }
    recordOpening h sd (wake h s)
  else s

/-- An OPEN shutter's sensor reads CLOSED (R89): locked at once, the phase told. -/
def shutterCloses (h : HatchId) (sd : Side) (s : State) : State :=
  if (s.hatch[h].shutter sd).isOpen then
    let s := s.modShutter h sd fun sh => { engage (stopCloser sh) with sensorOpen := false }
    serveDue h (phaseClosed h sd (wake h s))
  else s

/-- A LOCKED shutter's sensor reads OPEN (R89). -/
def shutterForced (h : HatchId) (sd : Side) (s : State) : State :=
  if (s.hatch[h].shutter sd).secured then
    let s := sensorReads h sd true s
    recordOpening h sd (post (.shutterForced h sd) (wake h s))
  else s

/-- A LOCKED shutter's sensor reads CLOSED: only a catch (R89, R116). That it ends no STAFF-ACCESS, an EMPTY tray or not,
is the model's choice (R89 over R111, log entry 16). -/
def shutterCaught (h : HatchId) (sd : Side) (s : State) : State :=
  let sh := s.hatch[h].shutter sd
  if sh.locked && sh.sensorOpen then
    let s := s.modShutter h sd fun sh => { stopCloser sh with sensorOpen := false }
    serveDue h (wake h s)
  else s

/-- The unlock timer expires with the sensor CLOSED (R89): locked again, the phase told. -/
def unlockExpires (h : HatchId) (sd : Side) (s : State) : State :=
  let sh := s.hatch[h].shutter sd
  if sh.unlocked && sh.unlock.isSome then serveDue h (phaseRelocked h sd (s.modShutter h sd engage)) else s

/-- The open alarm time has passed (R90). -/
def openTooLong (h : HatchId) (sd : Side) (s : State) : State :=
  let sh := s.hatch[h].shutter sd
  if sh.isOpen && sh.openAlarm.isSome then
    post (.shutterOpenLong h sd s.hatch[h].phase) (s.modShutter h sd fun sh => { sh with openAlarm := none })
  else s

/-- A driven shutter is not closed after 10 s (R90); the closer is driven on. -/
def notSecured (h : HatchId) (sd : Side) (s : State) : State :=
  let sh := s.hatch[h].shutter sd
  if sh.closer && sh.closerTimer.isSome then
    post (.shutterNotSecured h sd) (s.modShutter h sd fun sh => { sh with closerTimer := none })
  else s

/-! ### The tray -/

/-- A presence sensor as an input. -/
def presenceReads (h : HatchId) (p : TrayIdx) (occupied : Bool) (s : State) : State :=
  s.modHatch h fun x => { x with sensors := x.sensors.set p occupied }

/-- A presence sensor changes (R91), with the custody change of STAFF-ACCESS (R111). R91 has the live table follow the
sensors between scans; that it follows them while a scan is in flight too is the model's choice (log entry 16). -/
def presenceChanges (h : HatchId) (p : TrayIdx) (occupied : Bool) (s : State) : State :=
  if s.hatch[h].sensors[p] = occupied then s
  else
    let s := wake h s
    let old := s.hatch[h].tray[p]
    let s := (presenceReads h p occupied s).modHatch h fun x =>
      { x with tray := x.tray.set p (if occupied then { presence := .unreadable .notScanned } else {}) }
    if s.hatch[h].phase = .staffAccess then
      match old.presence, old.verdict, occupied with
      | .present l _, .accepted, false => staffDone h (saveTray h (takenToStaff h l old s))
      | _, _, _ => staffDone h s
    else s

/-! ### Timers -/

/-- The reject-clear timer expires (R105): stuck at once, or once the outer shutter has closed and been scanned. -/
def rejectExpires (h : HatchId) (s : State) : State :=
  let x := s.hatch[h]
  if x.phase = .rejectClear ∧ x.rejectTimer.isSome then
    if x.scan.isSome || x.outer.isOpen then
      s.modHatch h fun x => { x with rejectTimer := none, rejectExpired := true }
    else toStuck h s
  else s

/-- The idle timer expires (R118). -/
def idleExpires (h : HatchId) (s : State) : State :=
  let x := s.hatch[h]
  if x.phase = .idle ∧ x.idle.isSome then
    if x.outer.secured && x.inner.secured && trayEmpty x.tray then
      s.modHatch h fun x =>
        { x with phase := .standby, idle := none, readerOn := false, purgeOn := false, heaterOn := false }
    else s.modHatch h fun x => { x with idle := some (s.hatchSettings h).standbyTime }
  else s

/-- The conditioning limit is reached with this minute: the hatch's own share of the minute (R109). -/
def limitReached (h : HatchId) (s : State) : State :=
  let x := s.hatch[h]
  if x.phase = .conditioning ∧ !x.limitPosted ∧ (s.hatchSettings h).condLimit ≤ x.limitCount + 1 then hatchMinute h s
  else s

/-! ### The commands -/

/-- LOAD_HATCH (R93). -/
def execLoadHatch (hatch id : Int) (s : State) : Host.Outcome State Fault Refusal := request (loadHatch hatch id) s

/-- ANSWER_QUERY (R103). -/
def execAnswerQuery (hatch : Int) (a : AnswerFields) (s : State) : Host.Outcome State Fault Refusal :=
  request (answerQuery hatch a) s

/-- ABORT_HANDOVER (R101). -/
def execAbortHandover (hatch : Int) (s : State) : Host.Outcome State Fault Refusal := request (abortHandover hatch) s

/-- RELEASE_HATCH (R110). -/
def execReleaseHatch (hatch : Int) (s : State) : Host.Outcome State Fault Refusal := request (releaseHatch hatch) s

/-- CLEAR_STUCK (R106). -/
def execClearStuck (hatch : Int) (side : Text) (s : State) : Host.Outcome State Fault Refusal :=
  request (clearStuck hatch side) s

/-- FETCH_RECEIPT (R113). -/
def execFetchReceipt (hatch : Int) (start : Option Int) (s : State) : Host.Outcome State Fault Refusal :=
  request (fetchReceipt hatch start) s

/-- CLEAR_RECEIPT (R113). -/
def execClearReceipt (hatch : Int) (s : State) : Host.Outcome State Fault Refusal := request (clearReceipt hatch) s

/-- READ_HATCH (R119). -/
def execReadHatch (hatch : Int) (tray : Option Int) (s : State) : Host.Outcome State Fault Refusal :=
  request (readHatch hatch tray) s

/-- WRITE_SETTING_HATCH_ZONE (R87). -/
def execWriteSettingHatchZone (index value : Option Int) (s : State) : Host.Outcome State Fault Refusal :=
  request (writeHatchZone index value) s

/-- WRITE_SETTING_HATCH_TIMING (R87). -/
def execWriteSettingHatchTiming (n : HatchTiming) (index value : Option Int) (s : State) :
    Host.Outcome State Fault Refusal :=
  request (writeHatchTiming n index value) s

/-- CONDITION_TIMEOUT (R109). -/
def execConditionTimeout (h : HatchId) (s : State) : Host.Outcome State Fault Refusal := event (limitReached h) s

/-- BADGE_READ (R97, R102). -/
def execBadgeRead (h : HatchId) (courier : Option Nat) (s : State) : Host.Outcome State Fault Refusal :=
  event (badgeTaken h courier) s

/-- HATCH_INDICATOR_TIMEOUT (R97): the colour has shown for its 3 s. -/
def execHatchIndicatorTimeout (h : HatchId) (s : State) : Host.Outcome State Fault Refusal :=
  event (fun s => if s.hatch[h].colourLeft.isSome then light h .off none s else s) s

/-- QUERY_WAIT_EXPIRY (R103). -/
def execQueryWaitExpiry (h : HatchId) (s : State) : Host.Outcome State Fault Refusal :=
  event (fun s => if s.hatch[h].phase = .query ∧ s.hatch[h].query.isSome then closeQuery h .expired s else s) s

/-- SHUTTER_OPENED (R89). -/
def execShutterOpened (h : HatchId) (sd : Side) (s : State) : Host.Outcome State Fault Refusal :=
  fieldEvent (sensorReads h sd true) (shutterOpens h sd) s

/-- SHUTTER_CLOSED (R89). -/
def execShutterClosed (h : HatchId) (sd : Side) (s : State) : Host.Outcome State Fault Refusal :=
  fieldEvent (sensorReads h sd false) (shutterCloses h sd) s

/-- SHUTTER_FORCED (R89). -/
def execShutterForced (h : HatchId) (sd : Side) (s : State) : Host.Outcome State Fault Refusal :=
  fieldEvent (sensorReads h sd true) (shutterForced h sd) s

/-- SHUTTER_CAUGHT (R89). -/
def execShutterCaught (h : HatchId) (sd : Side) (s : State) : Host.Outcome State Fault Refusal :=
  fieldEvent (sensorReads h sd false) (shutterCaught h sd) s

/-- UNLOCK_TIMER_EXPIRY (R89). -/
def execUnlockTimerExpiry (h : HatchId) (sd : Side) (s : State) : Host.Outcome State Fault Refusal :=
  event (unlockExpires h sd) s

/-- OPEN_ALARM_EXPIRY (R90). -/
def execOpenAlarmExpiry (h : HatchId) (sd : Side) (s : State) : Host.Outcome State Fault Refusal :=
  event (openTooLong h sd) s

/-- CLOSER_CLOSED (R90): the closed sensor reads closed and the closer stops. -/
def execCloserClosed (h : HatchId) (sd : Side) (s : State) : Host.Outcome State Fault Refusal :=
  event (fun s => s.modShutter h sd stopCloser) s

/-- SHUTTER_NOT_SECURED (R90). -/
def execShutterNotSecured (h : HatchId) (sd : Side) (s : State) : Host.Outcome State Fault Refusal :=
  event (notSecured h sd) s

/-- INNER_REQUEST_BUTTON (R89). -/
def execInnerRequestButton (h : HatchId) (s : State) : Host.Outcome State Fault Refusal := event (buttonPressed h) s

/-- TRAY_PRESENCE_CHANGE (R91, R111). -/
def execTrayPresenceChange (h : HatchId) (p : TrayIdx) (occupied : Bool) (s : State) :
    Host.Outcome State Fault Refusal :=
  fieldEvent (presenceReads h p occupied) (presenceChanges h p occupied) s

/-- TRAY_SCAN_END (R92). -/
def execTrayScanEnd (h : HatchId) (reads : Vector TrayRead 24) (s : State) : Host.Outcome State Fault Refusal :=
  event (scanEnds h reads) s

/-- REJECT_CLEAR_TIMER_EXPIRY (R105). -/
def execRejectClearTimerExpiry (h : HatchId) (s : State) : Host.Outcome State Fault Refusal :=
  event (rejectExpires h) s

/-- IDLE_TIMER_EXPIRY (R118). -/
def execIdleTimerExpiry (h : HatchId) (s : State) : Host.Outcome State Fault Refusal := event (idleExpires h) s

end Sys2Proof.Machine
end

