-- ==== Sys2Proof/Machine/FireZones.lean ====
section
/-!
DEFINITION. The fire zone controllers (chapter 8): the handing on of fire states, evaluation, the release test, the
isolate key, the countdown and the abort station, release, confirmation, soak and vent, reset and restore; with the
clearing of a zone's latches that they ask the loops for (R149).
-/

namespace Sys2Proof.Machine

/-- Changes a fire zone controller's live state. -/
def State.modFire (s : State) (z : Zone) (f : FireZone → FireZone) : State := s.setFire z (f s.fire[z])

/-- The zone's fire settings. -/
def State.fireSettings (s : State) (z : Zone) : FireSettings := s.store.fire[z]

/-! ### Handing a state on -/

/-- A block that takes a zone's fire state (R158); the custody and manifest tables read it at each test. -/
inductive FireTaker where
  | climate
  | hatch (h : HatchId)
  | bank (b : BankId)
  deriving DecidableEq, Repr

/-- The blocks that take the fire state of a zone: its climate controller and every hatch and bank whose setting names
it (R158). -/
def receivers (s : State) (z : Zone) : List FireTaker :=
  [.climate] ++ ((List.finRange 2).filter fun h => s.hatchZone h == z).map .hatch ++
    ((List.finRange 4).filter fun b => s.bankZone b == z).map .bank

/-- A receiver reacts to a state entered. -/
def react (z : Zone) (left entered : FireState) (r : FireTaker) (s : State) : State :=
  match r with
  | .climate => climateTakesFire z left entered s
  | .hatch h => hatchTakesFire h left entered s
  | .bank b => bankTakesFire b left entered s

/-- A zone enters a fire state: FIRE-STATE posted, the state handed on in a free order (R158, log entry 2). -/
def enterFire (z : Zone) (entered : FireState) (cause : FireCause) (s : State) : State :=
  let left := s.fireState z
  let s := post (.fireState z left entered cause) (s.modFire z fun x => { x with state := entered })
  inFreeOrder (react z left entered) (receivers s z) s

/-- A zone to a fire state, nothing where it stands there (R163). -/
def moveFire (z : Zone) (entered : FireState) (cause : FireCause) (s : State) : State :=
  if s.fireState z = entered then s else enterFire z entered cause s

/-! ### The release test -/

/-- The countdown as entry into PREDISCHARGE loads it (R167). -/
def loadedCountdown (abortHeld : Bool) (manual secs : Nat) : Countdown :=
  if abortHeld && manual == 0 then .frozen secs else .running secs

/-- PREDISCHARGE entered with its countdown (R164, R165, R167). -/
def toPredischarge (z : Zone) (cause : FireCause) (s : State) : State :=
  let s := s.modFire z fun x =>
    { x with countdown := loadedCountdown x.abortHeld (s.counts z).manual (s.fireSettings z).countdown }
  enterFire z .predischarge cause s

/-- The reports of a zone that stays in ALARM, ISOLATED first (R164). -/
def heldOffReports (z : Zone) (s : State) : List Event :=
  (if s.fire[z].isolateOn then [.isolated z] else []) ++ (if s.store.spent[z] then [.agentSpent z] else [])

/-- The isolate key is ON or the agent spent. -/
def heldOff (z : Zone) (s : State) : Bool := s.fire[z].isolateOn || s.store.spent[z]

/-- The release test of a zone in ALARM (R164). -/
def releaseTest (z : Zone) (cause : FireCause) (s : State) : State :=
  if heldOff z s then postAll (heldOffReports z s) s else toPredischarge z cause s

/-- The manual path (R165). -/
def manualPath (z : Zone) (s : State) : State :=
  if heldOff z s then
    let s := moveFire z .alarm .manual s
    postAll (heldOffReports z s) s
  else toPredischarge z .manual s

/-- Latched automatic alarms reach the effective coincidence (R163). -/
def coincident (z : Zone) (s : State) : Bool := decide (s.coincidence z ≤ (s.counts z).auto)

/-- The evaluation of a zone in NORMAL or PREALARM (R163). -/
def evaluate (z : Zone) (cause : FireCause) (s : State) : State :=
  let c := s.counts z
  if 1 ≤ c.manual then manualPath z s
  else if coincident z s then releaseTest z cause (enterFire z .alarm cause s)
  else if 1 ≤ c.auto ∨ 1 ≤ c.prealarm then moveFire z .prealarm cause s
  else moveFire z .normal cause s

/-- A detector change handed to the zone; `manual0` is the count of latched manual alarms before it (R163 to R165,
R167, R170, R172). -/
def takeDetectorChange (z : Zone) (manual0 : Nat) (s : State) : State :=
  match s.fireState z with
  | .normal => evaluate z .detectors s
  | .prealarm => evaluate z .detectors s
  | .alarm => if manual0 < (s.counts z).manual then manualPath z s else s
  | .predischarge =>
    s.modFire z fun x =>
      match x.countdown with
      | .frozen n => if 1 ≤ (s.counts z).manual then { x with countdown := .running n } else x
      | _ => x
  | _ => s

/-- Every loop that carries a detector of the zone has completed its first pass (R162). -/
def firstPassesDone (z : Zone) (s : State) : Bool :=
  (!s.carries 0 z || s.loop[0].firstPass) && (!s.carries 1 z || s.loop[1].firstPass)

/-- The test for leaving STARTING, with the evaluation that follows (R162). -/
def tryLeaveStarting (z : Zone) (cause : FireCause) (s : State) : State :=
  if s.fireState z = .starting ∧ firstPassesDone z s then evaluate z cause (enterFire z .normal cause s) else s

/-! ### Clearing latches -/

/-- The state of a detector whose latch is cleared, from the level last recorded (R149). -/
def clearedState (prealarm : Option Nat) (d : Detector) : DetState :=
  match d.state, d.level, prealarm with
  | .fault, _, _ => .fault
  | _, some l, some p => if p ≤ l then .prealarm else .normal
  | _, _, _ => .normal

/-- A detector with its latch cleared, handed on where its state or latch changed (R149, R150). -/
def clearDetector (prealarm : Option Nat) (d : Detector) : Detector :=
  let new := clearedState prealarm d
  { d with
    latch := false, alarmRun := 0, lowRun := 0, state := new,
    handedLevel := if d.latch ∨ new ≠ d.state then d.level else d.handedLevel }

/-- One loop with the latches of a zone cleared. -/
def clearLoop (st : Store) (l : LoopId) (z : Zone) (x : Loop) : Loop :=
  { x with
    dets := Vector.ofFn fun a : Address =>
      let e := st.detectors[l][a]
      if e.enabled && e.zone == z then clearDetector (st.prealarmLevel e.type) x.dets[a] else x.dets[a] }

/-- The DETECTOR-STATE reports of a clear, in the order the loops make the changes (R150): L1 before L2, and each loop
its detectors in ascending address, fixed orders of the model's (log entry 2). -/
def clearReports (s : State) (z : Zone) : List Event :=
  (s.detectorsOf z).filterMap fun d =>
    let new := clearedState (s.store.prealarmLevel d.entry.type) d.live
    if new = d.live.state then none else some (.detectorState d.loop d.address z d.entry.type d.live.level new)

/-- The loops clear the latches of a zone (R149). -/
def clearLatches (z : Zone) (s : State) : State :=
  let s' := (s.setLoop 0 (clearLoop s.store 0 z s.loop[0])).setLoop 1 (clearLoop s.store 1 z s.loop[1])
  postAll (clearReports s z) s'

/-! ### Inputs -/

/-- The isolate key's reading. -/
def isolateReads (z : Zone) (on : Bool) (s : State) : State := s.modFire z fun x => { x with isolateOn := on }

/-- The isolate key turned OFF in ALARM (R166). -/
def isolateOffInAlarm (z : Zone) (s : State) : State :=
  if 1 ≤ (s.counts z).manual then manualPath z s
  else if coincident z s then releaseTest z .isolateOff s
  else s

/-- A change of the isolate key (R166). -/
def isolateKey (z : Zone) (on : Bool) (s : State) : State :=
  if s.fire[z].isolateOn = on then s
  else
    let s := isolateReads z on s
    let s := if s.fireState z = .starting then s else post (.isolateKey z on (s.fireState z)) s
    match s.fireState z, on with
    | .predischarge, true =>
      post (.isolated z) (enterFire z .alarm .isolateOn (s.modFire z fun x => { x with countdown := .stopped }))
    | .alarm, false => isolateOffInAlarm z s
    | _, _ => s

/-- The abort station's reading. -/
def abortReads (z : Zone) (held : Bool) (s : State) : State := s.modFire z fun x => { x with abortHeld := held }

/-- The countdown after a change of the abort station (R167). -/
def abortedCountdown (held : Bool) (manual full : Nat) : Countdown → Countdown
  | .running n => if held && manual == 0 then .frozen n else .running n
  | .frozen n => if held then .frozen n else .running full
  | .stopped => .stopped

/-- The seconds a countdown shows. -/
def Countdown.secs : Countdown → Nat
  | .running n => n
  | .frozen n => n
  | .stopped => 0

/-- A change of the abort station (R160, R167). -/
def abortStation (z : Zone) (held : Bool) (s : State) : State :=
  if s.fire[z].abortHeld = held then s
  else
    let s := abortReads z held s
    if s.fireState z = .predischarge then
      let c := abortedCountdown held (s.counts z).manual (s.fireSettings z).countdown s.fire[z].countdown
      post (.abort z held c.secs) (s.modFire z fun x => { x with countdown := c })
    else s

/-- The discharge confirm input's reading. -/
def confirmReads (z : Zone) (active : Bool) (s : State) : State := s.modFire z fun x => { x with confirmActive := active }

/-- The confirm input reads ACTIVE during the confirm wait (R169). -/
def confirmSeen (z : Zone) (s : State) : State :=
  match s.fire[z].confirmWait with
  | some left =>
    if s.fire[z].confirmActive then
      post (.dischargeConfirmed z (30 - left)) (s.modFire z fun x => { x with confirmSeen := true, confirmWait := none })
    else s
  | none => s

/-! ### Release, soak and vent -/

/-- The release at the countdown's end (R168), an input already ACTIVE seen at once (R169). -/
def release (z : Zone) (s : State) : State :=
  let s := s.setStore { s.store with spent := s.store.spent.set z true }
  let s := s.modFire z fun x =>
    { x with
      countdown := .stopped, releaseOut := true, pulse := some 10, confirmWait := some 30, confirmSeen := false,
      soak := some (s.fireSettings z).soak, soakComplete := false }
  confirmSeen z (enterFire z .discharged .expiry s)

/-- The countdown expires in PREDISCHARGE (R168). -/
def countdownExpires (z : Zone) (s : State) : State :=
  match s.fireState z, s.fire[z].countdown with
  | .predischarge, .running _ => release z s
  | _, _ => s

/-- The confirm wait expires (R169). -/
def confirmWaitExpires (z : Zone) (s : State) : State :=
  match s.fire[z].confirmWait with
  | some _ =>
    let s := s.modFire z fun x => { x with confirmWait := none }
    if s.fire[z].confirmSeen then s else post (.dischargeFault z) s
  | none => s

/-- The soak ends (R170). -/
def soakExpires (z : Zone) (s : State) : State :=
  match s.fireState z, s.fire[z].soak with
  | .discharged, some _ => post (.soakComplete z) (s.modFire z fun x => { x with soak := none, soakComplete := true })
  | _, _ => s

/-- The vent ends (R172). -/
def ventExpires (z : Zone) (s : State) : State :=
  match s.fireState z, s.fire[z].vent with
  | .vent, some _ =>
    let s := clearLatches z (s.modFire z fun x => { x with ventOut := false, vent := none })
    let s := s.modFire z fun x => { x with soakComplete := false, confirmSeen := false }
    evaluate z .ventEnd (enterFire z .normal .ventEnd s)
  | _, _ => s

/-! ### Requests -/

/-- The refusal of RESET-FIRE-ZONE, which gives the fire state (R173). -/
def refuseReset (z : Zone) : Request := fun s => answer .refused (.fireRefused (s.fireState z) none) s

/-- The refusal of START-VENT: the fire state and, in DISCHARGED, the seconds left in the soak (R171). -/
def refuseVent (z : Zone) : Request := fun s =>
  answer .refused (.fireRefused (s.fireState z) (if s.fireState z = .discharged then s.fire[z].soak else none)) s

/-- START-VENT (R171). -/
def startVent (zone : Int) : Request :=
  naming 4 zone fun z s =>
    if s.fireState z = .discharged ∧ s.fire[z].soakComplete then
      (enterFire z .vent .startVent (s.modFire z fun x =>
        { x with ventOut := true, vent := some (s.fireSettings z).vent }), { word := .ok })
    else refuseVent z s

/-- RESET-FIRE-ZONE (R173). In NORMAL the states the loops hand back are taken into the counts without an evaluation, R173
over R163, also where one of them is PREALARM: the model's choice (log entry 19). -/
def resetFireZone (zone : Int) : Request :=
  naming 4 zone fun z s =>
    match s.fireState z with
    | .alarm => (evaluate z .reset (enterFire z .normal .reset (clearLatches z s)), { word := .ok })
    | .prealarm => (evaluate z .reset (enterFire z .normal .reset (clearLatches z s)), { word := .ok })
    | .normal => (clearLatches z s, { word := .ok })
    | _ => refuseReset z s

/-- The release test a restored agent calls for in ALARM (R174). That the isolate key OFF is asked for with coincidence
reached too, not with a manual alarm alone, so that no test is made and no ISOLATED posted with the key ON, is the
model's choice (log entry 19). -/
def afterRestore (z : Zone) (s : State) : State :=
  if s.fireState z = .alarm ∧ !s.fire[z].isolateOn ∧ (1 ≤ (s.counts z).manual ∨ coincident z s) then
    releaseTest z .agentRestored s
  else s

/-- RESTORE-AGENT (R174), whose REFUSED gives no field of its own. -/
def restoreAgent (zone : Int) : Request :=
  naming 4 zone fun z s =>
    if s.fireState z = .predischarge then answer .refused .empty s
    else if s.store.spent[z] then
      let s := s.setStore { s.store with spent := s.store.spent.set z false }
      (afterRestore z (post (.agentRestored z) s), { word := .ok })
    else (s, { word := .ok })

/-- A detector's row in a page (R156, R176). -/
def detectorRow (d : ZoneDetector) : DetectorRow :=
  { loop := d.loop, address := d.address, zone := d.entry.zone, type := d.entry.type, state := d.live.state,
    latch := d.live.latch }

/-- READ-FIRE-ZONE (R176). -/
def readFireZone (zone : Int) (start : Option Int) : Request :=
  naming 4 zone fun z s =>
    let p := pageOf 1 16 (start.getD 1) ((s.detectorsOf z).map detectorRow)
    (s, { word := .ok, body := .fireZone {
      live := s.fire[z], inHoldSet := s.held z, inShedSet := s.shed z, settings := s.fireSettings z
      spent := s.store.spent[z], counts := s.counts z, coincidence := s.coincidence z, degraded := s.degraded z
      page := p.1.map Prod.snd, next := p.2 } })

/-! ### Settings -/

/-- Writes a zone's fire settings. -/
def State.setFireSettings (s : State) (z : Zone) (st : FireSettings) : State :=
  s.setStore { s.store with fire := s.store.fire.set z st }

/-- A written coincidence used at once in NORMAL and PREALARM (R159, R163). -/
def reevaluate (z : Zone) (s : State) : State :=
  match s.fireState z with
  | .normal => evaluate z .coincidence s
  | .prealarm => evaluate z .coincidence s
  | _ => s

/-- WRITE-SETTING of FIRE-COINCIDENCE (R159). -/
def writeCoincidence (index value : Option Int) : Request :=
  indexedSetting index value (indexOf 4) fun z v s =>
    let used := clamp 1 2 v
    if used = (s.fireSettings z).coincidence then (s, usedAnswer v used)
    else
      (reevaluate z (s.setFireSettings z { s.fireSettings z with coincidence := used.toNat }), usedAnswer v used)

/-- The value used for a fire time (R159). -/
def usedFireTime (t : FireTime) (v : Int) : Int :=
  match t with
  | .countdown => clamp 10 60 v
  | .soak => clamp 60 3600 v
  | .vent => clamp 60 3600 v

/-- A fire time written. -/
def FireSettings.write (st : FireSettings) (t : FireTime) (v : Int) : FireSettings :=
  match t with
  | .countdown => { st with countdown := v.toNat }
  | .soak => { st with soak := v.toNat }
  | .vent => { st with vent := v.toNat }

/-- WRITE-SETTING of FIRE-COUNTDOWN, FIRE-SOAK or FIRE-VENT (R159). -/
def writeFireTime (t : FireTime) (index value : Option Int) : Request :=
  indexedSetting index value (indexOf 4) fun z v s =>
    (s.setFireSettings z ((s.fireSettings z).write t (usedFireTime t v)), usedAnswer v (usedFireTime t v))

/-- A fire zone controller's live state at a start; the inputs are read as they stand (R177). -/
def FireZone.start (x : FireZone) : FireZone :=
  { abortHeld := x.abortHeld, isolateOn := x.isolateOn, confirmActive := x.confirmActive }

/-! ### The commands -/

/-- START_VENT (R171). -/
def execStartVent (zone : Int) (s : State) : Host.Outcome State Fault Refusal := request (startVent zone) s

/-- RESET_FIRE_ZONE (R173). -/
def execResetFireZone (zone : Int) (s : State) : Host.Outcome State Fault Refusal := request (resetFireZone zone) s

/-- RESTORE_AGENT (R174). -/
def execRestoreAgent (zone : Int) (s : State) : Host.Outcome State Fault Refusal := request (restoreAgent zone) s

/-- READ_FIRE_ZONE (R176). -/
def execReadFireZone (zone : Int) (start : Option Int) (s : State) : Host.Outcome State Fault Refusal :=
  request (readFireZone zone start) s

/-- WRITE_SETTING_FIRE_COINCIDENCE (R159). -/
def execWriteSettingFireCoincidence (index value : Option Int) (s : State) : Host.Outcome State Fault Refusal :=
  request (writeCoincidence index value) s

/-- WRITE_SETTING_FIRE_TIMES (R159). -/
def execWriteSettingFireTimes (t : FireTime) (index value : Option Int) (s : State) :
    Host.Outcome State Fault Refusal :=
  request (writeFireTime t index value) s

/-- ABORT_STATION_CHANGE (R160, R167). -/
def execAbortStationChange (z : Zone) (held : Bool) (s : State) : Host.Outcome State Fault Refusal :=
  fieldEvent (abortReads z held) (abortStation z held) s

/-- ISOLATE_KEY_CHANGE (R166). -/
def execIsolateKeyChange (z : Zone) (on : Bool) (s : State) : Host.Outcome State Fault Refusal :=
  fieldEvent (isolateReads z on) (isolateKey z on) s

/-- DISCHARGE_CONFIRM_CHANGE (R160, R169). -/
def execDischargeConfirmChange (z : Zone) (active : Bool) (s : State) : Host.Outcome State Fault Refusal :=
  fieldEvent (confirmReads z active) (fun s => confirmSeen z (confirmReads z active s)) s

/-- COUNTDOWN_EXPIRY (R168). -/
def execCountdownExpiry (z : Zone) (s : State) : Host.Outcome State Fault Refusal := event (countdownExpires z) s

/-- RELEASE_PULSE_EXPIRY (R168): the agent release output is de-energised, whatever the state. -/
def execReleasePulseExpiry (z : Zone) (s : State) : Host.Outcome State Fault Refusal :=
  event (fun s => if s.fire[z].pulse.isSome then s.modFire z fun x => { x with releaseOut := false, pulse := none } else s)
    s

/-- CONFIRM_WAIT_EXPIRY (R169). -/
def execConfirmWaitExpiry (z : Zone) (s : State) : Host.Outcome State Fault Refusal := event (confirmWaitExpires z) s

/-- SOAK_EXPIRY (R170). -/
def execSoakExpiry (z : Zone) (s : State) : Host.Outcome State Fault Refusal := event (soakExpires z) s

/-- VENT_EXPIRY (R172). -/
def execVentExpiry (z : Zone) (s : State) : Host.Outcome State Fault Refusal := event (ventExpires z) s

end Sys2Proof.Machine
end

