-- ==== Sys2Proof/Machine/Loops.lean ====
section
/-!
DEFINITION. The detection loop controllers (chapter 7): the detector table, thresholds, the poll pass, detector
states, alert rounds, bus errors and LOOP-FAULT, the first pass, and their commands.
-/

namespace Sys2Proof.Machine

/-- Changes a loop controller's live state. -/
def State.modLoop (s : State) (l : LoopId) (f : Loop → Loop) : State := s.setLoop l (f s.loop[l])

/-- Changes a detector's live state. -/
def State.modDet (s : State) (l : LoopId) (a : Address) (f : Detector → Detector) : State :=
  s.modLoop l fun x => { x with dets := x.dets.set a (f x.dets[a]) }

/-- The enabled addresses of a loop, ascending. -/
def enabledOn (st : Store) (l : LoopId) : List Address := (List.finRange 32).filter fun a => st.detectors[l][a].enabled

/-- The lowest enabled address. -/
def lowestEnabled (st : Store) (l : LoopId) : Option Address := (enabledOn st l).head?

/-- The next enabled address above one. -/
def nextEnabled (st : Store) (l : LoopId) (a : Address) : Option Address :=
  (enabledOn st l).find? fun b => decide (a < b)

/-! ### Detector states -/

/-- The runs after an answered poll (R146). -/
def countRuns (t : DetType) (prealarm : Option Nat) (alarm level : Nat) (d : Detector) : Detector :=
  match t, prealarm with
  | .manual, _ => if level = 255 then { d with alarmRun := min 2 (d.alarmRun + 1) } else { d with alarmRun := 0 }
  | _, some p =>
    if alarm ≤ level then { d with alarmRun := min 2 (d.alarmRun + 1), lowRun := 0 }
    else if p ≤ level then { d with alarmRun := 0, lowRun := 0 }
    else { d with lowRun := min 2 (d.lowRun + 1), alarmRun := 0 }
  | _, none => d

/-- The state after an answered poll whose runs are counted (R147, R148); `was` is the state it stood in. -/
def judge (t : DetType) (prealarm : Option Nat) (level : Nat) (was : DetState) (d : Detector) : Detector :=
  if d.latch then { d with state := .alarm }
  else if d.alarmRun = 2 then { d with state := .alarm, latch := true }
  else
    match t, prealarm with
    | .manual, _ => { d with state := .normal }
    | _, some p =>
      if p ≤ level then { d with state := .prealarm }
      else if was = .prealarm ∧ d.lowRun = 2 then { d with state := .normal }
      else { d with state := was }
    | _, none => { d with state := was }

/-- A detector after an answered poll (R144 to R148): the miss count 0, the level taken, a FAULT cleared with both
runs from 0. -/
def answerDetector (t : DetType) (prealarm : Option Nat) (alarm level : Nat) (d : Detector) : Detector :=
  let was : DetState := if d.state = .fault then .normal else d.state
  let d := if d.state = .fault then { d with alarmRun := 0, lowRun := 0 } else d
  let d := { d with miss := 0, level := some level }
  judge t prealarm level was (countRuns t prealarm alarm level d)

/-- A detector after an unanswered poll (R145). -/
def missDetector (d : Detector) : Detector :=
  if d.state = .fault then { d with miss := min 3 (d.miss + 1) }
  else if 3 ≤ d.miss + 1 then { d with miss := 3, state := .fault, level := none, alarmRun := 0, lowRun := 0 }
  else { d with miss := d.miss + 1 }

/-- The report of a detector's change of state (R145, R150). -/
def changeReport (l : LoopId) (a : Address) (e : DetEntry) (old new : Detector) : List Event :=
  if old.state = new.state then []
  else if new.state = .fault then [.detectorFaultEntered l a e.zone e.type]
  else if old.state = .fault then [.detectorFaultCleared l a e.zone e.type]
  else [.detectorState l a e.zone e.type new.level new.state]

/-- A poll's change of one detector: reported, and handed to its zone as one change where its state or latch changed
(R150). -/
def changeDetector (l : LoopId) (a : Address) (f : Detector → Detector) (s : State) : State :=
  let e := s.detEntry l a
  let old := s.det l a
  let new := f old
  if old.state = new.state ∧ old.latch = new.latch then s.modDet l a fun _ => new
  else
    let manual0 := (s.counts e.zone).manual
    let s := s.modDet l a fun _ => { new with handedLevel := new.level }
    takeDetectorChange e.zone manual0 (postAll (changeReport l a e old new) s)

/-- An answered poll of an enabled detector, on the thresholds in force (R142, R144). -/
def answeredPoll (level : Byte) (l : LoopId) (a : Address) (s : State) : State :=
  let t := (s.detEntry l a).type
  changeDetector l a (answerDetector t (s.store.prealarmLevel t) (s.store.alarmLevel t) level.toNat) s

/-- An unanswered poll of an enabled detector. -/
def unansweredPoll (l : LoopId) (a : Address) (s : State) : State := changeDetector l a missDetector s

/-! ### Items -/

/-- The zones of which a loop carries a detector, ascending, which is the model's choice of their order in LOOP-FAULT,
for which R154 names none (log entry 13). -/
def zonesOf (s : State) (l : LoopId) : List Zone := (List.finRange 4).filter fun z => s.carries l z

/-- The other loop. -/
def otherLoop (l : LoopId) : LoopId := if l = 0 then 1 else 0

/-- A completed item (R153): the bus error run count 0, and a LOOP-FAULT cleared with the zones whose flag clears
(R154). -/
def completeItem (l : LoopId) (s : State) : State :=
  let was := s.loop[l].fault
  let s := s.modLoop l fun x => { x with busErrors := 0, fault := false }
  if was then
    let o := otherLoop l
    post (.loopFault l false ((zonesOf s l).filter fun z => !(s.loop[o].fault && s.carries o z))) s
  else s

/-- A poll order sent to an address: it carries the alarm level of the detector's type in force, which the detector
keeps (R142, R144). -/
def sendOrder (l : LoopId) (a : Address) (s : State) : State :=
  s.modDet l a fun d => { d with order := some (s.store.alarmLevel (s.detEntry l a).type) }

/-- A poll begun, its order sent (R144). -/
def beginPoll (l : LoopId) (item : LoopItem) (a : Address) (s : State) : State :=
  sendOrder l a (s.modLoop l fun x => { x with item := item, void := false })

/-- The item that follows: the pass poll at the pass position, none on a loop with no enabled entry (R143, R152). -/
def nextItem (l : LoopId) (s : State) : State :=
  match s.loop[l].position with
  | some a => beginPoll l (.passPoll a) a s
  | none => s.modLoop l fun x => { x with item := .none, void := false }

/-- The first pass completes, and the completion is handed to every zone (R155, R162). -/
def firstPassDone (l : LoopId) (s : State) : State :=
  if s.loop[l].firstPass then s
  else
    inFreeOrder (fun z => tryLeaveStarting z .firstPass) (List.finRange 4)
      (s.modLoop l fun x => { x with firstPass := true })

/-- The pass position moved on from an address: to the next enabled one above it, or with the pass complete to the
lowest (R143). -/
def movePosition (l : LoopId) (a : Address) (s : State) : State :=
  match nextEnabled s.store l a with
  | some b => s.modLoop l fun x => { x with position := some b }
  | none => firstPassDone l (s.modLoop l fun x => { x with position := lowestEnabled s.store l })

/-- The answer of a poll taken, or set aside where the entry was disabled while it was polled (R141). -/
def takeAnswer (l : LoopId) (take : LoopId → Address → State → State) (a : Address) (s : State) : State :=
  if (s.detEntry l a).enabled && !s.loop[l].void then take l a s else s

/-- A poll ends, answered or unanswered (R143, R145, R152). The position moves on from the address polled, but for an
address disabled meanwhile, which it has passed over already (R143). -/
def pollEnds (l : LoopId) (take : LoopId → Address → State → State) (s : State) : State :=
  match s.loop[l].item with
  | .passPoll a =>
    let t := takeAnswer l take a (completeItem l (s.modLoop l fun x => { x with roundTaken := false }))
    nextItem l (if s.loop[l].void then t else movePosition l a t)
  | .priorityPoll a => nextItem l (takeAnswer l take a (completeItem l s))
  | _ => s

/-- One bit time of a round: the line's bit and the detectors still in the round (R151). -/
def bitTime (k : Nat) (live : List Address) : Bool × List Address :=
  let line := live.all fun a => a.val.testBit k
  (line, live.filter fun a => a.val.testBit k == line)

/-- The bits read at the bit times from `k - 1` down to 0, as a number. -/
def readRound : Nat → List Address → Nat
  | 0, _ => 0
  | k + 1, live =>
    let r := bitTime k live
    (if r.1 then 2 ^ k else 0) + readRound k r.2

/-- The address a round names: the five bits read are the winner's address less 1 (R151). -/
def roundWinner (alerting : List Address) : Address := Fin.ofNat 32 (readRound 5 alerting)

/-- Detectors seize the loop in a gap (R151): one round at most between two pass polls, and none on a loop with no
enabled entry (R143). No detector need continue the seizure. -/
def alertTaken (l : LoopId) (alerting : List Address) (s : State) : State :=
  match s.loop[l].item, s.loop[l].position with
  | .passPoll _, some _ =>
    if s.loop[l].roundTaken then s
    else s.modLoop l fun x => { x with item := .round alerting, void := false, roundTaken := true }
  | _, _ => s

/-- The end of a round (R152): the winner's priority poll, or no poll where its entry is disabled. -/
def roundEnds (l : LoopId) (s : State) : State :=
  match s.loop[l].item with
  | .round alerting =>
    let w := roundWinner alerting
    if (s.detEntry l w).enabled then beginPoll l (.priorityPoll w) w s
    else nextItem l (completeItem l s)
  | _ => s

/-- An abandoned item counted, with LOOP-FAULT at the eighth in a run (R153, R154). -/
def countAbandoned (l : LoopId) (s : State) : State :=
  let n := min 8 (s.loop[l].busErrors + 1)
  let was := s.loop[l].fault
  let s := s.modLoop l fun x => { x with busErrors := n, fault := was || n == 8 }
  if n = 8 ∧ !was then post (.loopFault l true (zonesOf s l)) s else s

/-- An item is abandoned (R153): a pass poll is made again, since the position has not moved, and a round is not. That
detectors may seize the gap before the poll made again, and their round come ahead of it (R151), is the model's choice
(log entry 18). The
poll of an address disabled meanwhile is not made again: the position has passed it over (R143). -/
def itemAbandoned (l : LoopId) (s : State) : State :=
  match s.loop[l].item with
  | .none => s
  | .passPoll _ => nextItem l (countAbandoned l (s.modLoop l fun x => { x with roundTaken := false }))
  | _ => nextItem l (countAbandoned l s)

/-! ### Requests -/

/-- A request on one detector: BAD-VALUE for a loop or address that names nothing. -/
def onDetector (loop address : Int) (f : LoopId → Address → Request) : Request :=
  naming 2 loop fun l => naming 32 address fun a => f l a

/-- Writes a detector entry. -/
def State.setDetEntry (s : State) (l : LoopId) (a : Address) (e : DetEntry) : State :=
  s.setStore { s.store with detectors := s.store.detectors.set l (s.store.detectors[l].set a e) }

/-- A change of an enabled field handed on (R141, R150, R154, R162): the zone's flag reported where it changed, the
zone evaluated, the test for leaving STARTING made. That the reports stand in this order is the model's choice (log
entry 2). -/
def handEnable (z : Zone) (degraded0 : Bool) (manual0 : Nat) (s : State) : State :=
  let s := if s.degraded z = degraded0 then s else post (.monitoringDegraded z (s.degraded z)) s
  tryLeaveStarting z .firstPass (takeDetectorChange z manual0 s)

/-- An entry enabled (R141, R143): a loop that had none starts a new pass at it. -/
def enableDetector (l : LoopId) (a : Address) (s : State) : State :=
  let e := s.detEntry l a
  let degraded0 := s.degraded e.zone
  let manual0 := (s.counts e.zone).manual
  let s := (s.setDetEntry l a { e with enabled := true }).modDet l a fun d => { order := d.order }
  let s := if s.loop[l].position = none then s.modLoop l fun x => { x with position := some a } else s
  let s := if s.loop[l].item = .none then nextItem l s else s
  handEnable e.zone degraded0 manual0 s

/-- The item is a poll of the address. -/
def LoopItem.polls (i : LoopItem) (a : Address) : Bool :=
  match i with
  | .passPoll b => b == a
  | .priorityPoll b => b == a
  | _ => false

/-- The report of a detector that takes the disabled state (R139, R141, R150). -/
def disableReport (l : LoopId) (a : Address) (e : DetEntry) (old : Detector) : List Event :=
  if old.state = .fault then [.detectorFaultDisabled l a] else changeReport l a e old {}

/-- An entry disabled (R141): a poll of it in progress completes and its answer is set aside; an address that is due is
passed over, and with the last entry disabled the pass is complete at once (R143). Its change of state is reported:
from FAULT with cause DISABLED (R141), from PREALARM to NORMAL as DETECTOR-STATE with level none (R139, R150). Where the
disable both lets the zone of the detector leave STARTING and completes the first pass of its loop, R155 and R162 give
no order between the two: that the zone makes its test first, and the completion is handed to the four zones after it, is
the model's choice (log entry 2). -/
def disableDetector (l : LoopId) (a : Address) (s : State) : State :=
  let e := s.detEntry l a
  let degraded0 := s.degraded e.zone
  let manual0 := (s.counts e.zone).manual
  let old := s.det l a
  let s := (s.setDetEntry l a { e with enabled := false }).modDet l a fun d => { order := d.order }
  let s := s.modLoop l fun x => { x with void := x.void || x.item.polls a }
  let s := postAll (disableReport l a e old) s
  let s := handEnable e.zone degraded0 manual0 s
  if s.loop[l].position = some a then movePosition l a s else s

/-- SET-DETECTOR (R141). -/
def setDetector (loop address : Int) (enabled : Text) : Request :=
  onDetector loop address fun l a s =>
    match wordOf yesNoWords enabled with
    | none => answer .badValue .empty s
    | some on =>
      if (s.detEntry l a).enabled = on then (s, { word := .ok })
      else if on then (enableDetector l a s, { word := .ok })
      else if (s.det l a).latch then answer .refused (.refusedFor .latched) s
      else (disableDetector l a s, { word := .ok })

/-- READ-DETECTOR (R156). -/
def readDetector (loop address : Int) : Request :=
  onDetector loop address fun l a s =>
    let e := s.detEntry l a
    (s, { word := .ok, body := .detector {
      entry := e, live := s.det l a, prealarm := s.store.prealarmLevel e.type, alarm := s.store.alarmLevel e.type } })

/-- A page of a loop's enabled detectors from an address, with the next enabled address above the last (R156). -/
def loopPage (s : State) (l : LoopId) (start : Int) : List DetectorRow × Option Nat :=
  match indexOf 32 start with
  | none => ([], none)
  | some a =>
    let rest := (enabledOn s.store l).filter fun b => decide (a ≤ b)
    ((rest.take 16).map fun b =>
        detectorRow { loop := l, address := b, entry := s.detEntry l b, live := s.det l b },
      (rest.drop 16).head?.map num)

/-- READ-LOOP (R156). -/
def readLoop (loop : Int) (start : Option Int) : Request :=
  naming 2 loop fun l s =>
    let x := s.loop[l]
    let p := loopPage s l (start.getD 1)
    (s, { word := .ok, body := .loop {
      position := x.position, item := x.item, busErrors := x.busErrors, fault := x.fault, firstPass := x.firstPass
      page := p.1, next := p.2 } })

/-! ### Settings -/

/-- WRITE-SETTING of DETECTOR (R140, R199): the entry with the fields given, BUSY while it is enabled. -/
def writeDetector (loop address zone : Option Int) (type : Option Text) : Request := fun s =>
  match loop, address with
  | none, _ => badRequest "loop" s
  | some _, none => badRequest "address" s
  | some l, some a =>
    match zone, type with
    | none, none => badRequest "value" s
    | _, _ =>
      onDetector l a (fun l a s =>
        let e := s.detEntry l a
        let z : Option Zone := match zone with
          | none => some e.zone
          | some k => indexOf 4 k
        let t : Option DetType := match type with
          | none => some e.type
          | some w => wordOf typeWords w
        match z, t with
        | some z, some t =>
          if e.enabled then answer .busy .empty s
          else (s.setDetEntry l a { e with zone := z, type := t }, { word := .ok })
        | _, _ => answer .badValue .empty s) s

/-- The two types that have thresholds, as an index (R142). -/
def thresholdIndex (t : Text) : Option Bool :=
  match wordOf typeWords t with
  | some .smoke => some true
  | some .heat => some false
  | _ => none

/-- The levels of SMOKE or HEAT. -/
def Store.levels (st : Store) (smoke : Bool) : Levels := if smoke then st.smoke else st.heat

/-- Writes the levels of SMOKE or HEAT. -/
def Store.setLevels (st : Store) (smoke : Bool) (v : Levels) : Store :=
  if smoke then { st with smoke := v } else { st with heat := v }

/-- WRITE-SETTING of DET-PREALARM (R142): clamped, then lowered below the alarm level in force. -/
def writePrealarm (index : Option Text) (value : Option Int) : Request :=
  indexedSetting index value thresholdIndex fun t v s =>
    let ls := s.store.levels t
    let used := min (clamp 1 254 v) (ls.alarm - 1)
    (s.setStore (s.store.setLevels t { ls with prealarm := used.toNat }), usedAnswer v used)

/-- WRITE-SETTING of DET-ALARM (R142): clamped, then raised above the prealarm level in force. -/
def writeAlarm (index : Option Text) (value : Option Int) : Request :=
  indexedSetting index value thresholdIndex fun t v s =>
    let ls := s.store.levels t
    let used := max (clamp 2 255 v) (ls.prealarm + 1)
    (s.setStore (s.store.setLevels t { ls with alarm := used.toNat }), usedAnswer v used)

/-- A loop controller's live state at a start (R155, R157). A detector not yet polled since the start keeps no level of an
earlier order: the model's choice (log entry 18). -/
def Loop.start (st : Store) (l : LoopId) : Loop :=
  match lowestEnabled st l with
  | none => { firstPass := true }
  | some a =>
    { position := some a, item := .passPoll a
      dets := (Vector.replicate 32 {}).set a { order := some (st.alarmLevel st.detectors[l][a].type) } }

/-! ### The commands -/

/-- SET_DETECTOR (R141). -/
def execSetDetector (loop address : Int) (enabled : Text) (s : State) : Host.Outcome State Fault Refusal :=
  request (setDetector loop address enabled) s

/-- READ_DETECTOR (R156). -/
def execReadDetector (loop address : Int) (s : State) : Host.Outcome State Fault Refusal :=
  request (readDetector loop address) s

/-- READ_LOOP (R156). -/
def execReadLoop (loop : Int) (start : Option Int) (s : State) : Host.Outcome State Fault Refusal :=
  request (readLoop loop start) s

/-- WRITE_SETTING_DETECTOR (R140). -/
def execWriteSettingDetector (loop address zone : Option Int) (type : Option Text) (s : State) :
    Host.Outcome State Fault Refusal :=
  request (writeDetector loop address zone type) s

/-- WRITE_SETTING_DET_PREALARM (R142). -/
def execWriteSettingDetPrealarm (index : Option Text) (value : Option Int) (s : State) : Host.Outcome State Fault Refusal :=
  request (writePrealarm index value) s

/-- WRITE_SETTING_DET_ALARM (R142). -/
def execWriteSettingDetAlarm (index : Option Text) (value : Option Int) (s : State) : Host.Outcome State Fault Refusal :=
  request (writeAlarm index value) s

/-- POLL_ANSWERED (R144 to R148). -/
def execPollAnswered (l : LoopId) (level : Byte) (s : State) : Host.Outcome State Fault Refusal :=
  event (pollEnds l (answeredPoll level)) s

/-- POLL_UNANSWERED (R145). -/
def execPollUnanswered (l : LoopId) (s : State) : Host.Outcome State Fault Refusal :=
  event (pollEnds l unansweredPoll) s

/-- ALERT (R151). -/
def execAlert (l : LoopId) (alerting : List Address) (s : State) : Host.Outcome State Fault Refusal :=
  event (alertTaken l alerting) s

/-- ROUND_END (R152). -/
def execRoundEnd (l : LoopId) (s : State) : Host.Outcome State Fault Refusal := event (roundEnds l) s

/-- ITEM_ABANDONED (R153). -/
def execItemAbandoned (l : LoopId) (s : State) : Host.Outcome State Fault Refusal := event (itemAbandoned l) s

end Sys2Proof.Machine
end

