-- ==== Sys2Proof/Machine/ReportText.lean ====
section
/-!
DEFINITION. How a report is written in a reply of FETCH-REPORTS (R193, R195): stamp, kind, subject and details
separated by slashes. The kinds and subjects are the spec's; the words of details that no rule spells are the model's,
and so is the form of a thing that a detail names (log entry 13).
-/

namespace Sys2Proof.Machine

/-- A text of a literal. -/
def lit (s : String) : Text := s.toList

/-- A zone as a subject (R193). -/
def zoneText (z : Zone) : Text := 'Z' :: natText (num z)

/-- A hatch as a subject. -/
def hatchText (h : HatchId) : Text := 'H' :: natText (num h)

/-- A bank as a subject. -/
def bankText (b : BankId) : Text := 'B' :: natText (num b)

/-- A staging reader as a subject. -/
def readerText (r : ReaderId) : Text := 'S' :: natText (num r)

/-- A loop as a subject. -/
def loopText (l : LoopId) : Text := 'L' :: natText (num l)

/-- A detector as a subject. -/
def detectorText (l : LoopId) (a : Address) : Text := loopText l ++ '-' :: twoDigits (num a)

/-- A channel as a subject. -/
def channelText (c : Channel) : Text := lit "CH" ++ twoDigits (num c)

/-- A manifest as a subject, and so in a detail: a worked sequence of chapter 11 writes it so in RECEIPT-READY, and in
the other kinds it is the model's choice (log entry 13). -/
def manifestText (id : Nat) : Text := 'M' :: natText id

/-- YES or NO. -/
def yesNo (b : Bool) : Text := textIn yesNoWords b

/-- A value or a hyphen where it is absent (R187). -/
def orHyphen (t : Option Text) : Text := t.getD ['-']

/-- A list with its elements separated by commas, a hyphen where it is empty. -/
def commaList (l : List Text) : Text := if l.isEmpty then ['-'] else joinText ',' l

/-- Fire states as words (section 8.1). -/
def fireWords : List (String × FireState) :=
  [("STARTING", .starting), ("NORMAL", .normal), ("PREALARM", .prealarm), ("ALARM", .alarm),
   ("PREDISCHARGE", .predischarge), ("DISCHARGED", .discharged), ("VENT", .vent)]

/-- The causes of FIRE-STATE as words (R158). -/
def causeWords : List (String × FireCause) :=
  [("FIRST-PASS", .firstPass), ("NO-DETECTORS", .noDetectors), ("DETECTORS", .detectors),
   ("COINCIDENCE", .coincidence), ("MANUAL", .manual), ("ISOLATE-ON", .isolateOn), ("ISOLATE-OFF", .isolateOff),
   ("AGENT-RESTORED", .agentRestored), ("EXPIRY", .expiry), ("START-VENT", .startVent), ("VENT-END", .ventEnd),
   ("RESET", .reset)]

/-- Detector states as words. -/
def detStateWords : List (String × DetState) :=
  [("NORMAL", .normal), ("PREALARM", .prealarm), ("ALARM", .alarm), ("FAULT", .fault)]

/-- Climate modes as words (section 2.5). -/
def modeWords : List (String × ClimateMode) :=
  [("RUN", .run), ("ECONOMY", .economy), ("ECONOMY-BURST", .economyBurst), ("HOLD", .hold), ("SHED", .shed)]

/-- Hatch phases as words (section 5.4). -/
def phaseWords : List (String × Phase) :=
  [("IDLE", .idle), ("STANDBY", .standby), ("LOADING", .loading), ("LOAD-SCAN", .loadScan),
   ("LOAD-REJECT", .loadReject), ("AWAIT-COURIER", .awaitCourier), ("QUERY", .query),
   ("COURIER-ACCESS", .courierAccess), ("RECONCILE", .reconcile), ("REJECT-CLEAR", .rejectClear),
   ("HELD-STUCK", .heldStuck), ("UNLOAD", .unload), ("CONDITIONING", .conditioning), ("STAFF-ACCESS", .staffAccess),
   ("RECEIPT-PENDING", .receiptPending), ("HELD-FIRE", .heldFire)]

/-- Phase classes as words (section 5.4). -/
def classWords : List (String × PhaseClass) :=
  [("LOAD", .load), ("WAIT", .wait), ("OUT-ACCESS", .outAccess), ("OUT-UNLOAD", .outUnload),
   ("ABORT-UNLOAD", .abortUnload), ("IN-ACCESS", .inAccess), ("IN-CONDITION", .inCondition), ("IN-STAFF", .inStaff),
   ("RECEIPT", .receipt)]

/-- The motion state as a word: the three doings of a PARKING bank are one state (section 6.1). -/
def motionText : Motion → Text
  | .idle => lit "IDLE"
  | .waitClear => lit "WAIT-CLEAR"
  | .homing => lit "HOMING"
  | .moving => lit "MOVING"
  | .stopped => lit "STOPPED"
  | .parkWait => lit "PARKING"
  | .parkHoming => lit "PARKING"
  | .parkTravel => lit "PARKING"
  | .parked => lit "PARKED"
  | .fault => lit "FAULT"

/-- Gate conditions as words (R107). -/
def gateWords : List (String × GateCond) := [("MET", .met), ("FAILING", .failing), ("UNKNOWN", .unknown)]

/-- Handover outcomes as words (R112). -/
def outcomeWords : List (String × HandoverOutcome) :=
  [("COMPLETE", .complete), ("PARTIAL", .partly), ("ABORTED", .aborted), ("INTERRUPTED", .interrupted)]

/-- Query endings as words (R103). -/
def queryEndWords : List (String × QueryEnd) := [("DECLINED", .declined), ("EXPIRED", .expired), ("FIRE", .fire)]

/-- ENTERED or CLEARED. -/
def enteredWord (b : Bool) : Text := if b then lit "ENTERED" else lit "CLEARED"

/-- ON or OFF. -/
def onWord (b : Bool) : Text := if b then lit "ON" else lit "OFF"

/-- A quantity as a word. -/
def quantityText : Quantity → Text
  | .rh => lit "RH"
  | .temp => lit "TEMP"

/-- A home as its five parts. -/
def homeText (h : Home) : Text :=
  commaList [natText (num h.bank), natText h.carriage, textIn faceWords h.face, natText h.shelf, natText h.slot]

/-- The reason of a failed calibration (R14). -/
def calReason : CalOutcome → Option Text
  | .ok => none
  | .order => some (lit "ORDER")
  | .gain => some (lit "GAIN")
  | .offset => some (lit "OFFSET")

/-- A channel's row of a CAL-DONE report: channel, outcome, its reason where it failed, L, Hr, offset and gain (R14,
R15). The short form leaves out the word CAL-FAIL, which the reason stands for. -/
def calRowText (short : Bool) (r : CalRow) : Text :=
  let outcome := match calReason r.outcome with
    | none => [lit "OK"]
    | some why => if short then [why] else [lit "CAL-FAIL", why]
  commaList ([natText (num r.channel)] ++ outcome ++
    [natText r.low, natText r.high, intText r.coef.offset, intText r.coef.gain])

/-- The rows of a CAL-DONE report, in the short form only where the entry would be longer than the 900 characters of
R193, of which stamp, kind and subject take 23 at most (log entry 13). -/
def calRowsText (rows : List CalRow) : List Text :=
  let full := rows.map (calRowText false)
  if (joinText '/' full).length ≤ 877 then full else rows.map (calRowText true)

/-- The subject of a cartridge, as it is reported. -/
def labelText (l : Text) : Text := l

/-- A list of aisle positions. -/
def aisleList (l : List Aisle) : Text := commaList (l.map fun a => natText a.val)

/-- A side as a word. -/
def sideText (sd : Side) : Text := textIn sideWords sd

/-- The kind, subject and details of a report (R193 and its table of kinds). The words no rule spells are the model's;
and a HOLD-ENDED of a countdown has the hold that R65 adds in the place of an absent detail, a hyphen, though R66 names
no hold there, and so has a CHANNEL-FAULT CLEARED by good readings in the place of the cause that R2 adds, though R10
names channel and state alone, and an inbound MANIFEST-EXPIRED in the places of the two label lists that R80 gives for an
outbound manifest alone; and a DETECTOR-FAULT CLEARED by an answered poll gives the zone and the type before its state, as
ENTERED does, where R145 names the state CLEARED alone. A zone, hatch, staging reader, cartridge or manifest that a
detail names has the form R193 gives it as a subject, for which R193 has no rule in a detail: a worked sequence of chapter
11 writes a manifest so in RECEIPT-READY, and the model every one (log entry 13). -/
def eventText : Event → Text × Text × List Text
  | .powerUp c =>
    (lit "POWER-UP", ['-'], [match c with | .powerOn => lit "POWER-ON" | .restart => lit "RESTART", ['A']])
  | .lost n => (lit "LOST", ['-'], [natText n])
  | .channelFaultEntered c code => (lit "CHANNEL-FAULT", channelText c, [enteredWord true, natText code.toNat])
  | .channelFaultCleared c unused =>
    (lit "CHANNEL-FAULT", channelText c, [enteredWord false, orHyphen (if unused then some (lit "UNUSED") else none)])
  | .calDone g rows => (lit "CAL-DONE", 'G' :: natText (num g), calRowsText rows)
  | .sensorDisagree z pair =>
    (lit "SENSOR-DISAGREE", zoneText z, match pair with
      | some (a, b) => [lit "SET", intText a, intText b]
      | none => [enteredWord false])
  | .excursion z q entered v sp band =>
    (lit "EXCURSION", zoneText z, [quantityText q, if entered then lit "ENTERED" else lit "EXITED", intText v, intText sp, intText band])
  | .climateBreak z q => (lit "CLIMATE-BREAK", zoneText z, match q with
      | some q => [lit "EXCURSION", quantityText q]
      | none => [lit "DEFERRED"])
  | .unknownLabel r l => (lit "UNKNOWN-LABEL", labelText l, [readerText r])
  | .mediaMismatch r l a b => (lit "MEDIA-MISMATCH", labelText l, [readerText r, [a], [b]])
  | .found r l k => (lit "FOUND", labelText l, [readerText r, textIn custodyWords k])
  | .strayScan r l k => (lit "STRAY-SCAN", labelText l, [readerText r, textIn custodyWords k])
  | .earlyReshelve r l k n => (lit "EARLY-RESHELVE", labelText l, [readerText r, textIn custodyWords k, natText n])
  | .custodyConflict r l k holder =>
    (lit "CUSTODY-CONFLICT", labelText l, [readerText r, textIn custodyWords k, match holder with
      | .courier id => natText id
      | .manifest id => manifestText id])
  | .holdEnded l z h hold => (lit "HOLD-ENDED", labelText l, [zoneText z, homeText h, orHyphen (hold.map natText)])
  | .stagingFireHold r l z => (lit "FIRE-HOLD", readerText r, [labelText l, zoneText z])
  | .aisleRefused b k l why =>
    (lit "AISLE-REFUSED", bankText b, [natText k, labelText l, match why with
      | .noSuchAisle => lit "NO-SUCH-AISLE"
      | .full => lit "FULL"])
  | .manifestExpired id d h courier cancelled fromReserved fromPicked =>
    (lit "MANIFEST-EXPIRED", manifestText id,
      [match d with | .out => lit "OUT" | .in_ => lit "IN", hatchText h, natText courier,
       if cancelled then lit "CANCELLED" else lit "EXPIRED", commaList fromReserved, commaList fromPicked])
  | .manifestReleased id h => (lit "MANIFEST-RELEASED", manifestText id, [hatchText h, lit "RECOVERY"])
  | .shutterForced h sd => (lit "SHUTTER-FORCED", hatchText h, [sideText sd])
  | .shutterOpenLong h sd p => (lit "SHUTTER-OPEN-LONG", hatchText h, [sideText sd, textIn phaseWords p])
  | .shutterNotSecured h sd => (lit "SHUTTER-NOT-SECURED", hatchText h, [sideText sd])
  | .badgeMismatch h badge id => (lit "BADGE-MISMATCH", hatchText h, [natText badge, manifestText id])
  | .manifestQuery h courier => (lit "MANIFEST-QUERY", hatchText h, [natText courier])
  | .queryEnded h courier why => (lit "QUERY-ENDED", hatchText h, [natText courier, textIn queryEndWords why])
  | .hatchStuck h id ps =>
    (lit "HATCH-STUCK", hatchText h, [orHyphen (id.map manifestText), commaList (ps.map fun p => natText (num p))])
  | .conditionTimeout h id p c =>
    (lit "CONDITION-TIMEOUT", hatchText h, [orHyphen (id.map manifestText), textIn gateWords p, textIn gateWords c])
  | .receiptReady h id o => (lit "RECEIPT-READY", hatchText h, [manifestText id, textIn outcomeWords o])
  | .cartridgeMissing h l => (lit "CARTRIDGE-MISSING", hatchText h, [labelText l])
  | .aisleOpen b k => (lit "AISLE-OPEN", bankText b, [natText k])
  | .aisleBlocked b k broken => (lit "AISLE-BLOCKED", bankText b, [natText k, aisleList broken])
  | .bankStopped b c m sought =>
    (lit "BANK-STOPPED", bankText b, [natText c.val, motionText m, orHyphen (sought.map natText)])
  | .homingTimeout b k => (lit "BANK-FAULT", bankText b, [lit "HOMING-TIMEOUT", orHyphen (k.map natText)])
  | .travelTimeout b a k => (lit "BANK-FAULT", bankText b, [lit "TRAVEL-TIMEOUT", natText a, natText k])
  | .bankBlocked b broken => (lit "BANK-BLOCKED", bankText b, [aisleList broken])
  | .bankParked b k => (lit "BANK-PARKED", bankText b, [natText k])
  | .detectorState l a z t level st =>
    (lit "DETECTOR-STATE", detectorText l a,
      [zoneText z, textIn typeWords t, orHyphen (level.map natText), textIn detStateWords st])
  | .detectorFaultEntered l a z t =>
    (lit "DETECTOR-FAULT", detectorText l a, [zoneText z, textIn typeWords t, enteredWord true])
  | .detectorFaultCleared l a z t =>
    (lit "DETECTOR-FAULT", detectorText l a, [zoneText z, textIn typeWords t, enteredWord false])
  | .detectorFaultDisabled l a => (lit "DETECTOR-FAULT", detectorText l a, [enteredWord false, lit "DISABLED"])
  | .loopFault l entered zs =>
    (lit "LOOP-FAULT", loopText l, [enteredWord entered, commaList (zs.map zoneText)])
  | .monitoringDegraded z on => (lit "MONITORING-DEGRADED", zoneText z, [onWord on])
  | .fireState z a b c =>
    (lit "FIRE-STATE", zoneText z, [textIn fireWords a, textIn fireWords b, textIn causeWords c])
  | .isolated z => (lit "ISOLATED", zoneText z, [])
  | .agentSpent z => (lit "AGENT-SPENT", zoneText z, [])
  | .isolateKey z on st => (lit "ISOLATE-KEY", zoneText z, [onWord on, textIn fireWords st])
  | .abort z held secs =>
    (lit "ABORT", zoneText z, [if held then lit "HELD" else lit "RELEASED", natText secs])
  | .dischargeConfirmed z secs => (lit "DISCHARGE-CONFIRMED", zoneText z, [natText secs])
  | .dischargeFault z => (lit "DISCHARGE-FAULT", zoneText z, [])
  | .soakComplete z => (lit "SOAK-COMPLETE", zoneText z, [])
  | .agentRestored z => (lit "AGENT-RESTORED", zoneText z, [])

/-- A report as one field's value: stamp, kind, subject and details separated by slashes (R195). -/
def reportText (r : Report) : Text :=
  let e := eventText r.event
  joinText '/' ([natText r.stamp.toNat, e.1, e.2.1] ++ e.2.2)

end Sys2Proof.Machine
end

