-- ==== Sys2Proof/Machine/ReplyParts.lean ====
section
/-!
DEFINITION. What every reply carries (R187 and the rule of each request): the values of its body in the order its rule
lists them, single values as one part each and records in a list as one part each with their own parts between
slashes. A part stands under the name a rule gives it or, where no rule names it, under one of the free names of its
reply (`Config.fieldName`, log entry 3). Words that no rule spells are the model's (log entry 3), and so is the form of a
value of several parts that no rule spells, such as a timer with its state: one field for each part, in a fixed number,
with a hyphen for a part that is absent (log entry 3).
-/

namespace Sys2Proof.Machine

/-- A field of a reply: under the name a rule gives, or under the name numbered `slot` among those no rule gives. -/
inductive Part where
  | named (name value : Text)
  | unnamed (slot : Nat) (value : Text)
  deriving DecidableEq, Repr

/-- A field under a name the spec spells. -/
def given (name : String) (value : Text) : Part := .named (lit name) value

/-- Values under the free names numbered from `i` on. -/
def slots : Nat → List Text → List Part
  | _, [] => []
  | i, v :: vs => .unnamed i v :: slots (i + 1) vs

/-- Records in a list: each one part under the same free name, its own parts separated by slashes (R187). -/
def records (slot : Nat) (rows : List (List Text)) : List Part := rows.map fun r => .unnamed slot (joinText '/' r)

/-- The place of the next page, which ends a paged reply (R187). -/
def nextPart (n : Option Nat) : Part :=
  given "next" (match n with
    | some k => natText k
    | none => lit "END")

/-- A number, or a single hyphen where it is absent (R187). -/
def numberOrHyphen (n : Option Nat) : Text := orHyphen (n.map natText)

/-! ### Words -/

/-- Reasons of a REFUSED reply. -/
def reasonWords : List (String × RefusedFor) :=
  [("WRONG-DIRECTION", .wrongDirection), ("WRONG-HATCH", .wrongHatch), ("ACTIVE", .active),
   ("NOTHING-TO-LOAD", .nothingToLoad), ("LATCHED", .latched)]

/-- Reasons of an UNREADABLE record or position (R55, R91, R92). -/
def unreadWords : List (String × UnreadReason) :=
  [("LINE", .line), ("LENGTH", .length), ("MARK", .mark), ("CHARACTER", .character), ("CRC", .crc),
   ("NO-RESPONSE", .noResponse), ("NOT-SCANNED", .notScanned)]

/-- Indicator colours (R60, R97). -/
def colourWords : List (String × Colour) := [("OFF", .off), ("GREEN", .green), ("AMBER", .amber), ("RED", .red)]

/-- Directions (R69). -/
def directionWords : List (String × Direction) := [("OUT", .out), ("IN", .in_)]

/-- Item statuses (R70). -/
def itemWords : List (String × ItemStatus) :=
  [("RESERVED", .reserved), ("PICKED", .picked), ("LOADED", .loaded), ("DEPARTED", .departed), ("LEFT", .left),
   ("EXPECTED", .expected), ("RECEIVED", .received), ("NOT-RETURNED", .notReturned)]

/-- Results of a receipt entry (R112). -/
def resultWords : List (String × EntryResult) :=
  [("DEPARTED", .departed), ("LEFT", .left), ("RECEIVED", .received), ("CROSS", .cross),
   ("NOT-RETURNED", .notReturned), ("REJECTED-REMOVED", .rejectedRemoved)]

/-- Tray verdicts (R91). -/
def verdictWords : List (String × Verdict) := [("NONE", .none), ("ACCEPTED", .accepted), ("REJECTED", .rejected)]

/-- Drive outputs (R123). -/
def driveWords : List (String × Drive) := [("OFF", .off), ("UP", .up), ("DOWN", .down)]

/-- The failures of an item that are one word (R74). -/
def itemFaultWords : List (String × ItemFault) :=
  [("NOT-FOUND", .notFound), ("DUPLICATE", .duplicate), ("FIRE-HOLD", .fireHold)]

/-- OPEN or ACTIVE (R69). -/
def manifestStateText (m : Manifest) : Text := if m.active then lit "ACTIVE" else lit "OPEN"

/-- IN-BAND or OUT (chapter 2). -/
def bandText (out : Bool) : Text := if out then lit "OUT" else lit "IN-BAND"

/-- What a PARKING bank does (R137). -/
def parkingText : Motion → Text
  | .parkWait => lit "WAITING"
  | .parkHoming => lit "HOMING"
  | .parkTravel => lit "TRAVELLING"
  | _ => ['-']

/-! ### Values of several parts -/

/-- A value and its status. -/
def valueTexts : Value → List Text
  | .valid v => [intText v, lit "VALID"]
  | .notReady => [['-'], lit "NOT-READY"]
  | .invalid => [['-'], lit "INVALID"]

/-- A reading: value, status and CAL flag (R18). -/
def readingTexts (r : Reading) : List Text := valueTexts r.value ++ [yesNo r.cal]

/-- The dew point: value, status and CAL flag (R18, R24). -/
def dewTexts : DewPoint → List Text
  | .valid td _ _ cal => [intText td, lit "VALID", yesNo cal]
  | .invalid => [['-'], lit "INVALID", yesNo false]

/-- A group's state with its discards remaining (R19). -/
def groupTexts : GroupState → List Text
  | .notReady n => [lit "NOT-READY", natText n]
  | .ready => [lit "READY", ['-']]
  | .calibrating _ => [lit "CALIBRATING", ['-']]

/-- A channel's live state: fault, rail and good runs, last raw code, window (R19); hyphens for an UNUSED one. -/
def liveTexts : Option ChanLive → List Text
  | none => [['-'], ['-'], ['-'], ['-'], ['-']]
  | some x => [yesNo x.fault, natText x.railRun, natText x.goodRun, orHyphen (x.lastRaw.map fun c => natText c.toNat),
      commaList (x.window.map intText)]

/-- The five parts of a home (R42). -/
def homeTexts (h : Home) : List Text :=
  [natText (num h.bank), natText h.carriage, textIn faceWords h.face, natText h.shelf, natText h.slot]

/-- The fields present in a custody state, each under a name of its own from `slot` on: manifest ID, courier ID, hold
remaining (R42, R47). -/
def custodyParts (slot : Nat) : Custody → List Part
  | .reserved id => [.unnamed slot (natText id)]
  | .picked id => [.unnamed slot (natText id)]
  | .inHatchOut id => [.unnamed slot (natText id)]
  | .inHatchIn id => [.unnamed slot (natText id)]
  | .out courier => [.unnamed (slot + 1) (natText courier)]
  | .quarantine hold => [.unnamed (slot + 2) (natText hold)]
  | _ => []

/-- The outcome of a fresh read (R57, R58). -/
def outcomeText : ReadOutcome → Text
  | .readerFireHold => lit "READER-FIRE-HOLD"
  | .unknownLabel => lit "UNKNOWN-LABEL"
  | .mediaMismatch => lit "MEDIA-MISMATCH"
  | .cartridgeFireHold => lit "FIRE-HOLD"
  | .custody k => textIn custodyWords k

/-- The last read of a port: its result, label and outcome, or its reason (R60), as three fields in every case. R60 names
a label and an outcome for a good read alone: that a repeat is given with its label and a hyphen in the place of the
outcome, that an UNREADABLE read has a hyphen in the place of the label and its reason in the place of the outcome, and
that a port with no read yet has three hyphens, are the model's choice (log entry 3). -/
def lastReadTexts : Option LastRead → List Text
  | none => [['-'], ['-'], ['-']]
  | some (.good l _ o) => [lit "GOOD", l, outcomeText o]
  | some (.again l _) => [lit "REPEAT", l, ['-']]
  | some (.unreadable e) => [lit "UNREADABLE", ['-'], textIn unreadWords e]

/-- An exposure summary: the two temperatures, the two humidities and the minutes out (R69, R85). Five hyphens are the
mark that there is none: the model's choice (log entry 3). -/
def exposureTexts : Option Exposure → List Text
  | none => [['-'], ['-'], ['-'], ['-'], ['-']]
  | some e => [intText e.tmax, intText e.tmin, intText e.hmax, intText e.hmin, natText e.minutes]

/-- A shutter: its state, its sensor, and the seconds left on the timer that runs (R88, R119). -/
def shutterTexts (sh : Shutter) : List Text :=
  [if sh.locked then lit "LOCKED" else if sh.sensorOpen then lit "OPEN" else lit "UNLOCKED",
   if sh.sensorOpen then lit "OPEN" else lit "CLOSED", numberOrHyphen (sh.unlock.or sh.openAlarm)]

/-- A countdown with its seconds remaining (R176), two fields: the model's choice (log entry 3). -/
def countdownTexts : Countdown → List Text
  | .stopped => [lit "STOPPED", ['-']]
  | .running n => [lit "RUNNING", natText n]
  | .frozen n => [lit "FROZEN", natText n]

/-- The item in progress (R156), which the model writes as two fields: its kind, and the address it polls, a hyphen for a
round and where no item is made. That it is two fields, and that a round's priority poll stands as PRIORITY-POLL with
its address and not as the ROUND it is part of (R152), are the model's choice (log entry 3). -/
def itemTexts : LoopItem → List Text
  | .none => [['-'], ['-']]
  | .passPoll a => [lit "PASS-POLL", natText (num a)]
  | .round _ => [lit "ROUND", ['-']]
  | .priorityPoll a => [lit "PRIORITY-POLL", natText (num a)]

/-! ### Records -/

/-- One record of LIST-CARTRIDGES (R48, R187). -/
def listedRow (r : CartridgeRow) : List Text :=
  [natText r.index, r.label, [r.media], textIn custodyWords r.state, natText (num r.zone)]

/-- One failing item: its position, label and reason, with the custody state found for WRONG-STATE (R74). -/
def failureRow (f : ItemFailure) : List Text :=
  [natText f.pos, f.label] ++ match f.fault with
    | .wrongState found => [lit "WRONG-STATE", textIn custodyWords found]
    | e => [textIn itemFaultWords e]

/-- One bank of GUIDE-PICKS: items, requests taken, and those refused FULL, FIRE-HOLD and not sent (R78). -/
def pickRow (r : PickRow) : List Text :=
  [natText (num r.bank), natText r.items, natText r.taken, natText r.full, natText r.fireHold, natText r.noSuchAisle]

/-- One item of READ-MANIFEST: its position, label and status (R85). -/
def itemRow (x : Nat × Item) : List Text := [natText x.1, x.2.label, textIn itemWords x.2.status]

/-- One manifest of LIST-MANIFESTS (R85). -/
def manifestRow (x : Nat × Manifest) : List Text :=
  [natText x.1, natText x.2.id, textIn directionWords x.2.direction, natText (num x.2.hatch), natText x.2.courier,
   manifestStateText x.2, natText x.2.validity, natText x.2.items.length]

/-- One entry of a receipt: label, result, side, hold and MISSING mark (R112). -/
def entryRow (e : Entry) : List Text :=
  [orHyphen e.label, textIn resultWords e.result, orHyphen (e.side.map (textIn sideWords)), numberOrHyphen e.hold,
   yesNo e.missing]

/-- One position of a tray page: its number, presence, label, verdict and hold (R119); an unreadable one gives its reason
in the place of the label. -/
def trayRow (x : Nat × TrayPos) : List Text :=
  natText x.1 :: (match x.2.presence with
    | .empty => [lit "EMPTY", ['-']]
    | .present l _ => [lit "PRESENT", l]
    | .unreadable e => [lit "PRESENT-UNREADABLE", textIn unreadWords e]) ++
    [textIn verdictWords x.2.verdict, numberOrHyphen x.2.hold]

/-- One detector of READ-LOOP: address, zone, type, state and latch (R156). -/
def loopRow (r : DetectorRow) : List Text :=
  [natText (num r.address), natText (num r.zone), textIn typeWords r.type, textIn detStateWords r.state, yesNo r.latch]

/-- One detector of READ-FIRE-ZONE: loop, address, type, state and latch (R176). -/
def fireRow (r : DetectorRow) : List Text :=
  [natText (num r.loop), natText (num r.address), textIn typeWords r.type, textIn detStateWords r.state, yesNo r.latch]

/-- The queue of a bank, head first, the target in service marked (R137). -/
def queueRows (v : BankView) : List (List Text) :=
  v.live.queue.map fun k => [natText k, yesNo (v.inService == some k)]

/-- The curtain and the position sensor of each aisle position (R137). -/
def aisleRows (v : BankView) : List (List Text) :=
  (v.curtains.zip v.sensors).zipIdx.map fun x =>
    [natText x.2, if x.1.1 then lit "BROKEN" else lit "CLEAR", if x.1.2 then lit "ACTIVE" else lit "INACTIVE"]

/-! ### Readings of one subject -/

/-- READ-CHANNEL (R19). -/
def channelParts (v : ChannelView) : List Part :=
  slots 0 ([textIn kindWords v.entry.kind, textIn ownerWords v.entry.owner, natText (num v.entry.group)] ++
    groupTexts v.group ++ liveTexts v.live ++
    (match v.value with
      | some x => valueTexts x
      | none => [['-'], ['-']]) ++
    [yesNo v.cal, intText v.coef.offset, intText v.coef.gain])

/-- READ-ZONE (R40), which opens with its zone (the worked sequence of chapter 9). In SHED the length of the stopped period
is given still, and STOPPED stands in the place of its elapsed seconds alone: the model's choice (log entry 3). -/
def zoneParts (v : ZoneView) : List Part :=
  let c := v.climate
  given "zone" (natText (num v.zone)) ::
    slots 0 (readingTexts c.rh ++ readingTexts c.temp ++ [yesNo v.disagree] ++ dewTexts c.dew ++
      [bandText c.outRh, bandText c.outTemp, textIn modeWords c.mode, textIn selectionWords v.prior, natText c.dh,
       natText c.hu, onWord c.dhOn, onWord c.huOn, natText c.period, (c.elapsed.map natText).getD (lit "STOPPED"),
       (c.burst.map natText).getD (lit "STOPPED"), yesNo c.deferredBreak, yesNo c.deferredBurst, textIn fireWords v.fire])

/-- READ-CARTRIDGE (R47). -/
def cartridgeParts (c : Cartridge) (z : Zone) (aisle index : Nat) : List Part :=
  slots 0 ([c.label, [c.media]] ++ homeTexts c.home ++ [textIn custodyWords c.custody.name]) ++
    custodyParts 8 c.custody ++
    slots 11 [yesNo c.noExposure, yesNo c.condensationReleased, yesNo c.crossManifest, yesNo c.holdReleasedEarly,
      natText c.checkouts, natText (num z), natText aisle, natText index]

/-- READ-STAGING (R60): the last read, and a hyphen for the seconds since it where none was made (log entry 3). -/
def stagingParts (p : Staging) : List Part :=
  slots 0 (lastReadTexts p.lastRead ++
    [if p.lastRead.isSome then natText p.since else ['-'], orHyphen (p.lastGood.map Prod.fst), numberOrHyphen p.window,
     textIn colourWords p.colour])

/-- READ-MANIFEST (R85). -/
def manifestParts (m : Manifest) (page : List (Nat × Item)) (next : Option Nat) : List Part :=
  slots 0 ([natText m.id, textIn directionWords m.direction, natText (num m.hatch), natText m.courier,
      manifestStateText m, natText m.validity] ++ exposureTexts m.exposure ++ [natText m.items.length]) ++
    records 12 (page.map itemRow) ++ [nextPart next]

/-- FETCH-RECEIPT (R112, R113). -/
def receiptParts (r : Receipt) (page : List Entry) (next : Option Nat) : List Part :=
  slots 0 [natText (num r.hatch), natText r.manifest, textIn directionWords r.direction, natText r.courier,
      textIn outcomeWords r.outcome, natText r.start.toNat, natText r.finish.toNat, natText r.furtherRejects] ++
    records 8 (page.map entryRow) ++ [nextPart next]

/-- READ-HATCH without `tray=` (R119), then the chamber readings with their CAL flags, which R18 and the return of
chapter 11 have it show (log entry 3). -/
def hatchParts (v : HatchView) : List Part :=
  let x := v.live
  slots 0 ([textIn phaseWords x.phase, orHyphen (x.heldClass.map (textIn classWords)), numberOrHyphen x.manifest] ++
    shutterTexts x.outer ++ shutterTexts x.inner ++
    [orHyphen (x.lastOpened.map (textIn sideWords)), numberOrHyphen (x.query.map (·.courier)),
     numberOrHyphen (x.query.map (·.wait)), numberOrHyphen x.rejectTimer, natText x.limitCount,
     textIn gateWords x.purge, textIn gateWords x.condensation, onWord x.purgeOn, onWord x.heaterOn, yesNo x.risk,
     yesNo v.receiptHeld, yesNo v.recordHeld, numberOrHyphen x.idle, textIn colourWords x.colour] ++
    readingTexts x.rh ++ readingTexts x.temp ++ readingTexts x.probe)

/-- READ-BANK (R137), which opens with its bank (the worked sequence of chapter 9). While the drive runs toward an aisle
UNKNOWN stands in the place of the position and the travel in two fields beside it, and else those two are absent: the
model's choice (log entry 3). So are the three fields for the seconds left on the block, homing or travel timer that
runs, one value in R137: each timer has its own, with a hyphen where it does not run (log entry 3). What a PARKING bank
does is a field beside its motion state, and the last stop two fields, its curtain and the state (log entry 3). -/
def bankParts (v : BankView) : List Part :=
  let x := v.live
  given "bank" (natText (num v.bank)) ::
    slots 0 [natText (num v.settings.zone), natText v.settings.carriages, natText v.settings.park,
      natText v.settings.step, motionText x.motion, parkingText x.motion,
      (x.position.map natText).getD (lit "UNKNOWN"), numberOrHyphen (x.travel.map Prod.fst),
      numberOrHyphen (x.travel.map Prod.snd), textIn driveWords x.drive] ++
    records 10 (queueRows v) ++
    slots 11 [numberOrHyphen x.block, numberOrHyphen x.homing, numberOrHyphen x.moving, yesNo x.parkDemand,
      yesNo x.blockedPosted, textIn fireWords v.fire] ++
    records 17 (aisleRows v) ++
    slots 18 [numberOrHyphen (x.lastStop.map Prod.fst), orHyphen (x.lastStop.map fun l => motionText l.2)]

/-- READ-DETECTOR (R156), whose `level=` R187 names. -/
def detectorParts (v : DetectorView) : List Part :=
  slots 0 [natText (num v.entry.zone), textIn typeWords v.entry.type, yesNo v.entry.enabled] ++
    [given "level" (numberOrHyphen v.live.level)] ++
    slots 3 [textIn detStateWords v.live.state, natText v.live.miss, natText v.live.alarmRun, natText v.live.lowRun,
      yesNo v.live.latch, numberOrHyphen v.prealarm, natText v.alarm]

/-- READ-LOOP (R156), the item in progress as two fields (log entry 3). -/
def loopParts (v : LoopView) : List Part :=
  slots 0 ([numberOrHyphen (v.position.map num)] ++ itemTexts v.item ++
      [natText v.busErrors, yesNo v.fault, yesNo v.firstPass]) ++
    records 6 (v.page.map loopRow) ++ [nextPart v.next]

/-- READ-FIRE-ZONE (R176). -/
def fireZoneParts (v : FireView) : List Part :=
  let x := v.live
  slots 0 ([textIn fireWords x.state, yesNo v.inHoldSet, yesNo v.inShedSet, natText v.settings.coincidence,
      natText v.settings.countdown, natText v.settings.soak, natText v.settings.vent, yesNo v.spent,
      natText v.counts.auto, natText v.counts.manual, natText v.counts.prealarm, natText v.counts.usable,
      natText v.coincidence, yesNo v.degraded, if x.abortHeld then lit "HELD" else lit "RELEASED", onWord x.isolateOn,
      if x.confirmActive then lit "ACTIVE" else lit "INACTIVE"] ++ countdownTexts x.countdown ++
      [numberOrHyphen x.pulse, numberOrHyphen x.confirmWait, yesNo x.confirmSeen, numberOrHyphen x.soak,
       yesNo x.soakComplete, numberOrHyphen x.vent, onWord x.releaseOut, onWord x.ventOut]) ++
    records 27 (v.page.map fireRow) ++ [nextPart v.next]

/-! ### The whole part -/

/-- A count with its capacity (R190). -/
def ofText (a b : Nat) : Text := joinText '/' [natText a, natText b]

/-- IDENTIFY (R190). -/
def identityParts (v : IdentityView) : List Part :=
  [given "part" (lit "RESKAR-7140"), given "rev" ['A'], given "station" (natText v.station),
   given "rate" (natText v.rate), given "minute" (natText v.minute.toNat),
   given "cartridges" (ofText v.cartridges 2048), given "manifests" (ofText v.manifests 16),
   given "reports" (ofText v.reports 64), given "zones" ['4'], given "hatches" ['2'], given "banks" ['4'],
   given "loops" ['2'], given "channels" (lit "24"), given "detectors" (ofText v.detectors1 v.detectors2),
   given "tray" (lit "24")]

/-- A numbered record of a STATUS reply. -/
def statusRecord (name : String) (i : Nat) (parts : List Text) : Part :=
  given name (joinText '/' (natText i :: parts))

/-- STATUS (R191). -/
def statusParts (v : StatusView) : List Part :=
  [given "minute" (natText v.minute.toNat)] ++
    v.zones.zipIdx.map (fun x => statusRecord "zone" (x.2 + 1)
      [textIn modeWords x.1.mode, textIn fireWords x.1.fire, yesNo x.1.degraded, yesNo x.1.spent]) ++
    v.hatches.zipIdx.map (fun x => statusRecord "hatch" (x.2 + 1)
      [textIn phaseWords x.1.phase, orHyphen (x.1.heldClass.map (textIn classWords)), yesNo x.1.receipt,
       yesNo x.1.query]) ++
    v.banks.zipIdx.map (fun x => statusRecord "bank" (x.2 + 1)
      [motionText x.1.motion, (x.1.position.map natText).getD (lit "UNKNOWN")]) ++
    [given "reports" (natText v.reports), given "lost" (natText v.lost),
     given "attn" (if v.attn then lit "ASSERTED" else lit "RELEASED")]

/-- READ-SETTING (R201). -/
def settingParts : SettingView → List Part
  | .number v lo hi d => [given "value" (intText v), given "min" (intText lo), given "max" (intText hi),
      given "default" (intText d)]
  | .name t => [given "value" t]
  | .channel e => [given "kind" (textIn kindWords e.kind), given "owner" (textIn ownerWords e.owner),
      given "group" (natText (num e.group))]
  | .detector e => [given "zone" (natText (num e.zone)), given "type" (textIn typeWords e.type),
      given "enabled" (yesNo e.enabled)]

/-! ### Requests carried out or refused -/

/-- The outcome of an aisle request (R126). -/
def aisleParts : AisleOutcome → List Part
  | .satisfied => [given "outcome" (lit "SATISFIED")]
  | .merged n => [given "outcome" (lit "MERGED"), given "place" (natText n)]
  | .queued n => [given "outcome" (lit "QUEUED"), given "place" (natText n)]
  | _ => []

/-- The reasons of a refused ADD-CARTRIDGE (R45): DUPLICATE-LABEL, SLOT-TAKEN, or both as a list (log entry 3). -/
def duplicateReason (label : Bool) (slotHolder : Option Text) : Text :=
  commaList ((if label then [lit "DUPLICATE-LABEL"] else []) ++ (slotHolder.map fun _ => lit "SLOT-TAKEN").toList)

/-- A reason a rule names. -/
def reasonPart (t : Text) : Part := given "reason" t

/-- The seconds left in the soak, given by a refused START-VENT in DISCHARGED alone (R171). -/
def soakParts (left : Option Nat) : List Part := (left.map fun n => Part.unnamed 1 (natText n)).toList

/-- A value used, under the name of the field the request carried (R187). -/
def valuePart (v : Text × Int) : Part := .named v.1 (intText v.2)

/-- The parts of a body, in the order of its rule; where the rule lists them in no order that a reply shows, the order is
the rule's own (log entry 3). -/
def bodyParts : Body → List Part
  | .empty => []
  | .badField n => [given "field" n]
  | .refusedFor r => [reasonPart (textIn reasonWords r)]
  | .wrongState found => [reasonPart (lit "WRONG-STATE"), .unnamed 0 (textIn custodyWords found)]
  | .duplicate label holder =>
    reasonPart (duplicateReason label holder) :: (holder.map fun l => Part.unnamed 0 l).toList
  | .slotTaken holder => [reasonPart (lit "SLOT-TAKEN"), .unnamed 0 holder]
  | .items fs => reasonPart (lit "ITEMS") :: records 0 (fs.map failureRow)
  | .fireZones zs => reasonPart (lit "FIRE") :: zs.map fun z => given "zone" (natText (num z))
  | .fireRefused state left => .unnamed 0 (textIn fireWords state) :: soakParts left
  | .used vs => vs.map valuePart
  | .carriages clamped park =>
    (clamped.map fun v => given "value" (intText v)).toList ++
      (park.map fun p => given "park" (natText p)).toList
  | .submitted id validity clamped =>
    [given "id" (natText id), given "validity" (natText validity)] ++ clamped.map valuePart
  | .mode m => slots 0 [textIn modeWords m]
  | .channel v => channelParts v
  | .zone v => zoneParts v
  | .index n => slots 0 [natText n]
  | .cartridge c z aisle index => cartridgeParts c z aisle index
  | .cartridges rows next => rows.map (fun r => given "rec" (joinText '/' (listedRow r))) ++ [nextPart next]
  | .minutes n => slots 0 [natText n]
  | .staging p => stagingParts p
  | .picks rows => records 0 (rows.map pickRow)
  | .manifest m page next => manifestParts m page next
  | .manifests rows next => records 0 (rows.map manifestRow) ++ [nextPart next]
  | .receipt r page next => receiptParts r page next
  | .settled id reopened =>
    [given "id" (natText id), .unnamed 0 (if reopened then lit "OPEN" else lit "REMOVED")]
  | .risk yes => [given "risk" (yesNo yes)]
  | .hatch v => hatchParts v
  | .tray page next => records 0 (page.map trayRow) ++ [nextPart next]
  | .aisle o => aisleParts o
  | .removed n => slots 0 [natText n]
  | .bank v => bankParts v
  | .detector v => detectorParts v
  | .loop v => loopParts v
  | .fireZone v => fireZoneParts v
  | .identity v => identityParts v
  | .status v => statusParts v
  | .setting v => settingParts v
  | .reports max es left =>
    (max.map fun n => given "max" (intText n)).toList ++ es.map (fun r => given "rep" (reportText r)) ++
      [given "left" (natText left)]

/-! ### The free names -/

/-- The number of a reply whose rule leaves names open, by which its free names are chosen; 0 where none is open. -/
def Body.kind : Body → Nat
  | .wrongState _ => 1
  | .duplicate _ _ => 2
  | .slotTaken _ => 3
  | .items _ => 4
  | .fireRefused _ _ => 5
  | .mode _ => 6
  | .channel _ => 7
  | .zone _ => 8
  | .index _ => 9
  | .cartridge _ _ _ _ => 10
  | .minutes _ => 11
  | .staging _ => 12
  | .picks _ => 13
  | .manifest _ _ _ => 14
  | .manifests _ _ => 15
  | .receipt _ _ _ => 16
  | .settled _ _ => 17
  | .hatch _ => 18
  | .tray _ _ => 19
  | .removed _ => 20
  | .bank _ => 21
  | .detector _ => 22
  | .loop _ => 23
  | .fireZone _ => 24
  | _ => 0

/-- The names a reply of that number has where the free ones are not of the form of section 9.3: one for each slot. -/
def plainNames : Nat → List String
  | 1 => ["state"]
  | 2 => ["holder"]
  | 3 => ["holder"]
  | 4 => ["rec"]
  | 5 => ["state", "soak"]
  | 6 => ["mode"]
  | 7 => ["kind", "owner", "group", "state", "discards", "fault", "rail", "good", "raw", "window", "value", "status",
      "cal", "offset", "gain"]
  | 8 => ["rh", "rhstatus", "rhcal", "temp", "tempstatus", "tempcal", "disagree", "dew", "dewstatus", "dewcal", "rhexc",
      "tempexc", "mode", "prior", "dh", "hu", "dhout", "huout", "period", "elapsed", "burst", "defbreak", "defburst",
      "fire"]
  | 9 => ["index"]
  | 10 => ["label", "media", "bank", "carriage", "face", "shelf", "slot", "state", "id", "courier", "hold", "noexp",
      "condrel", "cross", "early", "outs", "zone", "aisle", "index"]
  | 11 => ["minutes"]
  | 12 => ["read", "label", "outcome", "since", "last", "window", "colour"]
  | 13 => ["rec"]
  | 14 => ["id", "direction", "hatch", "courier", "state", "validity", "tmax", "tmin", "hmax", "hmin", "minutes", "items",
      "rec"]
  | 15 => ["rec"]
  | 16 => ["hatch", "id", "direction", "courier", "outcome", "start", "end", "further", "rec"]
  | 17 => ["manifest"]
  | 18 => ["phase", "class", "id", "outer", "outersens", "outerleft", "inner", "innersens", "innerleft", "side",
      "courier", "wait", "reject", "limit", "purge", "cond", "valve", "heater", "risk", "receipt", "record", "idle",
      "colour", "rh", "rhstatus", "rhcal", "temp", "tempstatus", "tempcal", "probe", "probestatus", "probecal"]
  | 19 => ["rec"]
  | 20 => ["removed"]
  | 21 => ["zone", "carr", "park", "step", "motion", "parking", "pos", "from", "to", "drive", "target", "block", "homing",
      "moving", "demand", "blocked", "fire", "aisle", "curtain", "stopped"]
  | 22 => ["zone", "type", "enabled", "state", "miss", "alarmrun", "lowrun", "latch", "prealarm", "alarm"]
  | 23 => ["position", "item", "address", "errors", "fault", "first", "rec"]
  | 24 => ["state", "hold", "shed", "coinc", "count", "soak", "vent", "spent", "auto", "manual", "pre", "usable", "eff",
      "degraded", "abort", "isolate", "confirm", "run", "left", "pulse", "wait", "seen", "soaking", "soaked", "venting",
      "release", "ventout", "rec"]
  | _ => []

/-- The most characters a free name of that reply may have: 12 (section 9.3), and fewer where the longest reply of the
kind would not keep to the 1024 characters of R186 (log entry 3). -/
def nameRoom : Nat → Nat
  | 4 => 3
  | 24 => 10
  | _ => 12

/-- The name a rule gives the part. -/
def Part.ruleName : Part → Option Text
  | .named n _ => some n
  | .unnamed _ _ => none

/-- A name of 1 to `n` small letters and digits (section 9.3). -/
def fieldName (n : Nat) (name : Text) : Bool :=
  decide (1 ≤ name.length) && decide (name.length ≤ n) &&
    name.all fun c => decide (97 ≤ c.toNat ∧ c.toNat ≤ 122) || isDigit c

/-- Names a reply may have for its slots: of the form and length, each its own, none that a rule gives a part of the
reply, `reason` among them (R187: a repeated name is a list of records). -/
def namesFit (room : Nat) (taken names : List Text) : Bool :=
  names.all (fieldName room) && decide names.Nodup && names.all fun n => !(lit "reason" :: taken).contains n

/-- The names of a body's slots: free ones (log entry 3). -/
def slotNames (b : Body) : List Text :=
  let plain := (plainNames b.kind).map lit
  let free := (List.range plain.length).map (Config.fieldName b.kind)
  if namesFit (nameRoom b.kind) ((bodyParts b).filterMap Part.ruleName) free then free else plain

/-- A part as it stands in a line. -/
def partText (names : List Text) : Part → Text
  | .named n v => n ++ '=' :: v
  | .unnamed i v => names.getD i [] ++ '=' :: v

end Sys2Proof.Machine
end

