-- ==== Sys2Proof/Machine/ReplyText.lean ====
section
/-!
DEFINITION. The reply line (R186, R187): its frame, its status word, its fields, its check. The reason of a refusal whose
rule names none is free (`Config.replyReason`), and so are the names of the fields that no rule names (`slotNames`), within
the form and the length of section 9.3 (log entry 3).
-/

namespace Sys2Proof.Machine

/-- Status words (section 9.4). -/
def statusWords : List (String × StatusWord) :=
  [("OK", .ok), ("CLAMPED", .clamped), ("BUSY", .busy), ("REFUSED", .refused), ("NOT-FOUND", .notFound),
   ("FULL", .full), ("FIRE-HOLD", .fireHold), ("TOO-LATE", .tooLate), ("BAD-VALUE", .badValue),
   ("BAD-REQUEST", .badRequest), ("UNKNOWN-REQUEST", .unknownRequest)]

/-- Fields as they stand in a line, each after one space. -/
def spaced (fs : List Text) : Text := (fs.map fun f => ' ' :: f).flatten

/-- A character of a reply value: one a request value may hold, or the slash (section 9.3). -/
def replyChar (c : Char) : Bool := isCapital c || isDigit c || c == '-' || c == ',' || c == '/'

/-- A value in the form of section 9.3, not empty. -/
def replyValue (v : Text) : Bool := !v.isEmpty && v.all replyChar

/-- The body names no reason of a refusal. -/
def namesNoReason : Body → Bool
  | .empty => true
  | .fireRefused _ _ => true
  | _ => false

/-- A REFUSED answer whose rule names no reason (R12, R101, R106, R110, R133, R171, R173, R174). -/
def reasonless (a : Answer) : Bool := a.word == .refused && namesNoReason a.body

/-- The reason of such an answer: a free value in the form of section 9.3, of 900 characters at most so that it finds
room in the reply (R186, R187, log entry 3). -/
def freeReason (n : Nat) : Text :=
  let t := Config.replyReason n
  if replyValue t ∧ t.length ≤ 900 then t else ['-']

/-- The fields of an answer (R187): `reason=` first in every REFUSED, then those of its body. -/
def answerFields (n : Nat) (a : Answer) : List Text :=
  (if reasonless a then [lit "reason" ++ '=' :: freeReason n] else []) ++
    (bodyParts a.body).map (partText (slotNames a.body))

/-- One hexadecimal digit, a capital where it is a letter. -/
def hexDigit (n : Nat) : Char := if n < 10 then Char.ofNat (48 + n) else Char.ofNat (55 + n)

/-- Four hexadecimal digits, most significant first (section 9.3). -/
def hexText (w : BitVec 16) : Text :=
  [hexDigit (w.toNat / 4096 % 16), hexDigit (w.toNat / 256 % 16), hexDigit (w.toNat / 16 % 16), hexDigit (w.toNat % 16)]

/-- The characters of a reply between the opening mark and the check mark. -/
def replyContent (n : Nat) (r : Reply) : Text :=
  twoDigits r.station ++ ' ' :: textIn statusWords r.answer.word ++ spaced (answerFields n r.answer)

/-- The reply line, from the mark to the carriage return (R186). -/
def replyLine (n : Nat) (r : Reply) : Text :=
  let content := replyContent n r
  '#' :: content ++ '*' :: hexText (crc16 (content.map byteOf)) ++ ['\r']

/-- The length of a reply line: its content, the two marks, four digits and the carriage return. -/
def replyLength (n : Nat) (r : Reply) : Nat := (replyContent n r).length + 7

end Sys2Proof.Machine
end

