-- ==== Sys2Proof/Machine/Sensors.lean ====
section
/-!
DEFINITION. The sensor front end (chapter 1): scan timers and groups, conversion, windows and faults, calibration,
owner values, and their commands.
-/

namespace Sys2Proof.Machine

/-! ### Conversion -/

/-- The corrected value of a raw code (R6). -/
def corrected (k : Coef) (code : Code) : Int := clamp 0 65535 ((((code.toNat : Int) - k.offset) * k.gain + 16384) / 32768)

/-- The engineering value of a corrected value (R7). -/
def engineering (k : ChanKind) (c : Int) : Int :=
  match k with
  | .rh => (c * 1000 + 32767) / 65535
  | _ => -400 + (c * 1650 + 32767) / 65535

/-- A rail reading: 16 or below, or 65519 or above (R9). -/
def isRail (code : Code) : Bool := decide (code.toNat ≤ 16) || decide (65519 ≤ code.toNat)

/-- A value appended to a window of at most 4 (R8). -/
def pushWindow (w : List Int) (v : Int) : List Int := if 4 ≤ w.length then w.drop 1 ++ [v] else w ++ [v]

/-- The mean of a window, rounded half up, none for an empty one (R8). -/
def windowMean (w : List Int) : Option Int :=
  if w.isEmpty then none else some ((2 * w.sum + w.length) / (2 * w.length))

/-- One raw code of a used scan taken by a channel, with its report (R9, R10). -/
def takeCode (ch : Channel) (kind : ChanKind) (k : Coef) (code : Code) (x : ChanLive) : ChanLive × List Event :=
  let x := { x with lastRaw := some code }
  if isRail code then
    let x := { x with railRun := min 3 (x.railRun + 1), goodRun := 0 }
    if x.railRun = 3 ∧ !x.fault then
      ({ x with fault := true, window := [], lastRaw := none }, [.channelFaultEntered ch code])
    else (x, [])
  else
    let v := engineering kind (corrected k code)
    let x := { x with railRun := 0, goodRun := x.goodRun + 1 }
    if x.fault then
      if 3 ≤ x.goodRun then ({ x with fault := false, window := [v] }, [.channelFaultCleared ch false]) else (x, [])
    else ({ x with window := pushWindow x.window v }, [])

/-! ### Groups and channels -/

/-- The channels of a group: those whose entry names it and whose kind is not UNUSED (section 1.2), ascending. -/
def groupChannels (st : Store) (g : Group) : List Channel :=
  (List.finRange 24).filter fun c => st.channels[c].group == g && st.channels[c].kind != .unused

/-- The channels in use of one kind of one owner, ascending. -/
def channelsOf (st : Store) (o : Owner) (k : ChanKind) : List Channel :=
  (List.finRange 24).filter fun c => st.channels[c].owner == o && st.channels[c].kind == k

/-- The group is CALIBRATING. -/
def GroupState.calibrates : GroupState → Bool
  | .calibrating _ => true
  | _ => false

/-- A channel's group is CALIBRATING: its value is flagged CAL (R12). -/
def isCal (st : Store) (f : FrontEnd) (c : Channel) : Bool := (f.groups[st.channels[c].group]).state.calibrates

/-- A channel's value with its status (R11). -/
def chanValue (st : Store) (f : FrontEnd) (c : Channel) : Value :=
  let x := f.chans[c]
  if x.fault then .invalid
  else
    match (f.groups[st.channels[c].group]).state, windowMean x.window with
    | .notReady _, _ => .notReady
    | .ready, some v => .valid v
    | .ready, none => .invalid
    | .calibrating _, some v => .valid v
    | .calibrating ready, none => if ready then .invalid else .notReady

/-- A value formed from the values of an owner's channels of a kind (R17, R18): the mean of two VALID ones, the higher
where `limit` is given and they differ by more, one alone, else NOT-READY or INVALID. The pair is that of a
disagreement, in the order of the values given, so that SENSOR-DISAGREE has the value of the lower-numbered channel
first, where R17 gives the two no order: the model's choice (log entry 13). -/
def combine (limit : Option Int) (vs : List Value) : Value × Option (Int × Int) :=
  match vs.filterMap Value.toInt? with
  | [] => (if vs.contains .notReady then .notReady else .invalid, none)
  | [a] => (.valid a, none)
  | a :: b :: _ =>
    match limit with
    | some m => if absDiff a b ≤ m then (.valid ((a + b + 1) / 2), none) else (.valid (max a b), some (a, b))
    | none => (.valid ((a + b + 1) / 2), none)

/-- The channels of a kind of an owner whose values are VALID: those a VALID value of the owner is formed from
(R17, R18). -/
def validChannels (st : Store) (f : FrontEnd) (o : Owner) (k : ChanKind) : List Channel :=
  (channelsOf st o k).filter fun c => (chanValue st f c).toInt?.isSome

/-- The channels an owner's value derives from: the VALID ones it is formed from; where none is VALID, the channels in
use, whose status it takes (the reading of 'derived', log entry 20). -/
def derivedFrom (st : Store) (f : FrontEnd) (o : Owner) (k : ChanKind) : List Channel :=
  if (validChannels st f o k).isEmpty then channelsOf st o k else validChannels st f o k

/-- An owner's reading of a kind, with the pair of a disagreement (R17, R18); it carries CAL where a channel it
derives from is flagged CAL. -/
def formReading (st : Store) (f : FrontEnd) (o : Owner) (k : ChanKind) (limit : Option Int) :
    Reading × Option (Int × Int) :=
  let v := combine limit ((channelsOf st o k).map (chanValue st f))
  ({ value := v.1, cal := (derivedFrom st f o k).any (isCal st f) }, v.2)

/-- A reading is formed anew (R18): a value formed from a VALID channel that is calibrating is held, unless the event
that forms it is a restart or a CALIBRATE of a group that holds one of its channels.
Two points are the model's choice (log entry 20): a value held so is formed anew when the owner's OTHER group restarts
or begins to calibrate (R5 and R12 over the last sentence of R18); and it stays held at a channel entry write that
takes the owner's last channel of the kind from the restarted group (the last sentence of R18 over its clause on
entry writes). -/
def forms (st : Store) (f : FrontEnd) (gs : List Group) (force : Bool) (o : Owner) (k : ChanKind) : Bool :=
  !(validChannels st f o k).any (isCal st f) ||
    (force && (channelsOf st o k).any fun c => gs.contains st.channels[c].group)

/-- The owner holds a channel in use of one of the groups. -/
def holdsChannel (st : Store) (gs : List Group) (o : Owner) : Bool :=
  gs.any fun g => (groupChannels st g).any fun c => st.channels[c].owner == o

/-! ### Owner values -/

/-- The SENSOR-DISAGREE flag of a zone (R17). -/
def setDisagree (z : Zone) (pair : Option (Int × Int)) (s : State) : State :=
  if s.front.disagree[z] = pair.isSome then s
  else
    post (.sensorDisagree z pair) (s.setFront { s.front with disagree := s.front.disagree.set z pair.isSome })

/-- The values of a zone formed and handed to its climate controller (R17, R18). -/
def formZone (gs : List Group) (force : Bool) (z : Zone) (s : State) : State :=
  let st := s.store
  let f := s.front
  let rh := formReading st f (.zone z) .rh (some st.disagreeLimit[z])
  let temp := formReading st f (.zone z) .temp none
  let formsRh := forms st f gs force (.zone z) .rh
  let formsTemp := forms st f gs force (.zone z) .temp
  let s := if formsRh then setDisagree z rh.2 s else s
  handZone z (if formsRh then some rh.1 else none) (if formsTemp then some temp.1 else none) s

/-- The values of a hatch formed and handed to its controller (R18). -/
def formHatch (gs : List Group) (force : Bool) (h : HatchId) (s : State) : State :=
  let reading (k : ChanKind) (old : Reading) : Reading :=
    if forms s.store s.front gs force (.hatch h) k then (formReading s.store s.front (.hatch h) k none).1 else old
  s.modHatch h fun x =>
    { x with rh := reading .rh x.rh, temp := reading .temp x.temp, probe := reading .probe x.probe }

/-- The values of every owner of a group's channels, and of the owners named, formed and handed on (R4, R18): zones
first, then hatches, each in ascending number, so that the SENSOR-DISAGREE and EXCURSION reports of several zones stand
in zone order: a fixed order of the model's (log entry 2). -/
def formOwners (gs : List Group) (extra : List Owner) (force : Bool) (s : State) : State :=
  let concerns (o : Owner) : Bool := holdsChannel s.store gs o || extra.contains o
  let zones := (List.finRange 4).filter fun z => concerns (.zone z)
  let hatches := (List.finRange 2).filter fun h => concerns (.hatch h)
  actAll (formHatch gs force) hatches (actAll (formZone gs force) zones s)

/-! ### Restart -/

/-- A group restarted (R5): its scan abandoned, NOT-READY with 2 discards, its windows emptied; fault states and runs
are kept. -/
def restartGroup (st : Store) (g : Group) (f : FrontEnd) : FrontEnd :=
  { f with
    groups := f.groups.set g { state := .notReady 2, scanning := false }
    chans := Vector.ofFn fun c : Channel =>
      if (groupChannels st g).contains c then { f.chans[c] with window := [], lastRaw := none } else f.chans[c] }

/-- Groups restarted, with the owner values that depend on them (R5). Where a channel entry moves between two groups, both
are restarted before any owner value is formed, and each owner is formed and handed on once, not once for each group:
the model's choice (log entry 20). -/
def restartGroups (gs : List Group) (extra : List Owner) (s : State) : State :=
  formOwners gs extra true (s.setFront (gs.foldl (fun f g => restartGroup s.store g f) s.front))

/-! ### Scans -/

/-- The codes of a used scan taken through the channels of a group, in ascending number (R4). -/
def takeScan (g : Group) (codes : Vector Code 24) (s : State) : State :=
  (groupChannels s.store g).foldl (fun s c =>
    let r := takeCode c s.store.channels[c].kind s.store.coefs[c] codes[c] s.front.chans[c]
    postAll r.2 (s.setFront { s.front with chans := s.front.chans.set c r.1 })) s

/-- Writes a group's live state. -/
def setGroup (g : Group) (x : GroupLive) (s : State) : State :=
  s.setFront { s.front with groups := s.front.groups.set g x }

/-- The hatches that hold a channel of group 2 evaluate their gates at its completions (R18, R107). -/
def evaluateGates (g : Group) (s : State) : State :=
  if g = 1 then actAll evaluateGate ((List.finRange 2).filter fun h => holdsChannel s.store [g] (.hatch h)) s else s

/-- The completion of a scan (R4): discarded with 2 or 1 discards remaining, used otherwise; the owner values formed
and the gates evaluated. -/
def completeScan (g : Group) (codes : Vector Code 24) (s : State) : State :=
  let s := match (s.front.groups[g]).state with
    | .notReady (n + 1) => setGroup g { state := .notReady n } s
    | .notReady 0 => takeScan g codes (setGroup g { state := .ready } s)
    | .ready => takeScan g codes (setGroup g { state := .ready } s)
    | .calibrating r => setGroup g { state := .calibrating r } s
  evaluateGates g (formOwners [g] [] false s)

/-- The group is assigned to the timer (R4). -/
def assignedTo (t : TimerId) : GroupTimer → Bool
  | .ta => t == 0
  | .tb => t == 1
  | .off => false

/-- A group begins a scan at its timer's expiry (R4); the scan of a group with no channels completes at once. -/
def beginScan (t : TimerId) (g : Group) (s : State) : State :=
  let x := s.front.groups[g]
  if assignedTo t s.store.groupTimer[g] && !x.state.calibrates && !x.scanning then
    if (groupChannels s.store g).isEmpty then completeScan g (Vector.replicate 24 0) s
    else setGroup g { x with scanning := true } s
  else s

/-- A scan timer expires (R3, R4): loaded again with the period stored, its groups begin scans. -/
def timerExpires (t : TimerId) (s : State) : State :=
  actAll (beginScan t) [0, 1] (s.setFront { s.front with timers := s.front.timers.set t s.store.scanPeriod[t] })

/-- The scan of a group in progress completes. -/
def scanDone (g : Group) (codes : Vector Code 24) (s : State) : State :=
  if (s.front.groups[g]).scanning then completeScan g codes s else s

/-! ### Calibration -/

/-- The mean of 16 conversions, rounded half up (R13). -/
def mean16 (v : Vector Code 16) : Nat := ((v.toList.map BitVec.toNat).sum + 8) / 16

/-- A channel's gain from its two means, `span` being Hr - L (R14). -/
def calGain (span : Nat) : Int := roundDiv (32768 * 64225) span

/-- A channel's offset from its two means (R14). -/
def calOffset (low span : Nat) : Int := roundDiv ((low : Int) * 64225 - 655 * span) 64225

/-- A channel's outcome and the coefficients in force after it (R14). -/
def calibrate (old : Coef) (low high : Nat) : CalOutcome × Coef :=
  if high ≤ low then (.order, old)
  else
    let g := calGain (high - low)
    let o := calOffset low (high - low)
    if g < 29491 ∨ 36045 < g then (.gain, old)
    else if o < -3277 ∨ 3277 < o then (.offset, old)
    else (.ok, { offset := o, gain := g })

/-- One channel's row of the CAL-DONE report (R15). -/
def calRow (st : Store) (codes : Vector CalCodes 24) (c : Channel) : CalRow :=
  let low := mean16 codes[c].low
  let high := mean16 codes[c].high
  let r := calibrate st.coefs[c] low high
  { channel := c, outcome := r.1, low := low, high := high, coef := r.2 }

/-- The calibration of a group completes (R15). -/
def finishCalibration (g : Group) (codes : Vector CalCodes 24) (s : State) : State :=
  let rows := (groupChannels s.store g).map (calRow s.store codes)
  let coefs := rows.foldl (fun v r => v.set r.channel r.coef) s.store.coefs
  restartGroups [g] [] (post (.calDone g rows) (s.setStore { s.store with coefs := coefs }))

/-- The group's state with CALIBRATING begun (R12). -/
def beginCalibration (g : Group) (s : State) : State :=
  let ready : Bool := (s.front.groups[g]).state == .ready
  let s := formOwners [g] [] true (setGroup g { state := .calibrating ready, scanning := false } s)
  if (groupChannels s.store g).isEmpty then
    finishCalibration g (Vector.replicate 24 { low := Vector.replicate 16 0, high := Vector.replicate 16 0 }) s
  else s

/-- The calibration in progress of a group completes. -/
def calibrationDone (g : Group) (codes : Vector CalCodes 24) (s : State) : State :=
  if (s.front.groups[g]).state.calibrates then finishCalibration g codes s else s

/-! ### Requests -/

/-- CALIBRATE (R12). R12 names no reason for the REFUSED of a group assigned OFF: its `reason=` is free, log entry 3. -/
def calibrateGroup (group : Int) : Request :=
  naming 2 group fun g s =>
    if (s.front.groups[g]).state.calibrates then answer .busy .empty s
    else if s.store.groupTimer[g] = .off then answer .refused .empty s
    else (beginCalibration g s, { word := .ok })

/-- READ-CHANNEL (R19). That an UNUSED channel is answered with the state of the group its entry names too, and with CAL as
NO while that group calibrates, is the model's choice (log entry 20). -/
def readChannel (channel : Int) : Request :=
  naming 24 channel fun c s =>
    let e := s.store.channels[c]
    let used := e.kind != .unused
    (s, { word := .ok, body := .channel {
      entry := e, group := (s.front.groups[e.group]).state
      live := if used then some s.front.chans[c] else none
      value := if used then some (chanValue s.store s.front c) else none
      cal := used && isCal s.store s.front c, coef := s.store.coefs[c] } })

/-! ### Settings -/

/-- The number of channels in use of a kind that an owner would own. -/
def ownedCount (chs : Vector ChanEntry 24) (o : Owner) (k : ChanKind) : Nat :=
  chs.toList.countP fun e => e.owner == o && e.kind == k

/-- The limits of R2 on the entry as it would stand. -/
def entryAllowed (chs : Vector ChanEntry 24) (e : ChanEntry) : Bool :=
  match e.owner, e.kind with
  | _, .unused => true
  | .zone _, .probe => false
  | .zone z, k => decide (ownedCount chs (.zone z) k ≤ 2)
  | .hatch h, k => decide (ownedCount chs (.hatch h) k ≤ 1)

/-- A field left out keeps its value; a word that names nothing gives none. -/
def fieldOr {α : Type} (old : α) (find : Text → Option α) : Option Text → Option α
  | none => some old
  | some t => find t

/-- A channel written to UNUSED: its window emptied, its fault cleared with the report of R2. Its rail and good runs
stay as they are, so that a channel retired in FAULT and used again enters FAULT at its first rail reading: R2 clears
the window and the fault state alone (the model's choice, log entry 20). -/
def retireChannel (c : Channel) (s : State) : State :=
  let x := s.front.chans[c]
  let s := s.setFront { s.front with
    chans := s.front.chans.set c { x with window := [], fault := false, lastRaw := none } }
  if x.fault then post (.channelFaultCleared c true) s else s

/-- The groups that held a channel before a write or hold it after (R2). -/
def groupsTouched (old new : ChanEntry) : List Group :=
  ((if old.kind = .unused then [] else [old.group]) ++ (if new.kind = .unused then [] else [new.group])).eraseDups

/-- An accepted channel entry written, with what it restarts (R2, R5). The CHANNEL-FAULT of a channel retired in FAULT
is posted before the SENSOR-DISAGREE reports of the restart: a fixed order of the model's (log entry 2). The owner named on
a side of the write whose kind is UNUSED is formed and handed on too, though an UNUSED channel counts toward no owner's
channels (R1, R18): the model's choice (log entry 20). -/
def applyEntry (c : Channel) (new : ChanEntry) (s : State) : State :=
  let old := s.store.channels[c]
  let s := s.setStore { s.store with channels := s.store.channels.set c new }
  let s := if new.kind = .unused ∧ old.kind ≠ .unused then retireChannel c s else s
  match groupsTouched old new with
  | [] => s
  | gs => restartGroups gs [old.owner, new.owner] s

/-- WRITE-SETTING of CHANNEL (R2, R199). A write with none of `kind=`, `owner=` and `group=` is an unchanged write,
answered OK; and a write equal to the entry is BUSY while its group calibrates, since the BUSY of R2 is tested before
what the write would change. Both are the model's choice (log entry 17). -/
def writeChannel (index : Option Int) (kind owner : Option Text) (group : Option Int) : Request := fun s =>
  match index with
  | none => badRequest "index" s
  | some i =>
    match indexOf 24 i with
    | none => answer .badValue .empty s
    | some c =>
      let old := s.store.channels[c]
      let g : Option Group := match group with
        | none => some old.group
        | some k => indexOf 2 k
      match fieldOr old.kind (wordOf kindWords) kind, fieldOr old.owner (wordOf ownerWords) owner, g with
      | some k, some o, some g =>
        let new : ChanEntry := { kind := k, owner := o, group := g }
        if !entryAllowed (s.store.channels.set c new) new then answer .badValue .empty s
        else if (s.front.groups[old.group]).state.calibrates || (s.front.groups[g]).state.calibrates then
          answer .busy .empty s
        else if new = old then (s, { word := .ok })
        else (applyEntry c new s, { word := .ok })
      | _, _, _ => answer .badValue .empty s

/-- Writes a channel's coefficients, restarting its group where they change (R16). The channel's group is the one its
entry names, of an UNUSED channel too, for the restart and for the BUSY of R16 (the model's choice, log entry 20). -/
def writeCoef (c : Channel) (k : Coef) (s : State) : State :=
  if k = s.store.coefs[c] then s
  else restartGroups [s.store.channels[c].group] [] (s.setStore { s.store with coefs := s.store.coefs.set c k })

/-- WRITE-SETTING of CH-OFFSET (R16). -/
def writeChOffset (index value : Option Int) : Request :=
  indexedSetting index value (indexOf 24) fun c v s =>
    if (s.front.groups[s.store.channels[c].group]).state.calibrates then answer .busy .empty s
    else
      let used := clamp (-3277) 3277 v
      (writeCoef c { s.store.coefs[c] with offset := used } s, usedAnswer v used)

/-- WRITE-SETTING of CH-GAIN (R16). -/
def writeChGain (index value : Option Int) : Request :=
  indexedSetting index value (indexOf 24) fun c v s =>
    if (s.front.groups[s.store.channels[c].group]).state.calibrates then answer .busy .empty s
    else
      let used := clamp 29491 36045 v
      (writeCoef c { s.store.coefs[c] with gain := used } s, usedAnswer v used)

/-- WRITE-SETTING of SCAN-PERIOD (R3). -/
def writeScanPeriod (index : Option Text) (value : Option Int) : Request :=
  indexedSetting index value (wordOf timerIndexWords) fun t v s =>
    let used := clamp 1 255 v
    (s.setStore { s.store with scanPeriod := s.store.scanPeriod.set t used.toNat }, usedAnswer v used)

/-- WRITE-SETTING of GROUP-TIMER (R4, R5, R16). -/
def writeGroupTimer (index : Option Int) (value : Option Text) : Request :=
  indexedSetting index value (indexOf 2) fun g v s =>
    match wordOf timerWords v with
    | none => answer .badValue .empty s
    | some t =>
      if (s.front.groups[g]).state.calibrates then answer .busy .empty s
      else if t = s.store.groupTimer[g] then (s, { word := .ok })
      else
        (restartGroups [g] [] (s.setStore { s.store with groupTimer := s.store.groupTimer.set g t }), { word := .ok })

/-- WRITE-SETTING of DISAGREE-LIMIT (R17). -/
def writeDisagreeLimit (index value : Option Int) : Request :=
  indexedSetting index value (indexOf 4) fun z v s =>
    let used := clamp 0 300 v
    (s.setStore { s.store with disagreeLimit := s.store.disagreeLimit.set z used }, usedAnswer v used)

/-- The front end at a start (R20). -/
def FrontEnd.start (st : Store) : FrontEnd := { timers := st.scanPeriod }

/-! ### The commands -/

/-- CALIBRATE (R12). -/
def execCalibrate (group : Int) (s : State) : Host.Outcome State Fault Refusal := request (calibrateGroup group) s

/-- READ_CHANNEL (R19). -/
def execReadChannel (channel : Int) (s : State) : Host.Outcome State Fault Refusal := request (readChannel channel) s

/-- WRITE_SETTING_CHANNEL (R2). -/
def execWriteSettingChannel (index : Option Int) (kind owner : Option Text) (group : Option Int) (s : State) :
    Host.Outcome State Fault Refusal :=
  request (writeChannel index kind owner group) s

/-- WRITE_SETTING_CH_OFFSET (R16). -/
def execWriteSettingChOffset (index value : Option Int) (s : State) : Host.Outcome State Fault Refusal :=
  request (writeChOffset index value) s

/-- WRITE_SETTING_CH_GAIN (R16). -/
def execWriteSettingChGain (index value : Option Int) (s : State) : Host.Outcome State Fault Refusal :=
  request (writeChGain index value) s

/-- WRITE_SETTING_SCAN_PERIOD (R3). -/
def execWriteSettingScanPeriod (index : Option Text) (value : Option Int) (s : State) : Host.Outcome State Fault Refusal :=
  request (writeScanPeriod index value) s

/-- WRITE_SETTING_GROUP_TIMER (R5). -/
def execWriteSettingGroupTimer (index : Option Int) (value : Option Text) (s : State) : Host.Outcome State Fault Refusal :=
  request (writeGroupTimer index value) s

/-- WRITE_SETTING_DISAGREE_LIMIT (R17). -/
def execWriteSettingDisagreeLimit (index value : Option Int) (s : State) : Host.Outcome State Fault Refusal :=
  request (writeDisagreeLimit index value) s

/-- SCAN_TIMER_EXPIRY (R3, R4). -/
def execScanTimerExpiry (t : TimerId) (s : State) : Host.Outcome State Fault Refusal := event (timerExpires t) s

/-- SCAN_COMPLETE (R4). -/
def execScanComplete (g : Group) (codes : Vector Code 24) (s : State) : Host.Outcome State Fault Refusal :=
  event (scanDone g codes) s

/-- CALIBRATION_COMPLETE (R15). -/
def execCalibrationComplete (g : Group) (codes : Vector CalCodes 24) (s : State) :
    Host.Outcome State Fault Refusal :=
  event (calibrationDone g codes) s

end Sys2Proof.Machine
end

