-- ==== Sys2Proof/Machine/Reports.lean ====
section
/-!
DEFINITION. What serves the whole part (sections 9.5, 10.1 and 10.3): READ-ZONE, IDENTIFY, STATUS, READ-SETTING,
FETCH-REPORTS, the line's two settings, and WRITE-SETTING of a name outside the catalogue.
-/

namespace Sys2Proof.Machine

/-! ### Readings -/

/-- READ-ZONE (R40). -/
def readZone (zone : Int) : Request :=
  naming 4 zone fun z s =>
    (s, { word := .ok, body := .zone {
      zone := z, climate := s.climate[z], disagree := s.front.disagree[z], prior := s.store.selection[z]
      fire := s.fireState z } })

/-- IDENTIFY (R190). -/
def identify : Request := fun s =>
  (s, { word := .ok, body := .identity {
    station := s.line.station, rate := s.line.rate, minute := s.minute, cartridges := s.store.cartridges.length
    manifests := s.store.manifests.length, reports := s.reports.length
    detectors1 := (enabledOn s.store 0).length, detectors2 := (enabledOn s.store 1).length } })

/-- The count the LOST marker holds, 0 where the queue holds none (R191). -/
def lostCount (q : List Report) : Nat :=
  match q.getLast? with
  | some { stamp := _, event := .lost n } => n
  | _ => 0

/-- The summary STATUS gives (R191). -/
def statusView (s : State) : StatusView :=
  { minute := s.minute
    zones := (List.finRange 4).map fun z =>
      { mode := s.climate[z].mode, fire := s.fireState z, degraded := s.degraded z, spent := s.store.spent[z] }
    hatches := (List.finRange 2).map fun h =>
      { phase := s.hatch[h].phase
        heldClass := if s.hatch[h].phase = .heldFire then s.hatch[h].heldClass else none
        receipt := s.receiptHeld h, query := s.querying h }
    banks := (List.finRange 4).map fun b => { motion := s.bank[b].motion, position := s.bank[b].position }
    reports := s.reports.length, lost := lostCount s.reports, attn := s.attn }

/-- STATUS (R191). -/
def status : Request := fun s => (s, { word := .ok, body := .status (statusView s) })

/-! ### FETCH-REPORTS -/

/-- The answer that fetches the first `k` reports of a queue. -/
def fetchAnswer (max : Option Int) (q : List Report) (k : Nat) : Answer :=
  let used := clamp 1 8 (max.getD 8)
  let clamped := max.isSome ∧ max ≠ some used
  { word := if clamped then .clamped else .ok
    body := .reports (if clamped then some used else none) (q.take k) (q.length - k) }

/-- How many reports are taken (R195): one at a time from `k` on, to the number asked for, the queue's end, or the
first that would make the reply longer than 1024 characters. -/
def fetchCount (station : Nat) (max : Option Int) (q : List Report) : Nat → Nat → Nat
  | 0, k => k
  | fuel + 1, k =>
    if k < q.length ∧ (k : Int) < clamp 1 8 (max.getD 8) ∧
        replyLength 0 { station := station, answer := fetchAnswer max q (k + 1) } ≤ 1024 then
      fetchCount station max q fuel (k + 1)
    else k

/-- FETCH-REPORTS (R195). -/
def fetchReports (max : Option Int) : Request := fun s =>
  let k := fetchCount s.line.station max s.reports 8 0
  (s.setReports (s.reports.drop k), fetchAnswer max s.reports k)

/-! ### READ-SETTING -/

/-- A number with its range and its factory value. -/
def numberView (v lo hi d : Int) : SettingView := .number v lo hi d

/-- How a setting of the catalogue is read: without an index, by a number, by a word, or by a loop and an address. -/
inductive SettingReader where
  | plain (read : State → SettingView)
  | numbered (read : Int → State → Option SettingView)
  | worded (read : Text → State → Option SettingView)
  | byAddress (read : LoopId → Address → State → SettingView)

/-- A setting indexed by a number from 1 to `n`. -/
def byNumber (n : Nat) (read : Fin n → State → SettingView) : SettingReader :=
  .numbered fun k s => (indexOf n k).map fun i => read i s

/-- A climate setting read with its range and default (R21). -/
def climateReader (n : ClimateName) (lo hi : Int) : SettingReader :=
  byNumber 4 fun z s => numberView ((s.climateSettings z).read n) lo hi (({} : ClimateSettings).read n)

/-- A hatch setting read with its range and default (R87). -/
def timingReader (n : HatchTiming) (lo hi : Int) : SettingReader :=
  byNumber 2 fun h s => numberView ((s.hatchSettings h).read n) lo hi (({ zone := 0 } : HatchSettings).read n)

/-- A threshold read by SMOKE or HEAT (R142). -/
def levelReader (read : Levels → Nat) (lo hi : Int) : SettingReader :=
  .worded fun w s => (thresholdIndex w).map fun t =>
    numberView (read (s.store.levels t)) lo hi (read (Store.factory.levels t))

/-- The settings catalogue (section 10.3), each name with its reader. `min=` and `max=` are the numbers the catalogue
states: HOLD-MIN, HOLD-MAX, DET-PREALARM and DET-ALARM are not narrowed by the partner setting their range names too,
while BANK-PARK, whose range names no other number, ends at the present carriage count: the model's choice (log entry 9). -/
def catalogue : List (String × SettingReader) :=
  [("CHANNEL", byNumber 24 fun c s => .channel s.store.channels[c]),
   ("CH-OFFSET", byNumber 24 fun c s => numberView s.store.coefs[c].offset (-3277) 3277 0),
   ("CH-GAIN", byNumber 24 fun c s => numberView s.store.coefs[c].gain 29491 36045 32768),
   ("SCAN-PERIOD", .worded fun w s => (wordOf timerIndexWords w).map fun t =>
      numberView (s.store.scanPeriod[t] : Nat) 1 255 (if t = 0 then 100 else 10)),
   ("GROUP-TIMER", byNumber 2 fun g s => .name (textIn timerWords s.store.groupTimer[g])),
   ("DISAGREE-LIMIT", byNumber 4 fun z s => numberView s.store.disagreeLimit[z] 0 300 50),
   ("ZONE-TSET", climateReader .tset 100 300), ("ZONE-HSET", climateReader .hset 200 600),
   ("ZONE-BAND", climateReader .band 0 100), ("ZONE-STEP", climateReader .step 1 100),
   ("ZONE-CAP", climateReader .cap 0 8), ("ZONE-RHBAND", climateReader .rhband 10 300),
   ("ZONE-TBAND", climateReader .tband 10 200), ("ZONE-PERIOD", climateReader .period 64 960),
   ("ZONE-BURST", climateReader .burst 60 3600),
   ("CLIMATE-MODE", byNumber 4 fun z s => .name (textIn selectionWords s.store.selection[z])),
   ("HOLD-KT", .plain fun s => numberView s.store.hold.kT 0 255 60),
   ("HOLD-KH", .plain fun s => numberView s.store.hold.kH 0 255 20),
   ("HOLD-MIN", .plain fun s => numberView s.store.hold.holdMin 0 1440 60),
   ("HOLD-MAX", .plain fun s => numberView s.store.hold.holdMax 60 10080 2880),
   ("HATCH-ZONE", byNumber 2 fun h s => numberView (num (s.hatchZone h)) 1 4 (num h)),
   ("UNLOCK-TIMEOUT", timingReader .unlockTimeout 10 120), ("OPEN-ALARM", timingReader .openAlarm 30 900),
   ("QUERY-WAIT", timingReader .queryWait 15 600), ("REJECT-TIMEOUT", timingReader .rejectTimeout 60 1800),
   ("COND-LIMIT", timingReader .condLimit 10 1440), ("STANDBY-TIME", timingReader .standbyTime 60 3600),
   ("PURGE-BAND", timingReader .purgeBand 0 200), ("COND-MARGIN", timingReader .condMargin 0 100),
   ("BANK-ZONE", byNumber 4 fun b s => numberView (num (s.bankZone b)) 1 4 (num b)),
   ("BANK-CARRIAGES", byNumber 4 fun b s => numberView (s.bankSettings b).carriages 1 12 12),
   ("BANK-PARK", byNumber 4 fun b s => numberView (s.bankSettings b).park 0 (s.bankSettings b).carriages 6),
   ("BANK-STEP", byNumber 4 fun b s => numberView (s.bankSettings b).step 1 10 3),
   ("DETECTOR", .byAddress fun l a s => .detector (s.detEntry l a)),
   ("DET-PREALARM", levelReader (·.prealarm) 1 254), ("DET-ALARM", levelReader (·.alarm) 2 255),
   ("FIRE-COINCIDENCE", byNumber 4 fun z s => numberView (s.fireSettings z).coincidence 1 2 2),
   ("FIRE-COUNTDOWN", byNumber 4 fun z s => numberView (s.fireSettings z).countdown 10 60 30),
   ("FIRE-SOAK", byNumber 4 fun z s => numberView (s.fireSettings z).soak 60 3600 600),
   ("FIRE-VENT", byNumber 4 fun z s => numberView (s.fireSettings z).vent 60 3600 900),
   ("LINE-RATE", .plain fun s => .name (natText s.store.rate)),
   ("STATION-ADDRESS", .plain fun s => numberView s.store.station 1 31 1)]

/-- A view answered, BAD-VALUE where the index names nothing. -/
def viewAnswer (v : Option SettingView) : Request :=
  match v with
  | some v => answer .ok (.setting v)
  | none => answer .badValue

/-- A setting read by the index as written, or none: BAD-REQUEST with `field=index` where one is missing, not taken or
no number where the name takes a number (R183 step 3, R199 step 2). -/
def readIndexed (r : SettingReader) (index : Option Text) : Request := fun s =>
  match r, index with
  | .plain read, none => viewAnswer (some (read s)) s
  | .numbered read, some t =>
    match numberOf t with
    | some k => viewAnswer (read k s) s
    | none => badRequest "index" s
  | .worded read, some t => viewAnswer (read t s) s
  | _, _ => badRequest "index" s

/-- READ-SETTING (R201): steps 1 to 3 of R199, with no value. `loop=` and `address=` are fields of DETECTOR alone, which
takes no `index=`. -/
def readSetting (name : Text) (index : Option Text) (loop address : Option Int) : Request := fun s =>
  match wordOf catalogue name with
  | none => answer .badValue .empty s
  | some (.byAddress read) =>
    match index, loop, address with
    | some _, _, _ => badRequest "index" s
    | none, none, _ => badRequest "loop" s
    | none, some _, none => badRequest "address" s
    | none, some l, some a => onDetector l a (fun l a s => viewAnswer (some (read l a s)) s) s
  | some r =>
    match loop, address with
    | some _, _ => badRequest "loop" s
    | none, some _ => badRequest "address" s
    | none, none => readIndexed r index s

/-! ### The line's settings -/

/-- WRITE-SETTING of LINE-RATE (R178); the new rate governs the line from the end of the reply. The rates are a set of
names, so any other word is BAD-VALUE (R199 step 3). -/
def writeLineRate (index value : Option Text) : Request :=
  plainSetting index value fun w s =>
    match wordOf rateWords w with
    | some n => (s.setStore { s.store with rate := n }, { word := .ok })
    | none => answer .badValue .empty s

/-- WRITE-SETTING of STATION-ADDRESS (R178); the new address is matched from the end of the reply. An address out of range
that is brought to the one stored is answered CLAMPED: the model's choice (log entry 22). -/
def writeStationAddress (index : Option Text) (value : Option Int) : Request :=
  plainSetting index value fun v s =>
    let used := clamp 1 31 v
    (s.setStore { s.store with station := used.toNat }, usedAnswer v used)

/-! ### The commands -/

/-- READ_ZONE (R40). -/
def execReadZone (zone : Int) (s : State) : Host.Outcome State Fault Refusal := request (readZone zone) s

/-- IDENTIFY (R190). -/
def execIdentify (s : State) : Host.Outcome State Fault Refusal := request identify s

/-- STATUS (R191). -/
def execStatus (s : State) : Host.Outcome State Fault Refusal := request status s

/-- READ_SETTING (R201). -/
def execReadSetting (name : Text) (index : Option Text) (loop address : Option Int) (s : State) :
    Host.Outcome State Fault Refusal :=
  request (readSetting name index loop address) s

/-- FETCH_REPORTS (R195). -/
def execFetchReports (max : Option Int) (s : State) : Host.Outcome State Fault Refusal := request (fetchReports max) s

/-- WRITE_SETTING_LINE_RATE (R178). -/
def execWriteSettingLineRate (index value : Option Text) (s : State) : Host.Outcome State Fault Refusal :=
  request (writeLineRate index value) s

/-- WRITE_SETTING_STATION_ADDRESS (R178). -/
def execWriteSettingStationAddress (index : Option Text) (value : Option Int) (s : State) : Host.Outcome State Fault Refusal :=
  request (writeStationAddress index value) s

/-- WRITE_SETTING_UNKNOWN_NAME (R199 step 1): a name outside the catalogue is answered BAD-VALUE. -/
def execWriteSettingUnknownName (_name : Text) (s : State) : Host.Outcome State Fault Refusal :=
  request (answer .badValue) s

end Sys2Proof.Machine
end

