-- ==== Sys2Proof/Machine/Power.lean ====
section
/-!
DEFINITION. Power-up, RESTART and power-off (section 10.5), the minute counter (section 10.4), and the second of
powered time that passes on an empty queue.
-/

namespace Sys2Proof.Machine

/-! ### Start -/

/-- An owner value as it stands at a start: NOT-READY, or INVALID with no channel in use (R20). -/
def startReading (st : Store) (o : Owner) (k : ChanKind) : Reading := (formReading st (FrontEnd.start st) o k none).1

/-- A zone climate controller at a start (R41). -/
def startClimate (st : Store) (z : Zone) : Climate :=
  Climate.start st.climate[z] (startReading st (.zone z) .rh) (startReading st (.zone z) .temp)

/-- A hatch controller with nothing but its field inputs: both locks engaged, every output off (R120, R205). -/
def coldHatch (x : Hatch) : Hatch :=
  { outer := { sensorOpen := x.outer.sensorOpen }, inner := { sensorOpen := x.inner.sensorOpen }
    sensors := x.sensors, tray := trayFromSensors x.sensors }

/-- Every block's live state as a start finds it: everything that is not in the custody store is lost, the field
inputs stand (R203, R205 and the start rules of the chapters). -/
def coldState (s : State) : State :=
  { s with
    front := FrontEnd.start s.store, climate := Vector.ofFn (startClimate s.store)
    staging := Vector.replicate 4 {}, hatch := s.hatch.map coldHatch, bank := s.bank.map Bank.start
    loop := Vector.ofFn (Loop.start s.store), fire := s.fire.map FireZone.start
    line := { rate := s.store.rate, station := s.store.station }, reports := [], minute := 0, seconds := 0 }

/-- A hatch started (R120, R121): its chamber values as the front end starts them, and HELD-FIRE entered at once,
since its zone starts in STARTING. -/
def bringUpHatch (h : HatchId) (s : State) : State :=
  let s := (startHatch h s).modHatch h fun x =>
    { x with
      rh := startReading s.store (.hatch h) .rh, temp := startReading s.store (.hatch h) .temp
      probe := startReading s.store (.hatch h) .probe }
  holdHatch h s

/-- The hatch a manifest names holds a handover record or a receipt with its ID (R86). -/
def heldByHatch (s : State) (m : Manifest) : Bool :=
  (match s.handover m.hatch with
    | some r => r.manifest == m.id
    | none => false) ||
  (match s.store.receipt[m.hatch] with
    | some r => r.manifest == m.id
    | none => false)

/-- An ACTIVE manifest whose hatch holds neither returns to OPEN with MANIFEST-RELEASED (R86). -/
def releaseOrphan (m : Manifest) (s : State) : State := post (.manifestReleased m.id m.hatch) (reopen m.id s)

/-- The manifest table's comparison at start (R86). The MANIFEST-RELEASED reports stand in table order, a fixed order of
the model's (log entry 2). -/
def releaseOrphans (s : State) : State :=
  actAll releaseOrphan (s.store.manifests.filter fun m => m.active && !heldByHatch s m) s

/-- What a start does that posts reports in a free order (R203). -/
inductive StartAction where
  | manifests
  | zone (z : Zone)
  deriving DecidableEq, Repr

/-- One action of a start: the manifest table's comparison, or a zone's test for leaving STARTING (R86, R162). -/
def startAct : StartAction → State → State
  | .manifests => releaseOrphans
  | .zone z => tryLeaveStarting z .noDetectors

/-- The actions of a start. -/
def startActions : List StartAction := [.manifests, .zone 0, .zone 1, .zone 2, .zone 3]

/-- The part starts (R203): POWER-UP first, then every block. -/
def startUp (cause : StartCause) (s : State) : State :=
  let s := post (.powerUp cause) { coldState s with powered := true }
  inFreeOrder startAct startActions (bringUpHatch 1 (bringUpHatch 0 s))

/-- Power-off (R205): every output off, everything not stored lost. A loop with no power polls nothing and holds no
place in a pass (log entry 5). -/
def powerDown (s : State) : State := { coldState s with powered := false, loop := Vector.replicate 2 {} }

/-! ### RESTART -/

/-- The zones that refuse a RESTART: those in ALARM or PREDISCHARGE (R204), ascending, an order of the model's choice
(log entry 3). -/
def refusingZones (s : State) : List Zone :=
  (List.finRange 4).filter fun z => s.fireState z == .alarm || s.fireState z == .predischarge

/-- RESTART (R204): refused while a zone is in ALARM or PREDISCHARGE; otherwise the part restarts once the reply has
left. -/
def restart : Request := fun s =>
  if (refusingZones s).isEmpty then (s.setLine { s.line with restartDue := true }, { word := .ok })
  else answer .refused (.fireZones (refusingZones s)) s

/-! ### The minute -/

/-- A block a minute is handed to (R202). -/
inductive MinuteTaker where
  | custody
  | manifests
  | hatch (h : HatchId)
  deriving DecidableEq, Repr

/-- A block takes a minute. -/
def takeMinute : MinuteTaker → State → State
  | .custody => custodyMinute
  | .manifests => manifestMinute
  | .hatch h => hatchMinute h

/-- The blocks that take a minute. -/
def minuteTakers : List MinuteTaker := [.custody, .manifests, .hatch 0, .hatch 1]

/-- The minute counter increases and hands the minute on in a free order (R202, log entry 2). -/
def minuteIncreases (s : State) : State :=
  inFreeOrder takeMinute minuteTakers { s with minute := s.minute + 1, seconds := 0 }

/-! ### A second of powered time -/

/-- A timer one second on, at 0 until its expiry is taken. -/
def countDown (t : Option Nat) : Option Nat := t.map (· - 1)

/-- A shutter's timers one second on. -/
def tickShutter (sh : Shutter) : Shutter :=
  { sh with
    unlock := countDown sh.unlock, openAlarm := countDown sh.openAlarm, closerTimer := countDown sh.closerTimer }

/-- A hatch's timers one second on. -/
def tickHatch (x : Hatch) : Hatch :=
  { x.bothShutters tickShutter with
    query := x.query.map fun q => { q with wait := q.wait - 1 }, rejectTimer := countDown x.rejectTimer
    idle := countDown x.idle, colourLeft := countDown x.colourLeft }

/-- A zone climate controller one second on. -/
def tickClimate (c : Climate) : Climate := { c with elapsed := c.elapsed.map (· + 1), burst := countDown c.burst }

/-- A staging port one second on. -/
def tickStaging (p : Staging) : Staging :=
  { p with since := p.since + 1, window := countDown p.window, left := countDown p.left }

/-- A bank's timers one second on; an arrival is past then (log entry 8). -/
def tickBank (x : Bank) : Bank :=
  { x with
    block := countDown x.block, homing := countDown x.homing, moving := countDown x.moving, justArrived := false }

/-- A countdown one second on: only a running one loses a second (R167). -/
def tickCountdown : Countdown → Countdown
  | .running n => .running (n - 1)
  | c => c

/-- A fire zone's timers one second on. -/
def tickFire (x : FireZone) : FireZone :=
  { x with
    countdown := tickCountdown x.countdown, pulse := countDown x.pulse, confirmWait := countDown x.confirmWait
    soak := countDown x.soak, vent := countDown x.vent }

/-- The host line one second on: the gap runs while a line is being collected (R180). -/
def tickLine (x : HostLine) : HostLine := if x.receiver = .hunt then x else { x with gap := x.gap + 10 }

/-- One second of powered time passes with no command (log entry 7): every running timer moves, and no expiry is
taken. -/
def tick (s : State) : State :=
  if s.powered then
    { s with
      front := { s.front with timers := s.front.timers.map (· - 10) }, climate := s.climate.map tickClimate
      staging := s.staging.map tickStaging, hatch := s.hatch.map tickHatch, bank := s.bank.map tickBank
      fire := s.fire.map tickFire, line := tickLine s.line, seconds := s.seconds + 1 }
  else s

/-! ### The commands -/

/-- POWER_UP (R203): the supply comes up. -/
def execPowerUp (s : State) : Host.Outcome State Fault Refusal := .next (if s.powered then s else startUp .powerOn s)

/-- POWER_OFF (R205). -/
def execPowerOff (s : State) : Host.Outcome State Fault Refusal := .next (powerDown s)

/-- RESTART (R204). -/
def execRestart (s : State) : Host.Outcome State Fault Refusal := request restart s

/-- MINUTE_INCREASE (R202). -/
def execMinuteIncrease (s : State) : Host.Outcome State Fault Refusal := event minuteIncreases s

end Sys2Proof.Machine
end

