-- ==== Sys2Proof/Machine/Staging.lean ====
section
/-!
DEFINITION. The staging reader ports (section 3.4): reads, repeats, indicators, READ-STAGING and the ports' timers.
-/

namespace Sys2Proof.Machine

/-- Changes a staging port's live state. -/
def State.modStaging (s : State) (r : ReaderId) (f : Staging → Staging) : State := s.setStaging r (f s.staging[r])

/-- The reader's zone: that of the bank of its own number (section 3.4). -/
def State.readerZone (s : State) (r : ReaderId) : Zone := s.bankZone r

/-- The aisle request of a RESHELVE scan, with AISLE-REFUSED where the aisle is not sent or the queue is full
(R59). -/
def requestShelf (c : Cartridge) (s : State) : State :=
  let b := c.home.bank
  let k := c.home.aisle
  if s.store.bank[b].carriages < k then post (.aisleRefused b k c.label .noSuchAisle) s
  else
    match aisleRequest b k s with
    | (s, .full) => post (.aisleRefused b k c.label .full) s
    | (s, _) => s

/-- A fresh read of a FOUND cartridge outside fire hold: the state after it and the colour it shows (R58). FOUND carries
MISSING, the custody state at the read, and not the RESHELVE it changes to: the model's choice (log entry 13). -/
def custodyRead (r : ReaderId) (c : Cartridge) (s : State) : State × Colour :=
  let l := c.label
  match c.custody with
  | .reserved id => (s.moveItem id l (·.enter (.picked id)) .picked, .green)
  | .reshelve => (requestShelf c (s.modCartridge l (·.enter .shelved)), .green)
  | .missing => (post (.found r l .missing) (s.modCartridge l (·.enter .reshelve)), .green)
  | .shelved => (post (.strayScan r l .shelved) s, .amber)
  | .picked _ => (post (.strayScan r l .picked) s, .amber)
  | .inHatchOut _ => (post (.strayScan r l .inHatchOut) s, .amber)
  | .quarantine n => (post (.earlyReshelve r l .quarantine n) s, .red)
  | .out courier => (post (.custodyConflict r l .out (.courier courier)) s, .red)
  | .inHatchIn id => (post (.custodyConflict r l .inHatchIn (.manifest id)) s, .red)

/-- A fresh read decided (R57): the state after it, the colour it shows and its outcome. -/
def decideRead (r : ReaderId) (label : Text) (media : Char) (s : State) : State × Colour × ReadOutcome :=
  if s.held (s.readerZone r) then (post (.stagingFireHold r label (s.readerZone r)) s, .red, .readerFireHold)
  else
    match s.lookup label media with
    | .notInTable => (post (.unknownLabel r label) s, .red, .unknownLabel)
    | .mediaMismatch c => (post (.mediaMismatch r label media c.media) s, .red, .mediaMismatch)
    | .found c =>
      if s.held (s.zoneOf c) then (post (.stagingFireHold r label (s.zoneOf c)) s, .red, .cartridgeFireHold)
      else
        let d := custodyRead r c s
        (d.1, d.2, .custody c.custody.name)

/-- A port shows a colour for 3 s (R60). -/
def Staging.show (p : Staging) (c : Colour) : Staging := { p with colour := c, left := some 3 }

/-- The colour of a repeat: that last shown for the label, or red where the reader's or the cartridge's zone is now
in the fire hold set (R56). A zone that entered the set after the last good read and has left it again by the repeat no
longer makes it red: the model's choice (log entry 23). -/
def repeatColour (r : ReaderId) (label : Text) (s : State) : Colour :=
  let cartridgeHeld := match s.cartridge? label with
    | some c => s.held (s.zoneOf c)
    | none => false
  if s.held (s.readerZone r) || cartridgeHeld then .red else s.staging[r].shown

/-- A good read is a repeat (R56). -/
def isRepeat (p : Staging) (label : Text) (media : Char) : Bool := p.lastGood == some (label, media) && p.window.isSome

/-- A run of bytes taken by a reader port (R55 to R58, R60). -/
def stagingRead (r : ReaderId) (run : LabelRun) (s : State) : State :=
  match readLabel run with
  | .error e => s.modStaging r fun p => { p.show .red with lastRead := some (.unreadable e), since := 0 }
  | .ok (label, media) =>
    if isRepeat s.staging[r] label media then
      let c := repeatColour r label s
      s.modStaging r fun p =>
        { p.show c with lastRead := some (.again label media), since := 0, window := some 3, shown := c }
    else
      let d := decideRead r label media s
      d.1.modStaging r fun p =>
        { p.show d.2.1 with
          lastRead := some (.good label media d.2.2), since := 0, lastGood := some (label, media), window := some 3,
          shown := d.2.1 }

/-- READ-STAGING (R60). -/
def readStaging (reader : Int) : Request :=
  naming 4 reader fun r s => (s, { word := .ok, body := .staging s.staging[r] })

/-- READ_STAGING (R60). -/
def execReadStaging (reader : Int) (s : State) : Host.Outcome State Fault Refusal := request (readStaging reader) s

/-- STAGING_LABEL_RECORD (R55 to R60). -/
def execStagingLabelRecord (r : ReaderId) (run : LabelRun) (s : State) : Host.Outcome State Fault Refusal :=
  event (stagingRead r run) s

/-- STAGING_INDICATOR_TIMEOUT (R60): the colour has shown for 3 s and the indicator goes off. -/
def execStagingIndicatorTimeout (r : ReaderId) (s : State) : Host.Outcome State Fault Refusal :=
  event (fun s => s.modStaging r fun p => if p.left.isSome then { p with colour := .off, left := none } else p) s

/-- REPEAT_WINDOW_END (R56). -/
def execRepeatWindowEnd (r : ReaderId) (s : State) : Host.Outcome State Fault Refusal :=
  event (fun s => s.modStaging r fun p => { p with window := none }) s

end Sys2Proof.Machine
end

