-- ==== Sys2Proof/Machine/Parse.lean ====
section
/-!
DEFINITION. Steps 1 to 3 of R183: from the characters of a good line to a command, a BAD-REQUEST with its field, or
UNKNOWN-REQUEST; and step 4, the request each command hands to its block.
-/

namespace Sys2Proof.Machine

/-! ### Fields -/

/-- How a request takes a field's value. -/
inductive FieldType where
  | num | word | list
  deriving DecidableEq, Repr

/-- A field value as parsed. -/
inductive FieldValue where
  | num (n : Int)
  | word (t : Text)
  | list (ls : List Text)
  deriving DecidableEq, Repr

/-- A field a request takes. -/
structure FieldSpec where
  name : String
  type : FieldType
  required : Bool := true
  deriving DecidableEq, Repr

/-- The fields of a line, as parsed. -/
abbrev Fields := List (Text × FieldValue)

/-- A request's fields and the command they make. -/
structure RequestSpec where
  fields : List FieldSpec
  build : Fields → Instr

/-- The value of a field. -/
def fieldOf (fs : Fields) (name : String) : Option FieldValue := (fs.find? fun f => f.1 == name.toList).map Prod.snd

/-- A numeric field that may be absent. -/
def optNum (fs : Fields) (name : String) : Option Int :=
  match fieldOf fs name with
  | some (.num n) => some n
  | _ => none

/-- A word field that may be absent. -/
def optWord (fs : Fields) (name : String) : Option Text :=
  match fieldOf fs name with
  | some (.word t) => some t
  | _ => none

/-- A list field that may be absent. -/
def optList (fs : Fields) (name : String) : Option (List Text) :=
  match fieldOf fs name with
  | some (.list l) => some l
  | _ => none

/-- A required numeric field. -/
def numF (fs : Fields) (name : String) : Int := (optNum fs name).getD 0

/-- A required word field. -/
def wordF (fs : Fields) (name : String) : Text := (optWord fs name).getD []

/-- A required list field. -/
def listF (fs : Fields) (name : String) : List Text := (optList fs name).getD []

/-- A required numeric field's place in a request. -/
def reqNum (name : String) : FieldSpec := { name := name, type := .num }

/-- An optional numeric field's place in a request. -/
def optNumS (name : String) : FieldSpec := { name := name, type := .num, required := false }

/-- A required word field's place in a request. -/
def reqWord (name : String) : FieldSpec := { name := name, type := .word }

/-- An optional word field's place in a request. -/
def optWordS (name : String) : FieldSpec := { name := name, type := .word, required := false }

/-- The five home fields (R45). -/
def homeSpecs : List FieldSpec := [reqNum "bank", reqNum "carriage", reqWord "face", reqNum "shelf", reqNum "slot"]

/-- The five home fields as parsed. -/
def homeF (fs : Fields) : HomeFields :=
  { bank := numF fs "bank", carriage := numF fs "carriage", face := wordF fs "face", shelf := numF fs "shelf",
    slot := numF fs "slot" }

/-- The five exposure fields (R76). -/
def summarySpecs : List FieldSpec :=
  [optNumS "tmax", optNumS "tmin", optNumS "hmax", optNumS "hmin", optNumS "minutes"]

/-- The five exposure fields as parsed. -/
def summaryF (fs : Fields) : SummaryFields :=
  { tmax := optNum fs "tmax", tmin := optNum fs "tmin", hmax := optNum fs "hmax", hmin := optNum fs "hmin",
    minutes := optNum fs "minutes" }

/-- The items of a submission. -/
def itemsSpec (required : Bool) : FieldSpec := { name := "items", type := .list, required := required }

/-! ### The requests (section 9.5) -/

/-- The requests by name, but for READ-SETTING and WRITE-SETTING, with the fields each takes. -/
def requestTable : List (String × RequestSpec) :=
  [("CALIBRATE", { fields := [reqNum "group"], build := fun f => .calibrate (numF f "group") }),
   ("READ-CHANNEL", { fields := [reqNum "channel"], build := fun f => .readChannel (numF f "channel") }),
   ("SET-SETPOINTS", {
     fields := [reqNum "zone", optNumS "tset", optNumS "hset", optNumS "band", optNumS "step", optNumS "cap",
       optNumS "rhband", optNumS "tband", optNumS "period", optNumS "burst"]
     build := fun f => .setSetpoints (numF f "zone") {
       tset := optNum f "tset", hset := optNum f "hset", band := optNum f "band", step := optNum f "step"
       cap := optNum f "cap", rhband := optNum f "rhband", tband := optNum f "tband", period := optNum f "period"
       burst := optNum f "burst" } }),
   ("SET-CLIMATE-MODE", {
     fields := [reqWord "mode", optNumS "zone"]
     build := fun f => .setClimateMode false (wordF f "mode") (optNum f "zone") }),
   ("BURST", { fields := [reqNum "zone"], build := fun f => .burst (numF f "zone") }),
   ("READ-ZONE", { fields := [reqNum "zone"], build := fun f => .readZone (numF f "zone") }),
   ("ADD-CARTRIDGE", {
     fields := [reqWord "label", reqWord "media"] ++ homeSpecs
     build := fun f => .addCartridge (wordF f "label") (wordF f "media") (homeF f) }),
   ("REMOVE-CARTRIDGE", { fields := [reqWord "label"], build := fun f => .removeCartridge (wordF f "label") }),
   ("READ-CARTRIDGE", { fields := [reqWord "label"], build := fun f => .readCartridge (wordF f "label") }),
   ("LIST-CARTRIDGES", {
     fields := [reqNum "start", optWordS "state", optNumS "zone"]
     build := fun f => .listCartridges (numF f "start") (optWord f "state") (optNum f "zone") }),
   ("SET-HOME", {
     fields := [reqWord "label"] ++ homeSpecs, build := fun f => .setHome (wordF f "label") (homeF f) }),
   ("MARK-MISSING", { fields := [reqWord "label"], build := fun f => .markMissing (wordF f "label") }),
   ("MARK-FOUND", { fields := [reqWord "label"], build := fun f => .markFound (wordF f "label") }),
   ("RELEASE-HOLD", { fields := [reqWord "label"], build := fun f => .releaseHold (wordF f "label") }),
   ("READ-STAGING", { fields := [reqNum "reader"], build := fun f => .readStaging (numF f "reader") }),
   ("SUBMIT-OUTBOUND", {
     fields := [reqNum "hatch", reqNum "courier", reqNum "validity", itemsSpec true]
     build := fun f => .submitOutbound (numF f "hatch") (numF f "courier") (numF f "validity") (listF f "items") }),
   ("SUBMIT-INBOUND", {
     fields := [reqNum "hatch", reqNum "courier", reqNum "validity", itemsSpec true] ++ summarySpecs
     build := fun f => .submitInbound (numF f "hatch") (numF f "courier") (numF f "validity") (listF f "items")
       (summaryF f) }),
   ("GUIDE-PICKS", { fields := [reqNum "id"], build := fun f => .guidePicks (numF f "id") }),
   ("CANCEL-MANIFEST", { fields := [reqNum "id"], build := fun f => .cancelManifest (numF f "id") }),
   ("READ-MANIFEST", {
     fields := [reqNum "id", optNumS "start"], build := fun f => .readManifest (numF f "id") (optNum f "start") }),
   ("LIST-MANIFESTS", { fields := [optNumS "start"], build := fun f => .listManifests (optNum f "start") }),
   ("LOAD-HATCH", {
     fields := [reqNum "hatch", reqNum "id"], build := fun f => .loadHatch (numF f "hatch") (numF f "id") }),
   ("ANSWER-QUERY", {
     fields := [reqNum "hatch", itemsSpec false, optWordS "decline", optNumS "validity"] ++ summarySpecs
     build := fun f => .answerQuery (numF f "hatch") {
       items := optList f "items", decline := optWord f "decline", validity := optNum f "validity"
       summary := summaryF f } }),
   ("ABORT-HANDOVER", { fields := [reqNum "hatch"], build := fun f => .abortHandover (numF f "hatch") }),
   ("RELEASE-HATCH", { fields := [reqNum "hatch"], build := fun f => .releaseHatch (numF f "hatch") }),
   ("CLEAR-STUCK", {
     fields := [reqNum "hatch", reqWord "side"], build := fun f => .clearStuck (numF f "hatch") (wordF f "side") }),
   ("FETCH-RECEIPT", {
     fields := [reqNum "hatch", optNumS "start"]
     build := fun f => .fetchReceipt (numF f "hatch") (optNum f "start") }),
   ("CLEAR-RECEIPT", { fields := [reqNum "hatch"], build := fun f => .clearReceipt (numF f "hatch") }),
   ("READ-HATCH", {
     fields := [reqNum "hatch", optNumS "tray"], build := fun f => .readHatch (numF f "hatch") (optNum f "tray") }),
   ("OPEN-AISLE", {
     fields := [reqNum "bank", reqNum "aisle"], build := fun f => .openAisle (numF f "bank") (numF f "aisle") }),
   ("CLEAR-AISLE-QUEUE", { fields := [reqNum "bank"], build := fun f => .clearAisleQueue (numF f "bank") }),
   ("RESET-BANK", { fields := [reqNum "bank"], build := fun f => .resetBank (numF f "bank") }),
   ("READ-BANK", { fields := [reqNum "bank"], build := fun f => .readBank (numF f "bank") }),
   ("SET-DETECTOR", {
     fields := [reqNum "loop", reqNum "address", reqWord "enabled"]
     build := fun f => .setDetector (numF f "loop") (numF f "address") (wordF f "enabled") }),
   ("READ-DETECTOR", {
     fields := [reqNum "loop", reqNum "address"]
     build := fun f => .readDetector (numF f "loop") (numF f "address") }),
   ("READ-LOOP", {
     fields := [reqNum "loop", optNumS "start"], build := fun f => .readLoop (numF f "loop") (optNum f "start") }),
   ("START-VENT", { fields := [reqNum "zone"], build := fun f => .startVent (numF f "zone") }),
   ("RESET-FIRE-ZONE", { fields := [reqNum "zone"], build := fun f => .resetFireZone (numF f "zone") }),
   ("RESTORE-AGENT", { fields := [reqNum "zone"], build := fun f => .restoreAgent (numF f "zone") }),
   ("READ-FIRE-ZONE", {
     fields := [reqNum "zone", optNumS "start"]
     build := fun f => .readFireZone (numF f "zone") (optNum f "start") }),
   ("IDENTIFY", { fields := [], build := fun _ => .identify }),
   ("STATUS", { fields := [], build := fun _ => .status }),
   ("FETCH-REPORTS", { fields := [optNumS "max"], build := fun f => .fetchReports (optNum f "max") }),
   ("RESTART", { fields := [], build := fun _ => .restart })]

/-- A WRITE-SETTING with a numeric index and a numeric value. -/
def numNum (mk : Option Int → Option Int → Instr) : RequestSpec :=
  { fields := [reqWord "name", optNumS "index", optNumS "value"]
    build := fun f => mk (optNum f "index") (optNum f "value") }

/-- A WRITE-SETTING with a numeric index and a word for its value. -/
def numWord (mk : Option Int → Option Text → Instr) : RequestSpec :=
  { fields := [reqWord "name", optNumS "index", optWordS "value"]
    build := fun f => mk (optNum f "index") (optWord f "value") }

/-- A WRITE-SETTING with a word for its index, or none, and a numeric value. -/
def wordNum (mk : Option Text → Option Int → Instr) : RequestSpec :=
  { fields := [reqWord "name", optWordS "index", optNumS "value"]
    build := fun f => mk (optWord f "index") (optNum f "value") }

/-- A WRITE-SETTING with no index and a word for its value. -/
def wordWord (mk : Option Text → Option Text → Instr) : RequestSpec :=
  { fields := [reqWord "name", optWordS "index", optWordS "value"]
    build := fun f => mk (optWord f "index") (optWord f "value") }

/-- The names WRITE-SETTING takes with `index=` and `value=`, each with the types of the two and its command (section
10.3). A name that takes no index takes any word there, which its request refuses (R199 step 2). -/
def writeTable : List (String × RequestSpec) :=
  [("CH-OFFSET", numNum .writeSettingChOffset), ("CH-GAIN", numNum .writeSettingChGain),
   ("SCAN-PERIOD", wordNum .writeSettingScanPeriod), ("GROUP-TIMER", numWord .writeSettingGroupTimer),
   ("DISAGREE-LIMIT", numNum .writeSettingDisagreeLimit),
   ("ZONE-TSET", numNum (.writeSettingZoneClimate .tset)),
   ("ZONE-HSET", numNum (.writeSettingZoneClimate .hset)),
   ("ZONE-BAND", numNum (.writeSettingZoneClimate .band)),
   ("ZONE-STEP", numNum (.writeSettingZoneClimate .step)),
   ("ZONE-CAP", numNum (.writeSettingZoneClimate .cap)),
   ("ZONE-RHBAND", numNum (.writeSettingZoneClimate .rhband)),
   ("ZONE-TBAND", numNum (.writeSettingZoneClimate .tband)),
   ("ZONE-PERIOD", numNum (.writeSettingZoneClimate .period)),
   ("ZONE-BURST", numNum (.writeSettingZoneClimate .burst)),
   ("CLIMATE-MODE", numWord .writeSettingClimateMode), ("HOLD-KT", wordNum (.writeSettingHoldKtKh .kT)),
   ("HOLD-KH", wordNum (.writeSettingHoldKtKh .kH)), ("HOLD-MIN", wordNum .writeSettingHoldMin),
   ("HOLD-MAX", wordNum .writeSettingHoldMax), ("HATCH-ZONE", numNum .writeSettingHatchZone),
   ("UNLOCK-TIMEOUT", numNum (.writeSettingHatchTiming .unlockTimeout)),
   ("OPEN-ALARM", numNum (.writeSettingHatchTiming .openAlarm)),
   ("QUERY-WAIT", numNum (.writeSettingHatchTiming .queryWait)),
   ("REJECT-TIMEOUT", numNum (.writeSettingHatchTiming .rejectTimeout)),
   ("COND-LIMIT", numNum (.writeSettingHatchTiming .condLimit)),
   ("STANDBY-TIME", numNum (.writeSettingHatchTiming .standbyTime)),
   ("PURGE-BAND", numNum (.writeSettingHatchTiming .purgeBand)),
   ("COND-MARGIN", numNum (.writeSettingHatchTiming .condMargin)), ("BANK-ZONE", numNum .writeSettingBankZone),
   ("BANK-CARRIAGES", numNum .writeSettingBankCarriages), ("BANK-PARK", numNum .writeSettingBankPark),
   ("BANK-STEP", numNum .writeSettingBankStep), ("DET-PREALARM", wordNum .writeSettingDetPrealarm),
   ("DET-ALARM", wordNum .writeSettingDetAlarm), ("FIRE-COINCIDENCE", numNum .writeSettingFireCoincidence),
   ("FIRE-COUNTDOWN", numNum (.writeSettingFireTimes .countdown)),
   ("FIRE-SOAK", numNum (.writeSettingFireTimes .soak)), ("FIRE-VENT", numNum (.writeSettingFireTimes .vent)),
   ("LINE-RATE", wordWord .writeSettingLineRate), ("STATION-ADDRESS", wordNum .writeSettingStationAddress)]

/-- The fields of a WRITE-SETTING by the name it carries (R2, R140, R199). -/
def writeSpec (name : Text) : RequestSpec :=
  if name = "CHANNEL".toList then
    { fields := [reqWord "name", optNumS "index", optWordS "kind", optWordS "owner", optNumS "group"]
      build := fun f => .writeSettingChannel (optNum f "index") (optWord f "kind") (optWord f "owner")
        (optNum f "group") }
  else if name = "DETECTOR".toList then
    { fields := [reqWord "name", optNumS "loop", optNumS "address", optNumS "zone", optWordS "type"]
      build := fun f => .writeSettingDetector (optNum f "loop") (optNum f "address") (optNum f "zone")
        (optWord f "type") }
  else
    match wordOf writeTable name with
    | some spec => spec
    | none =>
      { fields := [reqWord "name", optWordS "index", optWordS "value", optWordS "kind", optWordS "owner",
          optNumS "group", optNumS "loop", optNumS "address", optNumS "zone", optWordS "type"]
        build := fun _ => .writeSettingUnknownName name }

/-- The fields of a READ-SETTING by the name it carries (R199, R201). -/
def readSpec (name : Text) : RequestSpec :=
  match wordOf catalogue name with
  | some (.byAddress _) =>
    { fields := [reqWord "name", optNumS "loop", optNumS "address"]
      build := fun f => .readSetting name none (optNum f "loop") (optNum f "address") }
  | some (.numbered _) =>
    { fields := [reqWord "name", optNumS "index"]
      build := fun f => .readSetting name ((optNum f "index").map intText) none none }
  | some _ =>
    { fields := [reqWord "name", optWordS "index"], build := fun f => .readSetting name (optWord f "index") none none }
  | none =>
    { fields := [reqWord "name", optWordS "index", optNumS "loop", optNumS "address"]
      build := fun f => .readSetting name (optWord f "index") (optNum f "loop") (optNum f "address") }

/-! ### Parsing -/

/-- What steps 1 to 3 of R183 make of a line. -/
inductive Parsed where
  | badRequest (field : Text)
  | unknown
  | instr (i : Instr)
  deriving DecidableEq, Repr

/-- A character of a request name. -/
def isHeadChar (c : Char) : Bool := isCapital c || isDigit c || c == '-'

/-- A character of a field name. -/
def isNameChar (c : Char) : Bool := (97 ≤ c.toNat && c.toNat ≤ 122) || isDigit c

/-- A character of a request value. -/
def isValueChar (c : Char) : Bool := isCapital c || isDigit c || c == '-' || c == ','

/-- One field split at its equals sign, none where it leaves no field name to give. A token with no equals sign leaves
none, though it has the form of a name: the model's choice, as LINE for a malformed name is (log entry 22). -/
def rawField (t : Text) : Option (Text × Text) :=
  let name := t.takeWhile (· != '=')
  if 1 ≤ name.length ∧ name.length ≤ 12 ∧ name.all isNameChar ∧ name.length < t.length then
    some (name, t.drop (name.length + 1))
  else none

/-- A value read as a request takes it, none where it is malformed. -/
def readValue (k : FieldType) (v : Text) : Option FieldValue :=
  if v.isEmpty || !v.all isValueChar then none
  else
    match k with
    | .num => (numberOf v).map .num
    | .word => some (.word v)
    | .list => if (splitText ',' v).any List.isEmpty then none else some (.list (splitText ',' v))

/-- The fields of a line in order: the parsed fields, or the name of the first at fault (R183 step 3). -/
def readFields (specs : List FieldSpec) (seen : List Text) : List Text → Except Text Fields
  | [] => .ok []
  | t :: ts =>
    match rawField t with
    | none => .error "LINE".toList
    | some (name, v) =>
      match specs.find? fun f => f.name.toList == name with
      | none => .error name
      | some f =>
        if seen.contains name then .error name
        else
          match readValue f.type v with
          | none => .error name
          | some x =>
            match readFields specs (name :: seen) ts with
            | .ok rest => .ok ((name, x) :: rest)
            | .error e => .error e

/-- The first required field that is missing, in the order the request's own list gives them, asked only where no field of
the line is at fault: the model's choice (log entry 22). -/
def missingField (specs : List FieldSpec) (fs : Fields) : Option Text :=
  (specs.find? fun f => f.required && (fieldOf fs f.name).isNone).map fun f => f.name.toList

/-- The name a READ-SETTING or WRITE-SETTING carries, as it stands in the line. -/
def settingNamed (raw : List Text) : Text :=
  match raw.filterMap rawField |>.find? fun f => f.1 == "name".toList with
  | some f => f.2
  | none => []

/-- The fields and command of a request name; none where it is no request name. -/
def specOf (head : Text) (raw : List Text) : Option RequestSpec :=
  if head = "WRITE-SETTING".toList then some (writeSpec (settingNamed raw))
  else if head = "READ-SETTING".toList then some (readSpec (settingNamed raw))
  else wordOf requestTable head

/-- Steps 1 to 3 of R183 on what follows the address, up to the check mark. -/
def parse (content : Text) : Parsed :=
  match content with
  | ' ' :: rest =>
    let head := rest.takeWhile isHeadChar
    let tail := rest.drop head.length
    if 1 ≤ head.length ∧ head.length ≤ 24 ∧ (tail = [] ∨ tail.head? = some ' ') then
      let raw := match tail with
        | [] => []
        | _ :: t => splitText ' ' t
      match specOf head raw with
      | none => .unknown
      | some spec =>
        match readFields spec.fields [] raw with
        | .error f => .badRequest f
        | .ok fs =>
          match missingField spec.fields fs with
          | some f => .badRequest f
          | none => .instr (spec.build fs)
    else .badRequest "LINE".toList
  | _ => .badRequest "LINE".toList

/-! ### Step 4 -/

/-- The request a command hands to its block, none for a command that is no request. -/
def requestOf : Instr → Option Request
  | .calibrate g => some (calibrateGroup g)
  | .readChannel c => some (readChannel c)
  | .setSetpoints z f => some (setSetpoints z f)
  | .setClimateMode _ m z => some (setClimateMode m z)
  | .burst z => some (Machine.burst z)
  | .readZone z => some (readZone z)
  | .addCartridge l m h => some (addCartridge l m h)
  | .removeCartridge l => some (removeCartridge l)
  | .readCartridge l => some (readCartridge l)
  | .listCartridges n k z => some (listCartridges n k z)
  | .setHome l h => some (setHome l h)
  | .markMissing l => some (markMissing l)
  | .markFound l => some (markFound l)
  | .releaseHold l => some (releaseHold l)
  | .readStaging r => some (readStaging r)
  | .submitOutbound h c v is => some (submitOutbound h c v is)
  | .submitInbound h c v is f => some (submitInbound h c v is f)
  | .guidePicks i => some (guidePicks i)
  | .cancelManifest i => some (cancelManifest i)
  | .readManifest i n => some (readManifest i n)
  | .listManifests n => some (listManifests n)
  | .loadHatch h i => some (loadHatch h i)
  | .answerQuery h a => some (answerQuery h a)
  | .abortHandover h => some (abortHandover h)
  | .releaseHatch h => some (releaseHatch h)
  | .clearStuck h sd => some (clearStuck h sd)
  | .fetchReceipt h n => some (fetchReceipt h n)
  | .clearReceipt h => some (clearReceipt h)
  | .readHatch h t => some (readHatch h t)
  | .openAisle b k => some (openAisle b k)
  | .clearAisleQueue b => some (clearAisleQueue b)
  | .resetBank b => some (resetBank b)
  | .readBank b => some (readBank b)
  | .setDetector l a e => some (setDetector l a e)
  | .readDetector l a => some (readDetector l a)
  | .readLoop l n => some (readLoop l n)
  | .startVent z => some (startVent z)
  | .resetFireZone z => some (resetFireZone z)
  | .restoreAgent z => some (restoreAgent z)
  | .readFireZone z n => some (readFireZone z n)
  | .identify => some Machine.identify
  | .status => some Machine.status
  | .readSetting n i l a => some (readSetting n i l a)
  | .fetchReports m => some (fetchReports m)
  | .restart => some Machine.restart
  | .writeSettingChannel i k o g => some (writeChannel i k o g)
  | .writeSettingChOffset i v => some (writeChOffset i v)
  | .writeSettingChGain i v => some (writeChGain i v)
  | .writeSettingScanPeriod i v => some (writeScanPeriod i v)
  | .writeSettingGroupTimer i v => some (writeGroupTimer i v)
  | .writeSettingDisagreeLimit i v => some (writeDisagreeLimit i v)
  | .writeSettingZoneClimate n i v => some (writeZoneClimate n i v)
  | .writeSettingClimateMode i v => some (writeClimateMode i v)
  | .writeSettingHoldKtKh w i v => some (writeHoldWeight w i v)
  | .writeSettingHoldMin i v => some (writeHoldMin i v)
  | .writeSettingHoldMax i v => some (writeHoldMax i v)
  | .writeSettingHatchZone i v => some (writeHatchZone i v)
  | .writeSettingHatchTiming n i v => some (writeHatchTiming n i v)
  | .writeSettingBankZone i v => some (writeBankZone i v)
  | .writeSettingBankCarriages i v => some (writeBankCarriages i v)
  | .writeSettingBankPark i v => some (writeBankPark i v)
  | .writeSettingBankStep i v => some (writeBankStep i v)
  | .writeSettingDetector l a z t => some (writeDetector l a z t)
  | .writeSettingDetPrealarm i v => some (writePrealarm i v)
  | .writeSettingDetAlarm i v => some (writeAlarm i v)
  | .writeSettingFireCoincidence i v => some (writeCoincidence i v)
  | .writeSettingFireTimes t i v => some (writeFireTime t i v)
  | .writeSettingLineRate i v => some (writeLineRate i v)
  | .writeSettingStationAddress i v => some (writeStationAddress i v)
  | .writeSettingUnknownName _ => some (answer .badValue)
  | _ => none

/-- The request a parsed line is answered by (R183). -/
def parsedRequest : Parsed → Request
  | .badRequest f => answer .badRequest (.badField f)
  | .unknown => answer .unknownRequest
  | .instr i => (requestOf i).getD (answer .unknownRequest)

end Sys2Proof.Machine
end

