-- ==== Sys2Proof/Machine/Line.lean ====
section
/-!
DEFINITION. The host line (chapter 9): the receiver, the check of a completed line, and the reply as it is sent; with
the commands CHARACTER_RECEIVED, BREAK, LINE_GAP_TIMEOUT, LINE_DISCARDED, BAD_REQUEST, UNKNOWN_REQUEST, REPLY_START
and REPLY_COMPLETE.
-/

namespace Sys2Proof.Machine

/-! ### The receiver -/

/-- A decimal digit's byte. -/
def isDigitByte (b : Byte) : Bool := decide (0x30 ≤ b.toNat) && decide (b.toNat ≤ 0x39)

/-- A printable character: space to tilde. -/
def isPrintable (b : Byte) : Bool := decide (0x20 ≤ b.toNat) && decide (b.toNat ≤ 0x7E)

/-- The byte of the opening mark of a request line. -/
def openMark : Byte := 0x40

/-- The carriage return. -/
def carriageReturn : Byte := 0x0D

/-- A new line begun at an opening mark (R179). -/
def beginLine (x : HostLine) : HostLine := { x with receiver := .address, buffer := [openMark], gap := 0 }

/-- The line being collected abandoned (R180). -/
def abandonLine (x : HostLine) : HostLine := { x with receiver := .hunt }

/-- A character stored at the end of the buffer. -/
def storeChar (b : Byte) (x : HostLine) : HostLine := { x with buffer := x.buffer ++ [b], gap := 0 }

/-- The receiver once both address digits have arrived (R179). -/
def matchAddress (x : HostLine) : HostLine :=
  let address := digitsValue ((x.buffer.drop 1).map charOf)
  if address = x.station then { x with receiver := .collect .station }
  else if address = 0 then { x with receiver := .collect .broadcast }
  else abandonLine x

/-- A character received in ADDRESS (R179). -/
def addressChar (b : Byte) (x : HostLine) : HostLine :=
  if b = openMark then beginLine x
  else if isDigitByte b then
    let x := storeChar b x
    if x.buffer.length = 3 then matchAddress x else x
  else abandonLine x

/-- The value of a hexadecimal digit, capital or small. -/
def hexValue (b : Byte) : Option Nat :=
  let n := b.toNat
  if 0x30 ≤ n ∧ n ≤ 0x39 then some (n - 0x30)
  else if 0x41 ≤ n ∧ n ≤ 0x46 then some (n - 0x37)
  else if 0x61 ≤ n ∧ n ≤ 0x66 then some (n - 0x57)
  else none

/-- The value of four hexadecimal digits. -/
def hexWord (bs : List Byte) : Option Nat :=
  bs.foldl (fun acc b => match acc, hexValue b with
    | some n, some d => some (16 * n + d)
    | _, _ => none) (some 0)

/-- The characters a good line holds between its opening mark and its check mark; none where the frame or the check is
not so (R182, log entry 14). -/
def goodLine (line : List Byte) : Option (List Byte) :=
  let body := (line.drop 1).dropLast
  let checked := body.take (body.length - 5)
  match body.drop (body.length - 5) with
  | mark :: digits =>
    match hexWord digits with
    | some n => if mark = 0x2A ∧ digits.length = 4 ∧ (crc16 checked).toNat = n then some checked else none
    | none => none
  | [] => none

/-- What a completed line asks for, its address left off (R183). -/
def lineParsed (checked : List Byte) : Parsed := parse ((checked.drop 2).map charOf)

/-- A broadcast line acted on: only SET-CLIMATE-MODE is (R184). -/
def broadcastTaken (p : Parsed) (s : State) : State :=
  match p with
  | .instr (.setClimateMode _ mode zone) => takeBroadcast (setClimateMode mode zone) s
  | _ => hunt s

/-- A line completed by its carriage return (R182, R184, R185). -/
def lineComplete (t : Target) (line : List Byte) (s : State) : State :=
  match goodLine line with
  | none => hunt s
  | some checked =>
    match t with
    | .station => takeLine (parsedRequest (lineParsed checked)) s
    | .broadcast => broadcastTaken (lineParsed checked) s

/-- A character received in COLLECT (R179, R180); a 513th character abandons the line. So do the codes 80 to FF hex, which
R179 and R180 leave open: the model's choice (log entry 22). -/
def collectChar (t : Target) (b : Byte) (s : State) : State :=
  let x := s.line
  if b = openMark then s.setLine (beginLine x)
  else if 512 ≤ x.buffer.length then s.setLine (abandonLine x)
  else if b = carriageReturn then lineComplete t (x.buffer ++ [b]) (s.setLine (storeChar b x))
  else if isPrintable b then s.setLine (storeChar b x)
  else s.setLine (abandonLine x)

/-- A line whose last character lies 100 ms or more back is abandoned before the late character is taken (R180). -/
def HostLine.inTime (x : HostLine) : HostLine := if 1 ≤ x.gap then abandonLine x else x

/-- A character with its framing or noise error (R179, R180): a late one finds its line abandoned and is taken in HUNT;
while the part drives the pair it does not listen (R181, R185). -/
def characterArrives (b : Byte) (lineError : Bool) (s : State) : State :=
  if s.line.driving then s
  else
    let s := s.setLine s.line.inTime
    let x := s.line
    match x.receiver with
    | .hunt => if !lineError ∧ b = openMark then s.setLine (beginLine x) else s
    | .address => s.setLine (if lineError then abandonLine x else addressChar b x)
    | .collect t => if lineError then s.setLine (abandonLine x) else collectChar t b s

/-- A break, or 100 ms with no character: the line being collected is abandoned (R180, R181). -/
def lineInterrupted (s : State) : State :=
  match s.line.receiver with
  | .hunt => s
  | _ => if s.line.driving then s else s.setLine (abandonLine s.line)

/-! ### The reply -/

/-- The first character of the reply leaves (R178, R185, R186). A refusal whose rule names no reason takes a fresh free one
(R187, log entry 3). -/
def replyStarts (s : State) : State :=
  match s.line.reply with
  | .owed r =>
    let s' := s.setLine { s.line with
      reply := .sending r, driving := true, receiver := .hunt, outgoing := replyLine s.choice r }
    if reasonless r.answer then { s' with choice := s.choice + 1 } else s'
  | _ => s

/-- The reply's carriage return has left (R178, R185, R204): the driver released, the stored rate and address in
force, and a RESTART made where one was taken. -/
def replyEnds (s : State) : State :=
  match s.line.reply with
  | .sending _ =>
    let due := s.line.restartDue
    let s := s.setLine { s.line with
      reply := .none, driving := false, receiver := .hunt, outgoing := [], rate := s.store.rate,
      station := s.store.station, restartDue := false }
    if due then startUp .restart s else s
  | _ => s

/-! ### The commands -/

/-- CHARACTER_RECEIVED (R179, R180). -/
def execCharacterReceived (code : Byte) (lineError : Bool) (s : State) : Host.Outcome State Fault Refusal :=
  event (characterArrives code lineError) s

/-- BREAK (R181). -/
def execLineBreak (s : State) : Host.Outcome State Fault Refusal := event lineInterrupted s

/-- LINE_GAP_TIMEOUT (R180). -/
def execLineGapTimeout (s : State) : Host.Outcome State Fault Refusal :=
  event (fun s => match s.line.receiver with
    | .hunt => s
    | _ => if s.line.driving then s else s.setLine { abandonLine s.line with gap := 0 }) s

/-- LINE_DISCARDED (R182, R184, R185): a completed line is discarded without a word. -/
def execLineDiscarded (s : State) : Host.Outcome State Fault Refusal :=
  event (fun s => if s.line.driving then s else hunt s) s

/-- BAD_REQUEST (R183): a good line with a fault of form is taken and answered with the field at fault. -/
def execBadRequest (fault : Option Text) (s : State) : Host.Outcome State Fault Refusal :=
  request (answer .badRequest (match fault with
    | some f => .badField f
    | none => .badField "LINE".toList)) s

/-- UNKNOWN_REQUEST (R183): a good line whose head is no request name. -/
def execUnknownRequest (s : State) : Host.Outcome State Fault Refusal := request (answer .unknownRequest) s

/-- REPLY_START (R186). -/
def execReplyStart (s : State) : Host.Outcome State Fault Refusal := event replyStarts s

/-- REPLY_COMPLETE (R178, R185). -/
def execReplyComplete (s : State) : Host.Outcome State Fault Refusal := event replyEnds s

end Sys2Proof.Machine
end

