-- ==== Sys2Proof/Machine/Dispatch.lean ====
section
/-!
DEFINITION. `exec`: one arm for each command, each one direct call of its meaning.
-/

namespace Sys2Proof.Machine

/-- The effect of a command on everything but the queue. -/
def exec (i : Instr) (s : State) : Host.Outcome State Fault Refusal :=
  match i with
  | .powerUp => Sys2Proof.Machine.execPowerUp s
  | .powerOff => Sys2Proof.Machine.execPowerOff s
  | .replyComplete => Sys2Proof.Machine.execReplyComplete s
  | .lineGapTimeout => Sys2Proof.Machine.execLineGapTimeout s
  | .lineBreak => Sys2Proof.Machine.execLineBreak s
  | .lineDiscarded => Sys2Proof.Machine.execLineDiscarded s
  | .badRequest field => Sys2Proof.Machine.execBadRequest field s
  | .unknownRequest => Sys2Proof.Machine.execUnknownRequest s
  | .calibrate group => Sys2Proof.Machine.execCalibrate group s
  | .readChannel channel => Sys2Proof.Machine.execReadChannel channel s
  | .setSetpoints zone fields => Sys2Proof.Machine.execSetSetpoints zone fields s
  | .setClimateMode broadcast mode zone => Sys2Proof.Machine.execSetClimateMode broadcast mode zone s
  | .burst zone => Sys2Proof.Machine.execBurst zone s
  | .readZone zone => Sys2Proof.Machine.execReadZone zone s
  | .addCartridge label media home => Sys2Proof.Machine.execAddCartridge label media home s
  | .removeCartridge label => Sys2Proof.Machine.execRemoveCartridge label s
  | .readCartridge label => Sys2Proof.Machine.execReadCartridge label s
  | .listCartridges start custody zone => Sys2Proof.Machine.execListCartridges start custody zone s
  | .setHome label home => Sys2Proof.Machine.execSetHome label home s
  | .markMissing label => Sys2Proof.Machine.execMarkMissing label s
  | .markFound label => Sys2Proof.Machine.execMarkFound label s
  | .releaseHold label => Sys2Proof.Machine.execReleaseHold label s
  | .readStaging reader => Sys2Proof.Machine.execReadStaging reader s
  | .submitOutbound hatch courier validity items => Sys2Proof.Machine.execSubmitOutbound hatch courier validity items s
  | .submitInbound hatch courier validity items summary => Sys2Proof.Machine.execSubmitInbound hatch courier validity items summary s
  | .guidePicks id => Sys2Proof.Machine.execGuidePicks id s
  | .cancelManifest id => Sys2Proof.Machine.execCancelManifest id s
  | .readManifest id start => Sys2Proof.Machine.execReadManifest id start s
  | .listManifests start => Sys2Proof.Machine.execListManifests start s
  | .loadHatch hatch id => Sys2Proof.Machine.execLoadHatch hatch id s
  | .answerQuery hatch answer => Sys2Proof.Machine.execAnswerQuery hatch answer s
  | .abortHandover hatch => Sys2Proof.Machine.execAbortHandover hatch s
  | .releaseHatch hatch => Sys2Proof.Machine.execReleaseHatch hatch s
  | .clearStuck hatch side => Sys2Proof.Machine.execClearStuck hatch side s
  | .fetchReceipt hatch start => Sys2Proof.Machine.execFetchReceipt hatch start s
  | .clearReceipt hatch => Sys2Proof.Machine.execClearReceipt hatch s
  | .readHatch hatch tray => Sys2Proof.Machine.execReadHatch hatch tray s
  | .openAisle bank aisle => Sys2Proof.Machine.execOpenAisle bank aisle s
  | .clearAisleQueue bank => Sys2Proof.Machine.execClearAisleQueue bank s
  | .resetBank bank => Sys2Proof.Machine.execResetBank bank s
  | .readBank bank => Sys2Proof.Machine.execReadBank bank s
  | .setDetector loop address enabled => Sys2Proof.Machine.execSetDetector loop address enabled s
  | .readDetector loop address => Sys2Proof.Machine.execReadDetector loop address s
  | .readLoop loop start => Sys2Proof.Machine.execReadLoop loop start s
  | .startVent zone => Sys2Proof.Machine.execStartVent zone s
  | .resetFireZone zone => Sys2Proof.Machine.execResetFireZone zone s
  | .restoreAgent zone => Sys2Proof.Machine.execRestoreAgent zone s
  | .readFireZone zone start => Sys2Proof.Machine.execReadFireZone zone start s
  | .identify => Sys2Proof.Machine.execIdentify s
  | .status => Sys2Proof.Machine.execStatus s
  | .readSetting name index loop address => Sys2Proof.Machine.execReadSetting name index loop address s
  | .fetchReports max => Sys2Proof.Machine.execFetchReports max s
  | .restart => Sys2Proof.Machine.execRestart s
  | .writeSettingChannel index kind owner group => Sys2Proof.Machine.execWriteSettingChannel index kind owner group s
  | .writeSettingChOffset index value => Sys2Proof.Machine.execWriteSettingChOffset index value s
  | .writeSettingChGain index value => Sys2Proof.Machine.execWriteSettingChGain index value s
  | .writeSettingScanPeriod index value => Sys2Proof.Machine.execWriteSettingScanPeriod index value s
  | .writeSettingGroupTimer index value => Sys2Proof.Machine.execWriteSettingGroupTimer index value s
  | .writeSettingDisagreeLimit index value => Sys2Proof.Machine.execWriteSettingDisagreeLimit index value s
  | .writeSettingZoneClimate name index value => Sys2Proof.Machine.execWriteSettingZoneClimate name index value s
  | .writeSettingClimateMode index value => Sys2Proof.Machine.execWriteSettingClimateMode index value s
  | .writeSettingHoldKtKh weight index value => Sys2Proof.Machine.execWriteSettingHoldKtKh weight index value s
  | .writeSettingHoldMin index value => Sys2Proof.Machine.execWriteSettingHoldMin index value s
  | .writeSettingHoldMax index value => Sys2Proof.Machine.execWriteSettingHoldMax index value s
  | .writeSettingHatchZone index value => Sys2Proof.Machine.execWriteSettingHatchZone index value s
  | .writeSettingHatchTiming name index value => Sys2Proof.Machine.execWriteSettingHatchTiming name index value s
  | .writeSettingBankZone index value => Sys2Proof.Machine.execWriteSettingBankZone index value s
  | .writeSettingBankCarriages index value => Sys2Proof.Machine.execWriteSettingBankCarriages index value s
  | .writeSettingBankPark index value => Sys2Proof.Machine.execWriteSettingBankPark index value s
  | .writeSettingBankStep index value => Sys2Proof.Machine.execWriteSettingBankStep index value s
  | .writeSettingDetector loop address zone type => Sys2Proof.Machine.execWriteSettingDetector loop address zone type s
  | .writeSettingDetPrealarm index value => Sys2Proof.Machine.execWriteSettingDetPrealarm index value s
  | .writeSettingDetAlarm index value => Sys2Proof.Machine.execWriteSettingDetAlarm index value s
  | .writeSettingFireCoincidence index value => Sys2Proof.Machine.execWriteSettingFireCoincidence index value s
  | .writeSettingFireTimes time index value => Sys2Proof.Machine.execWriteSettingFireTimes time index value s
  | .writeSettingLineRate index value => Sys2Proof.Machine.execWriteSettingLineRate index value s
  | .writeSettingStationAddress index value => Sys2Proof.Machine.execWriteSettingStationAddress index value s
  | .minuteIncrease => Sys2Proof.Machine.execMinuteIncrease s
  | .holdEnded label => Sys2Proof.Machine.execHoldEnded label s
  | .manifestExpired id => Sys2Proof.Machine.execManifestExpired id s
  | .conditionTimeout hatch => Sys2Proof.Machine.execConditionTimeout hatch s
  | .scanTimerExpiry timer => Sys2Proof.Machine.execScanTimerExpiry timer s
  | .scanComplete group codes => Sys2Proof.Machine.execScanComplete group codes s
  | .calibrationComplete group codes => Sys2Proof.Machine.execCalibrationComplete group codes s
  | .periodStart zone => Sys2Proof.Machine.execPeriodStart zone s
  | .dutyOff zone duty => Sys2Proof.Machine.execDutyOff zone duty s
  | .burstTimerExpiry zone => Sys2Proof.Machine.execBurstTimerExpiry zone s
  | .stagingLabelRecord reader run => Sys2Proof.Machine.execStagingLabelRecord reader run s
  | .stagingIndicatorTimeout reader => Sys2Proof.Machine.execStagingIndicatorTimeout reader s
  | .repeatWindowEnd reader => Sys2Proof.Machine.execRepeatWindowEnd reader s
  | .badgeRead hatch courier => Sys2Proof.Machine.execBadgeRead hatch courier s
  | .hatchIndicatorTimeout hatch => Sys2Proof.Machine.execHatchIndicatorTimeout hatch s
  | .queryWaitExpiry hatch => Sys2Proof.Machine.execQueryWaitExpiry hatch s
  | .shutterOpened hatch side => Sys2Proof.Machine.execShutterOpened hatch side s
  | .shutterClosed hatch side => Sys2Proof.Machine.execShutterClosed hatch side s
  | .shutterForced hatch side => Sys2Proof.Machine.execShutterForced hatch side s
  | .unlockTimerExpiry hatch side => Sys2Proof.Machine.execUnlockTimerExpiry hatch side s
  | .openAlarmExpiry hatch side => Sys2Proof.Machine.execOpenAlarmExpiry hatch side s
  | .closerClosed hatch side => Sys2Proof.Machine.execCloserClosed hatch side s
  | .shutterNotSecured hatch side => Sys2Proof.Machine.execShutterNotSecured hatch side s
  | .innerRequestButton hatch => Sys2Proof.Machine.execInnerRequestButton hatch s
  | .trayPresenceChange hatch pos occupied => Sys2Proof.Machine.execTrayPresenceChange hatch pos occupied s
  | .trayScanEnd hatch reads => Sys2Proof.Machine.execTrayScanEnd hatch reads s
  | .rejectClearTimerExpiry hatch => Sys2Proof.Machine.execRejectClearTimerExpiry hatch s
  | .idleTimerExpiry hatch => Sys2Proof.Machine.execIdleTimerExpiry hatch s
  | .blockTimerExpiry bank => Sys2Proof.Machine.execBlockTimerExpiry bank s
  | .curtainClear bank aisle => Sys2Proof.Machine.execCurtainClear bank aisle s
  | .curtainBroken bank aisle => Sys2Proof.Machine.execCurtainBroken bank aisle s
  | .homeSensorActive bank => Sys2Proof.Machine.execHomeSensorActive bank s
  | .aisleSensorActive bank aisle => Sys2Proof.Machine.execAisleSensorActive bank aisle s
  | .homingTimerExpiry bank => Sys2Proof.Machine.execHomingTimerExpiry bank s
  | .travelTimerExpiry bank => Sys2Proof.Machine.execTravelTimerExpiry bank s
  | .pollAnswered loop level => Sys2Proof.Machine.execPollAnswered loop level s
  | .pollUnanswered loop => Sys2Proof.Machine.execPollUnanswered loop s
  | .alert loop alerting => Sys2Proof.Machine.execAlert loop alerting s
  | .roundEnd loop => Sys2Proof.Machine.execRoundEnd loop s
  | .itemAbandoned loop => Sys2Proof.Machine.execItemAbandoned loop s
  | .abortStationChange zone held => Sys2Proof.Machine.execAbortStationChange zone held s
  | .isolateKeyChange zone on => Sys2Proof.Machine.execIsolateKeyChange zone on s
  | .dischargeConfirmChange zone active => Sys2Proof.Machine.execDischargeConfirmChange zone active s
  | .countdownExpiry zone => Sys2Proof.Machine.execCountdownExpiry zone s
  | .releasePulseExpiry zone => Sys2Proof.Machine.execReleasePulseExpiry zone s
  | .confirmWaitExpiry zone => Sys2Proof.Machine.execConfirmWaitExpiry zone s
  | .soakExpiry zone => Sys2Proof.Machine.execSoakExpiry zone s
  | .ventExpiry zone => Sys2Proof.Machine.execVentExpiry zone s
  | .characterReceived code lineError => Sys2Proof.Machine.execCharacterReceived code lineError s
  | .replyStart => Sys2Proof.Machine.execReplyStart s
  | .shutterCaught hatch side => Sys2Proof.Machine.execShutterCaught hatch side s
  | .writeSettingUnknownName name => Sys2Proof.Machine.execWriteSettingUnknownName name s

end Sys2Proof.Machine
end

