-- ==== Sys2Proof/Safety.lean ====
section
/-!
DEFINITION. The words claims are stated in: a part ready for a request, a request taken and answered, and the laws a
safe state obeys: the report queue (R194), a hatch's shutters (R88), the economy cap (R31), a fire zone's outputs and
timers (R160 to R172), a bank's drive and queue (section 6.1), and the custody table (R44); what a scan finds gone from a
tray and enters in a handover record (R99, R105, R114, R117); and what a start leaves, by power-up and by RESTART alike
(R203, R204).
-/

namespace Sys2Proof.Machine

/-! ### Requests -/

/-- The part is powered and no reply stands, so that a good station line is taken (R182, R185). -/
def Ready (s : State) : Prop := s.powered = true ∧ s.line.reply = .none

/-- The receiver in HUNT, as at the carriage return of a line (R179); nothing else changed. -/
def State.heard (s : State) : State := { s with line := { s.line with receiver := .hunt } }

/-- The reply OWED under the station address in force (R182, R186); nothing else changed. -/
def State.answered (s : State) (a : Answer) : State :=
  { s with line := { s.line with reply := .owed { station := s.line.station, answer := a } } }

/-- A request that is answered and changes nothing but the host line. -/
def State.replied (s : State) (a : Answer) : State := s.heard.answered a

/-- The words of a refusal that says nothing more. -/
def State.repliedWord (s : State) (w : StatusWord) : State := s.replied { word := w }

/-- Another custody table; nothing else changed. -/
def State.withTable (s : State) (cs : List Cartridge) : State := { s with store := { s.store with cartridges := cs } }

/-- The records of a label changed, and nothing else. -/
def State.changing (s : State) (label : Text) (f : Cartridge → Cartridge) : State :=
  s.withTable (s.store.cartridges.map fun c => if c.label = label then f c else c)

/-- A staging port's live state put in place of the old one; nothing else changed. -/
def State.withStaging (s : State) (r : ReaderId) (p : Staging) : State := { s with staging := s.staging.set r p }

/-! ### The report queue (R194) -/

/-- The queue never holds more than 64 entries; a LOST marker is the newest entry, so there is one at most; it counts
1 to 65535; and 64 entries stand only with the marker (R194). -/
structure QueueLaw (q : List Report) : Prop where
  size : q.length ≤ 64
  marker : ∀ r ∈ q.dropLast, r.isLost = false
  full : ∀ r, q.getLast? = some r → r.isLost = false → q.length ≤ 63
  count : ∀ t n, ({ stamp := t, event := .lost n } : Report) ∈ q → 1 ≤ n ∧ n ≤ 65535

/-! ### Hatches (R88) -/

/-- One lock at least is engaged: the two shutters are never unlocked or open at the same time (R88). -/
def Hatch.oneLocked (x : Hatch) : Prop := x.outer.locked = true ∨ x.inner.locked = true

/-! ### Zone climate (R31) -/

/-- A duty is never above the cap while the zone is in ECONOMY (R31). -/
def CapLaw (s : State) : Prop :=
  ∀ z : Zone, s.climate[z].mode = .economy →
    s.climate[z].dh ≤ s.store.climate[z].cap ∧ s.climate[z].hu ≤ s.store.climate[z].cap

/-! ### Fire zones (chapter 8) -/

/-- What ties a fire zone's outputs and timers to its state: the countdown stands exactly in PREDISCHARGE, the vent
output and timer exactly in VENT, the release output with its pulse, the soak in DISCHARGED only, and a complete soak
in DISCHARGED and VENT only (R160, R167 to R172). -/
structure FireLaw (x : FireZone) : Prop where
  countdown : x.countdown = .stopped ↔ x.state ≠ .predischarge
  ventOut : x.ventOut = true ↔ x.state = .vent
  vent : x.vent.isSome = true ↔ x.state = .vent
  pulse : x.releaseOut = x.pulse.isSome
  soak : x.soak.isSome = true → x.state = .discharged ∧ x.soakComplete = false
  complete : x.soakComplete = true → x.state = .discharged ∨ x.state = .vent

/-- The state of a detector whose latch is cleared (R149): a FAULT stands; otherwise PREALARM where the level last
recorded reaches the prealarm level of its type, else NORMAL. -/
def unlatchedState (prealarm : Option Nat) (d : Detector) : DetState :=
  if d.state = .fault then .fault
  else if d.level.any fun v => prealarm.any fun p => decide (p ≤ v) then .prealarm
  else .normal

/-- The latches of zone `z` cleared (R149, R150): every enabled detector of the zone loses its latch and both runs,
takes its state from the level last recorded, and is handed on where its state or latch changed; every other detector
and every other field of a loop stands; each change among NORMAL, PREALARM and ALARM is reported, L1 before L2 and
ascending (log entry 2). -/
def LatchesCleared (z : Zone) (s t : State) : Prop :=
  ∃ loops : Vector Loop 2,
    (∀ l : LoopId, loops[l] = { s.loop[l] with dets := loops[l].dets }) ∧
    (∀ (l : LoopId) (a : Address) (e : DetEntry) (d n : Detector), e = s.store.detectors[l][a] → d = s.loop[l].dets[a] →
      n = loops[l].dets[a] →
      ((e.enabled = false ∨ e.zone ≠ z) → n = d) ∧
      (e.enabled = true → e.zone = z → n = { d with
        latch := false, alarmRun := 0, lowRun := 0, state := unlatchedState (s.store.prealarmLevel e.type) d
        handedLevel :=
          if d.latch = true ∨ unlatchedState (s.store.prealarmLevel e.type) d ≠ d.state then d.level
          else d.handedLevel })) ∧
    t = postAll ((List.finRange 2).flatMap fun l => ((List.finRange 32).filter fun a =>
      loops[l].dets[a].state != s.loop[l].dets[a].state).map fun a => Event.detectorState l a z
        s.store.detectors[l][a].type loops[l].dets[a].level loops[l].dets[a].state) { s with loop := loops }

/-! ### Banks (chapter 6) -/

/-- The motion states in which the drive runs (R130, R131, R135). -/
def Motion.drives : Motion → Bool
  | .homing => true
  | .moving => true
  | .parkHoming => true
  | .parkTravel => true
  | _ => false

/-- A bank's drive runs exactly in HOMING, MOVING and their fire park counterparts, with no position known while it
runs; the queue holds 8 targets at most, none twice (R123 to R125, R131). -/
structure BankLaw (x : Bank) : Prop where
  drive : x.drive.runs = x.motion.drives
  position : x.motion.drives = true → x.position = none
  size : x.queue.length ≤ 8
  distinct : x.queue.Nodup

/-! ### The custody table (R44) -/

/-- The table is in ascending order of label, so no two records share a label; no two share a home; 2048 records at
most (R44). -/
structure TableLaw (cs : List Cartridge) : Prop where
  ordered : cs.Pairwise fun a b => labelBefore a.label b.label = true
  homes : cs.Pairwise fun a b => a.home ≠ b.home
  size : cs.length ≤ 2048

/-! ### Trays and handover records (sections 5.3 to 5.11) -/

/-- The labels that stand on a tray. -/
def labelsOn (t : Tray) : List Text :=
  t.toList.filterMap fun p =>
    match p.presence with
    | .present l _ => some l
    | _ => none

/-- The ACCEPTED cartridges of a remembered tray whose labels a scan finds nowhere (R117), in ascending position. -/
def lostFrom (held t : Tray) : List (Text × TrayPos) :=
  held.toList.filterMap fun p =>
    match p.verdict, p.presence with
    | .accepted, .present l _ => if l ∈ labelsOn t then none else some (l, p)
    | _, _ => none

/-- The entries of the rejects of an earlier tray that a scan finds EMPTY (R105): REJECTED-REMOVED, with the label or none
and the side. That the side is the one last opened, and their ascending position, are the model's choices (log entry
10). -/
def removedRejects (old t : Tray) (side : Option Side) : List Entry :=
  ((List.finRange 24).filter fun p : TrayIdx => old[p].verdict == .rejected && t[p].presence == .empty).map
    fun p : TrayIdx =>
      { label := match old[p].presence with
          | .present l _ => some l
          | _ => none
        result := .rejectedRemoved, side := side }

/-- A record with the entry of a cartridge added, in place of the one it has of the same label, if it has one (R114). -/
def Handover.noting (r : Handover) (e : Entry) : Handover :=
  { r with entries :=
      if r.entries.any fun d => d.label == e.label && d.result != .rejectedRemoved then
        r.entries.map fun d => if d.label = e.label ∧ d.result ≠ .rejectedRemoved then e else d
      else r.entries ++ [e] }

/-- A hatch's record put in place of the old one; nothing else changed. -/
def Store.withRecord (st : Store) (h : HatchId) (r : Handover) : Store :=
  { st with handover := st.handover.set h (some r) }

/-- A LOADED item of a manifest gone from the tray by a side (R99 step 1): DEPARTED by the outer, its cartridge OUT with the
courier and its check-out count raised, and LEFT by the inner, its cartridge in RESHELVE. -/
def Store.goneBy (m : Manifest) (sd : Side) (st : Store) (l : Text) : Store :=
  match sd with
  | .outer =>
    st.moveItem m.id l (fun c => { c with custody := .out m.courier, checkouts := min (c.checkouts + 1) 65535 }) .departed
  | .inner => st.moveItem m.id l (fun c => { c with custody := .reshelve }) .left

/-- A LOADED item of an aborted handover found nowhere (R100): PICKED again, its cartridge too. -/
def Store.backToPicked (m : Manifest) (st : Store) (l : Text) : Store :=
  st.moveItem m.id l (fun c => { c with custody := .picked m.id }) .picked

/-- The entry of an item gone by a side (R99, R112). -/
def goneEntry (sd : Side) (l : Text) : Entry :=
  { label := some l
    result := match sd with
      | .outer => .departed
      | .inner => .left }

/-- An ACCEPTED cartridge found gone (R117, R121): MISSING, and its item LEFT where the handover is outbound. -/
def Store.losing (r : Handover) (st : Store) (a : Text × TrayPos) : Store :=
  match r.direction with
  | .out => st.moveItem r.manifest a.1 (fun c => { c with custody := .missing }) .left
  | .in_ => st.modCartridge a.1 fun c => { c with custody := .missing }

/-- The entry of a cartridge found gone (R117, R121), with the MISSING mark or without. -/
def missingEntry (d : Direction) (mark : Bool) (a : Text × TrayPos) : Entry :=
  { label := some a.1
    result := match d with
      | .out => .left
      | .in_ => if a.2.cross then .cross else .received
    hold := a.2.hold, missing := mark }

/-! ### A start (section 10.5) -/

/-- The ACTIVE manifests whose hatch holds neither a handover record nor a receipt with their ID, which a start lets go
(R86). -/
def unheldManifests (s : State) : List Manifest :=
  s.store.manifests.filter fun m => m.active && decide ((s.store.handover[m.hatch]).map Handover.manifest ≠ some m.id ∧
    (s.store.receipt[m.hatch]).map Receipt.manifest ≠ some m.id)

/-- A detector is enabled for the zone, on either loop (R139). -/
def zoneWatched (s : State) (z : Zone) : Bool :=
  (List.finRange 2).any fun l => (List.finRange 32).any fun a =>
    s.store.detectors[l][a].enabled && s.store.detectors[l][a].zone == z

/-- The value an owner has at a start: NOT-READY with a channel of the kind in use, INVALID without one (R20). -/
def unread (s : State) (o : Owner) (k : ChanKind) : Reading :=
  { value :=
      if ∃ c : Channel, s.store.channels[c].owner = o ∧ s.store.channels[c].kind = k then .notReady else .invalid }

/-- A shutter at a start: its lock engaged, and where it reads OPEN its closer driven while the hatch's zone stands in
STARTING (R90, R120). -/
def startedShutter (sensorOpen starting : Bool) : Shutter :=
  { sensorOpen := sensorOpen, closer := sensorOpen && starting
    closerTimer := if sensorOpen && starting then some 10 else none }

/-- A hatch as a start leaves it (R120, R121): in HELD-FIRE with every output off, the class and the tray remembered those
of its handover record where it holds one, else none or RECEIPT and the tray its sensors show; and the resume scan begun
where its zone has left STARTING. That the live tray is formed from the sensors also where there is a record is the
model's inference (log entry 16). -/
def startedHatch (s : State) (h : HatchId) : Hatch :=
  let starting := zoneWatched s s.store.hatch[h].zone
  let tray : Tray := s.hatch[h].sensors.map fun occupied : Bool =>
    if occupied then { presence := .unreadable .notScanned } else {}
  let x : Hatch := {
    phase := .heldFire, outer := startedShutter s.hatch[h].outer.sensorOpen starting
    inner := startedShutter s.hatch[h].inner.sensorOpen starting, sensors := s.hatch[h].sensors, tray := tray
    scan := if starting then none else some .resume
    rh := unread s (.hatch h) .rh, temp := unread s (.hatch h) .temp, probe := unread s (.hatch h) .probe }
  match s.store.handover[h] with
  | some r =>
    { x with
      heldClass := some r.phaseClass, heldTray := some r.tray, recovering := true, manifest := some r.manifest
      risk := r.risk }
  | none =>
    { x with
      heldClass := s.store.receipt[h].map fun _ => .receipt, heldTray := some tray
      manifest := s.store.receipt[h].map Receipt.manifest }

/-- A loop `x` as a start leaves loop `l` of `s` (R155, R157): its first pass complete where it has no enabled entry, else
its first enabled entry polled. That no other detector keeps the level of an order is the model's choice (log entry
18). -/
structure LoopStarts (s : State) (l : LoopId) (x : Loop) : Prop where
  empty : (∀ a : Address, s.store.detectors[l][a].enabled = false) → x = { firstPass := true }
  first : ∀ (a : Address) (d : Detector), s.store.detectors[l][a].enabled = true →
    (∀ q : Address, q < a → s.store.detectors[l][q].enabled = false) →
    d = { order := some (s.store.alarmLevel s.store.detectors[l][a].type) } →
    x = { position := some a, item := .passPoll a, dets := (Vector.replicate 32 {}).set a d }

/-- `t` is the part as a start leaves `s`, by power-up or by RESTART (R203, R204). Nothing live is left of `s` but its field
inputs. The reports are POWER-UP and then those the blocks post at the start, each with stamp 0, in an order the spec
leaves open (log entry 2): MANIFEST-RELEASED, and FIRE-STATE of a zone with no detector. The store is that of `s`, but
that each handover record is marked recovered (R121) and each ACTIVE manifest that no hatch holds is OPEN again; every
other manifest stands as stored (R86). -/
structure StartsAfresh (cause : StartCause) (s t : State) : Prop where
  powered : t.powered = true
  pending : t.pending = s.pending
  clock : t.minute = 0 ∧ t.seconds = 0
  line : t.line = { rate := s.store.rate, station := s.store.station }
  reports : ∃ order : List Event,
    order.Perm ((unheldManifests s).map (fun m => .manifestReleased m.id m.hatch) ++
      ((List.finRange 4).filter fun z => !zoneWatched s z).map fun z => .fireState z .starting .normal .noDetectors) ∧
    t.reports = (.powerUp cause :: order).foldl (fun q e => enqueue q { stamp := 0, event := e }) []
  head : t.reports.head? = some { stamp := 0, event := .powerUp cause }
  store : { t.store with manifests := s.store.manifests, handover := s.store.handover } = s.store
  manifests : t.store.manifests = s.store.manifests.map fun m =>
    if m.id ∈ (unheldManifests s).map Manifest.id then { m with active := false } else m
  records : ∀ h : HatchId, t.store.handover[h] = s.store.handover[h].map fun r => { r with recovered := true }
  front : t.front = { timers := s.store.scanPeriod }
  staging : t.staging = Vector.replicate 4 {}
  climate : ∀ z : Zone, t.climate[z] = {
    rh := unread s (.zone z) .rh, temp := unread s (.zone z) .temp, dew := .invalid, outRh := false, outTemp := false
    mode := .hold, dh := 0, hu := 0, dhOn := false, huOn := false, period := s.store.climate[z].period
    elapsed := some 0, burst := none, deferredBreak := false, deferredBurst := false }
  hatch : ∀ h : HatchId, t.hatch[h] = startedHatch s h
  bank : ∀ b : BankId, t.bank[b] = { curtains := s.bank[b].curtains, sensors := s.bank[b].sensors }
  loop : ∀ l : LoopId, LoopStarts s l t.loop[l]
  fire : ∀ z : Zone, t.fire[z] = {
    state := if zoneWatched s z then .starting else .normal
    abortHeld := s.fire[z].abortHeld, isolateOn := s.fire[z].isolateOn, confirmActive := s.fire[z].confirmActive }

/-! ### Unpowered -/

/-- What an unpowered part's field wiring still changes: the reading of an input, and nothing else (R205, log entry
5). Every other command finds no part to take it; POWER-UP and POWER-OFF are not such commands. -/
def fieldReading : Instr → State → State
  | .shutterOpened h sd, s => sensorReads h sd true s
  | .shutterClosed h sd, s => sensorReads h sd false s
  | .shutterForced h sd, s => sensorReads h sd true s
  | .shutterCaught h sd, s => sensorReads h sd false s
  | .trayPresenceChange h p occupied, s => presenceReads h p occupied s
  | .curtainClear b a, s => curtainInput b a false s
  | .curtainBroken b a, s => curtainInput b a true s
  | .homeSensorActive b, s => sensorInput b 0 s
  | .aisleSensorActive b a, s => sensorInput b a s
  | .abortStationChange z held, s => abortReads z held s
  | .isolateKeyChange z on, s => isolateReads z on s
  | .dischargeConfirmChange z active, s => confirmReads z active s
  | _, s => s

/-! ### The whole part -/

/-- A safe state: every law at once. -/
structure Safe (s : State) : Prop where
  queue : QueueLaw s.reports
  shutters : ∀ h : HatchId, s.hatch[h].oneLocked
  cap : CapLaw s
  fire : ∀ z : Zone, FireLaw s.fire[z]
  banks : ∀ b : BankId, BankLaw s.bank[b]
  table : TableLaw s.store.cartridges

end Sys2Proof.Machine
end

