-- ==== Sys2Proof/WellFormed.lean ====
section
/-!
DEFINITION. Which commands can arrive. A request reaches its block only after steps 1 to 3 of R183, so its numbers
and words have the form section 9.3 gives; a field event carries what its input can show.

The checks say what the outside can send. No meaning rests on them: `exec` answers every term of `Instr`.
-/

namespace Sys2Proof

/-- A number of 1 to 10 digits with an optional leading hyphen (section 9.3). -/
def Int.writable (n : Int) : Bool := decide (-9999999999 ≤ n ∧ n ≤ 9999999999)

/-- A character a request value may hold: a capital letter, a digit, the hyphen or the comma (section 9.3). -/
def valueChar (c : Char) : Bool :=
  (65 ≤ c.toNat && c.toNat ≤ 90) || (48 ≤ c.toNat && c.toNat ≤ 57) || c == '-' || c == ','

/-- A word: one or more value characters (section 9.3). -/
def Text.word (t : Text) : Bool := !t.isEmpty && t.all valueChar

/-- A list: one or more elements, each a word without a comma (section 9.3). -/
def Text.listed (ls : List Text) : Bool := !ls.isEmpty && ls.all fun t => Text.word t && !t.contains ','

/-- A field name: 1 to 12 small letters and digits (section 9.3). -/
def Text.fieldName (t : Text) : Bool :=
  1 ≤ t.length && t.length ≤ 12 &&
    t.all fun c => (97 ≤ c.toNat && c.toNat ≤ 122) || (48 ≤ c.toNat && c.toNat ≤ 57)

/-- A label as it is printed: eight characters A to Z and 0 to 9 (R42). -/
def Text.label (t : Text) : Bool :=
  t.length == 8 && t.all fun c => (65 ≤ c.toNat && c.toNat ≤ 90) || (48 ≤ c.toNat && c.toNat ≤ 57)

/-- An optional field as written. -/
def optionally {α : Type} (p : α → Bool) : Option α → Bool
  | none => true
  | some a => p a

/-- The fields of SET-SETPOINTS as written. -/
def SetpointFields.wf (f : SetpointFields) : Bool :=
  [f.tset, f.hset, f.band, f.step, f.cap, f.rhband, f.tband, f.period, f.burst].all (optionally Int.writable)

/-- The home fields as written. -/
def HomeFields.wf (f : HomeFields) : Bool :=
  [f.bank, f.carriage, f.shelf, f.slot].all Int.writable && Text.word f.face

/-- The exposure fields as written. -/
def SummaryFields.wf (f : SummaryFields) : Bool :=
  [f.tmax, f.tmin, f.hmax, f.hmin, f.minutes].all (optionally Int.writable)

/-- The fields of ANSWER-QUERY as written. -/
def AnswerFields.wf (f : AnswerFields) : Bool :=
  optionally Text.listed f.items && optionally Text.word f.decline && optionally Int.writable f.validity && f.summary.wf

/-- The names of the settings catalogue (section 10.3). -/
def settingNames : List String :=
  ["CHANNEL", "CH-OFFSET", "CH-GAIN", "SCAN-PERIOD", "GROUP-TIMER", "DISAGREE-LIMIT", "ZONE-TSET", "ZONE-HSET",
   "ZONE-BAND", "ZONE-STEP", "ZONE-CAP", "ZONE-RHBAND", "ZONE-TBAND", "ZONE-PERIOD", "ZONE-BURST", "CLIMATE-MODE",
   "HOLD-KT", "HOLD-KH", "HOLD-MIN", "HOLD-MAX", "HATCH-ZONE", "UNLOCK-TIMEOUT", "OPEN-ALARM", "QUERY-WAIT",
   "REJECT-TIMEOUT", "COND-LIMIT", "STANDBY-TIME", "PURGE-BAND", "COND-MARGIN", "BANK-ZONE", "BANK-CARRIAGES",
   "BANK-PARK", "BANK-STEP", "DETECTOR", "DET-PREALARM", "DET-ALARM", "FIRE-COINCIDENCE", "FIRE-COUNTDOWN",
   "FIRE-SOAK", "FIRE-VENT", "LINE-RATE", "STATION-ADDRESS"]

/-- The attempts of one tray position: at most three in its turn, and one to three in a second reading (R92). -/
def TrayRead.wf (r : TrayRead) : Bool :=
  decide (r.first.length ≤ 3) && optionally (fun as => decide (1 ≤ as.length ∧ as.length ≤ 3)) r.again

/-- A command that can arrive. -/
def Instr.wf : Instr → Bool
  | .powerUp => true
  | .powerOff => true
  | .replyComplete => true
  | .lineGapTimeout => true
  | .lineBreak => true
  | .lineDiscarded => true
  | .badRequest f => optionally Text.fieldName f
  | .unknownRequest => true
  | .calibrate g => Int.writable g
  | .readChannel c => Int.writable c
  | .setSetpoints z f => Int.writable z && f.wf
  | .setClimateMode _ m z => Text.word m && optionally Int.writable z
  | .burst z => Int.writable z
  | .readZone z => Int.writable z
  | .addCartridge l m h => Text.word l && Text.word m && h.wf
  | .removeCartridge l => Text.word l
  | .readCartridge l => Text.word l
  | .listCartridges n k z => Int.writable n && optionally Text.word k && optionally Int.writable z
  | .setHome l h => Text.word l && h.wf
  | .markMissing l => Text.word l
  | .markFound l => Text.word l
  | .releaseHold l => Text.word l
  | .readStaging r => Int.writable r
  | .submitOutbound h c v is => [h, c, v].all Int.writable && Text.listed is
  | .submitInbound h c v is f => [h, c, v].all Int.writable && Text.listed is && f.wf
  | .guidePicks i => Int.writable i
  | .cancelManifest i => Int.writable i
  | .readManifest i n => Int.writable i && optionally Int.writable n
  | .listManifests n => optionally Int.writable n
  | .loadHatch h i => Int.writable h && Int.writable i
  | .answerQuery h a => Int.writable h && a.wf
  | .abortHandover h => Int.writable h
  | .releaseHatch h => Int.writable h
  | .clearStuck h sd => Int.writable h && Text.word sd
  | .fetchReceipt h n => Int.writable h && optionally Int.writable n
  | .clearReceipt h => Int.writable h
  | .readHatch h t => Int.writable h && optionally Int.writable t
  | .openAisle b k => Int.writable b && Int.writable k
  | .clearAisleQueue b => Int.writable b
  | .resetBank b => Int.writable b
  | .readBank b => Int.writable b
  | .setDetector l a e => Int.writable l && Int.writable a && Text.word e
  | .readDetector l a => Int.writable l && Int.writable a
  | .readLoop l n => Int.writable l && optionally Int.writable n
  | .startVent z => Int.writable z
  | .resetFireZone z => Int.writable z
  | .restoreAgent z => Int.writable z
  | .readFireZone z n => Int.writable z && optionally Int.writable n
  | .identify => true
  | .status => true
  | .readSetting n i l a => Text.word n && optionally Text.word i && optionally Int.writable l && optionally Int.writable a
  | .fetchReports m => optionally Int.writable m
  | .restart => true
  | .writeSettingChannel i k o g =>
    optionally Int.writable i && optionally Text.word k && optionally Text.word o && optionally Int.writable g
  | .writeSettingChOffset i v => optionally Int.writable i && optionally Int.writable v
  | .writeSettingChGain i v => optionally Int.writable i && optionally Int.writable v
  | .writeSettingScanPeriod i v => optionally Text.word i && optionally Int.writable v
  | .writeSettingGroupTimer i v => optionally Int.writable i && optionally Text.word v
  | .writeSettingDisagreeLimit i v => optionally Int.writable i && optionally Int.writable v
  | .writeSettingZoneClimate _ i v => optionally Int.writable i && optionally Int.writable v
  | .writeSettingClimateMode i v => optionally Int.writable i && optionally Text.word v
  | .writeSettingHoldKtKh _ i v => optionally Text.word i && optionally Int.writable v
  | .writeSettingHoldMin i v => optionally Text.word i && optionally Int.writable v
  | .writeSettingHoldMax i v => optionally Text.word i && optionally Int.writable v
  | .writeSettingHatchZone i v => optionally Int.writable i && optionally Int.writable v
  | .writeSettingHatchTiming _ i v => optionally Int.writable i && optionally Int.writable v
  | .writeSettingBankZone i v => optionally Int.writable i && optionally Int.writable v
  | .writeSettingBankCarriages i v => optionally Int.writable i && optionally Int.writable v
  | .writeSettingBankPark i v => optionally Int.writable i && optionally Int.writable v
  | .writeSettingBankStep i v => optionally Int.writable i && optionally Int.writable v
  | .writeSettingDetector l a z t =>
    optionally Int.writable l && optionally Int.writable a && optionally Int.writable z && optionally Text.word t
  | .writeSettingDetPrealarm i v => optionally Text.word i && optionally Int.writable v
  | .writeSettingDetAlarm i v => optionally Text.word i && optionally Int.writable v
  | .writeSettingFireCoincidence i v => optionally Int.writable i && optionally Int.writable v
  | .writeSettingFireTimes _ i v => optionally Int.writable i && optionally Int.writable v
  | .writeSettingLineRate i v => optionally Text.word i && optionally Text.word v
  | .writeSettingStationAddress i v => optionally Text.word i && optionally Int.writable v
  | .minuteIncrease => true
  | .holdEnded l => Text.label l
  | .manifestExpired i => decide (1 ≤ i ∧ i ≤ 65535)
  | .conditionTimeout _ => true
  | .scanTimerExpiry _ => true
  | .scanComplete _ _ => true
  | .calibrationComplete _ _ => true
  | .periodStart _ => true
  | .dutyOff _ _ => true
  | .burstTimerExpiry _ => true
  | .stagingLabelRecord _ _ => true
  | .stagingIndicatorTimeout _ => true
  | .repeatWindowEnd _ => true
  | .badgeRead _ c => optionally (fun n => decide (1 ≤ n ∧ n ≤ 999999)) c
  | .hatchIndicatorTimeout _ => true
  | .queryWaitExpiry _ => true
  | .shutterOpened _ _ => true
  | .shutterClosed _ _ => true
  | .shutterForced _ _ => true
  | .unlockTimerExpiry _ _ => true
  | .openAlarmExpiry _ _ => true
  | .closerClosed _ _ => true
  | .shutterNotSecured _ _ => true
  | .innerRequestButton _ => true
  | .trayPresenceChange _ _ _ => true
  | .trayScanEnd _ reads => reads.toList.all TrayRead.wf
  | .rejectClearTimerExpiry _ => true
  | .idleTimerExpiry _ => true
  | .blockTimerExpiry _ => true
  | .curtainClear _ _ => true
  | .curtainBroken _ _ => true
  | .homeSensorActive _ => true
  | .aisleSensorActive _ _ => true
  | .homingTimerExpiry _ => true
  | .travelTimerExpiry _ => true
  | .pollAnswered _ _ => true
  | .pollUnanswered _ => true
  | .alert _ as => decide as.Nodup
  | .roundEnd _ => true
  | .itemAbandoned _ => true
  | .abortStationChange _ _ => true
  | .isolateKeyChange _ _ => true
  | .dischargeConfirmChange _ _ => true
  | .countdownExpiry _ => true
  | .releasePulseExpiry _ => true
  | .confirmWaitExpiry _ => true
  | .soakExpiry _ => true
  | .ventExpiry _ => true
  | .characterReceived _ _ => true
  | .replyStart => true
  | .shutterCaught _ _ => true
  | .writeSettingUnknownName n => Text.word n && !settingNames.any fun m => m.toList == n

end Sys2Proof
end

