-- ==== Sys2Proof/Certificates/Slice0/Obligations.lean ====
section
/-!
DEFINITION. The statements for the provers. Each is about the commands and the whole part, never about a program; the
words they use (`Ready`, `heard`, `answered`, the laws of a safe state) stand in Safety.lean.
-/

section

open Sys2Proof Sys2Proof.Machine

/-! ### The step, the queue of commands, and power -/

/-- A step with a command at the front of the queue is that command's effect on the state with the queue's rest. With
no command waiting, a second of powered time passes: every running timer moves by a second, the line's gap runs while a
line is being collected, and nothing else changes, no expiry being taken; an unpowered part stands. That a step on an
empty queue is a second is the model's choice (log entry 7), and so is that a bank's arrival is past with it (log entry
8). -/
def Obligations.StepRunsTheFrontCommand : Prop :=
  (∀ (c : Instr) (rest : List Instr) (s : State), s.pending = c :: rest →
    step s = exec c { s with pending := rest }) ∧
  ∀ s : State, s.pending = [] →
    (s.powered = false → step s = .next s) ∧
    (s.powered = true → ∃ t, step s = .next t ∧ t.pending = [] ∧ t.choice = s.choice ∧ t.powered = true ∧
      t.store = s.store ∧ t.loop = s.loop ∧ t.reports = s.reports ∧ t.minute = s.minute ∧ t.seconds = s.seconds + 1 ∧
      t.front = { s.front with timers := s.front.timers.map fun n => n - 10 } ∧
      (∀ z : Zone, t.climate[z] = { s.climate[z] with
        elapsed := s.climate[z].elapsed.map fun n => n + 1, burst := s.climate[z].burst.map fun n => n - 1 }) ∧
      (∀ r : ReaderId, t.staging[r] = { s.staging[r] with
        since := s.staging[r].since + 1, window := s.staging[r].window.map fun n => n - 1
        left := s.staging[r].left.map fun n => n - 1 }) ∧
      (∀ (h : HatchId) (x : Hatch), x = s.hatch[h] → t.hatch[h] = { x with
        outer := { x.outer with
          unlock := x.outer.unlock.map fun n => n - 1, openAlarm := x.outer.openAlarm.map fun n => n - 1
          closerTimer := x.outer.closerTimer.map fun n => n - 1 }
        inner := { x.inner with
          unlock := x.inner.unlock.map fun n => n - 1, openAlarm := x.inner.openAlarm.map fun n => n - 1
          closerTimer := x.inner.closerTimer.map fun n => n - 1 }
        query := x.query.map fun q => { q with wait := q.wait - 1 }, rejectTimer := x.rejectTimer.map fun n => n - 1
        idle := x.idle.map fun n => n - 1, colourLeft := x.colourLeft.map fun n => n - 1 }) ∧
      (∀ b : BankId, t.bank[b] = { s.bank[b] with
        block := s.bank[b].block.map fun n => n - 1, homing := s.bank[b].homing.map fun n => n - 1
        moving := s.bank[b].moving.map fun n => n - 1, justArrived := false }) ∧
      (∀ (z : Zone) (x : FireZone), x = s.fire[z] → t.fire[z] = { x with
        countdown := match x.countdown with
          | .running n => .running (n - 1)
          | .frozen n => .frozen n
          | .stopped => .stopped
        pulse := x.pulse.map fun n => n - 1, confirmWait := x.confirmWait.map fun n => n - 1
        soak := x.soak.map fun n => n - 1, vent := x.vent.map fun n => n - 1 }) ∧
      t.line = if s.line.receiver = .hunt then s.line else { s.line with gap := s.line.gap + 10 })

/-- Every command of the block answers a next state in every state, and leaves the queue of waiting commands as it
was. That no command stops is the model's reading (log entry 5). -/
def Obligations.EveryCommandLeavesTheQueue : Prop :=
  ∀ (c : Instr) (s : State), ∃ t, exec c s = .next t ∧ t.pending = s.pending

/-- An unpowered part takes no command but POWER-UP and POWER-OFF (R205): a field input changes its own reading, and
any other command changes nothing. That field inputs go on changing is the model's choice (log entry 5). -/
def Obligations.UnpoweredPartTakesNothing : Prop :=
  ∀ (c : Instr) (s : State), s.powered = false → c ≠ .powerUp → c ≠ .powerOff →
    exec c s = .next (fieldReading c s)

/-- POWER-OFF loses everything that is not in the custody store (R205): the queue of reports, the minute counter, the
line, the staging ports, the channels' windows, each zone's values, dew point, excursions, duties and flags, each
hatch's phase, manifest, query, timers, colour and outputs, each bank's motion, position and queue, each loop's pass,
items, bus errors and detectors, and each fire zone's state and timers. That the field inputs keep their readings, and
the values the live state is left at (HOLD, a locked shutter, a value NOT-READY or INVALID), are the model's choice (log
entry 5). -/
def Obligations.PowerOffLosesWhatIsNotStored : Prop :=
  ∀ s : State, ∃ t, exec .powerOff s = .next t ∧ t.powered = false ∧ t.store = s.store ∧ t.reports = [] ∧
    t.minute = 0 ∧ t.seconds = 0 ∧ t.pending = s.pending ∧ t.choice = s.choice ∧
    t.line = { rate := s.store.rate, station := s.store.station } ∧ t.staging = Vector.replicate 4 {} ∧
    t.front = { timers := s.store.scanPeriod } ∧
    (∀ z : Zone, t.climate[z] = {
      rh := { value :=
        if ∃ c : Channel, s.store.channels[c].owner = .zone z ∧ s.store.channels[c].kind = .rh then .notReady
        else .invalid }
      temp := { value :=
        if ∃ c : Channel, s.store.channels[c].owner = .zone z ∧ s.store.channels[c].kind = .temp then .notReady
        else .invalid }
      dew := .invalid, outRh := false, outTemp := false, mode := .hold, dh := 0, hu := 0, dhOn := false, huOn := false
      period := s.store.climate[z].period, elapsed := some 0, burst := none, deferredBreak := false
      deferredBurst := false }) ∧
    (∀ h : HatchId, t.hatch[h] = {
      phase := .idle, outer := { sensorOpen := s.hatch[h].outer.sensorOpen }
      inner := { sensorOpen := s.hatch[h].inner.sensorOpen }, sensors := s.hatch[h].sensors
      tray := s.hatch[h].sensors.map fun occupied : Bool =>
        if occupied then { presence := .unreadable .notScanned } else {} }) ∧
    (∀ b : BankId, t.bank[b] = { curtains := s.bank[b].curtains, sensors := s.bank[b].sensors }) ∧
    t.loop = Vector.replicate 2 {} ∧
    (∀ z : Zone, t.fire[z] =
      { abortHeld := s.fire[z].abortHeld, isolateOn := s.fire[z].isolateOn,
        confirmActive := s.fire[z].confirmActive })

/-- POWER-UP of an unpowered part (R203): a new report queue with POWER-UP and stamp 0 at its head, the minute counter
at 0, the line, the front end and the staging ports afresh; each ACTIVE manifest that no hatch's record or receipt names
OPEN again with MANIFEST-RELEASED, and every other manifest as stored (R86); each zone in HOLD with its duties 0 (R20,
R41); each hatch in HELD-FIRE with its locks engaged, its class and tray those of its record where it holds one (R120,
R121), and its resume scan begun where its zone has left STARTING; every bank IDLE at an UNKNOWN position with its queue
empty (R138); each loop at its first enabled entry, its first pass complete where it has none (R155, R157); each fire
zone in STARTING while a detector of it is enabled, else in NORMAL (R162, R177). That the live tray is formed from the
sensors also where the hatch holds a record, whose tray is the one remembered, is the model's inference (log entry 16);
that no detector but the first polled keeps the level of an order is its choice (log entry 18). A powered part has no use
for it: nothing changes (log entry 5). -/
def Obligations.PowerUpStartsEveryBlock : Prop :=
  ∀ s : State,
    (s.powered = false → ∃ t, exec .powerUp s = .next t ∧ StartsAfresh .powerOn s t ∧
      ∀ m ∈ t.store.manifests, m.active = true →
        (∃ r : Handover, s.store.handover[m.hatch] = some r ∧ r.manifest = m.id) ∨
        (∃ r : Receipt, s.store.receipt[m.hatch] = some r ∧ r.manifest = m.id)) ∧
    (s.powered = true → exec .powerUp s = .next s)

/-! ### The laws of a safe state, kept by every step -/

/-- Reset leaves a safe state. That the factory part has just been powered up, with its inputs at rest, is the model's
reading of reset (log entry 6). -/
def Obligations.ResetIsSafe : Prop := Safe State.reset

/-- Every step keeps the law of the report queue: 64 entries at most, at most one LOST marker, which is the newest
(R194). -/
def Obligations.StepKeepsTheQueueLaw : Prop :=
  ∀ s t : State, QueueLaw s.reports → step s = .next t → QueueLaw t.reports

/-- Every step keeps one lock of each hatch engaged: its two shutters are never unlocked or open at the same time
(R88). -/
def Obligations.StepKeepsOneShutterLocked : Prop :=
  ∀ s t : State, (∀ h : HatchId, s.hatch[h].oneLocked) → step s = .next t → ∀ h : HatchId, t.hatch[h].oneLocked

/-- A shutter's lock is released only while the other shutter is LOCKED with its sensor CLOSED and the hatch's zone
stands outside the fire hold set (R88). -/
def Obligations.LockReleasedOnlyWhenSafe : Prop :=
  ∀ (s t : State) (h : HatchId) (sd : Side), step s = .next t → (s.hatch[h].shutter sd).locked = true →
    (t.hatch[h].shutter sd).locked = false →
    (t.hatch[h].shutter (otherSide sd)).secured = true ∧ t.held (t.hatchZone h) = false

/-- Every step keeps the duties of a zone in ECONOMY at or below its cap (R31). -/
def Obligations.StepKeepsTheEconomyCap : Prop :=
  ∀ s t : State, CapLaw s → step s = .next t → CapLaw t

/-- Every step keeps a fire zone's outputs and timers tied to its fire state (R160, R167 to R172). -/
def Obligations.StepKeepsTheFireLaw : Prop :=
  ∀ s t : State, (∀ z : Zone, FireLaw s.fire[z]) → step s = .next t → ∀ z : Zone, FireLaw t.fire[z]

/-- The agent release output of a zone is energised by nothing but the expiry of its countdown, running in
PREDISCHARGE on a powered part (R160, R168). -/
def Obligations.OnlyTheCountdownReleasesAgent : Prop :=
  ∀ (c : Instr) (s t : State) (z : Zone), exec c s = .next t → s.fire[z].releaseOut = false →
    t.fire[z].releaseOut = true →
    c = .countdownExpiry z ∧ s.powered = true ∧ s.fire[z].state = .predischarge ∧
      ∃ n, s.fire[z].countdown = .running n

/-- Every step keeps a bank's drive tied to its motion state, and its queue at 8 targets at most with none twice
(R124, R125, R131). -/
def Obligations.StepKeepsTheBankLaw : Prop :=
  ∀ s t : State, (∀ b : BankId, BankLaw s.bank[b]) → step s = .next t → ∀ b : BankId, BankLaw t.bank[b]

/-- Every step keeps the custody table in ascending order of label, with no home twice and 2048 records at most
(R44). -/
def Obligations.StepKeepsTheCustodyTable : Prop :=
  ∀ s t : State, TableLaw s.store.cartridges → step s = .next t → TableLaw t.store.cartridges

/-! ### The host line (chapter 9) -/

/-- The receiver's moves in HUNT and ADDRESS (R179, R180): an `@` begins a line, two digits name the station, all
stations or another one, and anything else sends it back to HUNT; a character that comes 100 ms or more after the one
before it finds the line abandoned and is taken in HUNT. That an `@` begins a line from every receiver state, in COLLECT
as the 513th character too, where R180 and R179 meet, is log entry 22 (DEDUCED). -/
def Obligations.ReceiverTakesTheAddress : Prop :=
  ∀ (s : State) (b : Byte), s.powered = true → s.line.driving = false →
    (s.line.receiver = .hunt → b ≠ 0x40 → ∀ e, exec (.characterReceived b e) s = .next s) ∧
    (s.line.receiver = .hunt → exec (.characterReceived b true) s = .next s) ∧
    (exec (.characterReceived 0x40 false) s =
      .next { s with line := { s.line with receiver := .address, buffer := [0x40], gap := 0 } }) ∧
    (s.line.receiver = .address → exec (.characterReceived b true) s = .next s.heard) ∧
    (s.line.receiver = .address → b ≠ 0x40 → (b.toNat < 48 ∨ 57 < b.toNat) →
      exec (.characterReceived b false) s = .next s.heard) ∧
    (s.line.receiver ≠ .hunt → 1 ≤ s.line.gap → b ≠ 0x40 → ∀ e, exec (.characterReceived b e) s = .next s.heard) ∧
    (s.line.receiver = .address → s.line.gap = 0 → s.line.buffer = [0x40] → 48 ≤ b.toNat → b.toNat ≤ 57 →
      exec (.characterReceived b false) s =
        .next { s with line := { s.line with buffer := [0x40, b], gap := 0 } }) ∧
    (∀ d : Byte, s.line.receiver = .address → s.line.gap = 0 → s.line.buffer = [0x40, d] → 48 ≤ d.toNat → d.toNat ≤ 57 →
      48 ≤ b.toNat → b.toNat ≤ 57 →
      exec (.characterReceived b false) s = .next { s with line := { s.line with
        buffer := [0x40, d, b], gap := 0
        receiver :=
          if 10 * (d.toNat - 48) + (b.toNat - 48) = s.line.station then .collect .station
          else if 10 * (d.toNat - 48) + (b.toNat - 48) = 0 then .collect .broadcast
          else .hunt } })

/-- The receiver's moves in COLLECT but for the carriage return (R179, R180): a printable character is stored, an `@`
begins a new line, an error, a code below space or above tilde or a 513th character abandons the line. That an `@`
begins a new line as the 513th character too is the model's inference, and that the codes 80 to FF hex abandon the line
is its choice (log entry 22). -/
def Obligations.ReceiverCollectsTheLine : Prop :=
  ∀ (s : State) (b : Byte) (g : Target), s.powered = true → s.line.driving = false → s.line.receiver = .collect g →
    (s.line.gap = 0 → s.line.buffer.length < 512 → 0x20 ≤ b.toNat → b.toNat ≤ 0x7E → b ≠ 0x40 →
      exec (.characterReceived b false) s =
        .next { s with line := { s.line with buffer := s.line.buffer ++ [b], gap := 0 } }) ∧
    (exec (.characterReceived 0x40 false) s =
      .next { s with line := { s.line with receiver := .address, buffer := [0x40], gap := 0 } }) ∧
    (exec (.characterReceived b true) s = .next s.heard) ∧
    ((b.toNat < 0x20 ∨ 0x7E < b.toNat) → b ≠ 0x0D → exec (.characterReceived b false) s = .next s.heard) ∧
    (512 ≤ s.line.buffer.length → b ≠ 0x40 → exec (.characterReceived b false) s = .next s.heard)

/-- A line being collected is abandoned silently by a break or by 100 ms with no character, and a completed line that
is discarded leaves nothing but the receiver in HUNT (R180 to R182); while the part drives the pair it hears none of
them (R181, R185). -/
def Obligations.LineAbandonedSilently : Prop :=
  ∀ s : State, s.powered = true →
    (s.line.driving = false → exec .lineBreak s = .next s.heard) ∧
    (s.line.driving = false → s.line.receiver ≠ .hunt →
      exec .lineGapTimeout s = .next { s.heard with line := { s.heard.line with gap := 0 } }) ∧
    (s.line.driving = false → s.line.receiver = .hunt → exec .lineGapTimeout s = .next s) ∧
    (s.line.driving = false → exec .lineDiscarded s = .next s.heard) ∧
    (s.line.driving = true → exec .lineBreak s = .next s ∧ exec .lineGapTimeout s = .next s ∧
      exec .lineDiscarded s = .next s ∧ ∀ b e, exec (.characterReceived b e) s = .next s)

/-- The carriage return of a line, in time (R180, R182 to R184). For the station: a line whose frame or check is wrong
is discarded, a good one that spells a command runs that command, and one with a fault of form runs BAD_REQUEST or
UNKNOWN_REQUEST. A broadcast line runs SET-CLIMATE-MODE alone, and any other is discarded. A line is good where a star
and four hexadecimal digits that are the CRC of what stands before the star close it; that its last six characters
count the carriage return is log entry 14. A good line must hold a space, then a head of 1 to 24 capitals, digits and
hyphens that ends there or at a space, else the fault is LINE; a head that names no request is UNKNOWN-REQUEST; the
fields are taken in the order of the line, the first at fault giving its name, or LINE where it leaves none, one that
the request does not take, a repeated one, or a value that is empty, malformed, no number or a list with an empty
element being at fault; then the first required field that is missing is. Each request has the fields of its row in
section 9.5 and makes its command of them, those of READ-SETTING and WRITE-SETTING by the setting named. That a
malformed name gives LINE, and so does a token with no equals sign, that a fault in the line goes before a missing field,
and that of several missing ones the first in the order written here is named, are the model's choices (log entry 22);
that a setting's name gives the fields and their types is its inference (log entry 22). -/
def Obligations.CompletedLineRunsItsCommand : Prop :=
  ∀ s u : State, s.powered = true → s.line.driving = false →
    s.line.gap = 0 → s.line.buffer.length < 512 →
    u = { s with line := { s.line with buffer := s.line.buffer ++ [0x0D], gap := 0 } } →
    (s.line.receiver = .collect .station → match goodLine (s.line.buffer ++ [0x0D]) with
      | none => exec (.characterReceived 0x0D false) s = .next u.heard
      | some checked =>
        match lineParsed checked with
        | .instr i => (requestOf i).isSome = true ∧ exec (.characterReceived 0x0D false) s = exec i u
        | .badRequest f => exec (.characterReceived 0x0D false) s = exec (.badRequest (some f)) u
        | .unknown => exec (.characterReceived 0x0D false) s = exec .unknownRequest u) ∧
    (s.line.receiver = .collect .broadcast →
      (goodLine (s.line.buffer ++ [0x0D]) = none → exec (.characterReceived 0x0D false) s = .next u.heard) ∧
      (∀ checked : List Byte, goodLine (s.line.buffer ++ [0x0D]) = some checked →
        (∀ (b : Bool) (mode : Text) (zone : Option Int), lineParsed checked = .instr (.setClimateMode b mode zone) →
          exec (.characterReceived 0x0D false) s = exec (.setClimateMode true mode zone) u) ∧
        ((∀ (b : Bool) (mode : Text) (zone : Option Int), lineParsed checked ≠ .instr (.setClimateMode b mode zone)) →
          exec (.characterReceived 0x0D false) s = .next u.heard))) ∧
    (∀ line checked : List Byte, goodLine line = some checked ↔
      ∃ (first last : Byte) (digits : List Byte) (vs : List Nat),
        line = first :: (checked ++ 0x2A :: digits) ++ [last] ∧ digits.length = 4 ∧
        digits.map hexValue = vs.map some ∧ (crc16 checked).toNat = vs.foldl (fun n v => 16 * n + v) 0) ∧
    (∀ (b : Byte) (v : Nat), hexValue b = some v ↔
      48 ≤ b.toNat ∧ b.toNat ≤ 57 ∧ v + 48 = b.toNat ∨ 65 ≤ b.toNat ∧ b.toNat ≤ 70 ∧ v + 55 = b.toNat ∨
        97 ≤ b.toNat ∧ b.toNat ≤ 102 ∧ v + 87 = b.toNat) ∧
    (∀ (d e : Byte) (rest : List Byte), (rest.map charOf).head? ≠ some ' ' →
      lineParsed (d :: e :: rest) = .badRequest "LINE".toList) ∧
    (∀ (d e : Byte) (rest : List Byte) (head tail : Text) (c : Char), rest.map charOf = ' ' :: head ++ c :: tail →
      (∀ q ∈ head, (65 ≤ q.toNat ∧ q.toNat ≤ 90) ∨ (48 ≤ q.toNat ∧ q.toNat ≤ 57) ∨ q = '-') → c ≠ ' ' →
      ¬((65 ≤ c.toNat ∧ c.toNat ≤ 90) ∨ (48 ≤ c.toNat ∧ c.toNat ≤ 57) ∨ c = '-') →
      lineParsed (d :: e :: rest) = .badRequest "LINE".toList) ∧
    (∀ (d e : Byte) (rest : List Byte) (head tail : Text) (raw : List Text),
      rest.map charOf = ' ' :: head ++ tail →
      (∀ c ∈ head, (65 ≤ c.toNat ∧ c.toNat ≤ 90) ∨ (48 ≤ c.toNat ∧ c.toNat ≤ 57) ∨ c = '-') →
      (tail = [] ∧ raw = [] ∨ ∃ t : Text, tail = ' ' :: t ∧ raw = splitText ' ' t) →
      ((head = [] ∨ 24 < head.length) → lineParsed (d :: e :: rest) = .badRequest "LINE".toList) ∧
      (head ≠ [] → head.length ≤ 24 →
        (specOf head raw = none ↔ head ∉ [
          "CALIBRATE", "READ-CHANNEL", "SET-SETPOINTS", "SET-CLIMATE-MODE", "BURST", "READ-ZONE", "ADD-CARTRIDGE",
          "REMOVE-CARTRIDGE", "READ-CARTRIDGE", "LIST-CARTRIDGES", "SET-HOME", "MARK-MISSING", "MARK-FOUND",
          "RELEASE-HOLD", "READ-STAGING", "SUBMIT-OUTBOUND", "SUBMIT-INBOUND", "GUIDE-PICKS", "CANCEL-MANIFEST",
          "READ-MANIFEST", "LIST-MANIFESTS", "LOAD-HATCH", "ANSWER-QUERY", "ABORT-HANDOVER", "RELEASE-HATCH",
          "CLEAR-STUCK", "FETCH-RECEIPT", "CLEAR-RECEIPT", "READ-HATCH", "OPEN-AISLE", "CLEAR-AISLE-QUEUE",
          "RESET-BANK", "READ-BANK", "SET-DETECTOR", "READ-DETECTOR", "READ-LOOP", "START-VENT", "RESET-FIRE-ZONE",
          "RESTORE-AGENT", "READ-FIRE-ZONE", "IDENTIFY", "STATUS", "READ-SETTING", "WRITE-SETTING", "FETCH-REPORTS",
          "RESTART"].map String.toList) ∧
        (specOf head raw = none → lineParsed (d :: e :: rest) = .unknown) ∧
        (∀ spec : RequestSpec, specOf head raw = some spec →
          (∀ f : Text, readFields spec.fields [] raw = .error f → lineParsed (d :: e :: rest) = .badRequest f) ∧
          (∀ fs : Fields, readFields spec.fields [] raw = .ok fs →
            (∀ q : FieldSpec, (spec.fields.find? fun q => q.required && (fieldOf fs q.name).isNone) = some q →
              lineParsed (d :: e :: rest) = .badRequest q.name.toList) ∧
            ((∀ q ∈ spec.fields, q.required = true → (fieldOf fs q.name).isSome = true) →
              lineParsed (d :: e :: rest) = .instr (spec.build fs)))))) ∧
    (∀ (specs : List FieldSpec) (seen : List Text) (t : Text) (ts : List Text),
      readFields specs seen [] = .ok [] ∧
      (rawField t = none → readFields specs seen (t :: ts) = .error "LINE".toList) ∧
      (∀ name v : Text, rawField t = some (name, v) →
        ((∀ q ∈ specs, q.name.toList ≠ name) → readFields specs seen (t :: ts) = .error name) ∧
        (∀ q : FieldSpec, (specs.find? fun q => q.name.toList == name) = some q →
          ((name ∈ seen ∨ readValue q.type v = none) → readFields specs seen (t :: ts) = .error name) ∧
          (∀ x : FieldValue, name ∉ seen → readValue q.type v = some x →
            (∀ f : Text, readFields specs (name :: seen) ts = .error f → readFields specs seen (t :: ts) = .error f) ∧
            (∀ fs : Fields, readFields specs (name :: seen) ts = .ok fs →
              readFields specs seen (t :: ts) = .ok ((name, x) :: fs)))))) ∧
    (∀ t name v : Text, rawField t = some (name, v) ↔ t = name ++ '=' :: v ∧ name ≠ [] ∧ name.length ≤ 12 ∧
      ∀ c ∈ name, (97 ≤ c.toNat ∧ c.toNat ≤ 122) ∨ (48 ≤ c.toNat ∧ c.toNat ≤ 57)) ∧
    (∀ (k : FieldType) (v : Text),
      (v = [] ∨ (∃ c ∈ v, ¬((65 ≤ c.toNat ∧ c.toNat ≤ 90) ∨ (48 ≤ c.toNat ∧ c.toNat ≤ 57) ∨ c = '-' ∨ c = ',')) →
        readValue k v = none) ∧
      (v ≠ [] → (∀ c ∈ v, (65 ≤ c.toNat ∧ c.toNat ≤ 90) ∨ (48 ≤ c.toNat ∧ c.toNat ≤ 57) ∨ c = '-' ∨ c = ',') →
        readValue .num v = (numberOf v).map FieldValue.num ∧ readValue .word v = some (.word v) ∧
        readValue .list v = if [] ∈ splitText ',' v then none else some (.list (splitText ',' v)))) ∧
    (∀ (fs : Fields) (name : String),
      fieldOf [] name = none ∧
      (∀ (t : Text) (v : FieldValue), fieldOf ((t, v) :: fs) name = if t = name.toList then some v else fieldOf fs name) ∧
      (fieldOf fs name = none → optNum fs name = none ∧ optWord fs name = none ∧ optList fs name = none) ∧
      (∀ k : Int, fieldOf fs name = some (.num k) → optNum fs name = some k ∧ numF fs name = k) ∧
      (∀ w : Text, fieldOf fs name = some (.word w) → optWord fs name = some w ∧ wordF fs name = w) ∧
      (∀ l : List Text, fieldOf fs name = some (.list l) → optList fs name = some l ∧ listF fs name = l)) ∧
    (∀ (raw : List Text) (exposure home : List FieldSpec) (given : Fields → SummaryFields)
        (place : Fields → HomeFields),
      exposure = (["tmax", "tmin", "hmax", "hmin", "minutes"].map fun n => { name := n, type := .num, required := false }) →
      home = [{ name := "bank", type := .num }, { name := "carriage", type := .num }, { name := "face", type := .word },
        { name := "shelf", type := .num }, { name := "slot", type := .num }] →
      given = (fun f => { tmax := optNum f "tmax", tmin := optNum f "tmin", hmax := optNum f "hmax"
                          hmin := optNum f "hmin", minutes := optNum f "minutes" }) →
      place = (fun f => { bank := numF f "bank", carriage := numF f "carriage", face := wordF f "face"
                          shelf := numF f "shelf", slot := numF f "slot" }) →
      (∀ q ∈ ([("CALIBRATE", "group", .calibrate), ("READ-CHANNEL", "channel", .readChannel), ("BURST", "zone", .burst),
          ("READ-ZONE", "zone", .readZone), ("READ-STAGING", "reader", .readStaging), ("GUIDE-PICKS", "id", .guidePicks),
          ("CANCEL-MANIFEST", "id", .cancelManifest), ("ABORT-HANDOVER", "hatch", .abortHandover),
          ("RELEASE-HATCH", "hatch", .releaseHatch), ("CLEAR-RECEIPT", "hatch", .clearReceipt),
          ("CLEAR-AISLE-QUEUE", "bank", .clearAisleQueue), ("RESET-BANK", "bank", .resetBank),
          ("READ-BANK", "bank", .readBank), ("START-VENT", "zone", .startVent), ("RESET-FIRE-ZONE", "zone", .resetFireZone),
          ("RESTORE-AGENT", "zone", .restoreAgent)] : List (String × String × (Int → Instr))),
        specOf q.1.toList raw = some {
          fields := [{ name := q.2.1, type := .num }], build := fun f => q.2.2 (numF f q.2.1) }) ∧
      (∀ q ∈ ([("REMOVE-CARTRIDGE", .removeCartridge), ("READ-CARTRIDGE", .readCartridge), ("MARK-MISSING", .markMissing),
          ("MARK-FOUND", .markFound), ("RELEASE-HOLD", .releaseHold)] : List (String × (Text → Instr))),
        specOf q.1.toList raw = some {
          fields := [{ name := "label", type := .word }], build := fun f => q.2 (wordF f "label") }) ∧
      (∀ q ∈ ([("LOAD-HATCH", "hatch", "id", .loadHatch), ("OPEN-AISLE", "bank", "aisle", .openAisle),
          ("READ-DETECTOR", "loop", "address", .readDetector)] : List (String × String × String × (Int → Int → Instr))),
        specOf q.1.toList raw = some {
          fields := [{ name := q.2.1, type := .num }, { name := q.2.2.1, type := .num }]
          build := fun f => q.2.2.2 (numF f q.2.1) (numF f q.2.2.1) }) ∧
      (∀ q ∈ ([("READ-MANIFEST", "id", "start", .readManifest), ("FETCH-RECEIPT", "hatch", "start", .fetchReceipt),
          ("READ-HATCH", "hatch", "tray", .readHatch), ("READ-LOOP", "loop", "start", .readLoop),
          ("READ-FIRE-ZONE", "zone", "start", .readFireZone)] :
            List (String × String × String × (Int → Option Int → Instr))),
        specOf q.1.toList raw = some {
          fields := [{ name := q.2.1, type := .num }, { name := q.2.2.1, type := .num, required := false }]
          build := fun f => q.2.2.2 (numF f q.2.1) (optNum f q.2.2.1) }) ∧
      (∀ q ∈ ([("LIST-MANIFESTS", "start", .listManifests), ("FETCH-REPORTS", "max", .fetchReports)] :
          List (String × String × (Option Int → Instr))),
        specOf q.1.toList raw = some {
          fields := [{ name := q.2.1, type := .num, required := false }], build := fun f => q.2.2 (optNum f q.2.1) }) ∧
      (∀ q ∈ ([("IDENTIFY", .identify), ("STATUS", .status), ("RESTART", .restart)] : List (String × Instr)),
        specOf q.1.toList raw = some { fields := [], build := fun _ => q.2 }) ∧
      specOf "SET-SETPOINTS".toList raw = some {
        fields := { name := "zone", type := .num } ::
          ["tset", "hset", "band", "step", "cap", "rhband", "tband", "period", "burst"].map fun n =>
            { name := n, type := .num, required := false }
        build := fun f => .setSetpoints (numF f "zone") {
          tset := optNum f "tset", hset := optNum f "hset", band := optNum f "band", step := optNum f "step"
          cap := optNum f "cap", rhband := optNum f "rhband", tband := optNum f "tband", period := optNum f "period"
          burst := optNum f "burst" } } ∧
      specOf "SET-CLIMATE-MODE".toList raw = some {
        fields := [{ name := "mode", type := .word }, { name := "zone", type := .num, required := false }]
        build := fun f => .setClimateMode false (wordF f "mode") (optNum f "zone") } ∧
      specOf "ADD-CARTRIDGE".toList raw = some {
        fields := { name := "label", type := .word } :: { name := "media", type := .word } :: home
        build := fun f => .addCartridge (wordF f "label") (wordF f "media") (place f) } ∧
      specOf "SET-HOME".toList raw = some {
        fields := { name := "label", type := .word } :: home, build := fun f => .setHome (wordF f "label") (place f) } ∧
      specOf "LIST-CARTRIDGES".toList raw = some {
        fields := [{ name := "start", type := .num }, { name := "state", type := .word, required := false },
          { name := "zone", type := .num, required := false }]
        build := fun f => .listCartridges (numF f "start") (optWord f "state") (optNum f "zone") } ∧
      specOf "SUBMIT-OUTBOUND".toList raw = some {
        fields := [{ name := "hatch", type := .num }, { name := "courier", type := .num },
          { name := "validity", type := .num }, { name := "items", type := .list }]
        build := fun f =>
          .submitOutbound (numF f "hatch") (numF f "courier") (numF f "validity") (listF f "items") } ∧
      specOf "SUBMIT-INBOUND".toList raw = some {
        fields := { name := "hatch", type := .num } :: { name := "courier", type := .num } ::
          { name := "validity", type := .num } :: { name := "items", type := .list } :: exposure
        build := fun f =>
          .submitInbound (numF f "hatch") (numF f "courier") (numF f "validity") (listF f "items") (given f) } ∧
      specOf "ANSWER-QUERY".toList raw = some {
        fields := { name := "hatch", type := .num } :: { name := "items", type := .list, required := false } ::
          { name := "decline", type := .word, required := false } ::
          { name := "validity", type := .num, required := false } :: exposure
        build := fun f => .answerQuery (numF f "hatch") {
          items := optList f "items", decline := optWord f "decline", validity := optNum f "validity"
          summary := given f } } ∧
      specOf "CLEAR-STUCK".toList raw = some {
        fields := [{ name := "hatch", type := .num }, { name := "side", type := .word }]
        build := fun f => .clearStuck (numF f "hatch") (wordF f "side") } ∧
      specOf "SET-DETECTOR".toList raw = some {
        fields := [{ name := "loop", type := .num }, { name := "address", type := .num },
          { name := "enabled", type := .word }]
        build := fun f => .setDetector (numF f "loop") (numF f "address") (wordF f "enabled") }) ∧
    (∀ (raw : List Text) (t : Text), settingNamed [] = [] ∧
      settingNamed (t :: raw) = match rawField t with
        | some (n, v) => if n = "name".toList then v else settingNamed raw
        | none => settingNamed raw) ∧
    (∀ (raw : List Text) (sets : String → List FieldSpec → (Fields → Instr) → Prop)
        (num word : String → FieldSpec),
      num = (fun n => { name := n, type := .num, required := false }) →
      word = (fun n => { name := n, type := .word, required := false }) →
      sets = (fun n fs mk => settingNamed raw = n.toList → specOf "WRITE-SETTING".toList raw =
        some { fields := { name := "name", type := .word } :: fs, build := mk }) →
      (∀ q ∈ ([("CH-OFFSET", .writeSettingChOffset), ("CH-GAIN", .writeSettingChGain),
          ("DISAGREE-LIMIT", .writeSettingDisagreeLimit), ("ZONE-TSET", .writeSettingZoneClimate .tset),
          ("ZONE-HSET", .writeSettingZoneClimate .hset), ("ZONE-BAND", .writeSettingZoneClimate .band),
          ("ZONE-STEP", .writeSettingZoneClimate .step), ("ZONE-CAP", .writeSettingZoneClimate .cap),
          ("ZONE-RHBAND", .writeSettingZoneClimate .rhband), ("ZONE-TBAND", .writeSettingZoneClimate .tband),
          ("ZONE-PERIOD", .writeSettingZoneClimate .period), ("ZONE-BURST", .writeSettingZoneClimate .burst),
          ("HATCH-ZONE", .writeSettingHatchZone), ("UNLOCK-TIMEOUT", .writeSettingHatchTiming .unlockTimeout),
          ("OPEN-ALARM", .writeSettingHatchTiming .openAlarm), ("QUERY-WAIT", .writeSettingHatchTiming .queryWait),
          ("REJECT-TIMEOUT", .writeSettingHatchTiming .rejectTimeout),
          ("COND-LIMIT", .writeSettingHatchTiming .condLimit), ("STANDBY-TIME", .writeSettingHatchTiming .standbyTime),
          ("PURGE-BAND", .writeSettingHatchTiming .purgeBand), ("COND-MARGIN", .writeSettingHatchTiming .condMargin),
          ("BANK-ZONE", .writeSettingBankZone), ("BANK-CARRIAGES", .writeSettingBankCarriages),
          ("BANK-PARK", .writeSettingBankPark), ("BANK-STEP", .writeSettingBankStep),
          ("FIRE-COINCIDENCE", .writeSettingFireCoincidence), ("FIRE-COUNTDOWN", .writeSettingFireTimes .countdown),
          ("FIRE-SOAK", .writeSettingFireTimes .soak), ("FIRE-VENT", .writeSettingFireTimes .vent)] :
            List (String × (Option Int → Option Int → Instr))),
        sets q.1 [num "index", num "value"] fun f => q.2 (optNum f "index") (optNum f "value")) ∧
      (∀ q ∈ ([("SCAN-PERIOD", .writeSettingScanPeriod), ("HOLD-KT", .writeSettingHoldKtKh .kT),
          ("HOLD-KH", .writeSettingHoldKtKh .kH), ("HOLD-MIN", .writeSettingHoldMin), ("HOLD-MAX", .writeSettingHoldMax),
          ("DET-PREALARM", .writeSettingDetPrealarm), ("DET-ALARM", .writeSettingDetAlarm),
          ("STATION-ADDRESS", .writeSettingStationAddress)] : List (String × (Option Text → Option Int → Instr))),
        sets q.1 [word "index", num "value"] fun f => q.2 (optWord f "index") (optNum f "value")) ∧
      (∀ q ∈ ([("GROUP-TIMER", .writeSettingGroupTimer), ("CLIMATE-MODE", .writeSettingClimateMode)] :
          List (String × (Option Int → Option Text → Instr))),
        sets q.1 [num "index", word "value"] fun f => q.2 (optNum f "index") (optWord f "value")) ∧
      sets "LINE-RATE" [word "index", word "value"]
        (fun f => .writeSettingLineRate (optWord f "index") (optWord f "value")) ∧
      sets "CHANNEL" [num "index", word "kind", word "owner", num "group"]
        (fun f => .writeSettingChannel (optNum f "index") (optWord f "kind") (optWord f "owner") (optNum f "group")) ∧
      sets "DETECTOR" [num "loop", num "address", num "zone", word "type"]
        (fun f => .writeSettingDetector (optNum f "loop") (optNum f "address") (optNum f "zone") (optWord f "type")) ∧
      (wordOf catalogue (settingNamed raw) = none → specOf "WRITE-SETTING".toList raw = some {
        fields := { name := "name", type := .word } :: [word "index", word "value", word "kind", word "owner",
          num "group", num "loop", num "address", num "zone", word "type"]
        build := fun _ => .writeSettingUnknownName (settingNamed raw) }) ∧
      (∀ (name : Text) (reads : List FieldSpec → (Fields → Instr) → Prop), name = settingNamed raw →
        reads = (fun fs mk => specOf "READ-SETTING".toList raw =
          some { fields := { name := "name", type := .word } :: fs, build := mk }) →
        (name = "DETECTOR".toList → reads [num "loop", num "address"] fun f =>
          .readSetting name none (optNum f "loop") (optNum f "address")) ∧
        (name ∈ ["SCAN-PERIOD", "HOLD-KT", "HOLD-KH", "HOLD-MIN", "HOLD-MAX", "DET-PREALARM", "DET-ALARM", "LINE-RATE",
            "STATION-ADDRESS"].map String.toList →
          reads [word "index"] fun f => .readSetting name (optWord f "index") none none) ∧
        (name ∈ ["CHANNEL", "CH-OFFSET", "CH-GAIN", "GROUP-TIMER", "DISAGREE-LIMIT", "ZONE-TSET", "ZONE-HSET", "ZONE-BAND",
            "ZONE-STEP", "ZONE-CAP", "ZONE-RHBAND", "ZONE-TBAND", "ZONE-PERIOD", "ZONE-BURST", "CLIMATE-MODE", "HATCH-ZONE",
            "UNLOCK-TIMEOUT", "OPEN-ALARM", "QUERY-WAIT", "REJECT-TIMEOUT", "COND-LIMIT", "STANDBY-TIME", "PURGE-BAND",
            "COND-MARGIN", "BANK-ZONE", "BANK-CARRIAGES", "BANK-PARK", "BANK-STEP", "FIRE-COINCIDENCE", "FIRE-COUNTDOWN",
            "FIRE-SOAK", "FIRE-VENT"].map String.toList →
          reads [num "index"] fun f => .readSetting name ((optNum f "index").map intText) none none) ∧
        (wordOf catalogue name = none → reads [word "index", num "loop", num "address"] fun f =>
          .readSetting name (optWord f "index") (optNum f "loop") (optNum f "address"))))

/-- A line that the receiver completes while a reply is OWED is discarded with no effect on any block, and while the
reply is SENDING nothing is heard (R184, R185). This is where a request waits or is lost, for every request. -/
def Obligations.RequestFindsAReplyStanding : Prop :=
  ∀ (c : Instr) (r : Request) (q : Reply) (s : State), s.powered = true → requestOf c = some r →
    (s.line.reply = .owed q → exec c s = .next s.heard) ∧ (s.line.reply = .sending q → exec c s = .next s)

/-- A good line with a fault of form is taken and answered (R183, R199): BAD-REQUEST with the field at fault or
`field=LINE`, UNKNOWN-REQUEST for a head that is no request name, BAD-VALUE for a setting name outside the
catalogue. -/
def Obligations.FaultOfFormIsAnswered : Prop :=
  ∀ s : State, Ready s →
    (∀ f : Text, exec (.badRequest (some f)) s =
      .next (s.replied { word := .badRequest, body := .badField f })) ∧
    (exec (.badRequest none) s = .next (s.replied { word := .badRequest, body := .badField "LINE".toList })) ∧
    (exec .unknownRequest s = .next (s.repliedWord .unknownRequest)) ∧
    (∀ name : Text, exec (.writeSettingUnknownName name) s = .next (s.repliedWord .badValue))

/-- A reply leaves (R178, R185, R186): with its first character the part drives the pair and stops listening; once its
carriage return has left, no reply stands, the pair is released, and the stored rate and address are in force. The
line is its mark, its content and its check, and its content the address, the status word and the fields. The fields
are those of the body: single values, absent ones as a hyphen, and records in lists as R74, R78, R85, R113, R119, R156
and R176 give them, one field each with its parts between slashes, the place of the next page last. The refusal of a
submission of 24 items keeps to 1024 characters (R186). The model's free values (log entry 3) are the reason of a refusal
whose rule names none and the names of the fields that no rule names. Its choices there are the order of the fields,
with the place of the level and the ID, the number of fields a value of several parts takes (READ-LOOP's item in
progress takes two), and the words no rule spells, PRIORITY-POLL apart from ROUND among them. -/
def Obligations.ReplyLeavesTheLine : Prop :=
  ∀ (s : State) (q : Reply), s.powered = true →
    (s.line.reply = .owed q → exec .replyStart s = .next { s with
      line := { s.line with
        reply := .sending q, driving := true, receiver := .hunt, outgoing := replyLine s.choice q }
      choice := if q.answer.word = .refused ∧ namesNoReason q.answer.body = true then s.choice + 1 else s.choice }) ∧
    (s.line.reply = .sending q → s.line.restartDue = false → exec .replyComplete s = .next { s with
      line := { s.line with
        reply := .none, driving := false, receiver := .hunt, outgoing := [], rate := s.store.rate
        station := s.store.station } }) ∧
    (∀ n : Nat, ∃ content : Text, replyLine n q =
        '#' :: content ++ '*' :: hexText (crc16 (content.map byteOf)) ++ ['\r'] ∧
      content = twoDigits q.station ++ ' ' :: textIn statusWords q.answer.word ++
        ((answerFields n q.answer).map fun f => ' ' :: f).flatten ∧
      (q.station ≤ 99 → (textIn statusWords q.answer.word).length +
        ((answerFields n q.answer).map fun f => f.length + 1).sum ≤ 1014 → (replyLine n q).length ≤ 1024) ∧
      (∀ fs : List ItemFailure, q.station ≤ 99 → q.answer = { word := .refused, body := .items fs } →
        fs.length ≤ 24 → (∀ f ∈ fs, f.pos ≤ 24 ∧ f.label.length ≤ 8) → (replyLine n q).length ≤ 1024)) ∧
    (∀ (n : Nat) (a : Answer), ∃ names : List Text,
      answerFields n a =
        (if a.word = .refused ∧ namesNoReason a.body = true then ["reason=".toList ++ freeReason n] else []) ++
          (bodyParts a.body).map (partText names) ∧
      replyValue (freeReason n) = true ∧ (freeReason n).length ≤ 900 ∧ names.Nodup ∧
      (∀ m ∈ names, fieldName 12 m = true ∧ m ≠ "reason".toList ∧ ∀ (v : Text), Part.named m v ∉ bodyParts a.body)) ∧
    (∀ b : Body, namesNoReason b = true ↔ b = .empty ∨ ∃ st left, b = .fireRefused st left) ∧
    (∀ (n : Nat) (w : StatusWord) (F : Body → List Text) (rows : Text → List (List Text) → List Text)
        (next : Option Nat → Text),
      (∀ b, F b = answerFields n { word := w, body := b }) →
      (∀ nm rs, rows nm rs = rs.map fun r => nm ++ '=' :: joinText '/' r) →
      (∀ k, next k = "next=".toList ++ (match k with
        | some m => natText m
        | none => "END".toList)) →
      (∃ nm : Text, fieldName 12 nm = true ∧ ∀ id reopened, F (.settled id reopened) =
        ["id=".toList ++ natText id, nm ++ '=' :: (if reopened then "OPEN".toList else "REMOVED".toList)]) ∧
      (∀ v : ZoneView, (F (.zone v)).head? = some ("zone=".toList ++ natText (v.zone.val + 1))) ∧
      (∀ v : BankView, (F (.bank v)).head? = some ("bank=".toList ++ natText (v.bank.val + 1))) ∧
      (∀ v : DetectorView, ("level=".toList ++ (match v.live.level with
        | some k => natText k
        | none => "-".toList)) ∈ F (.detector v)) ∧
      (∃ nm : Text, fieldName 12 nm = true ∧ ∀ k, F (.wrongState k) =
        ["reason=WRONG-STATE".toList, nm ++ '=' :: textIn custodyWords k]) ∧
      (∃ nm : Text, fieldName 12 nm = true ∧ ∀ l, F (.slotTaken l) = ["reason=SLOT-TAKEN".toList, nm ++ '=' :: l]) ∧
      (∃ nm : Text, fieldName 12 nm = true ∧ ∀ k, F (.minutes k) = [nm ++ '=' :: natText k]) ∧
      (∃ nm : Text, fieldName 12 nm = true ∧ ∀ k, F (.index k) = [nm ++ '=' :: natText k]) ∧
      (∃ nm : Text, fieldName 12 nm = true ∧ ∀ k, F (.removed k) = [nm ++ '=' :: natText k]) ∧
      (∃ nm : Text, fieldName 3 nm = true ∧ ∀ fs : List ItemFailure, F (.items fs) =
        "reason=ITEMS".toList :: rows nm (fs.map fun f => [natText f.pos, f.label] ++ (match f.fault with
          | .notFound => ["NOT-FOUND".toList]
          | .wrongState found => ["WRONG-STATE".toList, textIn custodyWords found]
          | .duplicate => ["DUPLICATE".toList]
          | .fireHold => ["FIRE-HOLD".toList]))) ∧
      (∃ nm : Text, fieldName 12 nm = true ∧ ∀ ps : List PickRow, F (.picks ps) = rows nm (ps.map fun p =>
        [natText (p.bank.val + 1), natText p.items, natText p.taken, natText p.full, natText p.fireHold,
         natText p.noSuchAisle])) ∧
      (∃ nm : Text, fieldName 12 nm = true ∧ ∀ (ms : List (Nat × Manifest)) (k : Option Nat), F (.manifests ms k) =
        rows nm (ms.map fun m => [natText m.1, natText m.2.id, textIn directionWords m.2.direction,
          natText (m.2.hatch.val + 1), natText m.2.courier, if m.2.active then "ACTIVE".toList else "OPEN".toList,
          natText m.2.validity, natText m.2.items.length]) ++ [next k]) ∧
      (∃ nm : Text, fieldName 12 nm = true ∧ ∀ (m : Manifest) (page : List (Nat × Item)) (k : Option Nat),
        ∃ head : List Text, head.length = 12 ∧ F (.manifest m page k) = head ++ rows nm (page.map fun x =>
          [natText x.1, x.2.label, textIn itemWords x.2.status]) ++ [next k]) ∧
      (∃ nm : Text, fieldName 12 nm = true ∧ ∀ (r : Receipt) (page : List Entry) (k : Option Nat),
        ∃ head : List Text, head.length = 8 ∧ F (.receipt r page k) = head ++ rows nm (page.map fun e =>
          [e.label.getD "-".toList, textIn resultWords e.result, (e.side.map (textIn sideWords)).getD "-".toList,
           (e.hold.map natText).getD "-".toList, if e.missing then "YES".toList else "NO".toList]) ++ [next k]) ∧
      (∃ nm : Text, fieldName 12 nm = true ∧ ∀ (page : List (Nat × TrayPos)) (k : Option Nat), F (.tray page k) =
        rows nm (page.map fun x => natText x.1 :: (match x.2.presence with
          | .empty => ["EMPTY".toList, "-".toList]
          | .present l _ => ["PRESENT".toList, l]
          | .unreadable e => ["PRESENT-UNREADABLE".toList, textIn unreadWords e]) ++
          [textIn verdictWords x.2.verdict, (x.2.hold.map natText).getD "-".toList]) ++ [next k]) ∧
      (∃ nm : Text, fieldName 12 nm = true ∧ ∀ v : LoopView, ∃ head : List Text, head.length = 6 ∧
        F (.loop v) = head ++ rows nm (v.page.map fun d => [natText (d.address.val + 1), natText (d.zone.val + 1),
          textIn typeWords d.type, textIn detStateWords d.state, if d.latch then "YES".toList else "NO".toList]) ++
          [next v.next]) ∧
      (∃ nm : Text, fieldName 12 nm = true ∧ ∀ v : FireView, ∃ head : List Text, head.length = 27 ∧
        F (.fireZone v) = head ++ rows nm (v.page.map fun d => [natText (d.loop.val + 1), natText (d.address.val + 1),
          textIn typeWords d.type, textIn detStateWords d.state, if d.latch then "YES".toList else "NO".toList]) ++
          [next v.next]))

/-- RESTART (R204): refused with the zones in ALARM or PREDISCHARGE where there is one; otherwise answered OK, and once
the reply has left the part starts every block afresh as at a power-up, its banks, hatches, climate, loops and fire zones
among them: POWER-UP with cause RESTART at the head of a queue that holds no report of before. The live tray of a hatch
with a record, and the levels of poll orders, are as at a power-up (log entries 16 and 18). That the zones of a refusal
ascend is log entry 3. -/
def Obligations.RestartWaitsForItsReply : Prop :=
  ∀ s : State,
    (Ready s → (∀ z : Zone, s.fire[z].state ≠ .alarm ∧ s.fire[z].state ≠ .predischarge) →
      exec .restart s = .next ({ s.heard with line := { s.heard.line with restartDue := true } }.answered
        { word := .ok })) ∧
    (Ready s → (∃ z : Zone, s.fire[z].state = .alarm ∨ s.fire[z].state = .predischarge) →
      exec .restart s = .next (s.replied { word := .refused, body := .fireZones ((List.finRange 4).filter fun z =>
        decide (s.fire[z].state = .alarm ∨ s.fire[z].state = .predischarge)) })) ∧
    (∀ q : Reply, s.powered = true → s.line.reply = .sending q → s.line.restartDue = true →
      ∃ t, exec .replyComplete s = .next t ∧ StartsAfresh .restart s t)

/-- LINE-RATE and STATION-ADDRESS (R178): the value is stored at once and the one in force stays until the reply has
left; a rate of no such name is BAD-VALUE, another address is brought into 1 to 31. That a rate is a word, compared as
written, is log entry 22 (DEDUCED), and so is that an address brought to the one stored is CLAMPED (DESIGN CHOICE). -/
def Obligations.LineSettingsAreStored : Prop :=
  ∀ (s : State) (v : Int) (rates : List (Text × Nat)), Ready s →
    rates = [("9600".toList, 9600), ("19200".toList, 19200), ("38400".toList, 38400), ("57600".toList, 57600)] →
    (∀ (w : Text) (n : Nat), (w, n) ∈ rates → exec (.writeSettingLineRate none (some w)) s =
      .next ({ s.heard with store := { s.store with rate := n } }.answered { word := .ok })) ∧
    (∀ w : Text, w ∉ rates.map Prod.fst → exec (.writeSettingLineRate none (some w)) s =
      .next (s.repliedWord .badValue)) ∧
    (1 ≤ v → v ≤ 31 → exec (.writeSettingStationAddress none (some v)) s =
      .next ({ s.heard with store := { s.store with station := v.toNat } }.answered { word := .ok })) ∧
    (v < 1 → exec (.writeSettingStationAddress none (some v)) s =
      .next ({ s.heard with store := { s.store with station := 1 } }.answered
        { word := .clamped, body := .used [("value".toList, 1)] })) ∧
    (31 < v → exec (.writeSettingStationAddress none (some v)) s =
      .next ({ s.heard with store := { s.store with station := 31 } }.answered
        { word := .clamped, body := .used [("value".toList, 31)] }))

/-! ### Reports and the minute (chapter 10) -/

/-- A report posted is placed according to what the queue holds (R194): appended where no LOST marker stands and fewer
than 63 entries do, replaced by a marker of count 1 where 63 do, counted in the marker where one stands. -/
def Obligations.PostedReportIsPlaced : Prop :=
  ∀ (e : Event) (s : State),
    ((∀ r ∈ s.reports, r.isLost = false) → s.reports.length < 63 →
      post e s = { s with reports := s.reports ++ [{ stamp := s.minute, event := e }] }) ∧
    ((∀ r ∈ s.reports, r.isLost = false) → s.reports.length = 63 →
      post e s = { s with reports := s.reports ++ [{ stamp := s.minute, event := .lost 1 }] }) ∧
    (∀ (q : List Report) (m : Minute) (n : Nat), s.reports = q ++ [{ stamp := m, event := .lost n }] →
      post e s = { s with reports := q ++ [{ stamp := m, event := .lost (min (n + 1) 65535) }] })

/-- FETCH-REPORTS (R195): the oldest entries are answered and removed, as many as were asked for, as the queue holds
and as fit a reply of 1024 characters; `max=` outside 1 to 8 is clamped. The length of an entry's text rests in part
on the model's own words for what a report says (log entry 13). -/
def Obligations.FetchTakesTheOldestReports : Prop :=
  ∀ (s : State) (max : Option Int), Ready s → ∃ k : Nat,
    exec (.fetchReports max) s =
      .next ({ s.heard with reports := s.reports.drop k }.answered {
        word := if max.isSome ∧ max ≠ some (clamp 1 8 (max.getD 8)) then .clamped else .ok
        body := .reports (if max.isSome ∧ max ≠ some (clamp 1 8 (max.getD 8)) then some (clamp 1 8 (max.getD 8)) else none)
          (s.reports.take k) (s.reports.length - k) }) ∧
    k ≤ s.reports.length ∧ (k : Int) ≤ clamp 1 8 (max.getD 8) ∧
    (k = s.reports.length ∨ (k : Int) = clamp 1 8 (max.getD 8) ∨
      1024 < replyLength 0 { station := s.line.station, answer := fetchAnswer max s.reports (k + 1) }) ∧
    (0 < k → replyLength 0 { station := s.line.station, answer := fetchAnswer max s.reports k } ≤ 1024)

/-- IDENTIFY, STATUS and READ-SETTING answer from the state and change nothing (R190, R191, R196, R201): the counts, the
zones, hatches and banks, ATTN, and every setting of the catalogue with its range and factory value; a name or an index
that names nothing is BAD-VALUE. That an index that is no number is BAD-REQUEST with that field where the setting takes a
number, and that `loop=` is so with a setting that takes none, are the model's inferences (log entry 22); that `min=` and
`max=` are the catalogue's own numbers, but the present carriage count for BANK-PARK, is its choice (log entry 9), and so
is that a bank that travels has no position in STATUS (log entry 17). -/
def Obligations.PartIsRead : Prop :=
  ∀ s : State, Ready s →
    (exec .identify s = .next (s.replied { word := .ok, body := .identity {
      station := s.line.station, rate := s.line.rate, minute := s.minute, cartridges := s.store.cartridges.length
      manifests := s.store.manifests.length, reports := s.reports.length
      detectors1 := ((List.finRange 32).filter fun a => s.store.detectors[(0 : LoopId)][a].enabled).length
      detectors2 := ((List.finRange 32).filter fun a => s.store.detectors[(1 : LoopId)][a].enabled).length } })) ∧
    (∃ v : StatusView, exec .status s = .next (s.replied { word := .ok, body := .status v }) ∧
      v.minute = s.minute ∧ v.reports = s.reports.length ∧
      v.lost = (match s.reports.getLast? with
        | some { stamp := _, event := .lost n } => n
        | _ => 0) ∧
      (v.attn = true ↔ s.reports ≠ [] ∨ (∃ h : HatchId, s.store.receipt[h].isSome = true) ∨
        ∃ h : HatchId, s.hatch[h].phase = .query) ∧
      v.zones = ((List.finRange 4).map fun z =>
        { mode := s.climate[z].mode, fire := s.fire[z].state, degraded := s.degraded z, spent := s.store.spent[z] }) ∧
      v.hatches = ((List.finRange 2).map fun h =>
        { phase := s.hatch[h].phase
          heldClass := if s.hatch[h].phase = .heldFire then s.hatch[h].heldClass else none
          receipt := s.store.receipt[h].isSome, query := decide (s.hatch[h].phase = .query) }) ∧
      v.banks = (List.finRange 4).map fun b => { motion := s.bank[b].motion, position := s.bank[b].position }) ∧
    (∀ r ∈ ([("HOLD-KT", .number s.store.hold.kT 0 255 60), ("HOLD-KH", .number s.store.hold.kH 0 255 20),
        ("HOLD-MIN", .number s.store.hold.holdMin 0 1440 60), ("HOLD-MAX", .number s.store.hold.holdMax 60 10080 2880),
        ("LINE-RATE", .name (natText s.store.rate)), ("STATION-ADDRESS", .number s.store.station 1 31 1)] :
          List (String × SettingView)),
      exec (.readSetting r.1.toList none none none) s = .next (s.replied { word := .ok, body := .setting r.2 })) ∧
    (∀ (w : Text) (k : Int) (z : Zone) (c : ClimateSettings) (f : FireSettings), numberOf w = some k →
      indexOf 4 k = some z → c = s.store.climate[z] → f = s.store.fire[z] →
      ∀ r ∈ ([("DISAGREE-LIMIT", .number s.store.disagreeLimit[z] 0 300 50), ("ZONE-TSET", .number c.tset 100 300 180),
          ("ZONE-HSET", .number c.hset 200 600 400), ("ZONE-BAND", .number c.band 0 100 20),
          ("ZONE-STEP", .number c.step 1 100 10), ("ZONE-CAP", .number c.cap 0 8 3),
          ("ZONE-RHBAND", .number c.rhband 10 300 80), ("ZONE-TBAND", .number c.tband 10 200 30),
          ("ZONE-PERIOD", .number c.period 64 960 240), ("ZONE-BURST", .number c.burst 60 3600 600),
          ("CLIMATE-MODE", .name (match s.store.selection[z] with
            | .run => "RUN".toList
            | .economy => "ECONOMY".toList)),
          ("FIRE-COINCIDENCE", .number f.coincidence 1 2 2), ("FIRE-COUNTDOWN", .number f.countdown 10 60 30),
          ("FIRE-SOAK", .number f.soak 60 3600 600), ("FIRE-VENT", .number f.vent 60 3600 900)] :
            List (String × SettingView)),
        exec (.readSetting r.1.toList (some w) none none) s =
          .next (s.replied { word := .ok, body := .setting r.2 })) ∧
    (∀ (w : Text) (k : Int) (h : HatchId) (x : HatchSettings), numberOf w = some k → indexOf 2 k = some h →
      x = s.store.hatch[h] →
      ∀ r ∈ ([("HATCH-ZONE", .number (x.zone.val + 1) 1 4 (h.val + 1)),
          ("UNLOCK-TIMEOUT", .number x.unlockTimeout 10 120 30), ("OPEN-ALARM", .number x.openAlarm 30 900 120),
          ("QUERY-WAIT", .number x.queryWait 15 600 60), ("REJECT-TIMEOUT", .number x.rejectTimeout 60 1800 300),
          ("COND-LIMIT", .number x.condLimit 10 1440 120), ("STANDBY-TIME", .number x.standbyTime 60 3600 900),
          ("PURGE-BAND", .number x.purgeBand 0 200 30), ("COND-MARGIN", .number x.condMargin 0 100 20)] :
            List (String × SettingView)),
        exec (.readSetting r.1.toList (some w) none none) s =
          .next (s.replied { word := .ok, body := .setting r.2 })) ∧
    (∀ (w : Text) (k : Int) (b : BankId) (x : BankSettings), numberOf w = some k → indexOf 4 k = some b →
      x = s.store.bank[b] →
      ∀ r ∈ ([("BANK-ZONE", .number (x.zone.val + 1) 1 4 (b.val + 1)), ("BANK-CARRIAGES", .number x.carriages 1 12 12),
          ("BANK-PARK", .number x.park 0 x.carriages 6), ("BANK-STEP", .number x.step 1 10 3)] :
            List (String × SettingView)),
        exec (.readSetting r.1.toList (some w) none none) s =
          .next (s.replied { word := .ok, body := .setting r.2 })) ∧
    (∀ (w : Text) (k : Int) (g : Group), numberOf w = some k → indexOf 2 k = some g →
      exec (.readSetting "GROUP-TIMER".toList (some w) none none) s =
        .next (s.replied { word := .ok, body := .setting (.name (match s.store.groupTimer[g] with
          | .ta => "TA".toList
          | .tb => "TB".toList
          | .off => "OFF".toList)) })) ∧
    (∀ r ∈ ([("SCAN-PERIOD", "A", .number s.store.scanPeriod[0] 1 255 100),
        ("SCAN-PERIOD", "B", .number s.store.scanPeriod[1] 1 255 10),
        ("DET-PREALARM", "SMOKE", .number s.store.smoke.prealarm 1 254 40),
        ("DET-PREALARM", "HEAT", .number s.store.heat.prealarm 1 254 50),
        ("DET-ALARM", "SMOKE", .number s.store.smoke.alarm 2 255 80),
        ("DET-ALARM", "HEAT", .number s.store.heat.alarm 2 255 65)] : List (String × String × SettingView)),
      exec (.readSetting r.1.toList (some r.2.1.toList) none none) s =
        .next (s.replied { word := .ok, body := .setting r.2.2 })) ∧
    (∀ (k j : Int) (l : LoopId) (a : Address), indexOf 2 k = some l → indexOf 32 j = some a →
      exec (.readSetting "DETECTOR".toList none (some k) (some j)) s =
        .next (s.replied { word := .ok, body := .setting (.detector s.store.detectors[l][a]) })) ∧
    (∀ (w : Text) (k : Int) (c : Channel), numberOf w = some k → indexOf 24 k = some c →
      ∀ r ∈ ([("CHANNEL", .channel s.store.channels[c]), ("CH-OFFSET", .number s.store.coefs[c].offset (-3277) 3277 0),
          ("CH-GAIN", .number s.store.coefs[c].gain 29491 36045 32768)] : List (String × SettingView)),
        exec (.readSetting r.1.toList (some w) none none) s =
          .next (s.replied { word := .ok, body := .setting r.2 })) ∧
    (∀ name i l a, wordOf catalogue name = none →
      exec (.readSetting name i l a) s = .next (s.repliedWord .badValue)) ∧
    (∀ (w : Text) (k : Int) (four two channels : List String), numberOf w = some k →
      four = ["DISAGREE-LIMIT", "ZONE-TSET", "ZONE-HSET", "ZONE-BAND", "ZONE-STEP", "ZONE-CAP", "ZONE-RHBAND",
        "ZONE-TBAND", "ZONE-PERIOD", "ZONE-BURST", "CLIMATE-MODE", "FIRE-COINCIDENCE", "FIRE-COUNTDOWN", "FIRE-SOAK",
        "FIRE-VENT", "BANK-ZONE", "BANK-CARRIAGES", "BANK-PARK", "BANK-STEP"] →
      two = ["GROUP-TIMER", "HATCH-ZONE", "UNLOCK-TIMEOUT", "OPEN-ALARM", "QUERY-WAIT", "REJECT-TIMEOUT", "COND-LIMIT",
        "STANDBY-TIME", "PURGE-BAND", "COND-MARGIN"] →
      channels = ["CHANNEL", "CH-OFFSET", "CH-GAIN"] →
      (∀ name ∈ four, indexOf 4 k = none →
        exec (.readSetting name.toList (some w) none none) s = .next (s.repliedWord .badValue)) ∧
      (∀ name ∈ two, indexOf 2 k = none →
        exec (.readSetting name.toList (some w) none none) s = .next (s.repliedWord .badValue)) ∧
      (∀ name ∈ channels, indexOf 24 k = none →
        exec (.readSetting name.toList (some w) none none) s = .next (s.repliedWord .badValue)) ∧
      (∀ name ∈ four ++ two ++ channels, ∀ v : Text, numberOf v = none →
        exec (.readSetting name.toList (some v) none none) s =
          .next (s.replied { word := .badRequest, body := .badField "index".toList })) ∧
      (∀ name ∈ four ++ two ++ channels, ∀ (i : Option Text) (j : Int),
        exec (.readSetting name.toList i (some j) none) s =
          .next (s.replied { word := .badRequest, body := .badField "loop".toList }))) ∧
    (∀ w : Text, w ≠ "A".toList → w ≠ "B".toList →
      exec (.readSetting "SCAN-PERIOD".toList (some w) none none) s = .next (s.repliedWord .badValue)) ∧
    (∀ w : Text, w ≠ "SMOKE".toList → w ≠ "HEAT".toList → ∀ name ∈ ["DET-PREALARM", "DET-ALARM"],
      exec (.readSetting name.toList (some w) none none) s = .next (s.repliedWord .badValue)) ∧
    (∀ k j : Int, (indexOf 2 k = none ∨ indexOf 32 j = none) →
      exec (.readSetting "DETECTOR".toList none (some k) (some j)) s = .next (s.repliedWord .badValue))

/-- A minute (R66, R79, R80, R109, R202): the counter is one higher, wrapping, and the minute is handed to the custody
table, the manifest table and each hatch once, in an order the spec leaves open (log entry 2). Every hold remaining loses
one, and one that reaches 0 ends: its cartridge goes to RESHELVE and HOLD-ENDED is posted. Every OPEN validity loses one,
and one that reaches 0 ends its manifest: it leaves the table, an outbound one's RESERVED cartridges go back to SHELVED and
its PICKED ones to RESHELVE, and MANIFEST-EXPIRED is posted with the labels of both. Every hatch in CONDITIONING counts
one, and CONDITION-TIMEOUT is posted once, at its limit. That several ended holds are reported in label order and several
expired manifests in table order is log entry 2; that a count above a lowered limit reaches it at this minute too is the
model's choice (log entry 16), and so is that the labels of a MANIFEST-EXPIRED stand in item order (log entry 13). -/
def Obligations.MinuteIsHandedOn : Prop :=
  ∀ (s : State) (ended : List Manifest) (freed : Text → Option Custody) (counted : Cartridge → Cartridge),
    ended = s.store.manifests.filter (fun m => !m.active && decide (m.validity ≤ 1)) →
    freed = (fun l => ended.foldl (fun k m =>
      if m.direction = .out ∧ l ∈ m.labelsIn .picked then some .reshelve
      else if m.direction = .out ∧ l ∈ m.labelsIn .reserved then some .shelved
      else k) none) →
    counted = (fun c => match c.custody with
      | .quarantine n => if n ≤ 1 then { c with custody := .reshelve } else { c with custody := .quarantine (n - 1) }
      | _ => c) →
    (s.powered = true → ∃ (order : List MinuteTaker) (t : State), exec .minuteIncrease s = .next t ∧
      order.Perm [.custody, .manifests, .hatch 0, .hatch 1] ∧
      t = actAll takeMinute order { s with minute := s.minute + 1, seconds := 0, choice := s.choice + 1 } ∧
      t.minute = s.minute + 1 ∧ t.seconds = 0 ∧
      t.store = { s.store with
        cartridges := s.store.cartridges.map fun c => ((freed c.label).map fun k => { c with custody := k }).getD (counted c)
        manifests := (s.store.manifests.filter fun m => decide (m.id ∉ ended.map Manifest.id)).map fun m =>
          if m.active then m else { m with validity := m.validity - 1 } } ∧
      (∀ h : HatchId, t.hatch[h] =
        if s.hatch[h].phase = .conditioning then
          { s.hatch[h] with
            limitCount := s.hatch[h].limitCount + 1
            limitPosted := s.hatch[h].limitPosted ||
              decide (s.store.hatch[h].condLimit ≤ s.hatch[h].limitCount + 1) }
        else s.hatch[h]) ∧
      t.front = s.front ∧ t.climate = s.climate ∧ t.staging = s.staging ∧ t.bank = s.bank ∧ t.loop = s.loop ∧
      t.fire = s.fire ∧ t.line = s.line ∧ t.powered = true) ∧
    takeMinute .custody s = { s with
      store := { s.store with cartridges := s.store.cartridges.map counted }
      reports := ((s.store.cartridges.filter fun c : Cartridge => match c.custody with
          | .quarantine n => decide (n ≤ 1)
          | _ => false).map fun c => Event.holdEnded c.label s.store.bank[c.home.bank].zone c.home none).foldl
        (fun q e => enqueue q { stamp := s.minute, event := e }) s.reports } ∧
    takeMinute .manifests s = { s with
      store := { s.store with
        cartridges := s.store.cartridges.map fun c => ((freed c.label).map fun k => { c with custody := k }).getD c
        manifests := (s.store.manifests.filter fun m => decide (m.id ∉ ended.map Manifest.id)).map fun m =>
          if m.active then m else { m with validity := m.validity - 1 } }
      reports := (ended.map fun m => match m.direction with
          | .in_ => Event.manifestExpired m.id .in_ m.hatch m.courier false [] []
          | .out => .manifestExpired m.id .out m.hatch m.courier false (m.labelsIn .reserved) (m.labelsIn .picked)).foldl
        (fun q e => enqueue q { stamp := s.minute, event := e }) s.reports } ∧
    (∀ (h : HatchId) (x y : Hatch), x = s.hatch[h] → y = { x with limitCount := x.limitCount + 1 } →
      (x.phase ≠ .conditioning → takeMinute (.hatch h) s = s) ∧
      (x.phase = .conditioning → (x.limitPosted = true ∨ x.limitCount + 1 < s.store.hatch[h].condLimit) →
        takeMinute (.hatch h) s = { s with hatch := s.hatch.set h y }) ∧
      (x.phase = .conditioning → x.limitPosted = false → s.store.hatch[h].condLimit ≤ x.limitCount + 1 →
        takeMinute (.hatch h) s = post (.conditionTimeout h x.manifest x.purge x.condensation)
          { s with hatch := s.hatch.set h { y with limitPosted := true } }))

/-! ### The sensor front end (chapter 1) -/

/-- The engineering value of a corrected value (R7), for each kind of channel, with the range it lies in. -/
def Obligations.EngineeringValueByKind : Prop :=
  ∀ c : Int, 0 ≤ c → c ≤ 65535 →
    0 ≤ c * 1000 + 32767 ∧ 0 ≤ c * 1650 + 32767 ∧
    engineering .rh c = (c * 1000 + 32767) / 65535 ∧ 0 ≤ engineering .rh c ∧ engineering .rh c ≤ 1000 ∧
    ∀ k : ChanKind, k = .temp ∨ k = .probe →
      engineering k c = -400 + (c * 1650 + 32767) / 65535 ∧ -400 ≤ engineering k c ∧ engineering k c ≤ 1250

/-- One raw code of a used scan (R6, R8 to R10): a rail reading is counted and the third in a row is FAULT; a good one
enters the window corrected, or is set aside in FAULT until the third in a row clears it. That the run of good readings
is not capped, and that entry into FAULT clears the last code, are the model's readings (log entry 20). -/
def Obligations.CodeEntersTheWindow : Prop :=
  ∀ (ch : Channel) (kind : ChanKind) (k : Coef) (code : Code) (x : ChanLive) (v : Int),
    (code.toNat ≤ 16 ∨ 65519 ≤ code.toNat) →
      (x.fault = false → x.railRun ≤ 1 → takeCode ch kind k code x =
        ({ x with lastRaw := some code, railRun := x.railRun + 1, goodRun := 0 }, [])) ∧
      (x.fault = false → x.railRun = 2 → takeCode ch kind k code x =
        ({ x with lastRaw := none, railRun := 3, goodRun := 0, fault := true, window := [] },
          [.channelFaultEntered ch code])) ∧
      (x.fault = true → takeCode ch kind k code x =
        ({ x with lastRaw := some code, railRun := min 3 (x.railRun + 1), goodRun := 0 }, [])) ∧
    ∀ good : Code, 16 < good.toNat → good.toNat < 65519 →
      (v = engineering kind (corrected k good) →
        (x.fault = false → x.window.length ≤ 4 → takeCode ch kind k good x =
          ({ x with
              lastRaw := some good, railRun := 0, goodRun := x.goodRun + 1
              window := (x.window ++ [v]).drop (x.window.length + 1 - 4) }, [])) ∧
        (x.fault = true → x.goodRun ≤ 1 → takeCode ch kind k good x =
          ({ x with lastRaw := some good, railRun := 0, goodRun := x.goodRun + 1 }, [])) ∧
        (x.fault = true → x.goodRun = 2 → takeCode ch kind k good x =
          ({ x with lastRaw := some good, railRun := 0, goodRun := 3, fault := false, window := [v] },
            [.channelFaultCleared ch false]))) ∧
      (∀ n : Int, n = ((good.toNat : Int) - k.offset) * k.gain + 16384 →
        (n < 0 → corrected k good = 0) ∧ (65536 * 32768 ≤ n → corrected k good = 65535) ∧
        (0 ≤ n → n < 65536 * 32768 →
          32768 * corrected k good ≤ n ∧ n < 32768 * (corrected k good + 1)))

/-- A channel's calibration (R14): the gain is its quotient rounded, halves up since it is positive, the offset the
nearest whole number to its own (an odd divisor leaves no half), and the outcome is the first of ORDER, GAIN and OFFSET
that fails, the old coefficients kept. -/
def Obligations.CalibrationOutcomeOfMeans : Prop :=
  ∀ (old : Coef) (low high : Nat),
    (high ≤ low → calibrate old low high = (.order, old)) ∧
    (low < high → ∃ g o : Int,
      (2 * g - 1) * (high - low) ≤ 2 * (32768 * 64225) ∧ 2 * (32768 * 64225) < (2 * g + 1) * (high - low) ∧
      2 * absDiff ((low : Int) * 64225 - 655 * (high - low)) (o * 64225) ≤ 64225 ∧
      ((g < 29491 ∨ 36045 < g) → calibrate old low high = (.gain, old)) ∧
      (29491 ≤ g → g ≤ 36045 → (o < -3277 ∨ 3277 < o) → calibrate old low high = (.offset, old)) ∧
      (29491 ≤ g → g ≤ 36045 → -3277 ≤ o → o ≤ 3277 →
        calibrate old low high = (.ok, { offset := o, gain := g })))

/-- CALIBRATE and the end of a calibration (R5, R12, R15): refused where no group, a calibrating one or one assigned
OFF is named; accepted, the group calibrates and its owners' values are formed, and that of a group with no channels is
done at once; at its end every row's pair is in force, CAL-DONE is posted and the group is restarted. What a calibrating
group keeps of its state is the model's own field (log entry 11); that the last raw code of a channel reads none from its
group's restart on is the model's inference from R19 (log entry 20). -/
def Obligations.CalibrationRunsAndEnds : Prop :=
  ∀ s : State,
    (∀ k : Int, Ready s → indexOf 2 k = none → exec (.calibrate k) s = .next (s.repliedWord .badValue)) ∧
    (∀ (k : Int) (g : Group), Ready s → indexOf 2 k = some g →
      ((s.front.groups[g]).state.calibrates = true → exec (.calibrate k) s = .next (s.repliedWord .busy)) ∧
      ((s.front.groups[g]).state.calibrates = false → s.store.groupTimer[g] = .off →
        exec (.calibrate k) s = .next (s.repliedWord .refused)) ∧
      ((s.front.groups[g]).state.calibrates = false → s.store.groupTimer[g] ≠ .off →
        groupChannels s.store g ≠ [] → exec (.calibrate k) s =
          .next ((formOwners [g] [] true { s.heard with front := { s.front with
            groups := s.front.groups.set g
              { state := .calibrating (decide ((s.front.groups[g]).state = .ready)), scanning := false } } }).answered
            { word := .ok })) ∧
      (∀ t : State, (s.front.groups[g]).state.calibrates = false → s.store.groupTimer[g] ≠ .off →
        groupChannels s.store g = [] →
        t = formOwners [g] [] true { s.heard with front := { s.front with
          groups := s.front.groups.set g
            { state := .calibrating (decide ((s.front.groups[g]).state = .ready)), scanning := false } } } →
        exec (.calibrate k) s = .next ((restartGroups [g] [] (post (.calDone g []) t)).answered { word := .ok }))) ∧
    (∀ (g : Group) (codes : Vector CalCodes 24), s.powered = true → (s.front.groups[g]).state.calibrates = true →
      ∃ coefs : Vector Coef 24,
        (∀ c : Channel, coefs[c] =
          if c ∈ groupChannels s.store g then
            (calibrate s.store.coefs[c] (mean16 codes[c].low) (mean16 codes[c].high)).2
          else s.store.coefs[c]) ∧
        exec (.calibrationComplete g codes) s =
          .next (restartGroups [g] [] (post (.calDone g ((groupChannels s.store g).map (calRow s.store codes)))
            { s with store := { s.store with coefs := coefs } }))) ∧
    (∀ (st : Store) (g : Group) (f : FrontEnd), restartGroup st g f = { f with
      groups := f.groups.set g { state := .notReady 2, scanning := false }
      chans := Vector.ofFn fun c : Channel =>
        if c ∈ groupChannels st g then { f.chans[c] with window := [], lastRaw := none } else f.chans[c] })

/-- A scan timer's expiry and a scan's completion (R3, R4): the timer is loaded again and its groups at rest begin
scans; a completed scan is discarded while discards remain and used otherwise, and the owners' values are formed and
the gates evaluated. An owner's value is formed from its VALID channels of the kind (R17, R18): the mean of two
rounded, the higher where they disagree, the one that is VALID, else NOT-READY or INVALID, flagged CAL where a channel
it derives from is; a change of disagreement is reported and the values are handed on, one held through a calibration
not; a chamber's values stand in its hatch. A used scan takes the code of each channel of the group in ascending
number, and its reports are posted in that order (R4, R9). The dew point stands until a value it was computed from
differs (R24). That the gates are evaluated at a discarded scan, what 'derives' means, and that a value differs by its
number alone, are log entry 20; that SENSOR-DISAGREE has the lower-numbered channel's value first is log entry 13; that a
completion with no scan in flight changes nothing is log entry 5; that zones come before hatches is log entry 2. -/
def Obligations.ScansBeginAndComplete : Prop :=
  ∀ s : State, s.powered = true →
    (∀ (st : Store) (f : FrontEnd) (o : Owner) (k : ChanKind) (limit : Option Int) (c d : Channel) (a b : Int),
      channelsOf st o k = [c, d] → chanValue st f c = .valid a →
      (chanValue st f d = .valid b →
        (∀ m : Int, limit = some m → m < |a - b| → formReading st f o k limit =
          ({ value := .valid (max a b), cal := isCal st f c || isCal st f d }, some (a, b))) ∧
        ((∀ m : Int, limit = some m → |a - b| ≤ m) → formReading st f o k limit =
          ({ value := .valid ((a + b + 1) / 2), cal := isCal st f c || isCal st f d }, none))) ∧
      ((∀ v : Int, chanValue st f d ≠ .valid v) →
        formReading st f o k limit = ({ value := .valid a, cal := isCal st f c }, none))) ∧
    (∀ (st : Store) (f : FrontEnd) (o : Owner) (k : ChanKind) (limit : Option Int) (c d : Channel) (b : Int),
      channelsOf st o k = [c, d] → (∀ v : Int, chanValue st f c ≠ .valid v) → chanValue st f d = .valid b →
      formReading st f o k limit = ({ value := .valid b, cal := isCal st f d }, none)) ∧
    (∀ (g : Group) (codes : Vector Code 24) (cs : List Channel) (taken : Channel → ChanLive × List Event),
      cs = ((List.finRange 24).filter fun c =>
        decide (s.store.channels[c].group = g ∧ s.store.channels[c].kind ≠ .unused)) →
      (∀ c : Channel, taken c =
        takeCode c s.store.channels[c].kind s.store.coefs[c] codes[c] s.front.chans[c]) →
      groupChannels s.store g = cs ∧
      takeScan g codes s = (cs.flatMap fun c => (taken c).2).foldl (fun t e => post e t) { s with
        front := { s.front with
          chans := Vector.ofFn fun c : Channel => if c ∈ cs then (taken c).1 else s.front.chans[c] } }) ∧
    (∀ (st : Store) (f : FrontEnd) (o : Owner) (k : ChanKind) (limit : Option Int) (cs : List Channel),
      cs = channelsOf st o k →
      (∀ (c : Channel) (a : Int), cs = [c] → chanValue st f c = .valid a →
        formReading st f o k limit = ({ value := .valid a, cal := isCal st f c }, none)) ∧
      ((∀ c ∈ cs, ∀ v : Int, chanValue st f c ≠ .valid v) → formReading st f o k limit =
        ({ value := if ∃ c ∈ cs, chanValue st f c = .notReady then .notReady else .invalid, cal := cs.any (isCal st f) },
          none))) ∧
    (∀ (g : Group) (force : Bool) (zs : List Zone) (hs : List HatchId),
      zs = ((List.finRange 4).filter fun z => decide (∃ c ∈ groupChannels s.store g, s.store.channels[c].owner = .zone z)) →
      hs = ((List.finRange 2).filter fun h => decide (∃ c ∈ groupChannels s.store g, s.store.channels[c].owner = .hatch h)) →
      formOwners [g] [] force s = hs.foldl (fun t h => formHatch [g] force h t)
        (zs.foldl (fun t z => formZone [g] force z t) s)) ∧
    (∀ (gs : List Group) (force : Bool) (z : Zone) (temp : Reading),
      temp = (formReading s.store s.front (.zone z) .temp none).1 →
      (∀ c ∈ channelsOf s.store (.zone z) .temp, isCal s.store s.front c = false) →
      (∀ (rh : Reading) (pair : Option (Int × Int)),
        (rh, pair) = formReading s.store s.front (.zone z) .rh (some s.store.disagreeLimit[z]) →
        (∀ c ∈ channelsOf s.store (.zone z) .rh, isCal s.store s.front c = false) →
        formZone gs force z s = handZone z (some rh) (some temp)
          (if s.front.disagree[z] = pair.isSome then s
          else post (.sensorDisagree z pair)
            { s with front := { s.front with disagree := s.front.disagree.set z pair.isSome } })) ∧
      (∀ (c : Channel) (v : Int), c ∈ channelsOf s.store (.zone z) .rh → chanValue s.store s.front c = .valid v →
        isCal s.store s.front c = true → formZone gs false z s = handZone z none (some temp) s)) ∧
    (∀ (gs : List Group) (force : Bool) (h : HatchId) (x : Hatch),
      (∀ (k : ChanKind), ∀ c ∈ channelsOf s.store (.hatch h) k, isCal s.store s.front c = false) →
      x = { s.hatch[h] with
        rh := (formReading s.store s.front (.hatch h) .rh none).1
        temp := (formReading s.store s.front (.hatch h) .temp none).1
        probe := (formReading s.store s.front (.hatch h) .probe none).1 } →
      formHatch gs force h s = { s with hatch := s.hatch.set h x }) ∧
    (∀ (old : DewPoint) (rh temp : Reading),
      (∀ h t : Int, rh.value = .valid h → temp.value = .valid t →
        (∀ (d : Int) (cal : Bool), old = .valid d t h cal → nextDew old rh temp = old) ∧
        ((∀ (d : Int) (cal : Bool), old ≠ .valid d t h cal) →
          nextDew old rh temp = .valid (dewPoint t h) t h (rh.cal || temp.cal))) ∧
      ((∀ h : Int, rh.value ≠ .valid h) → nextDew old rh temp = .invalid) ∧
      ((∀ t : Int, temp.value ≠ .valid t) → nextDew old rh temp = .invalid)) ∧
    (∀ t : TimerId, (∀ g : Group, groupChannels s.store g ≠ []) →
      exec (.scanTimerExpiry t) s = .next { s with front := { s.front with
        timers := s.front.timers.set t s.store.scanPeriod[t]
        groups := Vector.ofFn fun g : Group =>
          if s.store.groupTimer[g] = (if t = 0 then .ta else .tb) ∧ (s.front.groups[g]).state.calibrates = false ∧
              (s.front.groups[g]).scanning = false then
            { s.front.groups[g] with scanning := true }
          else s.front.groups[g] } }) ∧
    (∀ (g : Group) (codes : Vector Code 24), (s.front.groups[g]).scanning = true →
      (∀ n : Nat, (s.front.groups[g]).state = .notReady (n + 1) →
        exec (.scanComplete g codes) s = .next (evaluateGates g (formOwners [g] [] false { s with
          front := { s.front with groups := s.front.groups.set g { state := .notReady n } } }))) ∧
      ((s.front.groups[g]).state = .notReady 0 ∨ (s.front.groups[g]).state = .ready →
        exec (.scanComplete g codes) s = .next (evaluateGates g (formOwners [g] [] false (takeScan g codes { s with
          front := { s.front with groups := s.front.groups.set g { state := .ready } } }))))) ∧
    (∀ (g : Group) (codes : Vector Code 24), (s.front.groups[g]).scanning = false →
      exec (.scanComplete g codes) s = .next s)

/-- The front end's settings (R2 to R5, R16, R17): a coefficient or a timer assignment that changes restarts its group,
a period and a disagreement limit restart none, a channel entry within the limits of R2 is written whole, a field left
out keeping its value, with the groups that held it or hold it restarted, and a calibrating group answers BUSY. An entry
written to UNUSED has its window emptied and its fault cleared, with the report where it was in FAULT. A field that
names nothing and an entry past the limits (a PROBE of a zone, a third RH or TEMP of a zone, a second of a kind of a
hatch) are BAD-VALUE; a write that leaves the entry, the pair or the assignment as it was restarts nothing. Log entry 20
has the model's inferences, that emptying the window clears the last code and that an entry written to UNUSED restarts
the group that held it, and its choices: an UNUSED channel's group is that of its entry, for the restart and for BUSY, a
channel written to UNUSED keeps its runs, the owner on an UNUSED side is formed too, and two groups are restarted before
any owner is formed. That the report of a retired channel precedes those of the restart is log entry 2, and that BUSY
precedes an unchanged write, and that a write of no field is an unchanged one, are log entry 17. That a value brought to
the one stored is CLAMPED is log entry 22. -/
def Obligations.FrontSettingsAreWritten : Prop :=
  ∀ (s : State) (v : Int), Ready s →
    (∀ (k : Int) (c : Channel) (u : Coef), indexOf 24 k = some c →
      (s.front.groups[s.store.channels[c].group]).state.calibrates = false → u ≠ s.store.coefs[c] →
      (u = { s.store.coefs[c] with offset := clamp (-3277) 3277 v } →
        exec (.writeSettingChOffset (some k) (some v)) s =
          .next ((restartGroups [s.store.channels[c].group] [] { s.heard with
            store := { s.store with coefs := s.store.coefs.set c u } }).answered
              (usedAnswer v (clamp (-3277) 3277 v)))) ∧
      (u = { s.store.coefs[c] with gain := clamp 29491 36045 v } →
        exec (.writeSettingChGain (some k) (some v)) s =
          .next ((restartGroups [s.store.channels[c].group] [] { s.heard with
            store := { s.store with coefs := s.store.coefs.set c u } }).answered
              (usedAnswer v (clamp 29491 36045 v))))) ∧
    (∀ (k : Int) (c : Channel), indexOf 24 k = some c →
      (s.front.groups[s.store.channels[c].group]).state.calibrates = true →
      exec (.writeSettingChOffset (some k) (some v)) s = .next (s.repliedWord .busy) ∧
      exec (.writeSettingChGain (some k) (some v)) s = .next (s.repliedWord .busy)) ∧
    (∀ (k : Int) (c : Channel), indexOf 24 k = some c →
      (s.front.groups[s.store.channels[c].group]).state.calibrates = false →
      (clamp (-3277) 3277 v = s.store.coefs[c].offset → exec (.writeSettingChOffset (some k) (some v)) s =
        .next (s.replied (usedAnswer v (clamp (-3277) 3277 v)))) ∧
      (clamp 29491 36045 v = s.store.coefs[c].gain → exec (.writeSettingChGain (some k) (some v)) s =
        .next (s.replied (usedAnswer v (clamp 29491 36045 v))))) ∧
    (∀ (w : Text) (t : TimerId), wordOf timerIndexWords w = some t →
      exec (.writeSettingScanPeriod (some w) (some v)) s =
        .next ({ s.heard with store := { s.store with
          scanPeriod := s.store.scanPeriod.set t (clamp 1 255 v).toNat } }.answered (usedAnswer v (clamp 1 255 v)))) ∧
    (∀ (k : Int) (z : Zone), indexOf 4 k = some z →
      exec (.writeSettingDisagreeLimit (some k) (some v)) s =
        .next ({ s.heard with store := { s.store with
          disagreeLimit := s.store.disagreeLimit.set z (clamp 0 300 v) } }.answered (usedAnswer v (clamp 0 300 v)))) ∧
    (∀ (k : Int) (g : Group) (w : Text) (t : GroupTimer), indexOf 2 k = some g → wordOf timerWords w = some t →
      ((s.front.groups[g]).state.calibrates = false → t ≠ s.store.groupTimer[g] →
        exec (.writeSettingGroupTimer (some k) (some w)) s =
          .next ((restartGroups [g] [] { s.heard with store := { s.store with
            groupTimer := s.store.groupTimer.set g t } }).answered { word := .ok })) ∧
      ((s.front.groups[g]).state.calibrates = false → t = s.store.groupTimer[g] →
        exec (.writeSettingGroupTimer (some k) (some w)) s = .next (s.repliedWord .ok)) ∧
      ((s.front.groups[g]).state.calibrates = true →
        exec (.writeSettingGroupTimer (some k) (some w)) s = .next (s.repliedWord .busy))) ∧
    (∀ (k : Int) (w : Text), (indexOf 2 k = none ∨ wordOf timerWords w = none) →
      exec (.writeSettingGroupTimer (some k) (some w)) s = .next (s.repliedWord .badValue)) ∧
    (∀ (k : Int) (c : Channel) (kind owner : Option Text) (j : Option Int) (old e : ChanEntry)
        (chs : Vector ChanEntry 24) (u : State), indexOf 24 k = some c → old = s.store.channels[c] →
      ((kind = none ∧ e.kind = old.kind) ∨ ∃ w : Text, kind = some w ∧ wordOf kindWords w = some e.kind) →
      ((owner = none ∧ e.owner = old.owner) ∨ ∃ w : Text, owner = some w ∧ wordOf ownerWords w = some e.owner) →
      ((j = none ∧ e.group = old.group) ∨ ∃ i : Int, j = some i ∧ indexOf 2 i = some e.group) →
      chs = s.store.channels.set c e → u = { s.heard with store := { s.store with channels := chs } } →
      (entryAllowed chs e = false →
        exec (.writeSettingChannel (some k) kind owner j) s = .next (s.repliedWord .badValue)) ∧
      (entryAllowed chs e = true → ((s.front.groups[old.group]).state.calibrates = true ∨
          (s.front.groups[e.group]).state.calibrates = true) →
        exec (.writeSettingChannel (some k) kind owner j) s = .next (s.repliedWord .busy)) ∧
      (entryAllowed chs e = true → (s.front.groups[old.group]).state.calibrates = false →
        (s.front.groups[e.group]).state.calibrates = false →
        (e = old → exec (.writeSettingChannel (some k) kind owner j) s = .next (s.repliedWord .ok)) ∧
        (e ≠ old → old.kind ≠ .unused → e.kind ≠ .unused →
          exec (.writeSettingChannel (some k) kind owner j) s =
            .next ((restartGroups [old.group, e.group].eraseDups [old.owner, e.owner] u).answered { word := .ok })) ∧
        (old.kind = .unused → e.kind ≠ .unused → exec (.writeSettingChannel (some k) kind owner j) s =
          .next ((restartGroups [e.group] [old.owner, e.owner] u).answered { word := .ok })) ∧
        (∀ (x : ChanLive) (v : State), old.kind ≠ .unused → e.kind = .unused →
          x = { s.front.chans[c] with window := [], fault := false, lastRaw := none } →
          v = { u with front := { s.front with chans := s.front.chans.set c x } } →
          exec (.writeSettingChannel (some k) kind owner j) s = .next ((restartGroups [old.group] [old.owner, e.owner]
            (if s.front.chans[c].fault then post (.channelFaultCleared c true) v else v)).answered { word := .ok })) ∧
        (e ≠ old → old.kind = .unused → e.kind = .unused →
          exec (.writeSettingChannel (some k) kind owner j) s = .next (u.answered { word := .ok })))) ∧
    (∀ (k : Int) (kind owner : Option Text) (j : Option Int),
      (indexOf 24 k = none → exec (.writeSettingChannel (some k) kind owner j) s = .next (s.repliedWord .badValue)) ∧
      (∀ w : Text, wordOf kindWords w = none →
        exec (.writeSettingChannel (some k) (some w) owner j) s = .next (s.repliedWord .badValue)) ∧
      (∀ w : Text, wordOf ownerWords w = none →
        exec (.writeSettingChannel (some k) kind (some w) j) s = .next (s.repliedWord .badValue)) ∧
      (∀ i : Int, indexOf 2 i = none →
        exec (.writeSettingChannel (some k) kind owner (some i)) s = .next (s.repliedWord .badValue)) ∧
      exec (.writeSettingChannel none kind owner j) s =
        .next (s.replied { word := .badRequest, body := .badField "index".toList })) ∧
    (∀ (chs : Vector ChanEntry 24) (e : ChanEntry) (n : Nat),
      n = ((List.finRange 24).filter fun d => decide (chs[d].owner = e.owner ∧ chs[d].kind = e.kind)).length →
      (entryAllowed chs e = false ↔ e.kind ≠ .unused ∧
        ((∃ z : Zone, e.owner = .zone z ∧ (e.kind = .probe ∨ 2 < n)) ∨
          ∃ h : HatchId, e.owner = .hatch h ∧ 1 < n)))

/-- READ-CHANNEL and READ-ZONE answer from the state and change nothing (R11, R19, R40). A channel's value is INVALID in
FAULT, NOT-READY while its group is, and else the mean of its window rounded half up (R8), or INVALID where the window
is empty. What an empty window gives while the group calibrates is log entry 11; that an UNUSED channel is answered with
the state of its entry's group, and with CAL as NO while that calibrates, is the model's choice (log entry 20). -/
def Obligations.ChannelAndZoneAreRead : Prop :=
  ∀ (s : State) (k : Int), Ready s →
    (∀ c : Channel, indexOf 24 k = some c → exec (.readChannel k) s = .next (s.replied { word := .ok, body := .channel {
      entry := s.store.channels[c], group := (s.front.groups[s.store.channels[c].group]).state
      live := if s.store.channels[c].kind = .unused then none else some s.front.chans[c]
      value := if s.store.channels[c].kind = .unused then none else some (chanValue s.store s.front c)
      cal := decide (s.store.channels[c].kind ≠ .unused) &&
        (s.front.groups[s.store.channels[c].group]).state.calibrates
      coef := s.store.coefs[c] } })) ∧
    (indexOf 24 k = none → exec (.readChannel k) s = .next (s.repliedWord .badValue)) ∧
    (∀ z : Zone, indexOf 4 k = some z → exec (.readZone k) s = .next (s.replied { word := .ok, body := .zone {
      zone := z, climate := s.climate[z], disagree := s.front.disagree[z], prior := s.store.selection[z]
      fire := s.fire[z].state } })) ∧
    (indexOf 4 k = none → exec (.readZone k) s = .next (s.repliedWord .badValue)) ∧
    (∀ (st : Store) (f : FrontEnd) (c : Channel) (x : ChanLive) (g : GroupState), x = f.chans[c] →
      g = (f.groups[st.channels[c].group]).state →
      (x.fault = true → chanValue st f c = .invalid) ∧
      (∀ n : Nat, x.fault = false → g = .notReady n → chanValue st f c = .notReady) ∧
      (x.fault = false → (g = .ready ∨ ∃ ready, g = .calibrating ready) → x.window ≠ [] →
        chanValue st f c = .valid ((2 * x.window.sum + x.window.length) / (2 * x.window.length))) ∧
      (x.fault = false → g = .ready → x.window = [] → chanValue st f c = .invalid) ∧
      (∀ ready : Bool, x.fault = false → g = .calibrating ready → x.window = [] →
        chanValue st f c = if ready then .invalid else .notReady))

/-! ### Zone climate (chapter 2) -/

/-- The dew point of air (R23): the humidity brought into 100 to 1000, the depression taken between the two entries of
the table on either side of it, and the result not below -400. -/
def Obligations.DewPointFollowsTheTable : Prop :=
  ∀ t h i f : Int, i = (clamp 100 1000 h - 100) / 100 → f = (clamp 100 1000 h - 100) % 100 →
    0 ≤ i ∧ i ≤ 9 ∧ 0 ≤ f ∧ f ≤ 99 ∧ (i = 9 → f = 0) ∧
    ∃ d0 d1 : Int, depressions[i.toNat]? = some d0 ∧
      (depressions[i.toNat + 1]? = some d1 ∨ i = 9 ∧ d1 = 0) ∧ 0 ≤ (d0 - d1) * f + 50 ∧
      d1 ≤ d0 - ((d0 - d1) * f + 50) / 100 ∧ d0 - ((d0 - d1) * f + 50) / 100 ≤ d0 ∧
      dewPoint t h = max (-400) (t - (d0 - ((d0 - d1) * f + 50) / 100))

/-- SET-SETPOINTS and the climate rows of WRITE-SETTING (R21, R22, R31, R200): each value given is brought into its
range and stored, a written cap lowers the duties of a zone in ECONOMY at once, and nothing else changes. That a
WRITE-SETTING brought to the value stored is CLAMPED is the model's choice (log entry 22). -/
def Obligations.SetpointsAreWritten : Prop :=
  ∀ (s : State) (k : Int) (z : Zone), Ready s → indexOf 4 k = some z →
    (∀ (f : SetpointFields) (old new : ClimateSettings), old = s.store.climate[z] →
      new = {
        tset := (f.tset.map (clamp 100 300)).getD old.tset, hset := (f.hset.map (clamp 200 600)).getD old.hset
        band := (f.band.map (clamp 0 100)).getD old.band, step := (f.step.map (clamp 1 100)).getD old.step
        cap := (f.cap.map fun v => (clamp 0 8 v).toNat).getD old.cap
        rhband := (f.rhband.map (clamp 10 300)).getD old.rhband
        tband := (f.tband.map (clamp 10 200)).getD old.tband
        period := (f.period.map fun v => (clamp 64 960 v / 8 * 8).toNat).getD old.period
        burst := (f.burst.map fun v => (clamp 60 3600 v).toNat).getD old.burst } →
      exec (.setSetpoints k f) s = .next ({ s.heard with
        store := { s.store with climate := s.store.climate.set z new }
        climate :=
          if f.cap.isSome ∧ s.climate[z].mode = ClimateMode.economy then s.climate.set z (capDuties new.cap s.climate[z])
          else s.climate }.answered
        (if (givenFields f).all fun g : ClimateName × Int => usedClimate g.1 g.2 == g.2 then { word := .ok }
        else { word := .clamped, body := .used ((givenFields f).map fun g : ClimateName × Int =>
          (textIn climateFields g.1, usedClimate g.1 g.2)) }))) ∧
    (∀ (n : ClimateName) (v : Int) (new : ClimateSettings),
      new = s.store.climate[z].write n (usedClimate n v) →
      exec (.writeSettingZoneClimate n (some k) (some v)) s = .next ({ s.heard with
        store := { s.store with climate := s.store.climate.set z new }
        climate :=
          if n = ClimateName.cap ∧ s.climate[z].mode = ClimateMode.economy then s.climate.set z (capDuties new.cap s.climate[z])
          else s.climate }.answered (usedAnswer v (usedClimate n v)))) ∧
    (∀ (cap : Nat) (c : Climate), (capDuties cap c).dh = min c.dh cap ∧ (capDuties cap c).hu = min c.hu cap)

/-- SET-CLIMATE-MODE (R31, R32, R184, R200): the selection of each zone named is stored, a zone in RUN, ECONOMY or
ECONOMY-BURST goes to it, one in HOLD or SHED keeps its mode; a broadcast is answered by nothing. That a WRITE-SETTING
of CLIMATE-MODE acts also where the value written is the one stored is log entry 21 (DEDUCED). -/
def Obligations.ClimateModeIsSelected : Prop :=
  ∀ (s : State) (w : Text) (sel : Selection), Ready s → wordOf selectionWords w = some sel →
    ∀ moved : Zone → Climate,
      (∀ z : Zone, moved z = match s.climate[z].mode, sel with
        | .run, .run => s.climate[z]
        | .economy, .economy => s.climate[z]
        | .hold, _ => s.climate[z]
        | .shed, _ => s.climate[z]
        | _, .run => { s.climate[z] with mode := .run, burst := none }
        | _, .economy =>
          { capDuties s.store.climate[z].cap s.climate[z] with mode := .economy, burst := none }) →
      (∀ (k : Int) (z : Zone) (b : Bool), indexOf 4 k = some z →
        exec (.setClimateMode b w (some k)) s =
          .next ((fun t : State => if b then t else t.answered { word := .ok }) { s.heard with
            store := { s.store with selection := s.store.selection.set z sel }
            climate := s.climate.set z (moved z) }) ∧
        exec (.writeSettingClimateMode (some k) (some w)) s =
          .next ({ s.heard with
            store := { s.store with selection := s.store.selection.set z sel }
            climate := s.climate.set z (moved z) }.answered { word := .ok })) ∧
      (∀ b : Bool, exec (.setClimateMode b w none) s =
        .next ((fun t : State => if b then t else t.answered { word := .ok }) { s.heard with
          store := { s.store with selection := Vector.replicate 4 sel }
          climate := Vector.ofFn moved }))

/-- BURST, the burst timer, and the zone values handed on (R25, R26, R31, R33 to R37): a burst event starts or reloads
the burst in ECONOMY and ECONOMY-BURST, has no effect in RUN and HOLD and is deferred in SHED; the timer's expiry, due
while it stands at 0, goes back to ECONOMY with the duties at the cap. A humidity handed on is tested for excursion
and each change is reported; an entry breaks ECONOMY and ECONOMY-BURST to RUN and is deferred in SHED, and a
temperature's is deferred in HOLD; one that is not VALID takes a zone that computes duties to HOLD, and one that is
VALID takes it out of HOLD to its selection, or to RUN where a break was deferred. The ordinary handing of both values
sets the dew point, makes the mode step, and tests RH and then temperature: each stage is stated for every mode. That
BURST_TIMER_EXPIRY changes nothing wherever the timer is not at 0, with no burst running too, is the model's choice (log
entry 5), and so are the mode step before the tests where the zone goes to HOLD and RH before temperature (log entry
2). -/
def Obligations.BurstStartsAndEnds : Prop :=
  ∀ (s : State) (z : Zone),
    (∀ (k : Int) (c : Climate), Ready s → indexOf 4 k = some z →
      (c = match s.climate[z].mode with
        | .economy => { s.climate[z] with mode := .economyBurst, burst := some s.store.climate[z].burst }
        | .economyBurst => { s.climate[z] with burst := some s.store.climate[z].burst }
        | .shed => { s.climate[z] with deferredBurst := true }
        | _ => s.climate[z]) →
      exec (.burst k) s =
        .next ({ s.heard with climate := s.climate.set z c }.answered { word := .ok, body := .mode c.mode })) ∧
    (∀ k : Int, Ready s → indexOf 4 k = none → exec (.burst k) s = .next (s.repliedWord .badValue)) ∧
    (∀ c : Climate, s.powered = true → s.climate[z].mode = .economyBurst → s.climate[z].burst = some 0 →
      c = { capDuties s.store.climate[z].cap s.climate[z] with mode := .economy, burst := none } →
      exec (.burstTimerExpiry z) s = .next { s with climate := s.climate.set z c }) ∧
    (s.climate[z].burst ≠ some 0 → exec (.burstTimerExpiry z) s = .next s) ∧
    (∀ (rh temp : Reading) (c : Climate),
      c = { s.climate[z] with rh := rh, temp := temp, dew := nextDew s.climate[z].dew rh temp } →
      handZone z (some rh) (some temp) s = testExcursion z .temp temp
        (testExcursion z .rh rh (modeStep z { s with climate := s.climate.set z c }))) ∧
    (∀ st : ClimateSettings, st = s.store.climate[z] →
      ((∀ v : Int, s.climate[z].rh.value ≠ .valid v) →
        (∀ y : Climate, (s.climate[z].mode = .run ∨ s.climate[z].mode = .economy ∨ s.climate[z].mode = .economyBurst) →
          y = { s.climate[z] with mode := .hold, burst := none } →
          modeStep z s = { s with climate := s.climate.set z y }) ∧
        ((s.climate[z].mode = .hold ∨ s.climate[z].mode = .shed) → modeStep z s = s)) ∧
      (∀ v : Int, s.climate[z].rh.value = .valid v → s.climate[z].mode ≠ .hold → modeStep z s = s) ∧
      (∀ v : Int, s.climate[z].rh.value = .valid v → s.climate[z].mode = .hold →
        (∀ y : Climate, s.store.selection[z] = .run →
          y = { s.climate[z] with mode := .run, burst := none, deferredBreak := false, deferredBurst := false } →
          modeStep z s = { s with climate := s.climate.set z y }) ∧
        (∀ y : Climate, s.store.selection[z] = .economy → s.climate[z].deferredBreak = false →
          y = { capDuties st.cap s.climate[z] with
            mode := .economy, burst := none, deferredBreak := false, deferredBurst := false } →
          modeStep z s = { s with climate := s.climate.set z y }) ∧
        (∀ y : Climate, s.store.selection[z] = .economy → s.climate[z].deferredBreak = true →
          y = { capDuties st.cap s.climate[z] with
            mode := .run, burst := none, deferredBreak := false, deferredBurst := false } →
          modeStep z s = post (.climateBreak z none) { s with climate := s.climate.set z y })) ∧
      (∀ (q : Quantity) (r : Reading), (∀ v : Int, r.value ≠ .valid v) → testExcursion z q r s = s) ∧
      (∀ (q : Quantity) (r : Reading) (v sp band : Int) (old out : Bool) (c : Climate), r.value = .valid v →
        old = (match q with
          | .rh => s.climate[z].outRh
          | .temp => s.climate[z].outTemp) →
        sp = (match q with
          | .rh => st.hset
          | .temp => st.tset) →
        band = (match q with
          | .rh => st.rhband
          | .temp => st.tband) →
        (out = true ↔ if old = true then band - 10 < |v - sp| else band < |v - sp|) →
        c = (match q with
          | .rh => { s.climate[z] with outRh := out }
          | .temp => { s.climate[z] with outTemp := out }) →
        (out = old → testExcursion z q r s = s) ∧
        (out ≠ old → (out = false ∨ s.climate[z].mode = .run) → testExcursion z q r s =
          post (.excursion z q out v sp band) { s with climate := s.climate.set z c }) ∧
        (∀ y : Climate, out = true → old = false →
          (s.climate[z].mode = .economy ∨ s.climate[z].mode = .economyBurst) →
          y = { c with mode := .run, burst := none } → testExcursion z q r s =
            post (.climateBreak z (some q)) (post (.excursion z q true v sp band)
              { s with climate := s.climate.set z y })) ∧
        (∀ y : Climate, out = true → old = false → (s.climate[z].mode = .hold ∨ s.climate[z].mode = .shed) →
          y = { c with deferredBreak := true } → testExcursion z q r s =
            post (.excursion z q true v sp band) { s with climate := s.climate.set z y }))) ∧
    (∀ (r : Reading) (v : Int) (st : ClimateSettings) (out : Bool) (c : Climate), r.value = .valid v →
      st = s.store.climate[z] →
      (out = true ↔
        if s.climate[z].outRh = true then st.rhband - 10 < |v - st.hset| else st.rhband < |v - st.hset|) →
      c = { s.climate[z] with rh := r, dew := nextDew s.climate[z].dew r s.climate[z].temp, outRh := out } →
      (s.climate[z].mode ≠ .hold → out = s.climate[z].outRh →
        handZone z (some r) none s = { s with climate := s.climate.set z c }) ∧
      (s.climate[z].mode ≠ .hold → out ≠ s.climate[z].outRh → (s.climate[z].mode = .run ∨ out = false) →
        handZone z (some r) none s = post (.excursion z .rh out v st.hset st.rhband)
          { s with climate := s.climate.set z c }) ∧
      (∀ y : Climate, (s.climate[z].mode = .economy ∨ s.climate[z].mode = .economyBurst) → out = true →
        s.climate[z].outRh = false → y = { c with mode := .run, burst := none } →
        handZone z (some r) none s = post (.climateBreak z (some .rh)) (post (.excursion z .rh true v st.hset st.rhband)
          { s with climate := s.climate.set z y })) ∧
      (∀ y : Climate, s.climate[z].mode = .shed → out = true → s.climate[z].outRh = false →
        y = { c with deferredBreak := true } →
        handZone z (some r) none s = post (.excursion z .rh true v st.hset st.rhband)
          { s with climate := s.climate.set z y }) ∧
      (s.climate[z].mode = .hold → out = s.climate[z].outRh →
        (∀ y : Climate, s.store.selection[z] = .run →
          y = { c with mode := .run, burst := none, deferredBreak := false, deferredBurst := false } →
          handZone z (some r) none s = { s with climate := s.climate.set z y }) ∧
        (∀ y : Climate, s.store.selection[z] = .economy → s.climate[z].deferredBreak = false →
          y = { capDuties st.cap c with
            mode := .economy, burst := none, deferredBreak := false, deferredBurst := false } →
          handZone z (some r) none s = { s with climate := s.climate.set z y }) ∧
        (∀ y : Climate, s.store.selection[z] = .economy → s.climate[z].deferredBreak = true →
          y = { capDuties st.cap c with mode := .run, burst := none, deferredBreak := false, deferredBurst := false } →
          handZone z (some r) none s = post (.climateBreak z none) { s with climate := s.climate.set z y }))) ∧
    (∀ (r : Reading) (c : Climate), (∀ v : Int, r.value ≠ .valid v) →
      c = { s.climate[z] with rh := r, dew := .invalid } →
      (∀ y : Climate, (s.climate[z].mode = .run ∨ s.climate[z].mode = .economy ∨ s.climate[z].mode = .economyBurst) →
        y = { c with mode := .hold, burst := none } →
        handZone z (some r) none s = { s with climate := s.climate.set z y }) ∧
      ((s.climate[z].mode = .hold ∨ s.climate[z].mode = .shed) →
        handZone z (some r) none s = { s with climate := s.climate.set z c })) ∧
    (∀ (r : Reading) (v : Int) (st : ClimateSettings) (c : Climate), r.value = .valid v → st = s.store.climate[z] →
      s.climate[z].outTemp = false → st.tband < |v - st.tset| →
      c = { s.climate[z] with temp := r, dew := nextDew s.climate[z].dew s.climate[z].rh r, outTemp := true } →
      (s.climate[z].mode = .run → handZone z none (some r) s = post (.excursion z .temp true v st.tset st.tband)
        { s with climate := s.climate.set z c }) ∧
      (∀ y : Climate, s.climate[z].mode = .hold → y = { c with deferredBreak := true } →
        handZone z none (some r) s = post (.excursion z .temp true v st.tset st.tband)
          { s with climate := s.climate.set z y }) ∧
      (∀ y : Climate, (s.climate[z].mode = .economy ∨ s.climate[z].mode = .economyBurst) →
        y = { c with mode := .run, burst := none } →
        handZone z none (some r) s = post (.climateBreak z (some .temp))
          (post (.excursion z .temp true v st.tset st.tband) { s with climate := s.climate.set z y })))

/-- A period start and the end of a duty (R27 to R29): the period takes the stored length, the duties are computed from
the humidity in RUN, ECONOMY and ECONOMY-BURST and carried in HOLD, each output is on where its duty is above 0, and it
goes off once the duty's eighths have elapsed. A fire state of the shed set stops the period with the duties 0 and the
outputs off, a burst left running deferred (R38); the return begins a new period at once in the selected mode, in RUN
where a break was deferred, in ECONOMY-BURST where a burst was, and in HOLD where the humidity is not VALID (R39). That
DUTY_OFF carries the time elapsed on to its duty's end is the model's choice (log entry 7). -/
def Obligations.PeriodStartsAndDutiesEnd : Prop :=
  ∀ (s : State) (z : Zone) (st : ClimateSettings), s.powered = true → st = s.store.climate[z] →
    (∀ (h : Int) (dh hu : Nat) (c : Climate), s.climate[z].elapsed.isSome = true →
      s.climate[z].mode.computes = true → s.climate[z].rh.value = .valid h →
      (dh, hu) = (if s.climate[z].mode = .economy then (min (duties st h).1 st.cap, min (duties st h).2 st.cap)
        else duties st h) →
      c = { s.climate[z] with
        period := st.period, elapsed := some 0, dh := dh, hu := hu, dhOn := decide (0 < dh)
        huOn := decide (0 < hu) } →
      exec (.periodStart z) s = .next { s with climate := s.climate.set z c }) ∧
    (∀ c : Climate, s.climate[z].elapsed.isSome = true → s.climate[z].mode = .hold →
      c = { s.climate[z] with
        period := st.period, elapsed := some 0, dhOn := decide (0 < s.climate[z].dh)
        huOn := decide (0 < s.climate[z].hu) } →
      exec (.periodStart z) s = .next { s with climate := s.climate.set z c }) ∧
    (∀ (t : Nat) (c : Climate), s.climate[z].elapsed = some t →
      (s.climate[z].dh < 8 → c = { s.climate[z] with
          elapsed := some (max t (s.climate[z].dh * (s.climate[z].period / 8))), dhOn := false } →
        exec (.dutyOff z .dehumidifier) s = .next { s with climate := s.climate.set z c }) ∧
      (s.climate[z].hu < 8 → c = { s.climate[z] with
          elapsed := some (max t (s.climate[z].hu * (s.climate[z].period / 8))), huOn := false } →
        exec (.dutyOff z .humidifier) s = .next { s with climate := s.climate.set z c })) ∧
    (∀ left entered : FireState,
      (left.sheds = entered.sheds → react z left entered .climate s = s) ∧
      (∀ c : Climate, left.sheds = false → entered.sheds = true →
        c = { s.climate[z] with
          mode := .shed, dh := 0, hu := 0, dhOn := false, huOn := false, elapsed := none, burst := none
          deferredBurst := s.climate[z].deferredBurst || s.climate[z].burst.isSome } →
        react z left entered .climate s = { s with climate := s.climate.set z c }) ∧
      (left.sheds = true → entered.sheds = false →
        (∀ (h : Int) (c : Climate), s.climate[z].rh.value = .valid h →
          c = { s.climate[z] with
            period := st.period, elapsed := some 0, burst := none, deferredBreak := false, deferredBurst := false
            mode := .run, dh := (duties st h).1, hu := (duties st h).2, dhOn := decide (0 < (duties st h).1)
            huOn := decide (0 < (duties st h).2) } →
          (s.store.selection[z] = .run →
            react z left entered .climate s = { s with climate := s.climate.set z c }) ∧
          (s.store.selection[z] = .economy → s.climate[z].deferredBreak = true →
            react z left entered .climate s = post (.climateBreak z none) { s with climate := s.climate.set z c }) ∧
          (∀ y : Climate, s.store.selection[z] = .economy → s.climate[z].deferredBreak = false →
            s.climate[z].deferredBurst = true → y = { c with mode := .economyBurst, burst := some st.burst } →
            react z left entered .climate s = { s with climate := s.climate.set z y }) ∧
          (∀ (y : Climate) (dh hu : Nat), s.store.selection[z] = .economy → s.climate[z].deferredBreak = false →
            s.climate[z].deferredBurst = false → dh = min (duties st h).1 st.cap → hu = min (duties st h).2 st.cap →
            y = { c with mode := .economy, dh := dh, hu := hu, dhOn := decide (0 < dh), huOn := decide (0 < hu) } →
            react z left entered .climate s = { s with climate := s.climate.set z y })) ∧
        (∀ c : Climate, (∀ h : Int, s.climate[z].rh.value ≠ .valid h) →
          c = { s.climate[z] with
            mode := .hold, burst := none, deferredBurst := false, period := st.period, elapsed := some 0
            dhOn := decide (0 < s.climate[z].dh), huOn := decide (0 < s.climate[z].hu) } →
          react z left entered .climate s = { s with climate := s.climate.set z c }))) ∧
    (∀ (h : Int) (n : Nat), 0 < st.step →
      (-st.band ≤ h - st.hset → h - st.hset ≤ st.band → duties st h = (0, 0)) ∧
      (h - st.hset > st.band → (n - 1 : Int) * st.step < h - st.hset - st.band →
        h - st.hset - st.band ≤ n * st.step → duties st h = (min 8 n, 0)) ∧
      (0 ≤ st.band → h - st.hset < -st.band → (n - 1 : Int) * st.step < -(h - st.hset) - st.band →
        -(h - st.hset) - st.band ≤ n * st.step → duties st h = (0, min 8 n)))

/-! ### The custody table (chapter 3) -/

/-- ADD-CARTRIDGE, READ-CARTRIDGE and LIST-CARTRIDGES (R44, R45, R47, R48): the checks of R45 in their order; an
accepted record stands SHELVED in its place in label order; a reading gives the record with its zone, aisle and index
and changes nothing. -/
def Obligations.CartridgeIsAddedAndRead : Prop :=
  ∀ (s : State) (label media : Text) (f : HomeFields), Ready s →
    ((labelOk label = false ∨ mediaOf media = none ∨ s.homeNamed f = none) →
      exec (.addCartridge label media f) s = .next (s.repliedWord .badValue)) ∧
    (∀ (m : Char) (home : Home), labelOk label = true → mediaOf media = some m → s.homeNamed f = some home →
      (s.held (s.store.bank[home.bank].zone) = true →
        exec (.addCartridge label media f) s = .next (s.repliedWord .fireHold)) ∧
      (s.held (s.store.bank[home.bank].zone) = false → 2048 ≤ s.store.cartridges.length →
        exec (.addCartridge label media f) s = .next (s.repliedWord .full)) ∧
      (s.held (s.store.bank[home.bank].zone) = false → s.store.cartridges.length < 2048 →
        ((∃ c ∈ s.store.cartridges, c.label = label ∨ c.home = home) →
          exec (.addCartridge label media f) s = .next (s.replied
            { word := .refused, body := .duplicate (s.cartridge? label).isSome (s.holderOf home) })) ∧
        ((∀ c ∈ s.store.cartridges, c.label ≠ label ∧ c.home ≠ home) →
          ∃ cs : List Cartridge,
            exec (.addCartridge label media f) s = .next ((s.heard.withTable cs).answered
              { word := .ok, body := .index (cs.findIdx fun c => c.label == label) }) ∧
            cs.Perm ({ label := label, media := m, home := home, custody := .shelved } :: s.store.cartridges) ∧
            (TableLaw s.store.cartridges → TableLaw cs)))) ∧
    (∀ (c : Cartridge) (z : Zone) (aisle i : Nat), labelOk label = true → s.cartridge? label = some c →
      z = s.store.bank[c.home.bank].zone →
      aisle = (if c.home.face = .front then c.home.carriage - 1 else c.home.carriage) →
      i = (s.store.cartridges.findIdx fun d => d.label == label) →
      exec (.readCartridge label) s = .next (s.replied { word := .ok, body := .cartridge c z aisle i })) ∧
    (labelOk label = true → s.cartridge? label = none →
      exec (.readCartridge label) s = .next (s.repliedWord .notFound)) ∧
    (∀ (start : Nat) (rows : List CartridgeRow),
      rows = (((s.store.cartridges.drop start).take 8).zipIdx.map fun x : Cartridge × Nat =>
        { index := start + x.2, label := x.1.label, media := x.1.media, state := x.1.custody.name,
          zone := s.store.bank[x.1.home.bank].zone }) →
      exec (.listCartridges start none none) s = .next (s.replied
        { word := .ok,
          body := .cartridges rows (if start + 8 < s.store.cartridges.length then some (start + 8) else none) }))

/-- REMOVE-CARTRIDGE (R46): a record in SHELVED or MISSING is deleted, its label and home are free at once, and the
indices of the records after it fall by 1; any other state is WRONG-STATE, a zone in the fire hold set FIRE-HOLD. -/
def Obligations.RemovedCartridgeFreesLabelAndHome : Prop :=
  ∀ (s : State) (label : Text) (c : Cartridge), Ready s → TableLaw s.store.cartridges → labelOk label = true →
    s.cartridge? label = some c →
    (s.held (s.store.bank[c.home.bank].zone) = true →
      exec (.removeCartridge label) s = .next (s.repliedWord .fireHold)) ∧
    (s.held (s.store.bank[c.home.bank].zone) = false → c.custody ≠ .shelved → c.custody ≠ .missing →
      exec (.removeCartridge label) s =
        .next (s.replied { word := .refused, body := .wrongState c.custody.name })) ∧
    (s.held (s.store.bank[c.home.bank].zone) = false → (c.custody = .shelved ∨ c.custody = .missing) →
      ∃ (i : Nat) (t : State), s.store.cartridges[i]? = some c ∧
        t = (s.heard.withTable (s.store.cartridges.eraseIdx i)).answered { word := .ok } ∧
        exec (.removeCartridge label) s = .next t ∧ t.cartridge? label = none ∧ t.holderOf c.home = none ∧
        (∀ d ∈ s.store.cartridges, labelBefore label d.label = true →
          t.indexOfLabel d.label + 1 = s.indexOfLabel d.label))

/-- MARK-MISSING and MARK-FOUND (R50): SHELVED or RESHELVE to MISSING, MISSING to SHELVED, WRONG-STATE from any other
state, FIRE-HOLD in the fire hold set; the record keeps its home, flags and count, and its home stays taken. -/
def Obligations.MissingIsMarkedAndFound : Prop :=
  ∀ (s : State) (label : Text) (c : Cartridge), Ready s → labelOk label = true → s.cartridge? label = some c →
    (s.held (s.store.bank[c.home.bank].zone) = true →
      exec (.markMissing label) s = .next (s.repliedWord .fireHold) ∧
      exec (.markFound label) s = .next (s.repliedWord .fireHold)) ∧
    (s.held (s.store.bank[c.home.bank].zone) = false →
      ((c.custody = .shelved ∨ c.custody = .reshelve) → exec (.markMissing label) s =
        .next ((s.heard.changing label fun d => { d with custody := .missing }).answered { word := .ok })) ∧
      (c.custody ≠ .shelved → c.custody ≠ .reshelve → exec (.markMissing label) s =
        .next (s.replied { word := .refused, body := .wrongState c.custody.name })) ∧
      (c.custody = .missing → exec (.markFound label) s =
        .next ((s.heard.changing label fun d => { d with custody := .shelved }).answered { word := .ok })) ∧
      (c.custody ≠ .missing → exec (.markFound label) s =
        .next (s.replied { word := .refused, body := .wrongState c.custody.name })) ∧
      (∀ (label' media : Text) (m : Char) (f : HomeFields), c.custody = .missing → labelOk label' = true →
        mediaOf media = some m → s.homeNamed f = some c.home → s.store.cartridges.length < 2048 →
        ∃ b : Body, exec (.addCartridge label' media f) s = .next (s.replied { word := .refused, body := b })))

/-- SET-HOME, RELEASE-HOLD, HOLD_ENDED and the hold settings (R49, R51, R61, R66): a home moves to a free slot; a hold
is released early with its flag, or ends with HOLD-ENDED; a lowered HoldMax lowers the holds above it. That HOLD_ENDED
acts only where this minute ends the hold is the model's choice (log entry 5), and so is that a value brought to the one
stored is CLAMPED (log entry 22). -/
def Obligations.HomesAndHoldsAreChanged : Prop :=
  ∀ (s : State) (label : Text),
    (∀ (c : Cartridge) (f : HomeFields) (home : Home), Ready s → labelOk label = true →
      s.cartridge? label = some c → s.homeNamed f = some home →
      s.held (s.store.bank[c.home.bank].zone) = false → s.held (s.store.bank[home.bank].zone) = false →
      c.custody = .shelved →
      (c.home = home → exec (.setHome label f) s = .next (s.repliedWord .ok)) ∧
      (c.home ≠ home → s.holderOf home = none → exec (.setHome label f) s =
        .next ((s.heard.changing label fun d => { d with home := home }).answered { word := .ok })) ∧
      (∀ other : Text, c.home ≠ home → s.holderOf home = some other → exec (.setHome label f) s =
        .next (s.replied { word := .refused, body := .slotTaken other }))) ∧
    (∀ (c : Cartridge) (n : Nat), Ready s → labelOk label = true → s.cartridge? label = some c →
      c.custody = .quarantine n → s.held (s.store.bank[c.home.bank].zone) = false → exec (.releaseHold label) s =
        .next ((s.heard.changing label fun d => { d with custody := .reshelve, holdReleasedEarly := true }).answered
          { word := .ok, body := .minutes n })) ∧
    (∀ (c : Cartridge) (n : Nat), s.powered = true → s.cartridge? label = some c → c.custody = .quarantine n →
      (n ≤ 1 → (∀ d ∈ s.store.cartridges, d.label = label → d = c) → exec (.holdEnded label) s =
        .next (post (.holdEnded c.label (s.store.bank[c.home.bank].zone) c.home none)
          (s.changing label fun d => { d with custody := .reshelve }))) ∧
      (2 ≤ n → exec (.holdEnded label) s = .next s)) ∧
    (∀ v : Int, Ready s →
      exec (.writeSettingHoldKtKh .kT none (some v)) s =
        .next ({ s.heard with store := { s.store with
          hold := { s.store.hold with kT := (clamp 0 255 v).toNat } } }.answered (usedAnswer v (clamp 0 255 v))) ∧
      exec (.writeSettingHoldKtKh .kH none (some v)) s =
        .next ({ s.heard with store := { s.store with
          hold := { s.store.hold with kH := (clamp 0 255 v).toNat } } }.answered (usedAnswer v (clamp 0 255 v))) ∧
      (∀ u : Int, u = min (clamp 0 1440 v) s.store.hold.holdMax → exec (.writeSettingHoldMin none (some v)) s =
        .next ({ s.heard with store := { s.store with
          hold := { s.store.hold with holdMin := u.toNat } } }.answered (usedAnswer v u))) ∧
      (∀ u : Int, u = max (clamp 60 10080 v) s.store.hold.holdMin → exec (.writeSettingHoldMax none (some v)) s =
        .next ({ s.heard with store := { s.store with
          hold := { s.store.hold with holdMax := u.toNat }
          cartridges := s.store.cartridges.map fun c : Cartridge =>
            match c.custody with
            | .quarantine n => { c with custody := .quarantine (min n u.toNat) }
            | _ => c } }.answered (usedAnswer v u))))

/-- The hold of a return with an exposure summary (R63), stage by stage; it lies between HoldMin and HoldMax, and its
computation sets no flag of any record. -/
def Obligations.HoldIsComputedInSixStages : Prop :=
  ∀ (k : HoldSettings) (tset hset dT dH h1 h2 h3 h4 : Int) (e : Exposure) (risk : Bool),
    dT = clamp 0 1000 (max |e.tmax - tset| |tset - e.tmin|) →
    dH = clamp 0 1000 (max |e.hmax - hset| |hset - e.hmin|) →
    10 * (h1 - 1) < k.kT * dT + k.kH * dH → k.kT * dT + k.kH * dH ≤ 10 * h1 →
    h2 = min h1 (4 * e.minutes) → h3 = max h2 k.holdMin → h4 = (if risk then 2 * h3 else h3) →
    (holdWithSummary k tset hset e risk : Int) = min h4 k.holdMax ∧
    (k.kT ≤ 255 → k.kH ≤ 255 → 0 ≤ h1 ∧ h1 ≤ 51000) ∧
    (k.holdMin ≤ k.holdMax → k.holdMin ≤ holdWithSummary k tset hset e risk ∧
      holdWithSummary k tset hset e risk ≤ k.holdMax) ∧
    (∀ (s : State) (h : HatchId) (m : Manifest), m.exposure = some e → (keepHold h m false s).store = s.store)

/-! ### The staging ports (section 3.4) -/

/-- A label record at a staging port (R55 to R58, R60): an unreadable one shows red; a repeat inside its window shows
its colour again, or red in fire hold; a fresh one is decided, reported and shown by the steps of R57 and the cartridge's
custody state; the aisle request of a RESHELVE is not sent above the carriage count, refused by a full queue, or taken
(R59). The indicator and the repeat window end with their timers, and READ-STAGING changes nothing. That a repeat is red
only where the zone is in the fire hold set at the repeat, and the colour it leaves as the one last shown, are the
model's choices (log entry 23), and so is that FOUND carries MISSING, the state at the read (log entry 13). -/
def Obligations.StagingReadIsDecided : Prop :=
  ∀ (s : State) (r : ReaderId) (run : LabelRun), s.powered = true →
    (∀ (e : UnreadReason) (p : Staging), readLabel run = .error e →
      p = { s.staging[r] with lastRead := some (.unreadable e), since := 0, colour := .red, left := some 3 } →
      exec (.stagingLabelRecord r run) s = .next { s with staging := s.staging.set r p }) ∧
    (∀ (l : Text) (m : Char), readLabel run = .ok (l, m) →
      (∀ (col : Colour) (p : Staging), s.staging[r].lastGood = some (l, m) → s.staging[r].window.isSome = true →
        (col = if s.held (s.store.bank[r].zone) = true ∨
            (∃ c, s.cartridge? l = some c ∧ s.held (s.store.bank[c.home.bank].zone) = true) then .red
          else s.staging[r].shown) →
        p = { s.staging[r] with
          lastRead := some (.again l m), since := 0, window := some 3, colour := col, left := some 3, shown := col } →
        exec (.stagingLabelRecord r run) s = .next { s with staging := s.staging.set r p }) ∧
      ((s.staging[r].lastGood ≠ some (l, m) ∨ s.staging[r].window = none) →
        ∃ (t : State) (col : Colour) (o : ReadOutcome), decideRead r l m s = (t, col, o) ∧
          exec (.stagingLabelRecord r run) s = .next { t with staging := t.staging.set r { t.staging[r] with
            lastRead := some (.good l m o), since := 0, lastGood := some (l, m), window := some 3, colour := col
            left := some 3, shown := col } })) ∧
    (∀ (c : Cartridge), s.held (s.store.bank[r].zone) = false → s.held (s.store.bank[c.home.bank].zone) = false →
      s.cartridge? c.label = some c →
      decideRead r c.label c.media s = (match c.custody with
        | .reserved id => (s.moveItem id c.label (fun d => { d with custody := .picked id }) .picked, .green)
        | .reshelve =>
          (requestShelf c (s.modCartridge c.label fun d => { d with custody := .shelved }), .green)
        | .missing =>
          (post (.found r c.label .missing) (s.modCartridge c.label fun d => { d with custody := .reshelve }), .green)
        | .shelved => (post (.strayScan r c.label .shelved) s, .amber)
        | .picked _ => (post (.strayScan r c.label .picked) s, .amber)
        | .inHatchOut _ => (post (.strayScan r c.label .inHatchOut) s, .amber)
        | .quarantine n => (post (.earlyReshelve r c.label .quarantine n) s, .red)
        | .out id => (post (.custodyConflict r c.label .out (.courier id)) s, .red)
        | .inHatchIn id => (post (.custodyConflict r c.label .inHatchIn (.manifest id)) s, .red) :
          State × Colour).map id fun col => (col, .custody c.custody.name)) ∧
    (∀ (l : Text) (m : Char), s.held (s.store.bank[r].zone) = true →
      decideRead r l m s = (post (.stagingFireHold r l (s.store.bank[r].zone)) s, .red, .readerFireHold)) ∧
    (∀ (l : Text) (m : Char), s.held (s.store.bank[r].zone) = false → s.cartridge? l = none →
      decideRead r l m s = (post (.unknownLabel r l) s, .red, .unknownLabel)) ∧
    (∀ (c : Cartridge) (m : Char), s.held (s.store.bank[r].zone) = false → s.cartridge? c.label = some c → m ≠ c.media →
      decideRead r c.label m s = (post (.mediaMismatch r c.label m c.media) s, .red, .mediaMismatch)) ∧
    (∀ c : Cartridge, s.held (s.store.bank[r].zone) = false → s.cartridge? c.label = some c →
      s.held (s.store.bank[c.home.bank].zone) = true → decideRead r c.label c.media s =
        (post (.stagingFireHold r c.label (s.store.bank[c.home.bank].zone)) s, .red, .cartridgeFireHold)) ∧
    (∀ (c : Cartridge) (b : BankId) (k : Nat), b = c.home.bank →
      k = (match c.home.face with
        | .front => c.home.carriage - 1
        | .back => c.home.carriage) →
      (s.store.bank[b].carriages < k → requestShelf c s = post (.aisleRefused b k c.label .noSuchAisle) s) ∧
      (k ≤ s.store.bank[b].carriages → s.held (s.store.bank[b].zone) = false →
        ((s.bank[b].motion = .idle ∧ s.bank[b].position = some k) ∨ k ∈ s.bank[b].queue → requestShelf c s = s) ∧
        (¬(s.bank[b].motion = .idle ∧ s.bank[b].position = some k) → k ∉ s.bank[b].queue →
          (8 ≤ s.bank[b].queue.length → requestShelf c s = post (.aisleRefused b k c.label .full) s) ∧
          (s.bank[b].queue.length < 8 → requestShelf c s = (aisleRequest b k s).1 ∧
            (aisleRequest b k s).2 = .queued (s.bank[b].queue.length + 1))))) ∧
    (∀ p : Staging, s.staging[r].left.isSome = true → p = { s.staging[r] with colour := .off, left := none } →
      exec (.stagingIndicatorTimeout r) s = .next { s with staging := s.staging.set r p }) ∧
    (∀ p : Staging, p = { s.staging[r] with window := none } →
      exec (.repeatWindowEnd r) s = .next { s with staging := s.staging.set r p }) ∧
    (∀ k : Int, Ready s → indexOf 4 k = some r →
      exec (.readStaging k) s = .next (s.replied { word := .ok, body := .staging s.staging[r] }))

/-! ### Manifests (chapter 4) -/

/-- SUBMIT-OUTBOUND and SUBMIT-INBOUND (R72 to R76): a list with no failing item is accepted under a fresh ID at the end
of the table, an outbound one reserves its cartridges, and a table of 16, or a failing item, refuses either whole. The
failing items are listed in position order, each with its position from 1 and the first test it fails: a record, the
state SHELVED (OUT for an inbound one), no earlier item of the label, and for an outbound one a zone outside the fire
hold set. A summary is given with all five of its fields or with none. Every other answer leaves the hatch that the request
names woken: one in IDLE has its idle timer reloaded, one in STANDBY returns to IDLE (R118, R188). A partial summary is
answered BAD-REQUEST and wakes no hatch: that it is a fault of step 3 of R183, which a request must pass to name its
hatch (R188), is the model's inference, and which missing field it names is the model's too (log entry 22). -/
def Obligations.SubmissionIsAccepted : Prop :=
  ∀ (s u : State) (k courier validity : Int) (h : HatchId) (items : List Text), Ready s → indexOf 2 k = some h →
    u = wake h s.heard → submissionOk courier items = true →
    (16 ≤ s.store.manifests.length →
      exec (.submitOutbound k courier validity items) s = .next (u.answered { word := .full }) ∧
      ∀ f : SummaryFields, partialSummary f = none →
        exec (.submitInbound k courier validity items f) s = .next (u.answered { word := .full })) ∧
    (∀ f : SummaryFields,
      (partialSummary f = none ↔
        (f.tmax = none ∧ f.tmin = none ∧ f.hmax = none ∧ f.hmin = none ∧ f.minutes = none) ∨
        (f.tmax ≠ none ∧ f.tmin ≠ none ∧ f.hmax ≠ none ∧ f.hmin ≠ none ∧ f.minutes ≠ none)) ∧
      ∀ missing : String, partialSummary f = some missing → exec (.submitInbound k courier validity items f) s =
        .next (s.replied { word := .badRequest, body := .badField missing.toList })) ∧
    (s.store.manifests.length < 16 →
      (itemFailures .out s [] 1 items ≠ [] → exec (.submitOutbound k courier validity items) s =
        .next (u.answered { word := .refused, body := .items (itemFailures .out s [] 1 items) })) ∧
      (∀ f : SummaryFields, itemFailures .in_ s [] 1 items ≠ [] → partialSummary f = none →
        exec (.submitInbound k courier validity items f) s =
          .next (u.answered { word := .refused, body := .items (itemFailures .in_ s [] 1 items) })) ∧
      (∀ m : Manifest, itemFailures .out s [] 1 items = [] →
        m = { id := m.id, direction := .out, hatch := h, courier := courier.toNat
              items := items.map fun l => { label := l, status := .reserved }
              validity := (clamp 1 1440 validity).toNat, active := false, exposure := none } →
        m.id = s.nextManifestId →
        exec (.submitOutbound k courier validity items) s = .next ({ u with store := { s.store with
          manifests := s.store.manifests ++ [m], lastManifest := m.id
          cartridges := s.store.cartridges.map fun c : Cartridge => if c.label ∈ items then c.reserve m.id else c } }.answered
            { word := if clamp 1 1440 validity = validity then .ok else .clamped
              body := .submitted m.id m.validity [] }) ∧
        1 ≤ m.id ∧ m.id ≤ 65535 ∧ ∀ n ∈ s.store.manifests, n.id ≠ m.id) ∧
      (∀ (m : Manifest) (f : SummaryFields), itemFailures .in_ s [] 1 items = [] → partialSummary f = none →
        m = { id := m.id, direction := .in_, hatch := h, courier := courier.toNat
              items := items.map fun l => { label := l, status := .expected }
              validity := (clamp 1 1440 validity).toNat, active := false, exposure := usedSummary f } →
        m.id = s.nextManifestId →
        exec (.submitInbound k courier validity items f) s = .next ({ u with store := { s.store with
          manifests := s.store.manifests ++ [m], lastManifest := m.id } }.answered
            { word := if clamp 1 1440 validity = validity ∧ clampedSummary f = [] then .ok else .clamped
              body := .submitted m.id m.validity (clampedSummary f) }))) ∧
    (∀ (earlier : List Text) (l : Text),
      (itemFault .out s earlier l = none ↔ ∃ c, s.cartridge? l = some c ∧ c.custody = .shelved ∧ l ∉ earlier ∧
        s.held (s.store.bank[c.home.bank].zone) = false) ∧
      (itemFault .in_ s earlier l = none ↔
        ∃ (c : Cartridge) (n : Nat), s.cartridge? l = some c ∧ c.custody = .out n ∧ l ∉ earlier) ∧
      (∀ d : Direction, itemFault d s earlier l = some .notFound ↔ s.cartridge? l = none) ∧
      (∀ (d : Direction) (c : Cartridge) (right : Prop), s.cartridge? l = some c →
        right = (match d with
          | .out => c.custody = .shelved
          | .in_ => ∃ n : Nat, c.custody = .out n) →
        (¬right → itemFault d s earlier l = some (.wrongState c.custody.name)) ∧
        (right → l ∈ earlier → itemFault d s earlier l = some .duplicate)) ∧
      (∀ c : Cartridge, s.cartridge? l = some c → c.custody = .shelved → l ∉ earlier →
        s.held (s.store.bank[c.home.bank].zone) = true → itemFault .out s earlier l = some .fireHold)) ∧
    (∀ (d : Direction) (ls : List Text),
      (itemFailures d s [] 1 ls).Pairwise (fun a b => a.pos < b.pos) ∧
      ∀ x : ItemFailure, x ∈ itemFailures d s [] 1 ls ↔ ∃ i : Nat, x.pos = i + 1 ∧ ls[i]? = some x.label ∧
        itemFault d s (ls.take i) x.label = some x.fault)

/-- CANCEL-MANIFEST, MANIFEST_EXPIRED, GUIDE-PICKS, READ-MANIFEST and LIST-MANIFESTS (R78 to R81, R85): a manifest
that expires or is cancelled leaves the table, its RESERVED cartridges go back to SHELVED and its PICKED ones to
RESHELVE, and MANIFEST-EXPIRED is posted; an ACTIVE one is BUSY. Picks ask, for each RESERVED item in list order, for
the aisle its cartridge's home faces: one above the bank's carriage count is not sent and counted so, and each other
is counted in its bank's row by the bank's answer. That MANIFEST_EXPIRED acts only where this minute ends the validity
is the model's choice (log entry 5), and so is that the labels of the report stand in item order (log entry 13). -/
def Obligations.ManifestsEndAndAreRead : Prop :=
  ∀ (s released : State) (m : Manifest), s.manifest? m.id = some m →
    released = { s with store := { s.store with
      manifests := s.store.manifests.filter fun n : Manifest => n.id != m.id
      cartridges := s.store.cartridges.map fun c =>
        if m.direction = .out ∧ c.label ∈ m.labelsIn .picked then { c with custody := .reshelve }
        else if m.direction = .out ∧ c.label ∈ m.labelsIn .reserved then { c with custody := .shelved }
        else c } } →
    (s.powered = true → m.active = false → m.validity ≤ 1 → exec (.manifestExpired m.id) s =
      .next (post (.manifestExpired m.id m.direction m.hatch m.courier false
        (if m.direction = .out then m.labelsIn .reserved else [])
        (if m.direction = .out then m.labelsIn .picked else [])) released)) ∧
    (s.powered = true → (m.active = true ∨ 2 ≤ m.validity) → exec (.manifestExpired m.id) s = .next s) ∧
    (Ready s →
      (m.active = true → exec (.cancelManifest m.id) s = .next (s.repliedWord .busy)) ∧
      (m.active = false → m.touchesFire s = true → exec (.cancelManifest m.id) s = .next (s.repliedWord .fireHold)) ∧
      (m.active = false → m.touchesFire s = false → exec (.cancelManifest m.id) s =
        .next ((post (.manifestExpired m.id m.direction m.hatch m.courier true
          (if m.direction = .out then m.labelsIn .reserved else [])
          (if m.direction = .out then m.labelsIn .picked else [])) released).heard.answered { word := .ok })) ∧
      (m.direction = .in_ → exec (.guidePicks m.id) s =
        .next (s.replied { word := .refused, body := .refusedFor .wrongDirection })) ∧
      (m.direction = .out → ∃ (t : State) (rows : Vector PickRow 4),
        guide (m.labelsIn .reserved) s.heard noPicks = (t, rows) ∧
        exec (.guidePicks m.id) s = .next (t.answered
          { word := .ok, body := .picks (rows.toList.filter fun r => decide (0 < r.items)) })) ∧
      (∀ b : BankId, (noPicks[b] : PickRow) =
        { bank := b, items := 0, taken := 0, full := 0, fireHold := 0, noSuchAisle := 0 }) ∧
      (∀ (t : State) (rows : Vector PickRow 4) (l : Text) (ls : List Text) (c : Cartridge) (b : BankId) (k : Nat)
        (r : PickRow), t.cartridge? l = some c → b = c.home.bank →
        k = (match c.home.face with
          | .front => c.home.carriage - 1
          | .back => c.home.carriage) →
        r = rows[b] →
        guide [] t rows = (t, rows) ∧
        (t.store.bank[b].carriages < k → guide (l :: ls) t rows =
          guide ls t (rows.set b { r with items := r.items + 1, noSuchAisle := r.noSuchAisle + 1 })) ∧
        (∀ (u : State) (o : AisleOutcome), k ≤ t.store.bank[b].carriages → aisleRequest b k t = (u, o) →
          (o = .full → guide (l :: ls) t rows =
            guide ls u (rows.set b { r with items := r.items + 1, full := r.full + 1 })) ∧
          (o = .fireHold → guide (l :: ls) t rows =
            guide ls u (rows.set b { r with items := r.items + 1, fireHold := r.fireHold + 1 })) ∧
          (o ≠ .full → o ≠ .fireHold → guide (l :: ls) t rows =
            guide ls u (rows.set b { r with items := r.items + 1, taken := r.taken + 1 })))) ∧
      (∀ page : List (Nat × Item), page = ((m.items.take 12).zipIdx.map fun x => (1 + x.2, x.1)) →
        exec (.readManifest m.id none) s = .next (s.replied
          { word := .ok, body := .manifest m page (if 12 < m.items.length then some 13 else none) })) ∧
      (∀ rows : List (Nat × Manifest), rows = ((s.store.manifests.take 8).zipIdx.map fun x => (x.2, x.1)) →
        exec (.listManifests none) s = .next (s.replied
          { word := .ok, body := .manifests rows (if 8 < s.store.manifests.length then some 8 else none) })) ∧
      (∀ k : Int, s.manifestNamed k = none → exec (.readManifest k none) s = .next (s.repliedWord .notFound) ∧
        exec (.cancelManifest k) s = .next (s.repliedWord .notFound) ∧
        exec (.guidePicks k) s = .next (s.repliedWord .notFound)))

/-! ### Hatches (chapter 5) -/

/-- LOAD-HATCH and badges begin a handover (R82, R88, R92, R93, R97, R102, R116, R118): an OPEN outbound manifest is
taken up to LOADING with the inner shutter unlocked, and each check of R93 that fails is answered in its order; a badge
takes up its inbound manifest to COURIER-ACCESS with the outer shutter unlocked, begins a query where there is none, and
is compared in AWAIT-COURIER; it shows amber in RECEIPT-PENDING and red in HELD-FIRE, and is ignored in every other
phase and while a scan is in flight; a hatch in STANDBY takes both as in IDLE; the handover record is written whole,
with the tray (R114). That a take-up clears the released-with-risk mark is the model's choice (log entry 10). So is
what a badge that cannot be decoded shows in IDLE and in RECEIPT-PENDING, for how long it shows red, and that a scan in
flight has a badge ignored in HELD-FIRE too (log entry 16). -/
def Obligations.HandoverBegins : Prop :=
  ∀ (s : State) (h : HatchId) (x : Hatch) (m : Manifest), x = s.hatch[h] → x.scan = none →
    x.inner.locked = true → x.inner.sensorOpen = false → x.outer.locked = true → x.outer.sensorOpen = false →
    (∀ (k : Int) (y : Hatch), Ready s → indexOf 2 k = some h → s.held (s.store.hatch[h].zone) = false →
      x.phase = .idle → s.manifest? m.id = some m → m.direction = .out → m.hatch = h → m.active = false →
      m.workLeft = true →
      y = { x with
        phase := .loading, idle := none, manifest := some m.id, risk := false, query := none, rejectTimer := none,
        rejectExpired := false, unlockDue := none,
        inner := { x.inner with locked := false, unlock := some s.store.hatch[h].unlockTimeout } } →
      exec (.loadHatch k m.id) s = .next ({ s.heard with
        store := { s.store with
          manifests := s.store.manifests.map fun n : Manifest => if n.id = m.id then { n with active := true } else n
          handover := s.store.handover.set h (some {
            manifest := m.id, direction := .out, phaseClass := .load, tray := x.tray, start := s.minute }) }
        hatch := s.hatch.set h y }.answered { word := .ok })) ∧
    (∀ k id : Int, Ready s → indexOf 2 k = none → exec (.loadHatch k id) s = .next (s.repliedWord .badValue)) ∧
    (∀ k id : Int, Ready s → indexOf 2 k = some h → x.phase ≠ .idle → x.phase ≠ .standby →
      ((x.phase = .heldFire ∨ s.held (s.store.hatch[h].zone) = true) →
        exec (.loadHatch k id) s = .next (s.repliedWord .fireHold)) ∧
      (x.phase ≠ .heldFire → s.held (s.store.hatch[h].zone) = false →
        exec (.loadHatch k id) s = .next (s.repliedWord .busy))) ∧
    (∀ (k id : Int) (y : Hatch) (u : State), Ready s → indexOf 2 k = some h → x.phase = .idle →
      y = { x with idle := some s.store.hatch[h].standbyTime } → u = { s.heard with hatch := s.hatch.set h y } →
      (s.held (s.store.hatch[h].zone) = true →
        exec (.loadHatch k id) s = .next (u.answered { word := .fireHold })) ∧
      (s.held (s.store.hatch[h].zone) = false →
        ((∀ n ∈ s.store.manifests, (n.id : Int) ≠ id) →
          exec (.loadHatch k id) s = .next (u.answered { word := .notFound })) ∧
        (∀ why : RefusedFor, s.manifest? m.id = some m →
          (why = .wrongDirection ∧ m.direction = .in_ ∨
            why = .wrongHatch ∧ m.direction = .out ∧ m.hatch ≠ h ∨
            why = .active ∧ m.direction = .out ∧ m.hatch = h ∧ m.active = true ∨
            why = .nothingToLoad ∧ m.direction = .out ∧ m.hatch = h ∧ m.active = false ∧
              ∀ i ∈ m.items, i.status ≠ .reserved ∧ i.status ≠ .picked) →
          exec (.loadHatch k m.id) s = .next (u.answered { word := .refused, body := .refusedFor why })))) ∧
    (∀ (y : Hatch) (u : State), x.phase = .standby → y = x.toIdle s.store.hatch[h].standbyTime →
      u = { s with hatch := s.hatch.set h y } →
      (∀ b : Option Nat, s.powered = true → exec (.badgeRead h b) s = exec (.badgeRead h b) u) ∧
      (∀ k id : Int, Ready s → indexOf 2 k = some h → exec (.loadHatch k id) s = exec (.loadHatch k id) u)) ∧
    (∀ (courier : Nat) (y : Hatch), s.powered = true → x.phase = .idle → s.held (s.store.hatch[h].zone) = false →
      s.inboundFor h courier = some m → m.direction = .in_ →
      y = { x with
        phase := .courierAccess, idle := none, manifest := some m.id, risk := false, query := none,
        rejectTimer := none, rejectExpired := false, unlockDue := none, colour := .green, colourLeft := some 3,
        outer := { x.outer with locked := false, unlock := some s.store.hatch[h].unlockTimeout } } →
      exec (.badgeRead h (some courier)) s = .next { s with
        store := { s.store with
          manifests := s.store.manifests.map fun n : Manifest => if n.id = m.id then { n with active := true } else n
          handover := s.store.handover.set h (some {
            manifest := m.id, direction := .in_, phaseClass := .inAccess, tray := x.tray, start := s.minute }) }
        hatch := s.hatch.set h y }) ∧
    (∀ (courier : Nat) (y : Hatch), s.powered = true → x.phase = .idle → s.inboundFor h courier = none →
      y = { x with
        phase := .query, idle := none, unlockDue := none, colour := .amber, colourLeft := none,
        query := some { courier := courier, wait := s.store.hatch[h].queryWait } } →
      exec (.badgeRead h (some courier)) s =
        .next (post (.manifestQuery h courier) { s with hatch := s.hatch.set h y })) ∧
    (∀ (courier : Nat) (y : Hatch), s.powered = true → x.phase = .awaitCourier → x.manifest = some m.id →
      s.manifest? m.id = some m →
      (m.courier ≠ courier → y = { x with colour := .red, colourLeft := some 3 } →
        exec (.badgeRead h (some courier)) s =
          .next (post (.badgeMismatch h courier m.id) { s with hatch := s.hatch.set h y })) ∧
      (m.courier = courier → s.held (s.store.hatch[h].zone) = false →
        y = { x with
          phase := .courierAccess, idle := none, unlockDue := none, colour := .green, colourLeft := some 3,
          outer := { x.outer with locked := false, unlock := some s.store.hatch[h].unlockTimeout } } →
        exec (.badgeRead h (some courier)) s = .next { s with
          store := { s.store with handover := s.store.handover.set h (s.store.handover[h].map fun r =>
            { r with phaseClass := .outAccess, tray := x.tray }) }
          hatch := s.hatch.set h y })) ∧
    (∀ y : Hatch, s.powered = true →
      (x.phase = .idle → y = { x with
          idle := some s.store.hatch[h].standbyTime, colour := .red, colourLeft := some 3 } →
        exec (.badgeRead h none) s = .next { s with hatch := s.hatch.set h y }) ∧
      (x.phase = .awaitCourier → y = { x with colour := .red, colourLeft := some 3 } →
        exec (.badgeRead h none) s = .next { s with hatch := s.hatch.set h y }) ∧
      (∀ b : Option Nat, x.phase = .receiptPending → y = { x with colour := .amber, colourLeft := some 3 } →
        exec (.badgeRead h b) s = .next { s with hatch := s.hatch.set h y }) ∧
      (∀ b : Option Nat, x.phase = .heldFire → y = { x with colour := .red, colourLeft := some 3 } →
        exec (.badgeRead h b) s = .next { s with hatch := s.hatch.set h y })) ∧
    (∀ b : Option Nat, s.powered = true →
      x.phase ∉ ([.idle, .standby, .awaitCourier, .receiptPending, .heldFire] : List Phase) →
      exec (.badgeRead h b) s = .next s) ∧
    (∀ (b : Option Nat) (w : ScanFor) (u : State), s.powered = true → x.phase ≠ .idle → x.phase ≠ .standby →
      u = { s with hatch := s.hatch.set h { x with scan := some w } } → exec (.badgeRead h b) u = .next u)

/-- A query ends, and a handover is aborted (R100, R101, R103): by decline or abort and by the wait timer with red for
3 s, QUERY-ENDED and IDLE; too late where no query stands; an accepted answer begins the handover; in AWAIT-COURIER an
abort goes to UNLOAD of class ABORT-UNLOAD with the inner shutter unlocked. That the OK of an accepted answer carries
`validity=` beside the ID, as a submission's does, and is CLAMPED where the validity or the summary was clamped, as R76
has it and R103 does not, are the model's choices (log entry 3). -/
def Obligations.QueryEndsAndHandoverAborts : Prop :=
  ∀ (s : State) (h : HatchId) (x : Hatch) (k : Int), x = s.hatch[h] → indexOf 2 k = some h →
    (∀ (q : Query) (ended : Hatch), x.phase = .query → x.query = some q →
      ended = { x.toIdle s.store.hatch[h].standbyTime with query := none, colour := .red, colourLeft := some 3 } →
      (Ready s → exec (.answerQuery k { decline := some "YES".toList }) s = .next
        ((post (.queryEnded h q.courier .declined) { s with hatch := s.hatch.set h ended }).heard.answered
          { word := .ok })) ∧
      (Ready s → exec (.abortHandover k) s = .next
        ((post (.queryEnded h q.courier .declined) { s with hatch := s.hatch.set h ended }).heard.answered
          { word := .ok })) ∧
      (s.powered = true → exec (.queryWaitExpiry h) s =
        .next (post (.queryEnded h q.courier .expired) { s with hatch := s.hatch.set h ended })) ∧
      (∀ (ls : List Text) (v : Int) (u : State) (ans : Answer) (m : Manifest), Ready s →
        submissionOk q.courier ls = true →
        submitChecked .in_ h q.courier v ls true {} s.heard = ((u, ans), some m) →
        exec (.answerQuery k { items := some ls, validity := some v }) s =
          .next ((beginInbound h m u).answered ans))) ∧
    (Ready s → x.phase ≠ .query → x.phase ≠ .idle → x.phase ≠ .standby →
      exec (.answerQuery k { decline := some "YES".toList }) s = .next (s.repliedWord .tooLate)) ∧
    (∀ (r : Handover) (y : Hatch), Ready s → x.phase = .awaitCourier → s.store.handover[h] = some r →
      x.inner.locked = true → x.inner.sensorOpen = false → x.outer.locked = true → x.outer.sensorOpen = false →
      s.held (s.store.hatch[h].zone) = false →
      y = { x with
        phase := .unload, idle := none, unlockDue := none,
        inner := { x.inner with locked := false, unlock := some s.store.hatch[h].unlockTimeout } } →
      exec (.abortHandover k) s = .next ({ s.heard with
        store := { s.store with handover := s.store.handover.set h (some { r with phaseClass := .abortUnload, tray := x.tray }) }
        hatch := s.hatch.set h y }.answered { word := .ok })) ∧
    (Ready s → x.phase = .heldFire → exec (.abortHandover k) s = .next (s.repliedWord .fireHold)) ∧
    (Ready s → x.phase = .loading → exec (.abortHandover k) s = .next (s.repliedWord .refused))

/-- A shutter moves (R88, R89, R94, R96, R98, R100, R111, R118): opening an UNLOCKED one starts its open alarm and, on
the inner side, is a burst event; closing an OPEN one locks it and tells the phase, which goes to its scan, or in
STAFF-ACCESS to its receipt where the tray is EMPTY; a LOCKED one that opens is SHUTTER-FORCED, one that closes is
caught; one that relocks unopened tells the phase, which waits for the courier again or, inbound, lets the manifest
go; each sensor change wakes a hatch in STANDBY and reloads the idle timer in IDLE. That the position sensor of a
caught shutter stops its closer is the model's choice (log entry 12), and so is that the catch of a forced inner shutter
ends no STAFF-ACCESS, an EMPTY tray or not (log entry 16). -/
def Obligations.ShutterMoves : Prop :=
  ∀ (s : State) (h : HatchId) (sd : Side) (x w : Hatch) (sh : Shutter), s.powered = true → x = s.hatch[h] →
    sh = x.shutter sd → x.unlockDue = none →
    w = (if x.phase = .standby then x.toIdle s.store.hatch[h].standbyTime
      else if x.phase = .idle then { x with idle := some s.store.hatch[h].standbyTime }
      else x) →
    (∀ (y : Hatch) (t : State), sh.locked = false → sh.sensorOpen = false →
      y = { w.setShutter sd { sh with
        sensorOpen := true, unlock := none, openAlarm := some s.store.hatch[h].openAlarm } with
          lastOpened := some sd } →
      t = { s with hatch := s.hatch.set h y } →
      exec (.shutterOpened h sd) s =
        .next (match sd with | .outer => t | .inner => burstEvent s.store.hatch[h].zone t)) ∧
    (∀ y z : Hatch, sh.locked = false → sh.sensorOpen = true →
      y = w.setShutter sd { locked := true, sensorOpen := false } →
      ((x.phase = .loading ∧ sd = .inner ∧
          z = { y with phase := .loadScan, scan := some .load, idle := none }) ∨
        (x.phase = .loadReject ∧ sd = .inner ∧ z = { y with scan := some .load }) ∨
        (x.phase = .courierAccess ∧ sd = .outer ∧
          z = { y with phase := .reconcile, scan := some .reconcile, idle := none }) ∨
        (x.phase = .rejectClear ∧ sd = .outer ∧ z = { y with scan := some .reconcile }) ∨
        (x.phase = .heldStuck ∧ z = { y with scan := some .reconcile }) ∨
        (x.phase = .unload ∧ sd = .inner ∧ z = { y with scan := some .unload }) ∨
        (x.phase = .staffAccess ∧ (sd = .outer ∨ ∃ p : TrayIdx, x.tray[p].presence ≠ .empty) ∧ z = y) ∨
        ((x.phase = .idle ∨ x.phase = .standby ∨ x.phase = .loadScan ∨ x.phase = .awaitCourier ∨ x.phase = .query ∨
          x.phase = .reconcile ∨ x.phase = .conditioning ∨ x.phase = .receiptPending ∨ x.phase = .heldFire ∨
          (sd = .outer ∧ (x.phase = .loading ∨ x.phase = .loadReject ∨ x.phase = .unload)) ∨
          (sd = .inner ∧ (x.phase = .courierAccess ∨ x.phase = .rejectClear))) ∧ z = y)) →
      exec (.shutterClosed h sd) s = .next { s with hatch := s.hatch.set h z }) ∧
    (∀ y : Hatch, sh.locked = false → sh.sensorOpen = true → x.phase = .staffAccess → sd = .inner →
      (∀ p : TrayIdx, x.tray[p].presence = .empty) → y = x.setShutter sd { locked := true, sensorOpen := false } →
      exec (.shutterClosed h sd) s = .next (toReceipt h { s with hatch := s.hatch.set h y })) ∧
    (∀ (y : Hatch) (t : State), sh.locked = true → sh.sensorOpen = false →
      y = { w.setShutter sd { sh with sensorOpen := true } with lastOpened := some sd } →
      t = post (.shutterForced h sd) { s with hatch := s.hatch.set h y } →
      exec (.shutterForced h sd) s =
        .next (match sd with | .outer => t | .inner => burstEvent s.store.hatch[h].zone t)) ∧
    (∀ y : Hatch, sh.locked = true → sh.sensorOpen = true →
      y = w.setShutter sd { sh with sensorOpen := false, closer := false, closerTimer := none } →
      exec (.shutterCaught h sd) s = .next { s with hatch := s.hatch.set h y }) ∧
    (∀ y : Hatch, sh.locked = false → sh.sensorOpen = false → sh.unlock.isSome = true →
      y = x.setShutter sd { sh with locked := true, unlock := none, openAlarm := none } →
      (x.phase = .loading → exec (.unlockTimerExpiry h sd) s = .next { s with hatch := s.hatch.set h y }) ∧
      (∀ r : Handover, x.phase = .courierAccess → sd = .outer → s.store.handover[h] = some r → r.direction = .out →
        exec (.unlockTimerExpiry h sd) s = .next { s with
          store := { s.store with
            handover := s.store.handover.set h (some { r with phaseClass := .wait, tray := x.tray }) }
          hatch := s.hatch.set h { y with phase := .awaitCourier, idle := none } }) ∧
      (∀ (r : Handover) (id : Nat), x.phase = .courierAccess → sd = .outer → s.store.handover[h] = some r →
        r.direction = .in_ → x.manifest = some id → exec (.unlockTimerExpiry h sd) s = .next { s with
          store := { s.store with
            manifests := s.store.manifests.map fun n : Manifest => if n.id = id then { n with active := false } else n
            handover := s.store.handover.set h none }
          hatch := s.hatch.set h (y.toIdle s.store.hatch[h].standbyTime) }))

/-- The hatch's alarms, timers, button, settings and reading, and the fire states it takes (R87, R89, R90, R97, R105,
R106, R115, R117 to R119): each timer's report is posted once, an idle hatch with both shutters secured and its tray
EMPTY goes to STANDBY, a reject-clear expiry at rest is HELD-STUCK, the inner button and CLEAR-STUCK unlock under the
two conditions of R88. Entry into the fire hold set locks both shutters, sets a scan in flight aside, ends a query and
goes to HELD-FIRE with the class and the tray remembered; entry into PREDISCHARGE drives the closer of each shutter
that stands OPEN; departure stops the closers and starts the resume scan; another zone's fire state is taken as it
stands; a setting is kept within its range. That CLOSER_CLOSED stops the closer alone, and that a closer driven already
is loaded anew, and that a HATCH-ZONE write to a zone in PREDISCHARGE drives the closers as an entry to it does, are the
model's choices (log entry 12); that the tray reader is on in HELD-FIRE, that the scan of the
resume takes the place of a scan set aside, that CLEAR-STUCK judges its side first, and that an unlock only kept due is
answered OK, are those of log entry 16. Its inferences are that a page of the tray says where the next begins (log entry
3) and that a position outside 1 to 24 is BAD-VALUE (log entry 9). That a value brought to the one stored is CLAMPED is
its choice (log entry 22), and so is that the positions of HATCH-STUCK ascend (log entry 13). -/
def Obligations.HatchTimersAndSettings : Prop :=
  ∀ (s : State) (h : HatchId) (x : Hatch), x = s.hatch[h] →
    (s.powered = true → ∀ (sd : Side) (sh : Shutter), sh = x.shutter sd →
      (sh.locked = false → sh.sensorOpen = true → sh.openAlarm.isSome = true → exec (.openAlarmExpiry h sd) s =
        .next (post (.shutterOpenLong h sd x.phase) { s with
          hatch := s.hatch.set h (x.setShutter sd { sh with openAlarm := none }) })) ∧
      (exec (.closerClosed h sd) s = .next { s with
        hatch := s.hatch.set h (x.setShutter sd { sh with closer := false, closerTimer := none }) }) ∧
      (sh.closer = true → sh.closerTimer.isSome = true → exec (.shutterNotSecured h sd) s =
        .next (post (.shutterNotSecured h sd) { s with
          hatch := s.hatch.set h (x.setShutter sd { sh with closerTimer := none }) }))) ∧
    (∀ y : Hatch, s.powered = true → x.colourLeft.isSome = true → y = { x with colour := .off, colourLeft := none } →
      exec (.hatchIndicatorTimeout h) s = .next { s with hatch := s.hatch.set h y }) ∧
    (∀ y : Hatch, s.powered = true →
      (x.phase = .loading ∨ x.phase = .loadReject ∨ x.phase = .unload ∨ x.phase = .staffAccess) → x.scan = none →
      x.inner.locked = true → x.inner.sensorOpen = false → x.outer.locked = true → x.outer.sensorOpen = false →
      s.held (s.store.hatch[h].zone) = false →
      y = { x with
        unlockDue := none,
        inner := { x.inner with locked := false, unlock := some s.store.hatch[h].unlockTimeout } } →
      exec (.innerRequestButton h) s = .next { s with hatch := s.hatch.set h y }) ∧
    (∀ y : Hatch, s.powered = true → x.phase = .idle → x.idle.isSome = true → x.outer.locked = true →
      x.outer.sensorOpen = false → x.inner.locked = true → x.inner.sensorOpen = false →
      (∀ p : TrayIdx, x.tray[p].presence = .empty) →
      y = { x with phase := .standby, idle := none, readerOn := false, purgeOn := false, heaterOn := false } →
      exec (.idleTimerExpiry h) s = .next { s with hatch := s.hatch.set h y }) ∧
    (∀ y : Hatch, s.powered = true → x.phase = .rejectClear → x.rejectTimer.isSome = true → x.scan = none →
      ¬(x.outer.locked = false ∧ x.outer.sensorOpen = true) →
      y = { x with
        phase := .heldStuck, idle := none, unlockDue := none, rejectTimer := none, rejectExpired := false,
        outer := { x.outer with locked := true, unlock := none, openAlarm := none } } →
      exec (.rejectClearTimerExpiry h) s = .next (post (.hatchStuck h x.manifest
        ((List.finRange 24).filter fun p => x.tray[p].verdict == .rejected)) { s with hatch := s.hatch.set h y })) ∧
    (∀ y : Hatch, s.powered = true → x.phase = .idle → x.idle.isSome = true →
      (x.outer.locked = false ∨ x.outer.sensorOpen = true ∨ x.inner.locked = false ∨ x.inner.sensorOpen = true ∨
        ∃ p : TrayIdx, x.tray[p].presence ≠ .empty) →
      y = { x with idle := some s.store.hatch[h].standbyTime } →
      exec (.idleTimerExpiry h) s = .next { s with hatch := s.hatch.set h y }) ∧
    (∀ (k : Int) (sd : Side) (side : Text), Ready s → indexOf 2 k = some h →
      side = (match sd with | .outer => "OUTER".toList | .inner => "INNER".toList) →
      (∀ y : Hatch, x.phase = .heldStuck → x.scan = none → x.inner.locked = true → x.inner.sensorOpen = false →
        x.outer.locked = true → x.outer.sensorOpen = false → s.held (s.store.hatch[h].zone) = false →
        y = { x with unlockDue := none }.setShutter sd
          { x.shutter sd with locked := false, unlock := some s.store.hatch[h].unlockTimeout } →
        exec (.clearStuck k side) s = .next ({ s.heard with hatch := s.hatch.set h y }.answered { word := .ok })) ∧
      (∀ y : Hatch, x.phase = .heldStuck → x.scan = none → x.inner.locked = true → x.outer.locked = true →
        (x.shutter (otherSide sd)).sensorOpen = true → y = { x with unlockDue := some sd } →
        exec (.clearStuck k side) s = .next ({ s.heard with hatch := s.hatch.set h y }.answered { word := .ok })) ∧
      (x.phase = .heldStuck → (x.scan.isSome = true ∨ x.outer.locked = false ∨ x.inner.locked = false) →
        exec (.clearStuck k side) s = .next (s.repliedWord .busy)) ∧
      (x.phase = .heldFire → exec (.clearStuck k side) s = .next (s.repliedWord .fireHold)) ∧
      (x.phase ≠ .heldStuck → x.phase ≠ .heldFire → x.phase ≠ .idle → x.phase ≠ .standby →
        exec (.clearStuck k side) s = .next (s.repliedWord .refused)) ∧
      (∀ w : Text, w ≠ "OUTER".toList → w ≠ "INNER".toList → x.phase ≠ .idle → x.phase ≠ .standby →
        exec (.clearStuck k w) s = .next (s.repliedWord .badValue))) ∧
    (∀ (k v : Int) (n : HatchTiming) (st : HatchSettings), Ready s → indexOf 2 k = some h → st = s.store.hatch[h] →
      exec (.writeSettingHatchTiming n (some k) (some v)) s = .next ({ s.heard with
        store := { s.store with hatch := s.store.hatch.set h (st.write n (usedTiming n v)) } }.answered
          (usedAnswer v (usedTiming n v))) ∧
      (usedTiming n v, st.write n (usedTiming n v)) = (match n with
        | .unlockTimeout => (clamp 10 120 v, { st with unlockTimeout := (clamp 10 120 v).toNat })
        | .openAlarm => (clamp 30 900 v, { st with openAlarm := (clamp 30 900 v).toNat })
        | .queryWait => (clamp 15 600 v, { st with queryWait := (clamp 15 600 v).toNat })
        | .rejectTimeout => (clamp 60 1800 v, { st with rejectTimeout := (clamp 60 1800 v).toNat })
        | .condLimit => (clamp 10 1440 v, { st with condLimit := (clamp 10 1440 v).toNat })
        | .standbyTime => (clamp 60 3600 v, { st with standbyTime := (clamp 60 3600 v).toNat })
        | .purgeBand => (clamp 0 200 v, { st with purgeBand := clamp 0 200 v })
        | .condMargin => (clamp 0 100 v, { st with condMargin := clamp 0 100 v }))) ∧
    (∀ (k v : Int) (z : Zone), Ready s → indexOf 2 k = some h → indexOf 4 v = some z →
      ((x.phase = .idle ∨ x.phase = .standby) → z ≠ s.store.hatch[h].zone →
        exec (.writeSettingHatchZone (some k) (some v)) s = .next
          ((react z s.fire[s.store.hatch[h].zone].state s.fire[z].state (.hatch h) { s.heard with store := { s.store with
            hatch := s.store.hatch.set h { s.store.hatch[h] with zone := z } } }).answered { word := .ok })) ∧
      ((x.phase = .idle ∨ x.phase = .standby) → z = s.store.hatch[h].zone →
        exec (.writeSettingHatchZone (some k) (some v)) s = .next (s.repliedWord .ok)) ∧
      (x.phase ≠ .idle → x.phase ≠ .standby →
        exec (.writeSettingHatchZone (some k) (some v)) s = .next (s.repliedWord .busy)) ∧
      ((x.phase = .idle ∨ x.phase = .standby) → s.held z = false → s.held (s.store.hatch[h].zone) = false →
        z ≠ s.store.hatch[h].zone →
        exec (.writeSettingHatchZone (some k) (some v)) s = .next ({ s.heard with
          store := { s.store with hatch := s.store.hatch.set h { s.store.hatch[h] with zone := z } } }.answered
            { word := .ok }))) ∧
    (∀ (left entered : FireState) (drive : Shutter → Shutter) (y : Hatch),
      drive = (fun sh => if entered = .predischarge ∧ sh.sensorOpen = true then
        { sh with closer := true, closerTimer := some 10 } else sh) →
      y = { x with
        outer := drive { x.outer with locked := true, unlock := none, openAlarm := none }
        inner := drive { x.inner with locked := true, unlock := none, openAlarm := none }
        unlockDue := none, scan := x.scan.map fun _ => .setAside } →
      (∀ (z : Zone) (u : Hatch), left.holds = false → entered.holds = true →
        (x.phase = .heldFire → react z left entered (.hatch h) s = { s with hatch := s.hatch.set h y }) ∧
        (∀ c : Option PhaseClass, x.phase ≠ .heldFire →
          c = (match x.phase with
            | .idle => none
            | .standby => none
            | .query => none
            | .receiptPending => some .receipt
            | p => (s.store.handover[h]).bind fun r => p.phaseClass r.direction r.phaseClass) →
          u = { y with
            phase := .heldFire, heldClass := c, heldTray := some x.tray, idle := none, purgeOn := false
            heaterOn := false, rejectTimer := none, rejectExpired := false, readerOn := true } →
          (x.phase ≠ .query → react z left entered (.hatch h) s = { s with hatch := s.hatch.set h u }) ∧
          (∀ (q : Query) (v : Hatch), x.phase = .query → x.query = some q →
            v = { u with query := none, colour := .red, colourLeft := some 3 } →
            react z left entered (.hatch h) s =
              post (.queryEnded h q.courier .fire) { s with hatch := s.hatch.set h v }))) ∧
      (∀ (z : Zone) (u : Hatch), left.holds = true → entered.holds = true →
        u = (if left = .predischarge then x else { x with outer := drive x.outer, inner := drive x.inner }) →
        react z left entered (.hatch h) s = { s with hatch := s.hatch.set h u }) ∧
      (∀ (z : Zone) (u : Hatch), left.holds = true → entered.holds = false →
        u = { x with
          outer := { x.outer with closer := false, closerTimer := none }
          inner := { x.inner with closer := false, closerTimer := none }
          scan := if x.phase = .heldFire then some .resume else x.scan } →
        react z left entered (.hatch h) s = { s with hatch := s.hatch.set h u }) ∧
      (∀ z : Zone, left.holds = false → entered.holds = false → react z left entered (.hatch h) s = s)) ∧
    (∀ k : Int, Ready s → indexOf 2 k = some h → x.phase ≠ .idle → x.phase ≠ .standby →
      exec (.readHatch k none) s = .next (s.replied { word := .ok, body := .hatch {
        live := x, receiptHeld := s.store.receipt[h].isSome, recordHeld := s.store.handover[h].isSome } }) ∧
      ∀ start : Int, (indexOf 24 start = none → exec (.readHatch k (some start)) s = .next (s.repliedWord .badValue)) ∧
        ∀ (p : TrayIdx) (page : List (Nat × TrayPos)) (next : Option Nat), indexOf 24 start = some p →
          page = ((x.tray.toList.drop p).take 12).zipIdx.map (fun q => (p.val + 1 + q.2, q.1)) →
          next = (if p.val + 12 < 24 then some (p.val + 13) else none) →
          exec (.readHatch k (some start)) s = .next (s.replied { word := .ok, body := .tray page next }))

/-- The tray (R91, R92, R95, R96, R99, R100, R104 to R106, R111, R117, R121): a presence change rewrites its position;
an ACCEPTED cartridge taken in STAFF-ACCESS takes its hold, to QUARANTINE or for a hold of 0 to RESHELVE with
HOLD-ENDED, and is entered; a second reading decides a position; a load scan gives each position its verdict, moves
ACCEPTED cartridges to IN-HATCH-OUT and goes to LOAD-REJECT, AWAIT-COURIER or IDLE. A reconcile scan rejects by label
and by UNREADABLE; with a reject it goes to REJECT-CLEAR, unlocks again there or is HELD-STUCK once the timer has
expired, and stays HELD-STUCK. An outbound one settles each LOADED item gone by the side last opened; without a reject,
what is still on the tray is LEFT and it goes to UNLOAD, or EMPTY to its receipt; an inbound one with no reject takes
its cartridges in and goes to CONDITIONING, or to its receipt. Rejects removed are entered. An unload scan ends at an
EMPTY tray or unlocks again. A resume scan gives the remembered verdicts again and resumes by its class: OUT-ACCESS and
IN-ACCESS as a reconcile scan, OUT-UNLOAD and ABORT-UNLOAD in UNLOAD or at the receipt; a cartridge found nowhere is
MISSING with its report for WAIT and IN-CONDITION, and for any class in the recovery after a start, and takes its hold
for IN-STAFF; a LOAD resume that accepts nothing lets the manifest go; readings set aside change nothing. The model's:
the sensors at the scan's end, presence changes during a scan, an EMPTY tray under an UNLOCKED inner shutter in
STAFF-ACCESS, that a second reading decides alone, the LOAD resume (log entry 16); the record's tray at a presence
change, the side and order of removed rejects, an item LEFT unmarked in WAIT, in part what a scan judges from (log entry
10); an item gone with no side opened (log entry 4); the order of cartridges found nowhere (log entry 2); a scan end
with no scan (log entry 5); an unlocked shutter that stands open (log entry 12); ascending lists
(log entry 13). -/
def Obligations.TrayIsReadAndJudged : Prop :=
  ∀ (s : State) (h : HatchId) (x : Hatch), s.powered = true → x = s.hatch[h] → x.phase ≠ .idle → x.phase ≠ .standby →
    (∀ (p : TrayIdx) (occupied : Bool) (y : Hatch), x.sensors[p] ≠ occupied →
      y = { x with
        sensors := x.sensors.set p occupied,
        tray := x.tray.set p { presence := if occupied then .unreadable .notScanned else .empty } } →
      (x.phase ≠ .staffAccess → exec (.trayPresenceChange h p occupied) s =
        .next { s with hatch := s.hatch.set h y }) ∧
      (∀ (l : Text) (m : Char), x.phase = .staffAccess → occupied = false → x.tray[p].presence = .present l m →
        x.tray[p].verdict = .accepted → exec (.trayPresenceChange h p occupied) s =
          .next (staffDone h (saveTray h (takenToStaff h l x.tray[p] { s with hatch := s.hatch.set h y }))))) ∧
    (∀ (l : Text) (q : TrayPos) (c : Cartridge) (n : Nat) (e : Entry) (r : Handover) (t : State),
      s.cartridge? l = some c → s.store.handover[h] = some r → n = min (q.hold.getD 0) s.store.hold.holdMax →
      e = { label := some l, result := if q.cross then .cross else .received, hold := q.hold } →
      t = { s with store := { s.store with
        cartridges := s.store.cartridges.map fun d : Cartridge =>
          if d.label = l then { d with custody := if n = 0 then .reshelve else .quarantine n } else d
        handover := s.store.handover.set h (some { r with
          entries :=
            if r.entries.any (fun d => d.label == some l && d.result != .rejectedRemoved) then
              r.entries.map fun d : Entry => if d.label = some l ∧ d.result ≠ .rejectedRemoved then e else d
            else r.entries ++ [e] }) } } →
      takenToStaff h l q s =
        (if n = 0 then post (.holdEnded l s.store.bank[c.home.bank].zone c.home (some 0)) t else t)) ∧
    (∀ reads : Vector TrayRead 24, x.scan = none → exec (.trayScanEnd h reads) s = .next s) ∧
    (∀ (r : TrayRead) (f : List Attempt → Presence), f = readAttempts →
      readPosition r = (match r.again with
        | some attempts => f attempts
        | none => f r.first) ∧
      (f [] = .unreadable .notScanned) ∧
      (∀ (n : List Attempt) (l : Text) (m : Char) (run : LabelRun) (rest : List Attempt),
        (∀ a ∈ n, ∀ q, a = .run q → ∀ g, readLabel q ≠ .ok g) → readLabel run = .ok (l, m) →
        f (n ++ .run run :: rest) = .present l m) ∧
      (∀ n : List Attempt, (∀ a ∈ n, ∀ q, a = .run q → ∀ g, readLabel q ≠ .ok g) →
        f (n ++ [.noResponse]) = .unreadable .noResponse ∧
        ∀ (run : LabelRun) (e : UnreadReason), readLabel run = .error e → f (n ++ [.run run]) = .unreadable e)) ∧
    (∀ (m : Manifest) (t0 : Tray) (p : TrayIdx),
      (loadVerdict s m t0 p = .none ↔ t0[p].presence = .empty) ∧
      (loadVerdict s m t0 p = .accepted ↔ ∃ (l : Text) (c : Cartridge), t0[p].presence = .present l c.media ∧
        (∀ (q : TrayIdx) (n : Char), q < p → t0[q].presence ≠ .present l n) ∧ s.cartridge? l = some c ∧
        ((∃ i ∈ m.items, i.label = l ∧ i.status = .loaded) ∨ c.custody = .reserved m.id ∨
          c.custody = .picked m.id))) ∧
    (∀ (reads : Vector TrayRead 24) (y : Hatch), x.scan = some .setAside → y = { x with scan := none } →
      exec (.trayScanEnd h reads) s = .next { s with hatch := s.hatch.set h y }) ∧
    (∀ (reads : Vector TrayRead 24) (m : Manifest) (t0 : Tray) (r : Handover) (removed : List Entry) (gone : List Text)
      (release : Shutter → Shutter), x.manifest = some m.id → s.manifest? m.id = some m →
      s.store.handover[h] = some r → r.manifest = m.id →
      t0 = (Vector.ofFn fun p : TrayIdx => if x.sensors[p] then { presence := readPosition reads[p] } else {}) →
      removed = removedRejects r.tray t0 x.lastOpened → gone = (m.labelsIn .loaded).filter (fun l => l ∉ labelsOn t0) →
      release = (fun sh => if sh.sensorOpen then { sh with locked := false, openAlarm := some s.store.hatch[h].openAlarm }
        else { sh with locked := false, unlock := some s.store.hatch[h].unlockTimeout }) →
      (∀ (v : TrayIdx → Verdict) (t1 : Tray), x.scan = some .reconcile → (∃ p : TrayIdx, v p = .rejected) →
        t1 = (Vector.ofFn fun p : TrayIdx => { t0[p] with verdict := v p }) →
        (r.direction = .out → ∀ p : TrayIdx, (v p = .none ↔ t0[p].presence = .empty) ∧
          (v p = .accepted ↔ ∃ (l : Text) (n : Char), t0[p].presence = .present l n ∧ l ∈ m.labelsIn .loaded ∧
            ∀ (q : TrayIdx) (k : Char), q < p → t0[q].presence ≠ .present l k)) →
        (r.direction = .in_ → ∀ p : TrayIdx, v p ≠ .accepted ∧ (v p = .none ↔ t0[p].presence = .empty ∨
          ∃ (l : Text) (c : Cartridge) (k : Nat), t0[p].presence = .present l c.media ∧ s.cartridge? l = some c ∧
            c.custody = .out k ∧ (∀ (q : TrayIdx) (n : Char), q < p → t0[q].presence ≠ .present l n) ∧
            ∀ i : Item, m.items.find? (fun i => i.label == l) = some i → i.status = .expected)) →
        ∃ (sd : Side) (u : State), (∀ sd' : Side, x.lastOpened = some sd' → sd = sd' ∧ u.choice = s.choice) ∧
          (r.direction = .in_ → u = { s with
            store := s.store.withRecord h { r with tray := t1, entries := r.entries ++ removed } }) ∧
          (r.direction = .out → u = { s with
            choice := u.choice
            store := (gone.foldl (Store.goneBy m sd) s.store).withRecord h
              { (gone.map (goneEntry sd)).foldl Handover.noting { r with entries := r.entries ++ removed } with
                tray := t1 } }) ∧
          (∀ y : Hatch, x.phase = .reconcile → x.outer.locked = true → x.inner.locked = true →
            x.inner.sensorOpen = false → s.held (s.store.hatch[h].zone) = false →
            y = { x with
              phase := .rejectClear, scan := none, tray := t1, outer := release x.outer, unlockDue := none, idle := none
              rejectTimer := some s.store.hatch[h].rejectTimeout, rejectExpired := false } →
            exec (.trayScanEnd h reads) s = .next { u with hatch := s.hatch.set h y }) ∧
          (∀ y : Hatch, x.phase = .rejectClear → x.rejectExpired = false → x.outer.locked = true →
            x.inner.locked = true → x.inner.sensorOpen = false → s.held (s.store.hatch[h].zone) = false →
            y = { x with scan := none, tray := t1, outer := release x.outer, unlockDue := none } →
            exec (.trayScanEnd h reads) s = .next { u with hatch := s.hatch.set h y }) ∧
          (∀ y : Hatch, x.phase = .rejectClear → x.rejectExpired = true →
            y = { x with
              phase := .heldStuck, scan := none, tray := t1, unlockDue := none, idle := none
              outer := { x.outer with locked := true, unlock := none, openAlarm := none }
              rejectTimer := none, rejectExpired := false } →
            exec (.trayScanEnd h reads) s = .next (post (.hatchStuck h (some m.id)
              ((List.finRange 24).filter fun p => decide (v p = .rejected))) { u with hatch := s.hatch.set h y })) ∧
          (∀ y : Hatch, x.phase = .heldStuck → y = { x with scan := none, tray := t1 } →
            exec (.trayScanEnd h reads) s = .next { u with hatch := s.hatch.set h y })) ∧
      (∀ y : Hatch, x.scan = some .reconcile → r.direction = .out → (∃ p : TrayIdx, t0[p].presence ≠ .empty) →
        (∀ p : TrayIdx, t0[p].presence ≠ .empty → ∃ (l : Text) (n : Char), t0[p].presence = .present l n ∧
          l ∈ m.labelsIn .loaded ∧ ∀ (q : TrayIdx) (k : Char), q < p → t0[q].presence ≠ .present l k) →
        x.inner.locked = true → x.outer.locked = true → x.outer.sensorOpen = false →
        s.held (s.store.hatch[h].zone) = false →
        y = { x with
          phase := .unload, scan := none, tray := t0, inner := release x.inner, unlockDue := none, idle := none
          rejectTimer := none, rejectExpired := false } →
        ∃ (sd : Side) (n : Nat) (left : List Text),
          (∀ sd' : Side, x.lastOpened = some sd' → sd = sd' ∧ n = s.choice) ∧
          left = (m.labelsIn .loaded).filter (fun l => l ∈ labelsOn t0) ∧
          exec (.trayScanEnd h reads) s = .next { s with
            choice := n
            store := (left.foldl (Store.goneBy m .inner) (gone.foldl (Store.goneBy m sd) s.store)).withRecord h
              { (gone.map (goneEntry sd) ++ left.map (goneEntry .inner)).foldl Handover.noting
                  { r with entries := r.entries ++ removed } with
                phaseClass := .outUnload, tray := t0 }
            hatch := s.hatch.set h y }) ∧
      (x.scan = some .reconcile → x.phase = .reconcile → x.outer.locked = true → x.inner.locked = true →
        x.inner.sensorOpen = false → s.held (s.store.hatch[h].zone) = false →
        (∃ (p : TrayIdx) (e : UnreadReason), t0[p].presence = .unreadable e) →
        ∃ t, exec (.trayScanEnd h reads) s = .next t ∧ t.hatch[h].phase = .rejectClear ∧ t.hatch[h].scan = none ∧
          t.hatch[h].rejectTimer = some s.store.hatch[h].rejectTimeout ∧ t.hatch[h].outer.locked = false ∧
          t.store.receipt = s.store.receipt ∧ t.reports = s.reports ∧
          (∀ (p : TrayIdx) (e : UnreadReason), t0[p].presence = .unreadable e →
            t.hatch[h].tray[p].verdict = .rejected)) ∧
      (∀ sd : Side, x.scan = some .reconcile → r.direction = .out → x.lastOpened = some sd →
        (∀ p : TrayIdx, x.sensors[p] = false) →
        ∃ t, exec (.trayScanEnd h reads) s = .next t ∧ t.hatch[h].phase = .receiptPending ∧ t.hatch[h].scan = none ∧
          t.store.handover[h] = none ∧ t.store.receipt[h].isSome = true ∧
          (∀ d ∈ t.store.cartridges, d.label ∈ m.labelsIn .loaded →
            d.custody = match sd with | .outer => .out m.courier | .inner => .reshelve) ∧
          (∀ d ∈ s.store.cartridges, d.label ∉ m.labelsIn .loaded → d ∈ t.store.cartridges)) ∧
      (x.scan = some .reconcile → r.direction = .in_ → (∀ p : TrayIdx, x.sensors[p] = false) →
        ∃ t, exec (.trayScanEnd h reads) s = .next t ∧ t.hatch[h].phase = .receiptPending ∧ t.hatch[h].scan = none ∧
          t.store.handover[h] = none ∧ t.store.receipt[h].isSome = true ∧ t.store.cartridges = s.store.cartridges ∧
          ∀ n ∈ t.store.manifests, n.id = m.id → ∀ i ∈ n.items, i.status ≠ .expected) ∧
      (x.scan = some .reconcile → r.direction = .in_ → (∃ p : TrayIdx, t0[p].presence ≠ .empty) →
        (∀ p : TrayIdx, t0[p].presence ≠ .empty → ∃ (l : Text) (c : Cartridge) (k : Nat),
          t0[p].presence = .present l c.media ∧ s.cartridge? l = some c ∧ c.custody = .out k ∧
          (∀ (q : TrayIdx) (n : Char), q < p → t0[q].presence ≠ .present l n) ∧
          ∀ i ∈ m.items, i.label = l → i.status = .expected) →
        ∃ t, exec (.trayScanEnd h reads) s = .next t ∧ t.hatch[h].phase = .conditioning ∧ t.hatch[h].scan = none ∧
          t.hatch[h].purge = .unknown ∧ t.hatch[h].condensation = .unknown ∧ t.hatch[h].purgeOn = false ∧
          t.hatch[h].heaterOn = false ∧ t.hatch[h].limitCount = 0 ∧ t.hatch[h].rejectTimer = none ∧
          (∀ p : TrayIdx, t0[p].presence = .empty → t.hatch[h].tray[p] = {}) ∧
          (∀ (p : TrayIdx) (l : Text) (c : Char), t0[p].presence = .present l c →
            t.hatch[h].tray[p] = { presence := .present l c, verdict := .accepted
                                   cross := decide (∀ i ∈ m.items, i.label ≠ l) } ∧
            ∀ d ∈ t.store.cartridges, d.label = l → d.custody = .inHatchIn m.id) ∧
          ∃ q : Handover, t.store.handover[h] = some q ∧ q.phaseClass = .inCondition ∧ q.tray = t.hatch[h].tray ∧
            ∀ e ∈ removed, e ∈ q.entries) ∧
      (x.scan = some .unload →
        ((∀ p : TrayIdx, x.sensors[p] = false) →
          ∃ t, exec (.trayScanEnd h reads) s = .next t ∧ t.hatch[h].phase = .receiptPending ∧ t.hatch[h].scan = none ∧
            t.store.handover[h] = none ∧ t.store.receipt[h].isSome = true) ∧
        ((∃ p : TrayIdx, x.sensors[p] = true) → x.outer.locked = true → x.outer.sensorOpen = false →
          x.inner.locked = true → s.held (s.store.hatch[h].zone) = false →
          ∃ t, exec (.trayScanEnd h reads) s = .next t ∧ t.hatch[h].phase = .unload ∧ t.hatch[h].scan = none ∧
            t.hatch[h].inner.locked = false ∧ t.hatch[h].tray = t0 ∧
            (r.phaseClass ≠ .abortUnload → t.store.cartridges = s.store.cartridges) ∧
            (r.phaseClass = .abortUnload → ∀ l ∈ m.labelsIn .loaded,
              (∀ (p : TrayIdx) (c : Char), t0[p].presence ≠ .present l c) →
              ∀ d ∈ t.store.cartridges, d.label = l → d.custody = .picked m.id)))) ∧
    (∀ (reads : Vector TrayRead 24) (t0 held : Tray), x.scan = some .resume → x.heldTray = some held →
      t0 = (Vector.ofFn fun p : TrayIdx => if x.sensors[p] then { presence := readPosition reads[p] } else {}) →
      (∀ y : Hatch, x.heldClass = none →
        y = { x.toIdle s.store.hatch[h].standbyTime with scan := none, recovering := false, tray := t0 } →
        exec (.trayScanEnd h reads) s = .next { s with hatch := s.hatch.set h y }) ∧
      (∀ y : Hatch, x.heldClass = some .receipt →
        y = { x with
          phase := .receiptPending, scan := none, recovering := false, tray := t0, heldClass := none
          heldTray := none, unlockDue := none, idle := none } →
        exec (.trayScanEnd h reads) s = .next { s with hatch := s.hatch.set h y }) ∧
      (∀ (r : Handover) (c : PhaseClass), s.store.handover[h] = some r → x.heldClass = some c →
        (∀ (p : TrayIdx) (l : Text) (n : Char), held[p].verdict = .accepted → held[p].presence = .present l n →
          ∃ (q : TrayIdx) (k : Char), t0[q].presence = .present l k) →
        (∀ y : Hatch, c = .wait →
          y = { x with
            phase := .awaitCourier, scan := none, recovering := false, tray := reaccept held t0, heldClass := none
            heldTray := none, unlockDue := none, idle := none } →
          exec (.trayScanEnd h reads) s = .next { s with
            store := { s.store with handover := s.store.handover.set h (some { r with tray := y.tray }) }
            hatch := s.hatch.set h y }) ∧
        (∀ y : Hatch, (c = .inCondition ∨ c = .inStaff) →
          y = { x with
            phase := .conditioning, scan := none, recovering := false, tray := reaccept held t0, heldClass := none
            heldTray := none, unlockDue := none, idle := none, purge := .unknown, condensation := .unknown
            purgeOn := false, heaterOn := false, limitCount := 0, limitPosted := false, risk := false } →
          exec (.trayScanEnd h reads) s = .next { s with
            store := { s.store with handover := s.store.handover.set h (some
              { r with tray := y.tray, phaseClass := .inCondition, risk := false }) }
            hatch := s.hatch.set h y })) ∧
      (∀ (r : Handover) (p : TrayIdx) (l : Text) (n : Char), s.store.handover[h] = some r →
        x.heldClass = some .wait → held[p].verdict = .accepted → held[p].presence = .present l n →
        (∀ (q : TrayIdx) (k : Char), t0[q].presence ≠ .present l k) →
        ∃ t, exec (.trayScanEnd h reads) s = .next t ∧ t.hatch[h].phase = .awaitCourier ∧
          ∀ d ∈ t.store.cartridges, d.label = l → d.custody = .missing) ∧
      (∀ (r : Handover) (c : PhaseClass) (y : Hatch), s.store.handover[h] = some r → x.heldClass = some c →
        (c = .outAccess ∧ r.direction = .out ∨ c = .inAccess ∧ r.direction = .in_) → x.recovering = false →
        y = { x with
          phase := .reconcile, scan := some .reconcile, heldClass := none, heldTray := none, unlockDue := none
          idle := none } →
        exec (.trayScanEnd h reads) s = exec (.trayScanEnd h reads) { s with hatch := s.hatch.set h y }) ∧
      (∀ (m : Manifest) (r : Handover) (c : PhaseClass) (gone : List Text) (st : Store), s.store.handover[h] = some r →
        x.heldClass = some c → x.recovering = false → x.manifest = some m.id → s.manifest? m.id = some m →
        r.manifest = m.id → gone = (m.labelsIn .loaded).filter (fun l => l ∉ labelsOn t0) →
        (c = .outUnload ∧ st = s.store.withRecord h { r with tray := reaccept held t0 } ∨
          c = .abortUnload ∧ st = (gone.foldl (Store.backToPicked m) s.store).withRecord h
            { (gone.map (goneEntry .inner)).foldl Handover.noting r with tray := reaccept held t0 }) →
        (∀ y : Hatch, (∃ p : TrayIdx, x.sensors[p] = true) → x.outer.locked = true → x.outer.sensorOpen = false →
          x.inner.locked = true → x.inner.sensorOpen = false → s.held (s.store.hatch[h].zone) = false →
          y = { x with
            phase := .unload, scan := none, tray := reaccept held t0, heldClass := none, heldTray := none
            unlockDue := none, idle := none
            inner := { x.inner with locked := false, unlock := some s.store.hatch[h].unlockTimeout } } →
          exec (.trayScanEnd h reads) s = .next { s with store := st, hatch := s.hatch.set h y }) ∧
        ((∀ p : TrayIdx, x.sensors[p] = false) →
          ∃ t, exec (.trayScanEnd h reads) s = .next t ∧ t.hatch[h].phase = .receiptPending ∧ t.hatch[h].scan = none ∧
            t.store.handover[h] = none ∧ t.store.receipt[h].isSome = true ∧ t.store.cartridges = st.cartridges ∧
            t.store.manifests = st.manifests)) ∧
      (∀ (r : Handover) (c : PhaseClass) (lost : List (Text × TrayPos)) (y : Hatch), s.store.handover[h] = some r →
        x.heldClass = some c → c ≠ .receipt → lost = lostFrom held t0 →
        y = { x with
          recovering := false, heldTray := some (held.map fun p => if p ∈ lost.map Prod.snd then {} else p) } →
        ((x.recovering = true ∨ c = .wait ∨ c = .inCondition) →
          exec (.trayScanEnd h reads) s = exec (.trayScanEnd h reads) { s with
            store := (lost.foldl (Store.losing r) s.store).withRecord h ((lost.map (missingEntry r.direction
              (x.recovering || decide (c = .inCondition)))).foldl Handover.noting r)
            reports := lost.foldl (fun q a => enqueue q { stamp := s.minute, event := .cartridgeMissing h a.1 }) s.reports
            hatch := s.hatch.set h y }) ∧
        (x.recovering = false → c = .inStaff → exec (.trayScanEnd h reads) s = exec (.trayScanEnd h reads)
          { lost.foldl (fun u a => takenToStaff h a.1 a.2 u) s with hatch := s.hatch.set h y })) ∧
      (∀ q : TrayIdx, (reaccept held t0)[q].presence = t0[q].presence ∧
        ((reaccept held t0)[q].verdict = .accepted ↔ ∃ (l : Text) (k n : Char) (p : TrayIdx),
          t0[q].presence = .present l k ∧ (∀ (i : TrayIdx) (j : Char), i < q → t0[i].presence ≠ .present l j) ∧
          held[p].verdict = .accepted ∧ held[p].presence = .present l n))) ∧
    (∀ (reads : Vector TrayRead 24) (m : Manifest) (t0 held : Tray) (r : Handover), x.scan = some .resume →
      x.heldTray = some held → x.heldClass = some .load → x.recovering = false → s.store.handover[h] = some r →
      x.manifest = some m.id → s.manifest? m.id = some m →
      t0 = (Vector.ofFn fun p : TrayIdx => if x.sensors[p] then { presence := readPosition reads[p] } else {}) →
      ∃ t, exec (.trayScanEnd h reads) s = .next t ∧ t.hatch[h].scan = none ∧
        t.hatch[h].phase =
          (if ∀ p : TrayIdx, loadVerdict s m t0 p ≠ .accepted then .idle
          else if ∃ p : TrayIdx, loadVerdict s m t0 p = .rejected then .loadReject
          else .awaitCourier) ∧
        ((∀ p : TrayIdx, loadVerdict s m t0 p ≠ .accepted) → t.store.handover[h] = none ∧ t.hatch[h].manifest = none ∧
          ∀ n ∈ t.store.manifests, n.id = m.id → n.active = false)) ∧
    (∀ (reads : Vector TrayRead 24) (m : Manifest) (t0 : Tray), x.scan = some .load →
      x.manifest = some m.id → s.manifest? m.id = some m →
      t0 = (Vector.ofFn fun p : TrayIdx => if x.sensors[p] then { presence := readPosition reads[p] } else {}) →
      ∃ t, exec (.trayScanEnd h reads) s = .next t ∧ t.hatch[h].scan = none ∧
        (∀ p : TrayIdx, t.hatch[h].tray[p] = { t0[p] with verdict := loadVerdict s m t0 p }) ∧
        t.hatch[h].phase =
          (if ∃ p : TrayIdx, loadVerdict s m t0 p = .rejected then .loadReject
          else if ∃ p : TrayIdx, loadVerdict s m t0 p = .accepted then .awaitCourier
          else .idle) ∧
        (∀ (p : TrayIdx) (l : Text) (c : Char), loadVerdict s m t0 p = .accepted → t0[p].presence = .present l c →
          ∀ d ∈ t.store.cartridges, d.label = l → d.custody = .inHatchOut m.id) ∧
        (t.hatch.toList.eraseIdx h = s.hatch.toList.eraseIdx h) ∧ t.reports = s.reports ∧ t.bank = s.bank ∧
        t.fire = s.fire ∧ t.climate = s.climate ∧ t.line = s.line ∧
        (∀ d ∈ s.store.cartridges, d.label ∉ m.labelsIn .loaded →
          (∀ (p : TrayIdx) (c : Char), loadVerdict s m t0 p = .accepted → t0[p].presence ≠ .present d.label c) →
          d ∈ t.store.cartridges))

/-- Conditioning and receipts (R84, R107 to R110, R112, R113): the gate is evaluated from the chamber's humidity and
probe and the zone's humidity and dew point, each output on where its condition is failing; where both are met the
gate opens, and RELEASE-HATCH opens it in any case, to STAFF-ACCESS with a hold kept at every ACCEPTED position and its
cartridge marked NO-EXPOSURE where there is no summary and CONDENSATION-RELEASED under risk; the
conditioning limit is reported once and the hatch stays in CONDITIONING; a receipt is written whole as the record is
erased, its entries in the order of R112; it is fetched in pages and, when it is cleared, settles its manifest and
frees the hatch. That CONDITION_TIMEOUT acts only where this minute reaches the limit is the model's choice (log entry
5), and so is that a count above a lowered limit reaches it at the next minute (log entry 16). -/
def Obligations.ConditioningAndReceipts : Prop :=
  ∀ (s : State) (h : HatchId) (x : Hatch) (k : Int), x = s.hatch[h] → indexOf 2 k = some h →
    (∀ (purge cond : GateCond) (y : Hatch), x.phase = .conditioning →
      purge = (match x.rh.value, s.climate[s.store.hatch[h].zone].rh.value with
        | .valid a, .valid b => if a ≤ b + s.store.hatch[h].purgeBand then .met else .failing
        | _, _ => .unknown) →
      cond = (match x.probe.value, s.climate[s.store.hatch[h].zone].dew with
        | .valid p, .valid d _ _ _ => if d + s.store.hatch[h].condMargin ≤ p then .met else .failing
        | _, _ => .unknown) →
      y = { x with
        purge := purge, condensation := cond, purgeOn := decide (purge = .failing)
        heaterOn := decide (cond = .failing) } →
      (purge = .met → cond = .met → evaluateGate h s = openGate h false { s with hatch := s.hatch.set h y }) ∧
      ((purge ≠ .met ∨ cond ≠ .met) → evaluateGate h s = { s with hatch := s.hatch.set h y })) ∧
    (x.phase ≠ .conditioning → evaluateGate h s = s) ∧
    (∀ (r : Handover) (m : Manifest) (es : List Entry) (rc : Receipt) (y : Hatch), s.store.handover[h] = some r →
      s.manifest? r.manifest = some m →
      es = (match m.direction with
        | .out => m.items.filterMap fun i => r.entries.find? fun e =>
            decide (e.label = some i.label ∧ (e.result = .departed ∨ e.result = .left))
        | .in_ => m.items.map fun i =>
            (r.entries.find? fun e => decide (e.label = some i.label ∧ e.result = .received)).getD
              { label := some i.label, result := if i.status = .received then .received else .notReturned }) ++
        r.entries.filter (fun e => decide (e.result = .cross)) ++
        r.entries.filter (fun e => decide (e.result = .rejectedRemoved)) →
      rc = {
        hatch := h, manifest := r.manifest, direction := r.direction, courier := m.courier, start := r.start
        finish := s.minute, entries := es.take 48, furtherRejects := es.length - 48
        outcome :=
          if r.recovered = true then .interrupted
          else if r.phaseClass = .abortUnload then .aborted
          else if ∀ e ∈ es, e.result ≠ .left ∧ e.result ≠ .notReturned ∧ e.result ≠ .rejectedRemoved then .complete
          else .partly } →
      y = { x with
        phase := .receiptPending, unlockDue := none, idle := none, rejectTimer := none, rejectExpired := false } →
      toReceipt h s = post (.receiptReady h r.manifest rc.outcome) { s with
        store := { s.store with
          handover := s.store.handover.set h none, receipt := s.store.receipt.set h (some rc) }
        hatch := s.hatch.set h y }) ∧
    (∀ (m : Manifest) (risk : Bool) (t : State), x.phase = .conditioning → x.manifest = some m.id →
      s.manifest? m.id = some m → t = openGate h risk s →
      (Ready s → risk = decide (x.condensation ≠ .met) →
        exec (.releaseHatch k) s = .next ((openGate h risk s.heard).answered { word := .ok, body := .risk risk })) ∧
      t.hatch[h].phase = .staffAccess ∧ t.hatch[h].purgeOn = false ∧ t.hatch[h].heaterOn = false ∧
      t.hatch[h].risk = risk ∧
      (∀ p : TrayIdx, t.hatch[h].tray[p] = if x.tray[p].verdict = .accepted then
          { x.tray[p] with hold := some (holdFor s.store.hold s.store.climate[s.store.hatch[h].zone].tset
            s.store.climate[s.store.hatch[h].zone].hset m.exposure risk) }
        else x.tray[p]) ∧
      (∃ accepted : List Text, (∀ l : Text, l ∈ accepted ↔ ∃ (p : TrayIdx) (n : Char),
          x.tray[p].verdict = .accepted ∧ x.tray[p].presence = .present l n) ∧
        t.store = { s.store with
          cartridges := s.store.cartridges.map fun d : Cartridge =>
            if d.label ∈ accepted then { d with
              noExposure := d.noExposure || m.exposure.isNone
              condensationReleased := d.condensationReleased || risk }
            else d
          handover := s.store.handover.set h (s.store.handover[h].map fun r =>
            { r with phaseClass := .inStaff, risk := risk, tray := t.hatch[h].tray }) }) ∧
      t.reports = s.reports ∧ t.bank = s.bank ∧ t.fire = s.fire ∧
      t.line = s.line) ∧
    (Ready s → x.phase = .heldFire → exec (.releaseHatch k) s = .next (s.repliedWord .fireHold)) ∧
    (Ready s → x.phase = .loading → exec (.releaseHatch k) s = .next (s.repliedWord .refused)) ∧
    (∀ y : Hatch, s.powered = true → x.phase = .conditioning → x.limitPosted = false →
      s.store.hatch[h].condLimit ≤ x.limitCount + 1 →
      y = { x with limitCount := x.limitCount + 1, limitPosted := true } →
      exec (.conditionTimeout h) s = .next (post (.conditionTimeout h x.manifest x.purge x.condensation)
        { s with hatch := s.hatch.set h y })) ∧
    (s.powered = true → (x.phase ≠ .conditioning ∨ x.limitPosted = true) → exec (.conditionTimeout h) s = .next s) ∧
    (∀ r : Receipt, Ready s → x.phase = .receiptPending → s.store.receipt[h] = some r →
      (∀ page : List Entry, page = r.entries.take 8 → exec (.fetchReceipt k none) s = .next (s.replied
        { word := .ok, body := .receipt r page (if 8 < r.entries.length then some 9 else none) })) ∧
      (∀ (m : Manifest) (y : Hatch), s.manifest? r.manifest = some m →
        y = x.toIdle s.store.hatch[h].standbyTime →
        exec (.clearReceipt k) s = .next ({ s.heard with
          store := { s.store with
            receipt := s.store.receipt.set h none
            manifests :=
              if m.direction = Direction.out ∧ m.workLeft = true then
                s.store.manifests.map fun n : Manifest => if n.id = r.manifest then { n with active := false } else n
              else s.store.manifests.filter fun n : Manifest => n.id != r.manifest }
          hatch := s.hatch.set h y }.answered
            { word := .ok, body := .settled r.manifest (decide (m.direction = Direction.out) && m.workLeft) }))) ∧
    (Ready s → x.phase ≠ .idle → x.phase ≠ .standby → s.store.receipt[h] = none →
      exec (.fetchReceipt k none) s = .next (s.repliedWord .notFound) ∧
      exec (.clearReceipt k) s = .next (s.repliedWord .notFound))

/-! ### Rack banks (chapter 6) -/

/-- OPEN-AISLE, CLEAR-AISLE-QUEUE, RESET-BANK and READ-BANK (R125 to R131, R133, R137): the first case of the table that
applies; a bank at rest with its curtains CLEAR starts toward the aisle at once, from a known position, which a home
sensor that reads ACTIVE gives, or else homes first, the drive DOWN and the homing timer running; with a curtain BROKEN it
waits, the block timer at 120 s; clearing empties the queue; RESET-BANK takes FAULT to IDLE at an UNKNOWN position. That no position sensor stays ACTIVE once the drive
starts, and that an aisle whose sensor reads ACTIVE already is reached at once, are the model's choices (log entry
8). -/
def Obligations.AisleRequestsAreDecided : Prop :=
  ∀ (s : State) (b : BankId) (x : Bank) (st : BankSettings) (k : Int), Ready s → x = s.bank[b] →
    st = s.store.bank[b] → indexOf 4 k = some b →
    (∀ a : Int, (a < 0 ∨ st.carriages < a) → exec (.openAisle k a) s = .next (s.repliedWord .badValue)) ∧
    (∀ a : Nat, a ≤ st.carriages →
      exec (.openAisle k a) s =
        .next ((aisleRequest b a s.heard).1.answered (aisleAnswer (aisleRequest b a s.heard).2)) ∧
      (s.held st.zone = true → exec (.openAisle k a) s = .next (s.repliedWord .fireHold)) ∧
      (s.held st.zone = false → x.motion = .idle → x.position = some a →
        exec (.openAisle k a) s = .next (s.replied { word := .ok, body := .aisle .satisfied })) ∧
      (∀ i : Nat, s.held st.zone = false → ¬(x.motion = .idle ∧ x.position = some a) →
        (x.queue.findIdx? fun q => q == a) = some i →
        exec (.openAisle k a) s = .next (s.replied { word := .ok, body := .aisle (.merged (i + 1)) })) ∧
      (s.held st.zone = false → ¬(x.motion = .idle ∧ x.position = some a) → a ∉ x.queue → 8 ≤ x.queue.length →
        exec (.openAisle k a) s = .next (s.repliedWord .full)) ∧
      (∀ y : Bank, s.held st.zone = false → a ∉ x.queue → x.queue.length < 8 → x.motion ≠ .idle →
        x.motion ≠ .stopped → y = { x with queue := x.queue ++ [a] } →
        exec (.openAisle k a) s = .next ({ s.heard with bank := s.bank.set b y }.answered
          { word := .ok, body := .aisle (.queued (x.queue.length + 1)) })) ∧
      (∀ (p : Nat) (q : Aisle) (y : Bank), s.held st.zone = false → x.queue = [] → x.motion = .idle →
        x.position = some p → p ≠ a → s.broken b = [] → q.val = a → x.sensors[q] = true →
        y = { x with position := some a, sensors := (Vector.replicate 13 false).set q true } →
        exec (.openAisle k a) s = .next ((post (.aisleOpen b a) { s.heard with bank := s.bank.set b y }).answered
          { word := .ok, body := .aisle (.queued 1) })) ∧
      (∀ (p : Nat) (y : Bank), s.held st.zone = false → x.queue = [] → x.motion = .idle → x.position = some p →
        p ≠ a → s.broken b = [] → (∀ q : Aisle, q.val = a → x.sensors[q] = false) →
        y = { x with
          queue := [a], motion := .moving, drive := if p < a then .up else .down, position := none, block := none,
          moving := some (2 * (max (p - a) (a - p)) * st.step + 5), travel := some (p, a),
          sensors := Vector.replicate 13 false, justArrived := false } →
        exec (.openAisle k a) s = .next ({ s.heard with bank := s.bank.set b y }.answered
          { word := .ok, body := .aisle (.queued 1) })) ∧
      (s.held st.zone = false → x.queue = [] → (x.motion = .idle ∨ x.motion = .stopped) →
        (∀ y : Bank, x.position = none → x.sensors[(0 : Aisle)] = false → s.broken b = [] →
          y = { x with
            queue := [a], motion := .homing, drive := .down, block := none, position := none
            homing := some (2 * st.carriages * st.step), sensors := Vector.replicate 13 false } →
          exec (.openAisle k a) s = .next ({ s.heard with bank := s.bank.set b y }.answered
            { word := .ok, body := .aisle (.queued 1) })) ∧
        (∀ (located : Option Nat) (y : Bank), s.broken b ≠ [] →
          located = (if x.position = none ∧ x.sensors[(0 : Aisle)] = true then some 0 else x.position) →
          located ≠ some a → y = { x with position := located, queue := [a], motion := .waitClear, block := some 120 } →
          exec (.openAisle k a) s = .next ({ s.heard with bank := s.bank.set b y }.answered
            { word := .ok, body := .aisle (.queued 1) })) ∧
        (x.position = none → x.sensors[(0 : Aisle)] = true →
          (∀ y : Bank, a = 0 → y = { x with position := some 0, motion := .idle } →
            exec (.openAisle k a) s = .next ((post (.aisleOpen b 0) { s.heard with bank := s.bank.set b y }).answered
              { word := .ok, body := .aisle (.queued 1) })) ∧
          (∀ y : Bank, a ≠ 0 → s.broken b = [] → (∀ q : Aisle, q.val = a → x.sensors[q] = false) →
            y = { x with
              queue := [a], motion := .moving, drive := .up, position := none, block := none
              moving := some (2 * a * st.step + 5), travel := some (0, a), sensors := Vector.replicate 13 false
              justArrived := false } →
            exec (.openAisle k a) s = .next ({ s.heard with bank := s.bank.set b y }.answered
              { word := .ok, body := .aisle (.queued 1) }))))) ∧
    (∀ y : Bank,
      y = (if x.motion = .waitClear then { x with queue := [], motion := .idle, block := none }
        else { x with queue := [] }) →
      exec (.clearAisleQueue k) s = .next ({ s.heard with bank := s.bank.set b y }.answered
        { word := .ok, body := .removed x.queue.length })) ∧
    (∀ y : Bank, x.motion = .fault → x.parkDemand = false → x.queue = [] →
      y = { x with motion := .idle, position := none } →
      exec (.resetBank k) s = .next ({ s.heard with bank := s.bank.set b y }.answered { word := .ok })) ∧
    (x.motion ≠ .fault → exec (.resetBank k) s = .next (s.repliedWord .refused)) ∧
    (∀ v : BankView, v.bank = b → v.settings = st → v.live = x → v.fire = s.fire[st.zone].state →
      v.curtains = x.curtains.toList.take (st.carriages + 1) → v.sensors = x.sensors.toList.take (st.carriages + 1) →
      v.inService = (if x.motion = .waitClear ∨ x.motion = .homing ∨ x.motion = .moving then x.queue.head? else none) →
      exec (.readBank k) s = .next (s.replied { word := .ok, body := .bank v }))

/-- A bank moves, and parks under fire (R123, R128 to R132, R134 to R136): a broken curtain stops a running drive with
BANK-STOPPED and the head waits for the curtains; the last one to clear starts the motion, a homing where the position is
UNKNOWN; the home sensor ends a homing, the sought aisle's sensor a travel with AISLE-OPEN; a block timer gives the head
up; a homing or travel timer is FAULT. A fire state of the shed set sets the park demand: a bank at rest homes or goes
to its park aisle, or waits for its curtains with BANK-BLOCKED once, one that moves finishes first, and one that
reaches the park aisle is PARKED; the return takes the demand back and the queue up. A curtain that breaks within the second of an arrival finds the
drive off: the bank stands at the aisle reached and waits there. What the position sensors read while the bank moves,
that an aisle whose sensor reads ACTIVE already is reached at once, and that such a break reaches the bank together
with the arrival taken first, are the model's choices (log entry 8). Log entry 17 has its inferences, that a bank at its
park aisle waits too with a curtain BROKEN and that an arrival removes the head only where it is the aisle reached, and
its choices, that BANK-STOPPED names no sought aisle for a park homing or for one whose queue has been cleared, and that
the expiry of a homing timer names the head of the queue. That the BROKEN curtains of AISLE-BLOCKED and BANK-BLOCKED
ascend is its choice too (log entry 13). -/
def Obligations.BankMovesAndStops : Prop :=
  ∀ (s : State) (b : BankId) (x : Bank) (st : BankSettings), s.powered = true → x = s.bank[b] →
    st = s.store.bank[b] →
    (∀ (z : Zone) (left entered : FireState) (x0 x1 : Bank), x0 = { x with parkDemand := true, blockedPosted := false } →
      x1 = { x0 with motion := .parkWait, block := if x.motion = .waitClear then none else x.block } →
      (left.sheds = entered.sheds → react z left entered (.bank b) s = s) ∧
      (left.sheds = false → entered.sheds = true →
        (x.motion ≠ .idle → x.motion ≠ .stopped → x.motion ≠ .waitClear →
          react z left entered (.bank b) s = { s with bank := s.bank.set b x0 }) ∧
        ((x.motion = .idle ∨ x.motion = .stopped ∨ x.motion = .waitClear) →
          (∀ y : Bank, s.broken b ≠ [] → y = { x1 with blockedPosted := true } → react z left entered (.bank b) s =
            post (.bankBlocked b (s.broken b)) { s with bank := s.bank.set b y }) ∧
          (∀ y : Bank, s.broken b = [] → x.position = none → x.sensors[(0 : Aisle)] = false →
            y = { x1 with
              motion := .parkHoming, drive := .down, block := none, homing := some (2 * st.carriages * st.step),
              sensors := Vector.replicate 13 false } →
            react z left entered (.bank b) s = { s with bank := s.bank.set b y }) ∧
          (∀ y : Bank, s.broken b = [] → x.position = some st.park → y = { x1 with motion := .parked } →
            react z left entered (.bank b) s = post (.bankParked b st.park) { s with bank := s.bank.set b y }) ∧
          (∀ (p : Nat) (y : Bank), s.broken b = [] → x.position = some p → p ≠ st.park →
            (∀ q : Aisle, q.val = st.park → x.sensors[q] = false) →
            y = { x1 with
              motion := .parkTravel, drive := if p < st.park then .up else .down, block := none, position := none,
              moving := some (2 * (max (p - st.park) (st.park - p)) * st.step + 5), travel := some (p, st.park),
              sensors := Vector.replicate 13 false, justArrived := false } →
            react z left entered (.bank b) s = { s with bank := s.bank.set b y }))) ∧
      (left.sheds = true → entered.sheds = false → s.shed st.zone = false →
        (∀ y : Bank, (x.motion = .parked ∨ x.motion = .parkWait) → x.queue = [] →
          y = { x with parkDemand := false, motion := .idle } →
          react z left entered (.bank b) s = { s with bank := s.bank.set b y }) ∧
        (∀ (p k : Nat) (rest : List Nat) (y : Bank), (x.motion = .parked ∨ x.motion = .parkWait) → x.queue = k :: rest →
          x.position = some p → p ≠ k → s.broken b = [] → (∀ q : Aisle, q.val = k → x.sensors[q] = false) →
          y = { x with
            parkDemand := false, motion := .moving, drive := if p < k then .up else .down, block := none,
            position := none, moving := some (2 * (max (p - k) (k - p)) * st.step + 5), travel := some (p, k),
            sensors := Vector.replicate 13 false, justArrived := false } →
          react z left entered (.bank b) s = { s with bank := s.bank.set b y }) ∧
        (∀ y : Bank, x.motion ≠ .parked → x.motion ≠ .parkWait → (x.motion = .stopped → x.queue = []) →
          y = { x with parkDemand := false } →
          react z left entered (.bank b) s = { s with bank := s.bank.set b y }))) ∧
    (∀ (a : Aisle) (p : Nat) (y : Bank), x.motion = .parkTravel → x.parkDemand = true → a.val ≤ st.carriages →
      x.travel = some (p, a.val) →
      y = { x with
        motion := .parked, drive := .off, moving := none, travel := none, position := some a.val,
        sensors := (Vector.replicate 13 false).set a true } →
      exec (.aisleSensorActive b a) s = .next (post (.bankParked b a) { s with bank := s.bank.set b y })) ∧
    (∀ y : Bank, (x.motion = .homing ∨ x.motion = .parkHoming) → x.parkDemand = true → s.broken b = [] → 0 < st.park →
      y = { x with
        motion := .parkTravel, drive := .up, block := none, homing := none, position := none,
        moving := some (2 * st.park * st.step + 5), travel := some (0, st.park), sensors := Vector.replicate 13 false
        justArrived := false } →
      exec (.homeSensorActive b) s = .next { s with bank := s.bank.set b y }) ∧
    (∀ (a : Aisle) (p : Nat) (y : Bank), x.motion = .moving → x.parkDemand = true → a.val ≤ st.carriages →
      x.travel = some (p, a.val) → s.broken b = [] → a.val ≠ st.park →
      y = { x with
        motion := .parkTravel, drive := if a.val < st.park then .up else .down, block := none, position := none,
        moving := some (2 * (max (a - st.park) (st.park - a)) * st.step + 5), travel := some (a.val, st.park),
        queue := if x.queue.head? = some a.val then x.queue.tail else x.queue, sensors := Vector.replicate 13 false
        justArrived := true } →
      exec (.aisleSensorActive b a) s = .next (post (.aisleOpen b a) { s with bank := s.bank.set b y })) ∧
    (∀ (a : Aisle) (y : Bank) (t u : State), (x.motion = .parkHoming ∨ x.motion = .parkTravel) → x.parkDemand = true →
      x.justArrived = false → x.drive ≠ .off → a.val ≤ st.carriages →
      y = { x with
        curtains := x.curtains.set a true, motion := .parkWait, drive := .off, homing := none, moving := none
        travel := none, position := none, lastStop := some (a.val, x.motion), blockedPosted := true } →
      t = { s with bank := s.bank.set b y } → u = post (.bankStopped b a x.motion
        (if x.motion = .parkHoming then none else x.travel.map Prod.snd)) t →
      exec (.curtainBroken b a) s =
        .next (if x.blockedPosted then u else post (.bankBlocked b (t.broken b)) u)) ∧
    (∀ (a p : Aisle) (q : Nat) (y : Bank) (t : State), x.justArrived = true → x.drive ≠ .off → a.val ≤ st.carriages →
      x.travel = some (p.val, q) → x.parkDemand = true →
      y = { x with
        curtains := x.curtains.set a true, motion := .parkWait, drive := .off, moving := none, travel := none
        position := some p.val, sensors := (Vector.replicate 13 false).set p true, justArrived := false
        blockedPosted := true } →
      t = { s with bank := s.bank.set b y } →
      exec (.curtainBroken b a) s =
        .next (if x.blockedPosted then t else post (.bankBlocked b (t.broken b)) t)) ∧
    (x.parkDemand = false → s.shed st.zone = false →
      (∀ (a : Aisle) (y : Bank), x.drive = .off → y = { x with curtains := x.curtains.set a true } →
        exec (.curtainBroken b a) s = .next { s with bank := s.bank.set b y }) ∧
      (∀ (a : Aisle) (k : Nat) (rest : List Nat) (y : Bank), (x.motion = .moving ∨ x.motion = .homing) →
        x.justArrived = false → x.drive ≠ .off → a.val ≤ st.carriages → x.queue = k :: rest →
        x.sensors[(0 : Aisle)] = false →
        y = { x with
          curtains := x.curtains.set a true, motion := .waitClear, block := some 120, drive := .off, homing := none,
          moving := none, travel := none, position := none, lastStop := some (a.val, x.motion) } →
        exec (.curtainBroken b a) s = .next (post (.bankStopped b a x.motion
          (if x.motion = .homing then some k else x.travel.map Prod.snd)) { s with bank := s.bank.set b y })) ∧
      (∀ (a : Aisle) (y : Bank), x.motion = .homing → x.justArrived = false → x.drive ≠ .off → a.val ≤ st.carriages →
        x.queue = [] →
        y = { x with
          curtains := x.curtains.set a true, motion := .stopped, drive := .off, homing := none, moving := none
          travel := none, position := none, lastStop := some (a.val, .homing) } →
        exec (.curtainBroken b a) s = .next (post (.bankStopped b a .homing none) { s with bank := s.bank.set b y })) ∧
      (∀ (a p : Aisle) (q k : Nat) (rest : List Nat) (y : Bank), x.justArrived = true → x.drive ≠ .off →
        a.val ≤ st.carriages → x.travel = some (p.val, q) → x.queue = k :: rest → k ≠ p.val →
        y = { x with
          curtains := x.curtains.set a true, motion := .waitClear, block := some 120, drive := .off, moving := none
          travel := none, position := some p.val, sensors := (Vector.replicate 13 false).set p true
          justArrived := false } →
        exec (.curtainBroken b a) s = .next { s with bank := s.bank.set b y }) ∧
      (∀ (a : Aisle) (k p : Nat) (rest : List Nat) (y : Bank), x.motion = .waitClear → x.queue = k :: rest →
        x.position = some p → p ≠ k → (∀ q : Aisle, q.val ≤ st.carriages → q ≠ a → x.curtains[q] = false) →
        (∀ q : Aisle, q.val = k → x.sensors[q] = false) →
        y = { x with
          curtains := x.curtains.set a false, motion := .moving, drive := if p < k then .up else .down,
          position := none, block := none, moving := some (2 * (max (p - k) (k - p)) * st.step + 5),
          travel := some (p, k), sensors := Vector.replicate 13 false, justArrived := false } →
        exec (.curtainClear b a) s = .next { s with bank := s.bank.set b y }) ∧
      (∀ (a : Aisle) (k : Nat) (rest : List Nat) (y : Bank), x.motion = .waitClear → x.queue = k :: rest →
        x.position = none → x.sensors[(0 : Aisle)] = false →
        (∀ q : Aisle, q.val ≤ st.carriages → q ≠ a → x.curtains[q] = false) →
        y = { x with
          curtains := x.curtains.set a false, motion := .homing, drive := .down, block := none, position := none
          homing := some (2 * st.carriages * st.step), sensors := Vector.replicate 13 false } →
        exec (.curtainClear b a) s = .next { s with bank := s.bank.set b y }) ∧
      (∀ (a : Aisle) (y : Bank), x.motion ≠ .waitClear → x.motion ≠ .parkWait →
        y = { x with curtains := x.curtains.set a false } →
        exec (.curtainClear b a) s = .next { s with bank := s.bank.set b y }) ∧
      (∀ y : Bank, x.motion = .homing → x.queue = [] →
        y = { x with
          motion := .idle, drive := .off, homing := none, position := some 0,
          sensors := (Vector.replicate 13 false).set 0 true } →
        exec (.homeSensorActive b) s = .next { s with bank := s.bank.set b y }) ∧
      (∀ y : Bank, x.motion = .homing → x.queue = [0] →
        y = { x with
          motion := .idle, drive := .off, homing := none, position := some 0, queue := [],
          sensors := (Vector.replicate 13 false).set 0 true, justArrived := false } →
        exec (.homeSensorActive b) s = .next (post (.aisleOpen b 0) { s with bank := s.bank.set b y })) ∧
      (∀ (k : Nat) (rest : List Nat) (y : Bank), x.motion = .homing →
        (x.queue = k :: rest ∨ x.queue = 0 :: k :: rest) → k ≠ 0 → s.broken b = [] →
        y = { x with
          motion := .moving, drive := .up, block := none, homing := none, position := none, queue := k :: rest
          moving := some (2 * k * st.step + 5), travel := some (0, k), sensors := Vector.replicate 13 false
          justArrived := x.queue.head? == some 0 } →
        exec (.homeSensorActive b) s =
          .next (if x.queue.head? = some 0 then post (.aisleOpen b 0) { s with bank := s.bank.set b y }
            else { s with bank := s.bank.set b y })) ∧
      (∀ (k : Nat) (rest : List Nat) (y : Bank), x.motion = .homing → x.queue = k :: rest → k ≠ 0 → s.broken b ≠ [] →
        y = { x with
          motion := .waitClear, drive := .off, block := some 120, homing := none, position := some 0
          sensors := (Vector.replicate 13 false).set 0 true } →
        exec (.homeSensorActive b) s = .next { s with bank := s.bank.set b y }) ∧
      (∀ (a : Aisle) (p k : Nat) (rest : List Nat) (y : Bank), x.motion = .moving → a.val ≤ st.carriages →
        x.travel = some (p, a.val) → x.queue = a.val :: k :: rest → k ≠ a.val → s.broken b = [] →
        y = { x with
          drive := if a.val < k then .up else .down, block := none, position := none, queue := k :: rest
          moving := some (2 * (max (a - k) (k - a)) * st.step + 5), travel := some (a.val, k)
          sensors := Vector.replicate 13 false, justArrived := true } →
        exec (.aisleSensorActive b a) s = .next (post (.aisleOpen b a) { s with bank := s.bank.set b y })) ∧
      (∀ (a : Aisle) (p : Nat) (y : Bank), x.motion = .parkTravel → a.val ≤ st.carriages →
        x.travel = some (p, a.val) → x.queue = [] →
        y = { x with
          motion := .idle, drive := .off, moving := none, travel := none, position := some a.val
          sensors := (Vector.replicate 13 false).set a true, justArrived := false } →
        exec (.aisleSensorActive b a) s = .next { s with bank := s.bank.set b y }) ∧
      (∀ (a : Aisle) (p : Nat) (y : Bank), x.motion = .moving → a.val ≤ st.carriages → x.travel = some (p, a.val) →
        x.queue = [a.val] →
        y = { x with
          motion := .idle, drive := .off, moving := none, travel := none, position := some a.val, queue := [],
          sensors := (Vector.replicate 13 false).set a true, justArrived := false } →
        exec (.aisleSensorActive b a) s = .next (post (.aisleOpen b a) { s with bank := s.bank.set b y })) ∧
      (∀ (k : Nat) (y : Bank), x.motion = .waitClear → x.block.isSome = true → x.queue = [k] → s.broken b ≠ [] →
        y = { x with motion := .idle, block := none, queue := [] } →
        exec (.blockTimerExpiry b) s =
          .next (post (.aisleBlocked b k (s.broken b)) { s with bank := s.bank.set b y })) ∧
      (∀ y : Bank,
        y = { x with
          motion := .fault, drive := .off, homing := none, moving := none, travel := none, position := none
          justArrived := false } →
        (x.homing.isSome = true → exec (.homingTimerExpiry b) s =
          .next (post (.homingTimeout b x.queue.head?) { s with bank := s.bank.set b y })) ∧
        (∀ p k : Nat, x.moving.isSome = true → x.travel = some (p, k) → exec (.travelTimerExpiry b) s =
          .next (post (.travelTimeout b p k) { s with bank := s.bank.set b y }))))

/-- The bank settings (R122): BUSY outside IDLE and STOPPED; a value brought into range is stored; another carriage
count makes the position UNKNOWN and lowers a park aisle above it; another zone takes the bank with it. That BUSY
comes before a value equal to the one stored, and that a lowered park aisle is answered OK with the one used, are the
model's choices (log entry 17), and so is that a value brought to the one stored is CLAMPED (log entry 22). -/
def Obligations.BankSettingsAreWritten : Prop :=
  ∀ (s : State) (b : BankId) (x : Bank) (st : BankSettings) (k v : Int), Ready s → x = s.bank[b] →
    st = s.store.bank[b] → indexOf 4 k = some b →
    (x.motion ≠ .idle → x.motion ≠ .stopped →
      exec (.writeSettingBankCarriages (some k) (some v)) s = .next (s.repliedWord .busy) ∧
      exec (.writeSettingBankPark (some k) (some v)) s = .next (s.repliedWord .busy) ∧
      exec (.writeSettingBankStep (some k) (some v)) s = .next (s.repliedWord .busy) ∧
      (∀ z : Zone, indexOf 4 v = some z →
        exec (.writeSettingBankZone (some k) (some v)) s = .next (s.repliedWord .busy))) ∧
    ((x.motion = .idle ∨ x.motion = .stopped) →
      (∀ u : BankSettings, u = { st with step := (clamp 1 10 v).toNat } →
        exec (.writeSettingBankStep (some k) (some v)) s = .next ({ s.heard with
          store := { s.store with bank := s.store.bank.set b u } }.answered (usedAnswer v (clamp 1 10 v)))) ∧
      (∀ u : BankSettings, u = { st with park := (clamp 0 st.carriages v).toNat } →
        exec (.writeSettingBankPark (some k) (some v)) s = .next ({ s.heard with
          store := { s.store with bank := s.store.bank.set b u } }.answered (usedAnswer v (clamp 0 st.carriages v)))) ∧
      (∀ (u : BankSettings) (y : Bank) (c : Nat), 1 ≤ v → v ≤ 12 → c = v.toNat → c ≠ st.carriages →
        u = { st with carriages := c, park := min st.park c } → y = { x with position := none } →
        exec (.writeSettingBankCarriages (some k) (some v)) s = .next ({ s.heard with
          store := { s.store with bank := s.store.bank.set b u }
          bank := s.bank.set b y }.answered
            { word := .ok, body := .carriages none (if c < st.park then some c else none) })) ∧
      (∀ (z : Zone) (u : BankSettings), indexOf 4 v = some z → z ≠ st.zone → s.shed z = s.shed st.zone →
        u = { st with zone := z } →
        exec (.writeSettingBankZone (some k) (some v)) s = .next ({ s.heard with
          store := { s.store with bank := s.store.bank.set b u } }.answered { word := .ok })))

/-! ### Detection loops (chapter 7) -/

/-- The detector table (R140 to R143, R156): an entry is written, whole or one field of it, while it is disabled and
BUSY while it is enabled; enabling starts its detector afresh, on a loop with none at a new pass; disabling clears it,
reports a FAULT cleared or a PREALARM gone, sets the answer of a poll of it in progress aside and passes it over where
it is due, and one that is latched is not disabled; either change is handed on with a MONITORING-DEGRADED report where
the zone's flag changed and the test for leaving STARTING; the thresholds stay apart; READ-DETECTOR and READ-LOOP
change nothing. That an order is sent as its poll becomes the item, that an entry disabled while its own poll runs is
passed over at once, and that the answer set aside stays so over a later enable, are log entry 18; that the reports of
a change stand in this order, and that the zone's test comes before a first pass that a disable completes, are log
entry 2; that a threshold brought to the one stored is CLAMPED is log entry 22. -/
def Obligations.DetectorTableIsWritten : Prop :=
  ∀ (s : State) (k j : Int) (l : LoopId) (a : Address) (e : DetEntry), Ready s → indexOf 2 k = some l →
    indexOf 32 j = some a → e = s.store.detectors[l][a] →
    (∀ (z : Zone) (w : Text) (t : DetType) (i : Int), indexOf 4 i = some z → wordOf typeWords w = some t →
      (e.enabled = true → exec (.writeSettingDetector (some k) (some j) (some i) (some w)) s =
        .next (s.repliedWord .busy)) ∧
      (∀ rows : Vector DetEntry 32, e.enabled = false →
        rows = s.store.detectors[l].set a { zone := z, type := t, enabled := false } →
        exec (.writeSettingDetector (some k) (some j) (some i) (some w)) s = .next ({ s.heard with
          store := { s.store with detectors := s.store.detectors.set l rows } }.answered { word := .ok })) ∧
      (∀ rows : Vector DetEntry 32, e.enabled = false → rows = s.store.detectors[l].set a { e with zone := z } →
        exec (.writeSettingDetector (some k) (some j) (some i) none) s = .next ({ s.heard with
          store := { s.store with detectors := s.store.detectors.set l rows } }.answered { word := .ok })) ∧
      (∀ rows : Vector DetEntry 32, e.enabled = false → rows = s.store.detectors[l].set a { e with type := t } →
        exec (.writeSettingDetector (some k) (some j) none (some w)) s = .next ({ s.heard with
          store := { s.store with detectors := s.store.detectors.set l rows } }.answered { word := .ok }))) ∧
    (e.enabled = true → exec (.setDetector k j "YES".toList) s = .next (s.repliedWord .ok)) ∧
    (e.enabled = true → s.loop[l].dets[a].latch = true → exec (.setDetector k j "NO".toList) s =
      .next (s.replied { word := .refused, body := .refusedFor .latched })) ∧
    (e.enabled = false → exec (.setDetector k j "NO".toList) s = .next (s.repliedWord .ok)) ∧
    (∀ (x : Loop) (d : Detector) (u : State), e.enabled = true → s.loop[l].dets[a].latch = false →
      d = { order := s.loop[l].dets[a].order } →
      x = { s.loop[l] with
        void := s.loop[l].void || decide (s.loop[l].item = .passPoll a ∨ s.loop[l].item = .priorityPoll a)
        dets := s.loop[l].dets.set a d } →
      u = { s.heard with
        store := { s.store with
          detectors := s.store.detectors.set l (s.store.detectors[l].set a { e with enabled := false }) }
        loop := s.loop.set l x } →
      ∃ t : State,
        t = handEnable e.zone (s.degraded e.zone) (s.counts e.zone).manual
          (if s.loop[l].dets[a].state = .fault then post (.detectorFaultDisabled l a) u
          else if s.loop[l].dets[a].state = .normal then u
          else post (.detectorState l a e.zone e.type none .normal) u) ∧
        exec (.setDetector k j "NO".toList) s =
          .next ((if s.loop[l].position = some a then movePosition l a t else t).answered { word := .ok })) ∧
    (∀ (x : Loop) (d : Detector) (u : State), e.enabled = false → s.loop[l].position ≠ none → s.loop[l].item ≠ .none →
      d = { order := s.loop[l].dets[a].order } → x = { s.loop[l] with dets := s.loop[l].dets.set a d } →
      u = { s.heard with
        store := { s.store with
          detectors := s.store.detectors.set l (s.store.detectors[l].set a { e with enabled := true }) }
        loop := s.loop.set l x } →
      exec (.setDetector k j "YES".toList) s =
        .next ((handEnable e.zone (s.degraded e.zone) (s.counts e.zone).manual u).answered { word := .ok })) ∧
    (∀ (x : Loop) (d : Detector) (u : State), e.enabled = false → s.loop[l].position = none → s.loop[l].item ≠ .none →
      d = { order := s.loop[l].dets[a].order } →
      x = { s.loop[l] with position := some a, dets := s.loop[l].dets.set a d } →
      u = { s.heard with
        store := { s.store with
          detectors := s.store.detectors.set l (s.store.detectors[l].set a { e with enabled := true }) }
        loop := s.loop.set l x } →
      exec (.setDetector k j "YES".toList) s =
        .next ((handEnable e.zone (s.degraded e.zone) (s.counts e.zone).manual u).answered { word := .ok })) ∧
    (∀ (z : Zone) (was : Bool) (m : Nat) (t u : State),
      u = (if t.degraded z = was then t else post (.monitoringDegraded z (t.degraded z)) t) →
      (t.fire[z].state = .starting →
        ((∀ o : LoopId, t.carries o z = true → t.loop[o].firstPass = true) →
          handEnable z was m t = evaluate z .firstPass (enterFire z .normal .firstPass u)) ∧
        (∀ o : LoopId, t.carries o z = true → t.loop[o].firstPass = false → handEnable z was m t = u)) ∧
      (t.fire[z].state ≠ .starting → handEnable z was m t = takeDetectorChange z m u)) ∧
    (∀ (x : Loop) (d : Detector) (u : State), e.enabled = false → s.loop[l].position = none → s.loop[l].item = .none →
      d = { order := some (s.store.alarmLevel e.type) } →
      x = { s.loop[l] with
        position := some a, item := .passPoll a, void := false, dets := s.loop[l].dets.set a d } →
      u = { s.heard with
        store := { s.store with
          detectors := s.store.detectors.set l (s.store.detectors[l].set a { e with enabled := true }) }
        loop := s.loop.set l x } →
      exec (.setDetector k j "YES".toList) s =
        .next ((handEnable e.zone (s.degraded e.zone) (s.counts e.zone).manual u).answered { word := .ok })) ∧
    (∀ v u : Int,
      (u = min (clamp 1 254 v) (s.store.heat.alarm - 1) →
        exec (.writeSettingDetPrealarm (some "HEAT".toList) (some v)) s = .next ({ s.heard with
          store := { s.store with heat := { s.store.heat with prealarm := u.toNat } } }.answered (usedAnswer v u))) ∧
      (u = max (clamp 2 255 v) (s.store.smoke.prealarm + 1) →
        exec (.writeSettingDetAlarm (some "SMOKE".toList) (some v)) s = .next ({ s.heard with
          store := { s.store with smoke := { s.store.smoke with alarm := u.toNat } } }.answered (usedAnswer v u))) ∧
      (u = min (clamp 1 254 v) (s.store.smoke.alarm - 1) →
        exec (.writeSettingDetPrealarm (some "SMOKE".toList) (some v)) s = .next ({ s.heard with
          store := { s.store with smoke := { s.store.smoke with prealarm := u.toNat } } }.answered (usedAnswer v u))) ∧
      (u = max (clamp 2 255 v) (s.store.heat.prealarm + 1) →
        exec (.writeSettingDetAlarm (some "HEAT".toList) (some v)) s = .next ({ s.heard with
          store := { s.store with heat := { s.store.heat with alarm := u.toNat } } }.answered (usedAnswer v u)))) ∧
    (exec (.readDetector k j) s = .next (s.replied { word := .ok, body := .detector {
      entry := e, live := s.loop[l].dets[a], prealarm := s.store.prealarmLevel e.type
      alarm := s.store.alarmLevel e.type } })) ∧
    (∀ v : LoopView, v.position = s.loop[l].position → v.item = s.loop[l].item → v.busErrors = s.loop[l].busErrors →
      v.fault = s.loop[l].fault → v.firstPass = s.loop[l].firstPass →
      v.page = (((List.finRange 32).filter fun q => s.store.detectors[l][q].enabled).take 16).map (fun q =>
        { loop := l, address := q, zone := s.store.detectors[l][q].zone, type := s.store.detectors[l][q].type
          state := s.loop[l].dets[q].state, latch := s.loop[l].dets[q].latch }) →
      v.next = (((List.finRange 32).filter fun q => s.store.detectors[l][q].enabled).drop 16).head?.map
        (fun q => q.val + 1) →
      exec (.readLoop k none) s = .next (s.replied { word := .ok, body := .loop v }))

/-- Polls and rounds (R141, R143 to R148, R151 to R154): an answered or unanswered poll changes its detector by the
rules, and a pass poll moves the pass on; the poll of an entry disabled meanwhile is set aside; a poll's order carries
the alarm level in force; detectors that seize a loop are read as one round that the lowest address wins, address 32
where none goes on, which is then polled; a completed item ends the run of bus errors and clears a LOOP-FAULT; an
abandoned item counts, and the eighth in a run is LOOP-FAULT. When a further round may be taken, and that an order is
sent as its poll becomes the item, are in part the model's choice (log entry 18); that LOOP-FAULT is cleared before
the detector of the same item changes is a fixed order of log entry 2; that a DETECTOR-FAULT CLEARED gives the zone and
the type too, where R145 names the state alone, and that the zones of a LOOP-FAULT ascend, are its choices of log entry
13. -/
def Obligations.PollsAndRoundsRun : Prop :=
  ∀ (s : State) (l : LoopId) (a : Address), s.powered = true →
    (∀ p : Address, s.loop[l].position = some p → ∀ (d : Detector) (x : Loop),
      d = { s.loop[l].dets[p] with order := some (s.store.alarmLevel s.store.detectors[l][p].type) } →
      x = { s.loop[l] with item := .passPoll p, void := false, dets := s.loop[l].dets.set p d } →
      nextItem l s = { s with loop := s.loop.set l x }) ∧
    (∀ x : Loop, s.loop[l].position = none → x = { s.loop[l] with item := .none, void := false } →
      nextItem l s = { s with loop := s.loop.set l x }) ∧
    (∀ (b : Address) (x : Loop), s.store.detectors[l][b].enabled = true → a < b →
      (∀ q : Address, s.store.detectors[l][q].enabled = true → a < q → b ≤ q) →
      x = { s.loop[l] with position := some b } → movePosition l a s = { s with loop := s.loop.set l x }) ∧
    (∀ (low : Option Address) (x : Loop), (∀ q : Address, s.store.detectors[l][q].enabled = true → q ≤ a) →
      (∀ b : Address, low = some b ↔ s.store.detectors[l][b].enabled = true ∧
        ∀ q : Address, s.store.detectors[l][q].enabled = true → b ≤ q) →
      x = { s.loop[l] with position := low, firstPass := true } →
      (s.loop[l].firstPass = true → movePosition l a s = { s with loop := s.loop.set l x }) ∧
      (s.loop[l].firstPass = false → ∃ order : List Zone, order.Perm (List.finRange 4) ∧
        movePosition l a s = actAll (fun z => tryLeaveStarting z .firstPass) order
          { s with loop := s.loop.set l x, choice := s.choice + 1 })) ∧
    (∀ (f : Detector → Detector) (e : DetEntry) (d n : Detector) (x y : Loop) (u : State), d = s.loop[l].dets[a] →
      e = s.store.detectors[l][a] → n = f d → x = { s.loop[l] with dets := s.loop[l].dets.set a n } →
      y = { s.loop[l] with dets := s.loop[l].dets.set a { n with handedLevel := n.level } } →
      u = { s with loop := s.loop.set l y } →
      (n.state = d.state → n.latch = d.latch → changeDetector l a f s = { s with loop := s.loop.set l x }) ∧
      ((n.state ≠ d.state ∨ n.latch ≠ d.latch) →
        changeDetector l a f s = takeDetectorChange e.zone (s.counts e.zone).manual
          (if n.state = d.state then u
          else if n.state = .fault then post (.detectorFaultEntered l a e.zone e.type) u
          else if d.state = .fault then post (.detectorFaultCleared l a e.zone e.type) u
          else post (.detectorState l a e.zone e.type n.level n.state) u))) ∧
    (∀ (x : Loop) (o : LoopId), o ≠ l → x = { s.loop[l] with busErrors := 0, fault := false } →
      completeItem l s = if s.loop[l].fault = true then
        post (.loopFault l false ((List.finRange 4).filter fun z =>
          s.carries l z && !(s.loop[o].fault && s.carries o z))) { s with loop := s.loop.set l x }
      else { s with loop := s.loop.set l x }) ∧
    (∀ (level : Byte) (u : State), s.loop[l].item = .passPoll a → s.loop[l].void = true →
      u = completeItem l { s with loop := s.loop.set l { s.loop[l] with roundTaken := false } } →
      exec (.pollAnswered l level) s = .next (nextItem l u) ∧ exec (.pollUnanswered l) s = .next (nextItem l u)) ∧
    (∀ level : Byte, s.loop[l].item = .priorityPoll a → s.loop[l].void = false →
      s.store.detectors[l][a].enabled = true →
      exec (.pollAnswered l level) s = .next (nextItem l (changeDetector l a
        (answerDetector s.store.detectors[l][a].type (s.store.prealarmLevel s.store.detectors[l][a].type)
          (s.store.alarmLevel s.store.detectors[l][a].type) level.toNat) (completeItem l s))) ∧
      exec (.pollUnanswered l) s = .next (nextItem l (changeDetector l a missDetector (completeItem l s)))) ∧
    (∀ (level : Byte) (u : State), s.loop[l].item = .passPoll a → s.loop[l].void = false →
      s.store.detectors[l][a].enabled = true →
      u = completeItem l { s with loop := s.loop.set l { s.loop[l] with roundTaken := false } } →
      exec (.pollAnswered l level) s = .next (nextItem l (movePosition l a (changeDetector l a
        (answerDetector s.store.detectors[l][a].type (s.store.prealarmLevel s.store.detectors[l][a].type)
          (s.store.alarmLevel s.store.detectors[l][a].type) level.toNat) u))) ∧
      exec (.pollUnanswered l) s = .next (nextItem l (movePosition l a (changeDetector l a missDetector u)))) ∧
    (∀ (alerting : List Address) (x : Loop), s.loop[l].item = .passPoll a → s.loop[l].position ≠ none →
      (s.loop[l].roundTaken = false →
        x = { s.loop[l] with item := .round alerting, void := false, roundTaken := true } →
        exec (.alert l alerting) s = .next { s with loop := s.loop.set l x }) ∧
      (s.loop[l].roundTaken = true → exec (.alert l alerting) s = .next s)) ∧
    (∀ alerting : List Address, s.loop[l].item = .round alerting →
      (a ∈ alerting ∧ (∀ q ∈ alerting, a ≤ q) ∨ alerting = [] ∧ a = 31) →
      (∀ (d : Detector) (x : Loop), s.store.detectors[l][a].enabled = true →
        d = { s.loop[l].dets[a] with order := some (s.store.alarmLevel s.store.detectors[l][a].type) } →
        x = { s.loop[l] with item := .priorityPoll a, void := false, dets := s.loop[l].dets.set a d } →
        exec (.roundEnd l) s = .next { s with loop := s.loop.set l x }) ∧
      (s.store.detectors[l][a].enabled = false →
        exec (.roundEnd l) s = .next (nextItem l (completeItem l s)))) ∧
    (∀ (x : Loop) (taken : Bool), s.loop[l].item ≠ .none → s.loop[l].fault = false →
      taken = (match s.loop[l].item with
        | .passPoll _ => false
        | _ => s.loop[l].roundTaken) →
      (s.loop[l].busErrors < 7 →
        x = { s.loop[l] with roundTaken := taken, busErrors := s.loop[l].busErrors + 1 } →
        exec (.itemAbandoned l) s = .next (nextItem l { s with loop := s.loop.set l x })) ∧
      (s.loop[l].busErrors = 7 →
        x = { s.loop[l] with roundTaken := taken, busErrors := 8, fault := true } →
        exec (.itemAbandoned l) s = .next (nextItem l (post (.loopFault l true
          ((List.finRange 4).filter fun z => s.carries l z)) { s with loop := s.loop.set l x })))) ∧
    (∀ (t : DetType) (p alarm level : Nat) (d : Detector), t ≠ .manual → d.state ≠ .fault → d.latch = false →
      d.alarmRun ≤ 1 → p < alarm →
      (alarm ≤ level → d.alarmRun = 1 → (answerDetector t (some p) alarm level d).state = .alarm ∧
        (answerDetector t (some p) alarm level d).latch = true) ∧
      (p ≤ level → ¬(alarm ≤ level ∧ d.alarmRun = 1) → (answerDetector t (some p) alarm level d).state = .prealarm ∧
        (answerDetector t (some p) alarm level d).latch = false) ∧
      (level < p → (answerDetector t (some p) alarm level d).state =
        (if d.state = .prealarm ∧ 1 ≤ d.lowRun then .normal else d.state) ∧
        (answerDetector t (some p) alarm level d).latch = false)) ∧
    (∀ (level : Nat) (d : Detector), d.state ≠ .fault → d.alarmRun ≤ 1 →
      (answerDetector .manual none 255 level d).state =
        (if d.latch = true ∨ (level = 255 ∧ d.alarmRun = 1) then .alarm else .normal)) ∧
    (∀ (t : DetType) (p alarm level : Nat) (d : Detector), t ≠ .manual → p < alarm → d.state ≠ .fault →
      (answerDetector t (some p) alarm level d).alarmRun = (if alarm ≤ level then min 2 (d.alarmRun + 1) else 0) ∧
      (answerDetector t (some p) alarm level d).lowRun = (if p ≤ level then 0 else min 2 (d.lowRun + 1))) ∧
    (∀ (t : DetType) (p : Option Nat) (alarm level : Nat) (d : Detector),
      (answerDetector t p alarm level d).miss = 0 ∧ (answerDetector t p alarm level d).level = some level ∧
      (d.latch = true → (answerDetector t p alarm level d).state = .alarm ∧
        (answerDetector t p alarm level d).latch = true) ∧
      (d.state = .fault → answerDetector t p alarm level d =
        answerDetector t p alarm level { d with state := .normal, alarmRun := 0, lowRun := 0 })) ∧
    (∀ d : Detector, d.state = .fault → missDetector d = { d with miss := min 3 (d.miss + 1) }) ∧
    (∀ d : Detector, d.state ≠ .fault → d.miss ≤ 2 →
      missDetector d = if d.miss = 2 then
        { d with miss := 3, state := .fault, level := none, alarmRun := 0, lowRun := 0 }
      else { d with miss := d.miss + 1 })

/-! ### Fire zones (chapter 8) -/

/-- Requests and settings of a fire zone (R158, R159, R163 to R165, R167, R171, R173, R174, R176): each zone of a
state entered is reported and handed to each block once, in an order the spec leaves open (log entry 2); the first
case of the evaluation that applies gives the outcome; the release test and the manual path enter PREDISCHARGE with
the countdown loaded, or stay in ALARM with ISOLATED and AGENT-SPENT; a vent starts after the soak; a reset clears the
latches; a restored agent is reported, and in ALARM the release test is made; a written coincidence is used at once;
a zone leaves STARTING once every loop that carries a detector of it has made its first pass; a handed detector change
is evaluated in NORMAL and PREALARM, takes the manual path in ALARM and sets a frozen countdown running; START-VENT and
RESET-FIRE-ZONE in another state are refused with that state, a vent before its soak's end with the seconds left, and
RESTORE-AGENT in PREDISCHARGE is refused with no field of its own; READ-FIRE-ZONE gives the zone's live state, its place
in the two sets, its settings, latch, counts and flag, and a page of its detectors by loop and ascending address, with
the place after it, a place the list does not have giving an empty one (log entry 9). The order of the reports of a clear
is log entry 2.
Log entry 19 has the model's choices: the cause of an ALARM by the manual path is MANUAL, in ALARM only a manual alarm
newly latched takes that path, a reset in NORMAL makes no evaluation, and RESTORE-AGENT in ALARM makes no release test
with the isolate key ON, so that no ISOLATED is posted, also where the latched automatic alarms reach the coincidence.
That a setting brought to the value stored is CLAMPED is its choice of log entry 22. -/
def Obligations.FireRequestsAreTaken : Prop :=
  ∀ (s : State) (z : Zone) (x : FireZone) (k : Int), x = s.fire[z] → indexOf 4 k = some z →
    (∀ (e : FireState) (c : FireCause) (y : FireZone), y = { x with state := e } →
      ∃ order : List FireTaker, order.Perm (receivers s z) ∧
        enterFire z e c s = actAll (react z x.state e) order
          { post (.fireState z x.state e c) { s with fire := s.fire.set z y } with choice := s.choice + 1 }) ∧
    (∀ c : FireCause,
      (1 ≤ (s.counts z).manual → evaluate z c s = manualPath z s) ∧
      ((s.counts z).manual = 0 → s.coincidence z ≤ (s.counts z).auto →
        evaluate z c s = releaseTest z c (enterFire z .alarm c s)) ∧
      ((s.counts z).manual = 0 → (s.counts z).auto < s.coincidence z →
        (1 ≤ (s.counts z).auto ∨ 1 ≤ (s.counts z).prealarm) → evaluate z c s = moveFire z .prealarm c s) ∧
      ((s.counts z).manual = 0 → (s.counts z).auto < s.coincidence z → (s.counts z).auto = 0 →
        (s.counts z).prealarm = 0 → evaluate z c s = moveFire z .normal c s)) ∧
    LatchesCleared z s (clearLatches z s) ∧
    (∀ c : FireCause,
      (x.state = .starting → (∀ l : LoopId, s.carries l z = true → s.loop[l].firstPass = true) →
        tryLeaveStarting z c s = evaluate z c (enterFire z .normal c s)) ∧
      (∀ l : LoopId, s.carries l z = true → s.loop[l].firstPass = false → tryLeaveStarting z c s = s) ∧
      (x.state ≠ .starting → tryLeaveStarting z c s = s)) ∧
    (∀ m : Nat,
      ((x.state = .normal ∨ x.state = .prealarm) → takeDetectorChange z m s = evaluate z .detectors s) ∧
      (x.state = .alarm → takeDetectorChange z m s = if m < (s.counts z).manual then manualPath z s else s) ∧
      (∀ (n : Nat) (y : FireZone), x.state = .predischarge → x.countdown = .frozen n → 1 ≤ (s.counts z).manual →
        y = { x with countdown := .running n } →
        takeDetectorChange z m s = { s with fire := s.fire.set z y }) ∧
      (x.state = .predischarge → ((∀ n : Nat, x.countdown ≠ .frozen n) ∨ (s.counts z).manual = 0) →
        takeDetectorChange z m s = s) ∧
      ((x.state = .starting ∨ x.state = .discharged ∨ x.state = .vent) → takeDetectorChange z m s = s)) ∧
    (∀ (c : FireCause) (y : FireZone),
      y = { x with countdown :=
        if x.abortHeld = true ∧ (s.counts z).manual = 0 then .frozen s.store.fire[z].countdown
        else .running s.store.fire[z].countdown } →
      (x.isolateOn = false → s.store.spent[z] = false →
        releaseTest z c s = enterFire z .predischarge c { s with fire := s.fire.set z y } ∧
        manualPath z s = enterFire z .predischarge .manual { s with fire := s.fire.set z y }) ∧
      (x.isolateOn = true → s.store.spent[z] = false →
        releaseTest z c s = post (.isolated z) s ∧ manualPath z s = post (.isolated z) (moveFire z .alarm .manual s)) ∧
      (x.isolateOn = false → s.store.spent[z] = true →
        releaseTest z c s = post (.agentSpent z) s ∧
        manualPath z s = post (.agentSpent z) (moveFire z .alarm .manual s)) ∧
      (x.isolateOn = true → s.store.spent[z] = true →
        releaseTest z c s = post (.agentSpent z) (post (.isolated z) s) ∧
        manualPath z s = post (.agentSpent z) (post (.isolated z) (moveFire z .alarm .manual s)))) ∧
    (∀ (e : FireState) (c : FireCause),
      (x.state = e → moveFire z e c s = s) ∧ (x.state ≠ e → moveFire z e c s = enterFire z e c s)) ∧
    (Ready s →
      (∀ u : State, x.state = .alarm → s.store.spent[z] = true →
        u = post (.agentRestored z) { s.heard with store := { s.store with spent := s.store.spent.set z false } } →
        (x.isolateOn = false → (1 ≤ (s.counts z).manual ∨ s.coincidence z ≤ (s.counts z).auto) →
          exec (.restoreAgent k) s = .next ((releaseTest z .agentRestored u).answered { word := .ok })) ∧
        ((x.isolateOn = true ∨ (s.counts z).manual = 0 ∧ (s.counts z).auto < s.coincidence z) →
          exec (.restoreAgent k) s = .next (u.answered { word := .ok }))) ∧
      (∀ y : FireZone, x.state = .discharged → x.soakComplete = true →
        y = { x with ventOut := true, vent := some s.store.fire[z].vent } →
        exec (.startVent k) s =
          .next ((enterFire z .vent .startVent { s.heard with fire := s.fire.set z y }).answered { word := .ok })) ∧
      (x.state ≠ .discharged → exec (.startVent k) s =
        .next (s.replied { word := .refused, body := .fireRefused x.state none })) ∧
      (x.state = .discharged → x.soakComplete = false → exec (.startVent k) s =
        .next (s.replied { word := .refused, body := .fireRefused .discharged x.soak })) ∧
      ((x.state = .alarm ∨ x.state = .prealarm) → exec (.resetFireZone k) s =
        .next ((evaluate z .reset (enterFire z .normal .reset (clearLatches z s.heard))).answered { word := .ok })) ∧
      (x.state = .normal → exec (.resetFireZone k) s =
        .next ((clearLatches z s.heard).answered { word := .ok })) ∧
      ((x.state = .starting ∨ x.state = .predischarge ∨ x.state = .discharged ∨ x.state = .vent) →
        exec (.resetFireZone k) s =
        .next (s.replied { word := .refused, body := .fireRefused x.state none })) ∧
      (x.state ≠ .predischarge → x.state ≠ .alarm → s.store.spent[z] = true → exec (.restoreAgent k) s =
        .next ((post (.agentRestored z) { s.heard with
          store := { s.store with spent := s.store.spent.set z false } }).answered { word := .ok })) ∧
      (x.state ≠ .predischarge → s.store.spent[z] = false → exec (.restoreAgent k) s = .next (s.repliedWord .ok)) ∧
      (x.state = .predischarge → exec (.restoreAgent k) s =
        .next (s.repliedWord .refused)) ∧
      (∀ (rows : List DetectorRow) (v : FireView),
        rows = (List.finRange 2).flatMap (fun l : LoopId => ((List.finRange 32).filter fun a : Address =>
          s.store.detectors[l][a].enabled && s.store.detectors[l][a].zone == z).map fun a : Address =>
            { loop := l, address := a, zone := z, type := s.store.detectors[l][a].type
              state := s.loop[l].dets[a].state, latch := s.loop[l].dets[a].latch }) →
        v = { live := x, inHoldSet := decide (x.state ≠ .normal ∧ x.state ≠ .prealarm)
              inShedSet := decide (x.state ∈ ([.alarm, .predischarge, .discharged, .vent] : List FireState))
              settings := s.store.fire[z], spent := s.store.spent[z], counts := s.counts z
              coincidence := s.coincidence z, degraded := s.degraded z, page := v.page, next := v.next } →
        (v.page = rows.take 16 → v.next = (if 16 < rows.length then some 17 else none) →
          exec (.readFireZone k none) s = .next (s.replied { word := .ok, body := .fireZone v })) ∧
        (∀ j : Nat, 1 ≤ j → j ≤ rows.length → v.page = (rows.drop (j - 1)).take 16 →
          v.next = (if j + 15 < rows.length then some (j + 16) else none) →
          exec (.readFireZone k (some j)) s = .next (s.replied { word := .ok, body := .fireZone v })) ∧
        (∀ j : Int, (j < 1 ∨ rows.length < j) → v.page = [] → v.next = none →
          exec (.readFireZone k (some j)) s = .next (s.replied { word := .ok, body := .fireZone v }))) ∧
      (∀ (v : Int) (y : FireSettings),
        (y = { s.store.fire[z] with vent := (clamp 60 3600 v).toNat } →
          exec (.writeSettingFireTimes .vent (some k) (some v)) s = .next ({ s.heard with
            store := { s.store with fire := s.store.fire.set z y } }.answered (usedAnswer v (clamp 60 3600 v)))) ∧
        (y = { s.store.fire[z] with countdown := (clamp 10 60 v).toNat } →
          exec (.writeSettingFireTimes .countdown (some k) (some v)) s = .next ({ s.heard with
            store := { s.store with fire := s.store.fire.set z y } }.answered (usedAnswer v (clamp 10 60 v)))) ∧
        (y = { s.store.fire[z] with soak := (clamp 60 3600 v).toNat } →
          exec (.writeSettingFireTimes .soak (some k) (some v)) s = .next ({ s.heard with
            store := { s.store with fire := s.store.fire.set z y } }.answered (usedAnswer v (clamp 60 3600 v)))) ∧
        (∀ (u : Nat) (t : State), u = (clamp 1 2 v).toNat → u ≠ s.store.fire[z].coincidence →
          y = { s.store.fire[z] with coincidence := u } →
          t = { s.heard with store := { s.store with fire := s.store.fire.set z y } } →
          exec (.writeSettingFireCoincidence (some k) (some v)) s =
            .next ((if x.state = .normal ∨ x.state = .prealarm then evaluate z .coincidence t else t).answered
              (usedAnswer v (clamp 1 2 v)))) ∧
        (clamp 1 2 v = s.store.fire[z].coincidence → exec (.writeSettingFireCoincidence (some k) (some v)) s =
          .next (s.replied (usedAnswer v (clamp 1 2 v))))))

/-- Inputs and timers of a fire zone (R160, R166 to R170, R172): the isolate key holds PREDISCHARGE off to ALARM, and
turned OFF in ALARM makes the release test; the abort station freezes and restarts the countdown, but for one a manual
latch holds running, and is reported with its seconds; the countdown's end spends the agent, energises the release
output and enters DISCHARGED; the confirm input, the pulse, the soak and the vent end as their rules say, the vent
with the latches of the zone cleared, in the order of log entry 2. That an expiry is taken whenever its timer runs is
the model's choice (log entry 5); the state an ISOLATE-KEY report carries, and the place of the report of a confirm
input already active, are log entry 19. -/
def Obligations.FireInputsAndTimersRun : Prop :=
  ∀ (s : State) (z : Zone) (x : FireZone), s.powered = true → x = s.fire[z] →
    (∀ on : Bool, x.isolateOn = on → exec (.isolateKeyChange z on) s = .next s) ∧
    (∀ (y w : FireZone) (u : State), x.isolateOn = false → x.state = .predischarge →
      y = { x with isolateOn := true } → w = { y with countdown := .stopped } →
      u = post (.isolateKey z true .predischarge) { s with fire := s.fire.set z y } →
      exec (.isolateKeyChange z true) s = .next (post (.isolated z) (enterFire z .alarm .isolateOn
        { u with fire := s.fire.set z w }))) ∧
    (∀ (y : FireZone) (u : State), x.isolateOn = true → x.state = .alarm → y = { x with isolateOn := false } →
      u = post (.isolateKey z false .alarm) { s with fire := s.fire.set z y } →
      (1 ≤ (s.counts z).manual → exec (.isolateKeyChange z false) s = .next (manualPath z u)) ∧
      ((s.counts z).manual = 0 → s.coincidence z ≤ (s.counts z).auto →
        exec (.isolateKeyChange z false) s = .next (releaseTest z .isolateOff u)) ∧
      ((s.counts z).manual = 0 → (s.counts z).auto < s.coincidence z →
        exec (.isolateKeyChange z false) s = .next u)) ∧
    (∀ y : FireZone, x.isolateOn = false → x.state = .alarm → y = { x with isolateOn := true } →
      exec (.isolateKeyChange z true) s =
        .next (post (.isolateKey z true .alarm) { s with fire := s.fire.set z y })) ∧
    (∀ (on : Bool) (y : FireZone), x.isolateOn ≠ on → x.state = .starting → y = { x with isolateOn := on } →
      exec (.isolateKeyChange z on) s = .next { s with fire := s.fire.set z y }) ∧
    (∀ (held : Bool) (n : Nat) (y : FireZone), x.abortHeld ≠ held → x.state = .predischarge →
      x.countdown = .running n → (held = true → 1 ≤ (s.counts z).manual) → y = { x with abortHeld := held } →
      exec (.abortStationChange z held) s = .next (post (.abort z held n) { s with fire := s.fire.set z y })) ∧
    (∀ (on : Bool) (y : FireZone), x.isolateOn ≠ on → x.state ≠ .starting → x.state ≠ .predischarge →
      x.state ≠ .alarm → y = { x with isolateOn := on } →
      exec (.isolateKeyChange z on) s =
        .next (post (.isolateKey z on x.state) { s with fire := s.fire.set z y })) ∧
    (∀ (held : Bool) (y : FireZone), x.abortHeld ≠ held → x.state ≠ .predischarge → y = { x with abortHeld := held } →
      exec (.abortStationChange z held) s = .next { s with fire := s.fire.set z y }) ∧
    (∀ (n : Nat) (y : FireZone), x.abortHeld = false → x.state = .predischarge → x.countdown = .running n →
      (s.counts z).manual = 0 → y = { x with abortHeld := true, countdown := .frozen n } →
      exec (.abortStationChange z true) s = .next (post (.abort z true n) { s with fire := s.fire.set z y })) ∧
    (∀ (n : Nat) (y : FireZone), x.abortHeld = true → x.state = .predischarge → x.countdown = .frozen n →
      y = { x with abortHeld := false, countdown := .running s.store.fire[z].countdown } →
      exec (.abortStationChange z false) s =
        .next (post (.abort z false s.store.fire[z].countdown) { s with fire := s.fire.set z y })) ∧
    (∀ (active : Bool) (y : FireZone), x.confirmWait = none → y = { x with confirmActive := active } →
      exec (.dischargeConfirmChange z active) s = .next { s with fire := s.fire.set z y }) ∧
    (∀ (left : Nat) (y : FireZone), x.confirmWait = some left →
      y = { x with confirmActive := true, confirmSeen := true, confirmWait := none } →
      exec (.dischargeConfirmChange z true) s =
        .next (post (.dischargeConfirmed z (30 - left)) { s with fire := s.fire.set z y })) ∧
    (∀ (n : Nat) (y : FireZone), x.state = .predischarge → x.countdown = .running n →
      y = {
        x with countdown := .stopped, releaseOut := true, pulse := some 10, confirmWait := some 30
               confirmSeen := false, soak := some s.store.fire[z].soak, soakComplete := false } →
      exec (.countdownExpiry z) s = .next (confirmSeen z (enterFire z .discharged .expiry { s with
        store := { s.store with spent := s.store.spent.set z true }
        fire := s.fire.set z y }))) ∧
    (∀ y : FireZone, x.pulse.isSome = true → y = { x with releaseOut := false, pulse := none } →
      exec (.releasePulseExpiry z) s = .next { s with fire := s.fire.set z y }) ∧
    (∀ y : FireZone, x.confirmWait.isSome = true → x.confirmSeen = false → y = { x with confirmWait := none } →
      exec (.confirmWaitExpiry z) s = .next (post (.dischargeFault z) { s with fire := s.fire.set z y })) ∧
    (∀ y : FireZone, x.state = .discharged → x.soak.isSome = true →
      y = { x with soak := none, soakComplete := true } →
      exec (.soakExpiry z) s = .next (post (.soakComplete z) { s with fire := s.fire.set z y })) ∧
    (∀ y : FireZone, x.state = .vent → x.vent.isSome = true →
      y = { x with ventOut := false, vent := none, soakComplete := false, confirmSeen := false } →
      ∃ t : State, t = clearLatches z { s with fire := s.fire.set z y } ∧
        LatchesCleared z { s with fire := s.fire.set z y } t ∧
        exec (.ventExpiry z) s = .next (evaluate z .ventEnd (enterFire z .normal .ventEnd t)))

end
end

