-- ==== Sys2Proof/Laws/State.lean ====
section
/-!
SUPPORT. What each update of the state writes, one lemma per field per update: no later proof unfolds a record update.
-/

namespace Sys2Proof.Machine

variable (s : State)

/-! ### `setStore` -/

@[simp] theorem State.setStore_pending (x : Store) : (s.setStore x).pending = s.pending := rfl
@[simp] theorem State.setStore_choice (x : Store) : (s.setStore x).choice = s.choice := rfl
@[simp] theorem State.setStore_powered (x : Store) : (s.setStore x).powered = s.powered := rfl
@[simp] theorem State.setStore_store (x : Store) : (s.setStore x).store = x := rfl
@[simp] theorem State.setStore_front (x : Store) : (s.setStore x).front = s.front := rfl
@[simp] theorem State.setStore_climate (x : Store) : (s.setStore x).climate = s.climate := rfl
@[simp] theorem State.setStore_staging (x : Store) : (s.setStore x).staging = s.staging := rfl
@[simp] theorem State.setStore_hatch (x : Store) : (s.setStore x).hatch = s.hatch := rfl
@[simp] theorem State.setStore_bank (x : Store) : (s.setStore x).bank = s.bank := rfl
@[simp] theorem State.setStore_loop (x : Store) : (s.setStore x).loop = s.loop := rfl
@[simp] theorem State.setStore_fire (x : Store) : (s.setStore x).fire = s.fire := rfl
@[simp] theorem State.setStore_line (x : Store) : (s.setStore x).line = s.line := rfl
@[simp] theorem State.setStore_reports (x : Store) : (s.setStore x).reports = s.reports := rfl
@[simp] theorem State.setStore_minute (x : Store) : (s.setStore x).minute = s.minute := rfl
@[simp] theorem State.setStore_seconds (x : Store) : (s.setStore x).seconds = s.seconds := rfl

/-! ### `setFront` -/

@[simp] theorem State.setFront_pending (x : FrontEnd) : (s.setFront x).pending = s.pending := rfl
@[simp] theorem State.setFront_choice (x : FrontEnd) : (s.setFront x).choice = s.choice := rfl
@[simp] theorem State.setFront_powered (x : FrontEnd) : (s.setFront x).powered = s.powered := rfl
@[simp] theorem State.setFront_store (x : FrontEnd) : (s.setFront x).store = s.store := rfl
@[simp] theorem State.setFront_front (x : FrontEnd) : (s.setFront x).front = x := rfl
@[simp] theorem State.setFront_climate (x : FrontEnd) : (s.setFront x).climate = s.climate := rfl
@[simp] theorem State.setFront_staging (x : FrontEnd) : (s.setFront x).staging = s.staging := rfl
@[simp] theorem State.setFront_hatch (x : FrontEnd) : (s.setFront x).hatch = s.hatch := rfl
@[simp] theorem State.setFront_bank (x : FrontEnd) : (s.setFront x).bank = s.bank := rfl
@[simp] theorem State.setFront_loop (x : FrontEnd) : (s.setFront x).loop = s.loop := rfl
@[simp] theorem State.setFront_fire (x : FrontEnd) : (s.setFront x).fire = s.fire := rfl
@[simp] theorem State.setFront_line (x : FrontEnd) : (s.setFront x).line = s.line := rfl
@[simp] theorem State.setFront_reports (x : FrontEnd) : (s.setFront x).reports = s.reports := rfl
@[simp] theorem State.setFront_minute (x : FrontEnd) : (s.setFront x).minute = s.minute := rfl
@[simp] theorem State.setFront_seconds (x : FrontEnd) : (s.setFront x).seconds = s.seconds := rfl

/-! ### `setClimate` -/

@[simp] theorem State.setClimate_pending (i : Zone) (x : Climate) : (s.setClimate i x).pending = s.pending := rfl
@[simp] theorem State.setClimate_choice (i : Zone) (x : Climate) : (s.setClimate i x).choice = s.choice := rfl
@[simp] theorem State.setClimate_powered (i : Zone) (x : Climate) : (s.setClimate i x).powered = s.powered := rfl
@[simp] theorem State.setClimate_store (i : Zone) (x : Climate) : (s.setClimate i x).store = s.store := rfl
@[simp] theorem State.setClimate_front (i : Zone) (x : Climate) : (s.setClimate i x).front = s.front := rfl
@[simp] theorem State.setClimate_climate (i : Zone) (x : Climate) : (s.setClimate i x).climate = s.climate.set i x := rfl
@[simp] theorem State.setClimate_staging (i : Zone) (x : Climate) : (s.setClimate i x).staging = s.staging := rfl
@[simp] theorem State.setClimate_hatch (i : Zone) (x : Climate) : (s.setClimate i x).hatch = s.hatch := rfl
@[simp] theorem State.setClimate_bank (i : Zone) (x : Climate) : (s.setClimate i x).bank = s.bank := rfl
@[simp] theorem State.setClimate_loop (i : Zone) (x : Climate) : (s.setClimate i x).loop = s.loop := rfl
@[simp] theorem State.setClimate_fire (i : Zone) (x : Climate) : (s.setClimate i x).fire = s.fire := rfl
@[simp] theorem State.setClimate_line (i : Zone) (x : Climate) : (s.setClimate i x).line = s.line := rfl
@[simp] theorem State.setClimate_reports (i : Zone) (x : Climate) : (s.setClimate i x).reports = s.reports := rfl
@[simp] theorem State.setClimate_minute (i : Zone) (x : Climate) : (s.setClimate i x).minute = s.minute := rfl
@[simp] theorem State.setClimate_seconds (i : Zone) (x : Climate) : (s.setClimate i x).seconds = s.seconds := rfl

/-! ### `setStaging` -/

@[simp] theorem State.setStaging_pending (i : ReaderId) (x : Staging) : (s.setStaging i x).pending = s.pending := rfl
@[simp] theorem State.setStaging_choice (i : ReaderId) (x : Staging) : (s.setStaging i x).choice = s.choice := rfl
@[simp] theorem State.setStaging_powered (i : ReaderId) (x : Staging) : (s.setStaging i x).powered = s.powered := rfl
@[simp] theorem State.setStaging_store (i : ReaderId) (x : Staging) : (s.setStaging i x).store = s.store := rfl
@[simp] theorem State.setStaging_front (i : ReaderId) (x : Staging) : (s.setStaging i x).front = s.front := rfl
@[simp] theorem State.setStaging_climate (i : ReaderId) (x : Staging) : (s.setStaging i x).climate = s.climate := rfl
@[simp] theorem State.setStaging_staging (i : ReaderId) (x : Staging) : (s.setStaging i x).staging = s.staging.set i x := rfl
@[simp] theorem State.setStaging_hatch (i : ReaderId) (x : Staging) : (s.setStaging i x).hatch = s.hatch := rfl
@[simp] theorem State.setStaging_bank (i : ReaderId) (x : Staging) : (s.setStaging i x).bank = s.bank := rfl
@[simp] theorem State.setStaging_loop (i : ReaderId) (x : Staging) : (s.setStaging i x).loop = s.loop := rfl
@[simp] theorem State.setStaging_fire (i : ReaderId) (x : Staging) : (s.setStaging i x).fire = s.fire := rfl
@[simp] theorem State.setStaging_line (i : ReaderId) (x : Staging) : (s.setStaging i x).line = s.line := rfl
@[simp] theorem State.setStaging_reports (i : ReaderId) (x : Staging) : (s.setStaging i x).reports = s.reports := rfl
@[simp] theorem State.setStaging_minute (i : ReaderId) (x : Staging) : (s.setStaging i x).minute = s.minute := rfl
@[simp] theorem State.setStaging_seconds (i : ReaderId) (x : Staging) : (s.setStaging i x).seconds = s.seconds := rfl

/-! ### `setHatch` -/

@[simp] theorem State.setHatch_pending (i : HatchId) (x : Hatch) : (s.setHatch i x).pending = s.pending := rfl
@[simp] theorem State.setHatch_choice (i : HatchId) (x : Hatch) : (s.setHatch i x).choice = s.choice := rfl
@[simp] theorem State.setHatch_powered (i : HatchId) (x : Hatch) : (s.setHatch i x).powered = s.powered := rfl
@[simp] theorem State.setHatch_store (i : HatchId) (x : Hatch) : (s.setHatch i x).store = s.store := rfl
@[simp] theorem State.setHatch_front (i : HatchId) (x : Hatch) : (s.setHatch i x).front = s.front := rfl
@[simp] theorem State.setHatch_climate (i : HatchId) (x : Hatch) : (s.setHatch i x).climate = s.climate := rfl
@[simp] theorem State.setHatch_staging (i : HatchId) (x : Hatch) : (s.setHatch i x).staging = s.staging := rfl
@[simp] theorem State.setHatch_hatch (i : HatchId) (x : Hatch) : (s.setHatch i x).hatch = s.hatch.set i x := rfl
@[simp] theorem State.setHatch_bank (i : HatchId) (x : Hatch) : (s.setHatch i x).bank = s.bank := rfl
@[simp] theorem State.setHatch_loop (i : HatchId) (x : Hatch) : (s.setHatch i x).loop = s.loop := rfl
@[simp] theorem State.setHatch_fire (i : HatchId) (x : Hatch) : (s.setHatch i x).fire = s.fire := rfl
@[simp] theorem State.setHatch_line (i : HatchId) (x : Hatch) : (s.setHatch i x).line = s.line := rfl
@[simp] theorem State.setHatch_reports (i : HatchId) (x : Hatch) : (s.setHatch i x).reports = s.reports := rfl
@[simp] theorem State.setHatch_minute (i : HatchId) (x : Hatch) : (s.setHatch i x).minute = s.minute := rfl
@[simp] theorem State.setHatch_seconds (i : HatchId) (x : Hatch) : (s.setHatch i x).seconds = s.seconds := rfl

/-! ### `setBank` -/

@[simp] theorem State.setBank_pending (i : BankId) (x : Bank) : (s.setBank i x).pending = s.pending := rfl
@[simp] theorem State.setBank_choice (i : BankId) (x : Bank) : (s.setBank i x).choice = s.choice := rfl
@[simp] theorem State.setBank_powered (i : BankId) (x : Bank) : (s.setBank i x).powered = s.powered := rfl
@[simp] theorem State.setBank_store (i : BankId) (x : Bank) : (s.setBank i x).store = s.store := rfl
@[simp] theorem State.setBank_front (i : BankId) (x : Bank) : (s.setBank i x).front = s.front := rfl
@[simp] theorem State.setBank_climate (i : BankId) (x : Bank) : (s.setBank i x).climate = s.climate := rfl
@[simp] theorem State.setBank_staging (i : BankId) (x : Bank) : (s.setBank i x).staging = s.staging := rfl
@[simp] theorem State.setBank_hatch (i : BankId) (x : Bank) : (s.setBank i x).hatch = s.hatch := rfl
@[simp] theorem State.setBank_bank (i : BankId) (x : Bank) : (s.setBank i x).bank = s.bank.set i x := rfl
@[simp] theorem State.setBank_loop (i : BankId) (x : Bank) : (s.setBank i x).loop = s.loop := rfl
@[simp] theorem State.setBank_fire (i : BankId) (x : Bank) : (s.setBank i x).fire = s.fire := rfl
@[simp] theorem State.setBank_line (i : BankId) (x : Bank) : (s.setBank i x).line = s.line := rfl
@[simp] theorem State.setBank_reports (i : BankId) (x : Bank) : (s.setBank i x).reports = s.reports := rfl
@[simp] theorem State.setBank_minute (i : BankId) (x : Bank) : (s.setBank i x).minute = s.minute := rfl
@[simp] theorem State.setBank_seconds (i : BankId) (x : Bank) : (s.setBank i x).seconds = s.seconds := rfl

/-! ### `setLoop` -/

@[simp] theorem State.setLoop_pending (i : LoopId) (x : Loop) : (s.setLoop i x).pending = s.pending := rfl
@[simp] theorem State.setLoop_choice (i : LoopId) (x : Loop) : (s.setLoop i x).choice = s.choice := rfl
@[simp] theorem State.setLoop_powered (i : LoopId) (x : Loop) : (s.setLoop i x).powered = s.powered := rfl
@[simp] theorem State.setLoop_store (i : LoopId) (x : Loop) : (s.setLoop i x).store = s.store := rfl
@[simp] theorem State.setLoop_front (i : LoopId) (x : Loop) : (s.setLoop i x).front = s.front := rfl
@[simp] theorem State.setLoop_climate (i : LoopId) (x : Loop) : (s.setLoop i x).climate = s.climate := rfl
@[simp] theorem State.setLoop_staging (i : LoopId) (x : Loop) : (s.setLoop i x).staging = s.staging := rfl
@[simp] theorem State.setLoop_hatch (i : LoopId) (x : Loop) : (s.setLoop i x).hatch = s.hatch := rfl
@[simp] theorem State.setLoop_bank (i : LoopId) (x : Loop) : (s.setLoop i x).bank = s.bank := rfl
@[simp] theorem State.setLoop_loop (i : LoopId) (x : Loop) : (s.setLoop i x).loop = s.loop.set i x := rfl
@[simp] theorem State.setLoop_fire (i : LoopId) (x : Loop) : (s.setLoop i x).fire = s.fire := rfl
@[simp] theorem State.setLoop_line (i : LoopId) (x : Loop) : (s.setLoop i x).line = s.line := rfl
@[simp] theorem State.setLoop_reports (i : LoopId) (x : Loop) : (s.setLoop i x).reports = s.reports := rfl
@[simp] theorem State.setLoop_minute (i : LoopId) (x : Loop) : (s.setLoop i x).minute = s.minute := rfl
@[simp] theorem State.setLoop_seconds (i : LoopId) (x : Loop) : (s.setLoop i x).seconds = s.seconds := rfl

/-! ### `setFire` -/

@[simp] theorem State.setFire_pending (i : Zone) (x : FireZone) : (s.setFire i x).pending = s.pending := rfl
@[simp] theorem State.setFire_choice (i : Zone) (x : FireZone) : (s.setFire i x).choice = s.choice := rfl
@[simp] theorem State.setFire_powered (i : Zone) (x : FireZone) : (s.setFire i x).powered = s.powered := rfl
@[simp] theorem State.setFire_store (i : Zone) (x : FireZone) : (s.setFire i x).store = s.store := rfl
@[simp] theorem State.setFire_front (i : Zone) (x : FireZone) : (s.setFire i x).front = s.front := rfl
@[simp] theorem State.setFire_climate (i : Zone) (x : FireZone) : (s.setFire i x).climate = s.climate := rfl
@[simp] theorem State.setFire_staging (i : Zone) (x : FireZone) : (s.setFire i x).staging = s.staging := rfl
@[simp] theorem State.setFire_hatch (i : Zone) (x : FireZone) : (s.setFire i x).hatch = s.hatch := rfl
@[simp] theorem State.setFire_bank (i : Zone) (x : FireZone) : (s.setFire i x).bank = s.bank := rfl
@[simp] theorem State.setFire_loop (i : Zone) (x : FireZone) : (s.setFire i x).loop = s.loop := rfl
@[simp] theorem State.setFire_fire (i : Zone) (x : FireZone) : (s.setFire i x).fire = s.fire.set i x := rfl
@[simp] theorem State.setFire_line (i : Zone) (x : FireZone) : (s.setFire i x).line = s.line := rfl
@[simp] theorem State.setFire_reports (i : Zone) (x : FireZone) : (s.setFire i x).reports = s.reports := rfl
@[simp] theorem State.setFire_minute (i : Zone) (x : FireZone) : (s.setFire i x).minute = s.minute := rfl
@[simp] theorem State.setFire_seconds (i : Zone) (x : FireZone) : (s.setFire i x).seconds = s.seconds := rfl

/-! ### `setLine` -/

@[simp] theorem State.setLine_pending (x : HostLine) : (s.setLine x).pending = s.pending := rfl
@[simp] theorem State.setLine_choice (x : HostLine) : (s.setLine x).choice = s.choice := rfl
@[simp] theorem State.setLine_powered (x : HostLine) : (s.setLine x).powered = s.powered := rfl
@[simp] theorem State.setLine_store (x : HostLine) : (s.setLine x).store = s.store := rfl
@[simp] theorem State.setLine_front (x : HostLine) : (s.setLine x).front = s.front := rfl
@[simp] theorem State.setLine_climate (x : HostLine) : (s.setLine x).climate = s.climate := rfl
@[simp] theorem State.setLine_staging (x : HostLine) : (s.setLine x).staging = s.staging := rfl
@[simp] theorem State.setLine_hatch (x : HostLine) : (s.setLine x).hatch = s.hatch := rfl
@[simp] theorem State.setLine_bank (x : HostLine) : (s.setLine x).bank = s.bank := rfl
@[simp] theorem State.setLine_loop (x : HostLine) : (s.setLine x).loop = s.loop := rfl
@[simp] theorem State.setLine_fire (x : HostLine) : (s.setLine x).fire = s.fire := rfl
@[simp] theorem State.setLine_line (x : HostLine) : (s.setLine x).line = x := rfl
@[simp] theorem State.setLine_reports (x : HostLine) : (s.setLine x).reports = s.reports := rfl
@[simp] theorem State.setLine_minute (x : HostLine) : (s.setLine x).minute = s.minute := rfl
@[simp] theorem State.setLine_seconds (x : HostLine) : (s.setLine x).seconds = s.seconds := rfl

/-! ### `setReports` -/

@[simp] theorem State.setReports_pending (x : List Report) : (s.setReports x).pending = s.pending := rfl
@[simp] theorem State.setReports_choice (x : List Report) : (s.setReports x).choice = s.choice := rfl
@[simp] theorem State.setReports_powered (x : List Report) : (s.setReports x).powered = s.powered := rfl
@[simp] theorem State.setReports_store (x : List Report) : (s.setReports x).store = s.store := rfl
@[simp] theorem State.setReports_front (x : List Report) : (s.setReports x).front = s.front := rfl
@[simp] theorem State.setReports_climate (x : List Report) : (s.setReports x).climate = s.climate := rfl
@[simp] theorem State.setReports_staging (x : List Report) : (s.setReports x).staging = s.staging := rfl
@[simp] theorem State.setReports_hatch (x : List Report) : (s.setReports x).hatch = s.hatch := rfl
@[simp] theorem State.setReports_bank (x : List Report) : (s.setReports x).bank = s.bank := rfl
@[simp] theorem State.setReports_loop (x : List Report) : (s.setReports x).loop = s.loop := rfl
@[simp] theorem State.setReports_fire (x : List Report) : (s.setReports x).fire = s.fire := rfl
@[simp] theorem State.setReports_line (x : List Report) : (s.setReports x).line = s.line := rfl
@[simp] theorem State.setReports_reports (x : List Report) : (s.setReports x).reports = x := rfl
@[simp] theorem State.setReports_minute (x : List Report) : (s.setReports x).minute = s.minute := rfl
@[simp] theorem State.setReports_seconds (x : List Report) : (s.setReports x).seconds = s.seconds := rfl

/-! ### `heard` -/

@[simp] theorem State.heard_pending : (s.heard).pending = s.pending := rfl
@[simp] theorem State.heard_choice : (s.heard).choice = s.choice := rfl
@[simp] theorem State.heard_powered : (s.heard).powered = s.powered := rfl
@[simp] theorem State.heard_store : (s.heard).store = s.store := rfl
@[simp] theorem State.heard_front : (s.heard).front = s.front := rfl
@[simp] theorem State.heard_climate : (s.heard).climate = s.climate := rfl
@[simp] theorem State.heard_staging : (s.heard).staging = s.staging := rfl
@[simp] theorem State.heard_hatch : (s.heard).hatch = s.hatch := rfl
@[simp] theorem State.heard_bank : (s.heard).bank = s.bank := rfl
@[simp] theorem State.heard_loop : (s.heard).loop = s.loop := rfl
@[simp] theorem State.heard_fire : (s.heard).fire = s.fire := rfl
@[simp] theorem State.heard_line : (s.heard).line = { s.line with receiver := .hunt } := rfl
@[simp] theorem State.heard_reports : (s.heard).reports = s.reports := rfl
@[simp] theorem State.heard_minute : (s.heard).minute = s.minute := rfl
@[simp] theorem State.heard_seconds : (s.heard).seconds = s.seconds := rfl

/-! ### `answered` -/

@[simp] theorem State.answered_pending (a : Answer) : (s.answered a).pending = s.pending := rfl
@[simp] theorem State.answered_choice (a : Answer) : (s.answered a).choice = s.choice := rfl
@[simp] theorem State.answered_powered (a : Answer) : (s.answered a).powered = s.powered := rfl
@[simp] theorem State.answered_store (a : Answer) : (s.answered a).store = s.store := rfl
@[simp] theorem State.answered_front (a : Answer) : (s.answered a).front = s.front := rfl
@[simp] theorem State.answered_climate (a : Answer) : (s.answered a).climate = s.climate := rfl
@[simp] theorem State.answered_staging (a : Answer) : (s.answered a).staging = s.staging := rfl
@[simp] theorem State.answered_hatch (a : Answer) : (s.answered a).hatch = s.hatch := rfl
@[simp] theorem State.answered_bank (a : Answer) : (s.answered a).bank = s.bank := rfl
@[simp] theorem State.answered_loop (a : Answer) : (s.answered a).loop = s.loop := rfl
@[simp] theorem State.answered_fire (a : Answer) : (s.answered a).fire = s.fire := rfl
@[simp] theorem State.answered_line (a : Answer) : (s.answered a).line = { s.line with reply := .owed { station := s.line.station, answer := a } } := rfl
@[simp] theorem State.answered_reports (a : Answer) : (s.answered a).reports = s.reports := rfl
@[simp] theorem State.answered_minute (a : Answer) : (s.answered a).minute = s.minute := rfl
@[simp] theorem State.answered_seconds (a : Answer) : (s.answered a).seconds = s.seconds := rfl

/-! ### The changes of one block -/

@[simp] theorem State.modClimate_pending (i : Zone) (f : Climate → Climate) : (s.modClimate i f).pending = s.pending := rfl
@[simp] theorem State.modClimate_choice (i : Zone) (f : Climate → Climate) : (s.modClimate i f).choice = s.choice := rfl
@[simp] theorem State.modClimate_powered (i : Zone) (f : Climate → Climate) : (s.modClimate i f).powered = s.powered := rfl
@[simp] theorem State.modClimate_store (i : Zone) (f : Climate → Climate) : (s.modClimate i f).store = s.store := rfl
@[simp] theorem State.modClimate_front (i : Zone) (f : Climate → Climate) : (s.modClimate i f).front = s.front := rfl
@[simp] theorem State.modClimate_climate (i : Zone) (f : Climate → Climate) : (s.modClimate i f).climate = s.climate.set i (f s.climate[i]) := rfl
@[simp] theorem State.modClimate_staging (i : Zone) (f : Climate → Climate) : (s.modClimate i f).staging = s.staging := rfl
@[simp] theorem State.modClimate_hatch (i : Zone) (f : Climate → Climate) : (s.modClimate i f).hatch = s.hatch := rfl
@[simp] theorem State.modClimate_bank (i : Zone) (f : Climate → Climate) : (s.modClimate i f).bank = s.bank := rfl
@[simp] theorem State.modClimate_loop (i : Zone) (f : Climate → Climate) : (s.modClimate i f).loop = s.loop := rfl
@[simp] theorem State.modClimate_fire (i : Zone) (f : Climate → Climate) : (s.modClimate i f).fire = s.fire := rfl
@[simp] theorem State.modClimate_line (i : Zone) (f : Climate → Climate) : (s.modClimate i f).line = s.line := rfl
@[simp] theorem State.modClimate_reports (i : Zone) (f : Climate → Climate) : (s.modClimate i f).reports = s.reports := rfl
@[simp] theorem State.modClimate_minute (i : Zone) (f : Climate → Climate) : (s.modClimate i f).minute = s.minute := rfl
@[simp] theorem State.modClimate_seconds (i : Zone) (f : Climate → Climate) : (s.modClimate i f).seconds = s.seconds := rfl

@[simp] theorem State.modStaging_pending (i : ReaderId) (f : Staging → Staging) : (s.modStaging i f).pending = s.pending := rfl
@[simp] theorem State.modStaging_choice (i : ReaderId) (f : Staging → Staging) : (s.modStaging i f).choice = s.choice := rfl
@[simp] theorem State.modStaging_powered (i : ReaderId) (f : Staging → Staging) : (s.modStaging i f).powered = s.powered := rfl
@[simp] theorem State.modStaging_store (i : ReaderId) (f : Staging → Staging) : (s.modStaging i f).store = s.store := rfl
@[simp] theorem State.modStaging_front (i : ReaderId) (f : Staging → Staging) : (s.modStaging i f).front = s.front := rfl
@[simp] theorem State.modStaging_climate (i : ReaderId) (f : Staging → Staging) : (s.modStaging i f).climate = s.climate := rfl
@[simp] theorem State.modStaging_staging (i : ReaderId) (f : Staging → Staging) : (s.modStaging i f).staging = s.staging.set i (f s.staging[i]) := rfl
@[simp] theorem State.modStaging_hatch (i : ReaderId) (f : Staging → Staging) : (s.modStaging i f).hatch = s.hatch := rfl
@[simp] theorem State.modStaging_bank (i : ReaderId) (f : Staging → Staging) : (s.modStaging i f).bank = s.bank := rfl
@[simp] theorem State.modStaging_loop (i : ReaderId) (f : Staging → Staging) : (s.modStaging i f).loop = s.loop := rfl
@[simp] theorem State.modStaging_fire (i : ReaderId) (f : Staging → Staging) : (s.modStaging i f).fire = s.fire := rfl
@[simp] theorem State.modStaging_line (i : ReaderId) (f : Staging → Staging) : (s.modStaging i f).line = s.line := rfl
@[simp] theorem State.modStaging_reports (i : ReaderId) (f : Staging → Staging) : (s.modStaging i f).reports = s.reports := rfl
@[simp] theorem State.modStaging_minute (i : ReaderId) (f : Staging → Staging) : (s.modStaging i f).minute = s.minute := rfl
@[simp] theorem State.modStaging_seconds (i : ReaderId) (f : Staging → Staging) : (s.modStaging i f).seconds = s.seconds := rfl

@[simp] theorem State.modHatch_pending (i : HatchId) (f : Hatch → Hatch) : (s.modHatch i f).pending = s.pending := rfl
@[simp] theorem State.modHatch_choice (i : HatchId) (f : Hatch → Hatch) : (s.modHatch i f).choice = s.choice := rfl
@[simp] theorem State.modHatch_powered (i : HatchId) (f : Hatch → Hatch) : (s.modHatch i f).powered = s.powered := rfl
@[simp] theorem State.modHatch_store (i : HatchId) (f : Hatch → Hatch) : (s.modHatch i f).store = s.store := rfl
@[simp] theorem State.modHatch_front (i : HatchId) (f : Hatch → Hatch) : (s.modHatch i f).front = s.front := rfl
@[simp] theorem State.modHatch_climate (i : HatchId) (f : Hatch → Hatch) : (s.modHatch i f).climate = s.climate := rfl
@[simp] theorem State.modHatch_staging (i : HatchId) (f : Hatch → Hatch) : (s.modHatch i f).staging = s.staging := rfl
@[simp] theorem State.modHatch_hatch (i : HatchId) (f : Hatch → Hatch) : (s.modHatch i f).hatch = s.hatch.set i (f s.hatch[i]) := rfl
@[simp] theorem State.modHatch_bank (i : HatchId) (f : Hatch → Hatch) : (s.modHatch i f).bank = s.bank := rfl
@[simp] theorem State.modHatch_loop (i : HatchId) (f : Hatch → Hatch) : (s.modHatch i f).loop = s.loop := rfl
@[simp] theorem State.modHatch_fire (i : HatchId) (f : Hatch → Hatch) : (s.modHatch i f).fire = s.fire := rfl
@[simp] theorem State.modHatch_line (i : HatchId) (f : Hatch → Hatch) : (s.modHatch i f).line = s.line := rfl
@[simp] theorem State.modHatch_reports (i : HatchId) (f : Hatch → Hatch) : (s.modHatch i f).reports = s.reports := rfl
@[simp] theorem State.modHatch_minute (i : HatchId) (f : Hatch → Hatch) : (s.modHatch i f).minute = s.minute := rfl
@[simp] theorem State.modHatch_seconds (i : HatchId) (f : Hatch → Hatch) : (s.modHatch i f).seconds = s.seconds := rfl

@[simp] theorem State.modBank_pending (i : BankId) (f : Bank → Bank) : (s.modBank i f).pending = s.pending := rfl
@[simp] theorem State.modBank_choice (i : BankId) (f : Bank → Bank) : (s.modBank i f).choice = s.choice := rfl
@[simp] theorem State.modBank_powered (i : BankId) (f : Bank → Bank) : (s.modBank i f).powered = s.powered := rfl
@[simp] theorem State.modBank_store (i : BankId) (f : Bank → Bank) : (s.modBank i f).store = s.store := rfl
@[simp] theorem State.modBank_front (i : BankId) (f : Bank → Bank) : (s.modBank i f).front = s.front := rfl
@[simp] theorem State.modBank_climate (i : BankId) (f : Bank → Bank) : (s.modBank i f).climate = s.climate := rfl
@[simp] theorem State.modBank_staging (i : BankId) (f : Bank → Bank) : (s.modBank i f).staging = s.staging := rfl
@[simp] theorem State.modBank_hatch (i : BankId) (f : Bank → Bank) : (s.modBank i f).hatch = s.hatch := rfl
@[simp] theorem State.modBank_bank (i : BankId) (f : Bank → Bank) : (s.modBank i f).bank = s.bank.set i (f s.bank[i]) := rfl
@[simp] theorem State.modBank_loop (i : BankId) (f : Bank → Bank) : (s.modBank i f).loop = s.loop := rfl
@[simp] theorem State.modBank_fire (i : BankId) (f : Bank → Bank) : (s.modBank i f).fire = s.fire := rfl
@[simp] theorem State.modBank_line (i : BankId) (f : Bank → Bank) : (s.modBank i f).line = s.line := rfl
@[simp] theorem State.modBank_reports (i : BankId) (f : Bank → Bank) : (s.modBank i f).reports = s.reports := rfl
@[simp] theorem State.modBank_minute (i : BankId) (f : Bank → Bank) : (s.modBank i f).minute = s.minute := rfl
@[simp] theorem State.modBank_seconds (i : BankId) (f : Bank → Bank) : (s.modBank i f).seconds = s.seconds := rfl

@[simp] theorem State.modLoop_pending (i : LoopId) (f : Loop → Loop) : (s.modLoop i f).pending = s.pending := rfl
@[simp] theorem State.modLoop_choice (i : LoopId) (f : Loop → Loop) : (s.modLoop i f).choice = s.choice := rfl
@[simp] theorem State.modLoop_powered (i : LoopId) (f : Loop → Loop) : (s.modLoop i f).powered = s.powered := rfl
@[simp] theorem State.modLoop_store (i : LoopId) (f : Loop → Loop) : (s.modLoop i f).store = s.store := rfl
@[simp] theorem State.modLoop_front (i : LoopId) (f : Loop → Loop) : (s.modLoop i f).front = s.front := rfl
@[simp] theorem State.modLoop_climate (i : LoopId) (f : Loop → Loop) : (s.modLoop i f).climate = s.climate := rfl
@[simp] theorem State.modLoop_staging (i : LoopId) (f : Loop → Loop) : (s.modLoop i f).staging = s.staging := rfl
@[simp] theorem State.modLoop_hatch (i : LoopId) (f : Loop → Loop) : (s.modLoop i f).hatch = s.hatch := rfl
@[simp] theorem State.modLoop_bank (i : LoopId) (f : Loop → Loop) : (s.modLoop i f).bank = s.bank := rfl
@[simp] theorem State.modLoop_loop (i : LoopId) (f : Loop → Loop) : (s.modLoop i f).loop = s.loop.set i (f s.loop[i]) := rfl
@[simp] theorem State.modLoop_fire (i : LoopId) (f : Loop → Loop) : (s.modLoop i f).fire = s.fire := rfl
@[simp] theorem State.modLoop_line (i : LoopId) (f : Loop → Loop) : (s.modLoop i f).line = s.line := rfl
@[simp] theorem State.modLoop_reports (i : LoopId) (f : Loop → Loop) : (s.modLoop i f).reports = s.reports := rfl
@[simp] theorem State.modLoop_minute (i : LoopId) (f : Loop → Loop) : (s.modLoop i f).minute = s.minute := rfl
@[simp] theorem State.modLoop_seconds (i : LoopId) (f : Loop → Loop) : (s.modLoop i f).seconds = s.seconds := rfl

@[simp] theorem State.modFire_pending (i : Zone) (f : FireZone → FireZone) : (s.modFire i f).pending = s.pending := rfl
@[simp] theorem State.modFire_choice (i : Zone) (f : FireZone → FireZone) : (s.modFire i f).choice = s.choice := rfl
@[simp] theorem State.modFire_powered (i : Zone) (f : FireZone → FireZone) : (s.modFire i f).powered = s.powered := rfl
@[simp] theorem State.modFire_store (i : Zone) (f : FireZone → FireZone) : (s.modFire i f).store = s.store := rfl
@[simp] theorem State.modFire_front (i : Zone) (f : FireZone → FireZone) : (s.modFire i f).front = s.front := rfl
@[simp] theorem State.modFire_climate (i : Zone) (f : FireZone → FireZone) : (s.modFire i f).climate = s.climate := rfl
@[simp] theorem State.modFire_staging (i : Zone) (f : FireZone → FireZone) : (s.modFire i f).staging = s.staging := rfl
@[simp] theorem State.modFire_hatch (i : Zone) (f : FireZone → FireZone) : (s.modFire i f).hatch = s.hatch := rfl
@[simp] theorem State.modFire_bank (i : Zone) (f : FireZone → FireZone) : (s.modFire i f).bank = s.bank := rfl
@[simp] theorem State.modFire_loop (i : Zone) (f : FireZone → FireZone) : (s.modFire i f).loop = s.loop := rfl
@[simp] theorem State.modFire_fire (i : Zone) (f : FireZone → FireZone) : (s.modFire i f).fire = s.fire.set i (f s.fire[i]) := rfl
@[simp] theorem State.modFire_line (i : Zone) (f : FireZone → FireZone) : (s.modFire i f).line = s.line := rfl
@[simp] theorem State.modFire_reports (i : Zone) (f : FireZone → FireZone) : (s.modFire i f).reports = s.reports := rfl
@[simp] theorem State.modFire_minute (i : Zone) (f : FireZone → FireZone) : (s.modFire i f).minute = s.minute := rfl
@[simp] theorem State.modFire_seconds (i : Zone) (f : FireZone → FireZone) : (s.modFire i f).seconds = s.seconds := rfl

/-! ### Posting a report -/

@[simp] theorem post_pending (e : Event) : (post e s).pending = s.pending := rfl
@[simp] theorem post_choice (e : Event) : (post e s).choice = s.choice := rfl
@[simp] theorem post_powered (e : Event) : (post e s).powered = s.powered := rfl
@[simp] theorem post_store (e : Event) : (post e s).store = s.store := rfl
@[simp] theorem post_front (e : Event) : (post e s).front = s.front := rfl
@[simp] theorem post_climate (e : Event) : (post e s).climate = s.climate := rfl
@[simp] theorem post_staging (e : Event) : (post e s).staging = s.staging := rfl
@[simp] theorem post_hatch (e : Event) : (post e s).hatch = s.hatch := rfl
@[simp] theorem post_bank (e : Event) : (post e s).bank = s.bank := rfl
@[simp] theorem post_loop (e : Event) : (post e s).loop = s.loop := rfl
@[simp] theorem post_fire (e : Event) : (post e s).fire = s.fire := rfl
@[simp] theorem post_line (e : Event) : (post e s).line = s.line := rfl
@[simp] theorem post_reports (e : Event) : (post e s).reports = enqueue s.reports { stamp := s.minute, event := e } := rfl
@[simp] theorem post_minute (e : Event) : (post e s).minute = s.minute := rfl
@[simp] theorem post_seconds (e : Event) : (post e s).seconds = s.seconds := rfl

end Sys2Proof.Machine
end

