-- ==== Sys2Proof/Laws/Orders.lean ====
section
/-!
SUPPORT. The report queue and the free orders: what posting can do to the queue, and that a free order takes each action
once.
-/

namespace Sys2Proof.Machine

/-! ### The report queue (R194) -/

/-- All that posting can do to the queue: count in the marker that stands, append, or append a marker of 1. -/
theorem enqueue_cases (q : List Report) (r : Report) :
    (∃ t n, q.getLast? = some { stamp := t, event := .lost n } ∧
      enqueue q r = q.dropLast ++ [{ stamp := t, event := .lost (min (n + 1) 65535) }]) ∨
    ((∀ x, q.getLast? = some x → x.isLost = false) ∧ q.length < 63 ∧ enqueue q r = q ++ [r]) ∨
    ((∀ x, q.getLast? = some x → x.isLost = false) ∧ 63 ≤ q.length ∧
      enqueue q r = q ++ [{ stamp := r.stamp, event := .lost 1 }]) := by
  unfold enqueue
  split
  · rename_i t n h
    exact .inl ⟨t, n, h, rfl⟩
  · rename_i h
    have hx : ∀ x, q.getLast? = some x → x.isLost = false := by
      intro x hx
      obtain ⟨t, e⟩ := x
      cases e <;> first | rfl | exact absurd hx (h _ _)
    split
    · rename_i hl
      exact .inr (.inl ⟨hx, hl, rfl⟩)
    · rename_i hl
      exact .inr (.inr ⟨hx, by omega, rfl⟩)

/-- A report posted changes the queue and nothing else. -/
theorem post_eq (e : Event) (s : State) :
    post e s = { s with reports := enqueue s.reports { stamp := s.minute, event := e } } := rfl

/-- Reports posted change the queue and nothing else. -/
theorem postAll_eq (es : List Event) (s : State) :
    postAll es s = { s with reports := es.foldl (fun q e => enqueue q { stamp := s.minute, event := e }) s.reports } := by
  unfold postAll
  induction es generalizing s with
  | nil => rfl
  | cons e es ih => rw [List.foldl_cons, ih]; rfl

/-! ### A free order -/

theorem insertByRank_perm {α : Type} (rank : Nat → Nat) (x : α × Nat) (l : List (α × Nat)) :
    (insertByRank rank x l).Perm (x :: l) := by
  induction l with
  | nil => exact .refl _
  | cons y ys ih =>
    simp only [insertByRank]
    split
    · exact .refl _
    · exact (ih.cons y).trans (.swap x y ys)

theorem foldl_insertByRank_perm {α : Type} (rank : Nat → Nat) (l acc : List (α × Nat)) :
    (l.foldl (fun acc x => insertByRank rank x acc) acc).Perm (acc ++ l) := by
  induction l generalizing acc with
  | nil => simp
  | cons x xs ih =>
    rw [List.foldl_cons]
    exact (ih _).trans (((insertByRank_perm rank x acc).append_right xs).trans
      (List.perm_middle.symm))

/-- A list in the order of its ranks holds the same actions, each as often. -/
theorem sortByRank_perm {α : Type} (rank : Nat → Nat) (l : List α) : (sortByRank rank l).Perm l := by
  have h := (foldl_insertByRank_perm rank l.zipIdx []).map Prod.fst
  rw [List.nil_append, List.zipIdx_map_fst] at h
  exact h

/-- A free order takes each action once, in an order of which nothing is known, and marks its choice. -/
theorem inFreeOrder_spec {α : Type} (act : α → State → State) (l : List α) (s : State) :
    ∃ order : List α, order.Perm l ∧ inFreeOrder act l s = actAll act order { s with choice := s.choice + 1 } :=
  ⟨_, sortByRank_perm (Config.rank s.choice) l, rfl⟩

/-- What every action keeps, a list of actions keeps. -/
theorem actAll_induction {α : Type} {P : State → Prop} {act : α → State → State} {l : List α} {s : State} (h : P s)
    (keeps : ∀ a s, P s → P (act a s)) : P (actAll act l s) := by
  unfold actAll
  induction l generalizing s with
  | nil => exact h
  | cons a as ih => exact ih (keeps a s h)

/-- What every action keeps, a free order keeps. -/
theorem inFreeOrder_induction {α : Type} {P : State → Prop} {act : α → State → State} {l : List α} {s : State}
    (h : P { s with choice := s.choice + 1 }) (keeps : ∀ a s, P s → P (act a s)) : P (inFreeOrder act l s) :=
  actAll_induction h keeps

end Sys2Proof.Machine
end

