-- ==== Sys2Proof/Laws/Requests.lean ====
section
/-!
SUPPORT. What the shared operations of a request and of an event can do, one lemma each: a line taken, a request
answered, an event of the powered part, a number that names something, a setting's index and value.
-/

namespace Sys2Proof.Machine

/-! ### Numbers -/

/-- A number names a thing exactly when it is one more than the thing's index. -/
theorem indexOf_eq_some {n : Nat} {k : Int} {i : Fin n} : indexOf n k = some i ↔ k = (num i : Int) := by
  unfold indexOf num
  constructor
  · intro h
    split at h
    · injection h with h
      rw [← h]
      simp only
      omega
    · cases h
  · rintro rfl
    have := i.isLt
    rw [dif_pos (by omega)]
    congr 1
    apply Fin.ext
    simp

/-- A number names nothing exactly outside 1 to `n`. -/
theorem indexOf_eq_none {n : Nat} {k : Int} : indexOf n k = none ↔ k < 1 ∨ (n : Int) < k := by
  unfold indexOf
  split <;> simp <;> omega

/-- A value brought into a range stands in it. -/
theorem clamp_mem {lo hi v : Int} (h : lo ≤ hi) : lo ≤ clamp lo hi v ∧ clamp lo hi v ≤ hi := by
  unfold clamp; omega

/-- A value in the range is used as it stands. -/
theorem clamp_of_mem {lo hi v : Int} (h : lo ≤ v) (h' : v ≤ hi) : clamp lo hi v = v := by
  unfold clamp; omega

/-! ### A state heard is the state to every block -/

section

variable (s : State)

@[simp] theorem State.hunt_eq : hunt s = s.heard := rfl
@[simp] theorem State.heard_held (z : Zone) : s.heard.held z = s.held z := rfl
@[simp] theorem State.heard_shed (z : Zone) : s.heard.shed z = s.shed z := rfl
@[simp] theorem State.heard_fireState (z : Zone) : s.heard.fireState z = s.fireState z := rfl
@[simp] theorem State.heard_counts (z : Zone) : s.heard.counts z = s.counts z := rfl
@[simp] theorem State.heard_coincidence (z : Zone) : s.heard.coincidence z = s.coincidence z := rfl
@[simp] theorem State.heard_degraded (z : Zone) : s.heard.degraded z = s.degraded z := rfl
@[simp] theorem State.heard_bankZone (b : BankId) : s.heard.bankZone b = s.bankZone b := rfl
@[simp] theorem State.heard_hatchZone (h : HatchId) : s.heard.hatchZone h = s.hatchZone h := rfl
@[simp] theorem State.heard_zoneOf (c : Cartridge) : s.heard.zoneOf c = s.zoneOf c := rfl
@[simp] theorem State.heard_cartridge? (l : Text) : s.heard.cartridge? l = s.cartridge? l := rfl
@[simp] theorem State.heard_lookup (l : Text) (m : Char) : s.heard.lookup l m = s.lookup l m := rfl
@[simp] theorem State.heard_holderOf (x : Home) : s.heard.holderOf x = s.holderOf x := rfl
@[simp] theorem State.heard_homeNamed (f : HomeFields) : s.heard.homeNamed f = s.homeNamed f := rfl
@[simp] theorem State.heard_indexOfLabel (l : Text) : s.heard.indexOfLabel l = s.indexOfLabel l := rfl
@[simp] theorem State.heard_manifest? (id : Nat) : s.heard.manifest? id = s.manifest? id := rfl
@[simp] theorem State.heard_hatchSettings (h : HatchId) : s.heard.hatchSettings h = s.hatchSettings h := rfl
@[simp] theorem State.heard_fireSettings (z : Zone) : s.heard.fireSettings z = s.fireSettings z := rfl
@[simp] theorem State.heard_handover (h : HatchId) : s.heard.handover h = s.handover h := rfl

/-- The custody table changed for a label is the state of the statements' own name. -/
theorem State.modCartridge_eq (l : Text) (f : Cartridge → Cartridge) : s.modCartridge l f = s.changing l f := rfl

end

/-! ### A line taken -/

/-- All that a completed good station line can do: answered where no reply stands, discarded where one is owed, unseen
while one is sent and by an unpowered part. -/
theorem takeLine_cases (r : Request) (s : State) :
    (Ready s ∧ takeLine r s = (r s.heard).1.answered (r s.heard).2) ∨
    (s.powered = true ∧ (∃ p, s.line.reply = .owed p) ∧ takeLine r s = s.heard) ∨
    ((s.powered = false ∨ ∃ p, s.line.reply = .sending p) ∧ takeLine r s = s) := by
  unfold takeLine
  cases hp : s.powered
  · exact .inr (.inr ⟨.inl rfl, rfl⟩)
  · cases hr : s.line.reply with
    | none => exact .inl ⟨⟨hp, hr⟩, rfl⟩
    | owed p => exact .inr (.inl ⟨rfl, ⟨p, rfl⟩, rfl⟩)
    | sending p => exact .inr (.inr ⟨.inr ⟨p, rfl⟩, rfl⟩)

/-- A request of a part that is ready has its effect and its answer. -/
theorem request_next {r : Request} {s t : State} {a : Answer} (h : Ready s) (e : r s.heard = (t, a)) :
    request r s = .next (t.answered a) := by
  obtain ⟨hp, hr⟩ := h
  have e' : r (hunt s) = (t, a) := e
  simp only [request, takeLine, hp, hr, if_true, e']
  rfl

/-- A request that changes nothing is only answered. -/
theorem request_same {r : Request} {s : State} {a : Answer} (h : Ready s) (e : r s.heard = (s.heard, a)) :
    request r s = .next (s.replied a) := request_next h e

/-- A request that answers one word and changes nothing. -/
theorem request_word {r : Request} {s : State} {w : StatusWord} (h : Ready s) (e : r s.heard = answer w .empty s.heard) :
    request r s = .next (s.repliedWord w) := request_next h e

/-- A request always answers a next state. -/
theorem request_completes (r : Request) (s : State) : request r s = .next (takeLine r s) := rfl

/-! ### Events -/

/-- An event of the powered part. -/
theorem event_powered {f : State → State} {s : State} (h : s.powered = true) : event f s = .next (f s) := by
  simp [event, h]

/-- An unpowered part takes no event. -/
theorem event_unpowered {f : State → State} {s : State} (h : s.powered = false) : event f s = .next s := by
  simp [event, h]

/-- A field input of the powered part. -/
theorem fieldEvent_powered {i f : State → State} {s : State} (h : s.powered = true) : fieldEvent i f s = .next (f s) := by
  simp [fieldEvent, h]

/-- A field input of an unpowered part changes its own reading. -/
theorem fieldEvent_unpowered {i f : State → State} {s : State} (h : s.powered = false) :
    fieldEvent i f s = .next (i s) := by
  simp [fieldEvent, h]

/-! ### What a request names -/

theorem naming_some {n : Nat} {k : Int} {i : Fin n} {f : Fin n → Request} {s : State} (h : indexOf n k = some i) :
    naming n k f s = f i s := by
  simp only [naming, h]

theorem naming_none {n : Nat} {k : Int} {f : Fin n → Request} {s : State} (h : indexOf n k = none) :
    naming n k f s = answer .badValue .empty s := by
  simp only [naming, h]

/-- All that a request on a label's record can do. -/
theorem onCartridge_cases (l : Text) (f : Cartridge → Request) (s : State) :
    (labelOk l = false ∧ onCartridge l f s = answer .badValue .empty s) ∨
    (labelOk l = true ∧ s.cartridge? l = none ∧ onCartridge l f s = answer .notFound .empty s) ∨
    (∃ c, labelOk l = true ∧ s.cartridge? l = some c ∧ onCartridge l f s = f c s) := by
  unfold onCartridge
  cases hl : labelOk l
  · exact .inl ⟨rfl, by simp⟩
  · cases hc : s.cartridge? l with
    | none => exact .inr (.inl ⟨rfl, rfl, by simp⟩)
    | some c => exact .inr (.inr ⟨c, rfl, rfl, by simp⟩)

/-- All that a request under the fire hold test can do (R52). -/
theorem unheld_cases (z : Zone) (f : Request) (s : State) :
    (s.held z = true ∧ unheld z f s = answer .fireHold .empty s) ∨ (s.held z = false ∧ unheld z f s = f s) := by
  unfold unheld
  cases h : s.held z <;> simp

/-- All that a setting with an index can do (R199 steps 2 and 3). -/
theorem indexedSetting_cases {ι α β : Type} (index : Option ι) (value : Option β) (find : ι → Option α)
    (f : α → β → Request) (s : State) :
    (index = none ∧ indexedSetting index value find f s = badRequest "index" s) ∨
    (index.isSome ∧ value = none ∧ indexedSetting index value find f s = badRequest "value" s) ∨
    (∃ i v, index = some i ∧ value = some v ∧
      ((find i = none ∧ indexedSetting index value find f s = answer .badValue .empty s) ∨
        ∃ a, find i = some a ∧ indexedSetting index value find f s = f a v s)) := by
  cases index with
  | none => exact .inl ⟨rfl, rfl⟩
  | some i =>
    cases value with
    | none => exact .inr (.inl ⟨rfl, rfl, rfl⟩)
    | some v =>
      refine .inr (.inr ⟨i, v, rfl, rfl, ?_⟩)
      cases h : find i with
      | none => exact .inl ⟨rfl, by simp only [indexedSetting, h]⟩
      | some a => exact .inr ⟨a, rfl, by simp only [indexedSetting, h]⟩

/-- A setting whose index names a thing. -/
theorem indexedSetting_some {ι α β : Type} {find : ι → Option α} {f : α → β → Request} {i : ι} {v : β} {a : α} {s : State}
    (h : find i = some a) : indexedSetting (some i) (some v) find f s = f a v s := by
  simp only [indexedSetting, h]

/-- A setting whose index names nothing. -/
theorem indexedSetting_none {ι α β : Type} {find : ι → Option α} {f : α → β → Request} {i : ι} {v : β} {s : State}
    (h : find i = none) : indexedSetting (some i) (some v) find f s = answer .badValue .empty s := by
  simp only [indexedSetting, h]

/-- A setting without an index, its value given. -/
@[simp] theorem plainSetting_some {ι β : Type} {f : β → Request} {v : β} {s : State} :
    plainSetting (none : Option ι) (some v) f s = f v s := rfl

end Sys2Proof.Machine
end

