-- ==== Sys2Proof/Laws/Hatches.lean ====
section
/-!
SUPPORT. What the shared operations of the hatches, the custody table and the fire zones can do, one lemma each: waking
a hatch, releasing a lock or leaving it due, taking a hold, looking a label up, entering a fire state.
-/

namespace Sys2Proof.Machine

/-! ### Waking a hatch (R118) -/

theorem wake_idle {s : State} {h : HatchId} (e : s.hatch[h].phase = .idle) :
    wake h s = s.setHatch h { s.hatch[h] with idle := some s.store.hatch[h].standbyTime } := by
  unfold wake
  rw [e]
  rfl

theorem wake_standby {s : State} {h : HatchId} (e : s.hatch[h].phase = .standby) : wake h s = enterIdle h s := by
  unfold wake
  rw [e]

theorem wake_other {s : State} {h : HatchId} (e : s.hatch[h].phase ≠ .idle) (e' : s.hatch[h].phase ≠ .standby) :
    wake h s = s := by
  unfold wake
  split
  · contradiction
  · contradiction
  · rfl

/-- Waking a hatch changes that hatch's live state and nothing else. -/
theorem wake_only (h : HatchId) (s : State) : ∃ x, wake h s = s.setHatch h x := by
  by_cases e : s.hatch[h].phase = .idle
  · exact ⟨_, wake_idle e⟩
  · by_cases e' : s.hatch[h].phase = .standby
    · exact ⟨_, wake_standby e'⟩
    · refine ⟨s.hatch[h], (wake_other e e').trans ?_⟩
      simp [State.setHatch]

/-! ### Locks (R88) -/

/-- All that a release called for can do: nothing to an unlocked shutter, a release where the other shutter is secured
and the zone unheld, and otherwise a release left due. -/
theorem unlock_cases (h : HatchId) (sd : Side) (s : State) :
    ((s.hatch[h].shutter sd).locked = false ∧ unlock h sd s = s) ∨
    ((s.hatch[h].shutter sd).locked = true ∧ canUnlock h sd s = true ∧
      unlock h sd s = s.setHatch h { s.hatch[h].setShutter sd
        (releaseLock (s.hatchSettings h) (s.hatch[h].shutter sd)) with unlockDue := none }) ∨
    ((s.hatch[h].shutter sd).locked = true ∧ canUnlock h sd s = false ∧
      unlock h sd s = s.setHatch h { s.hatch[h] with unlockDue := some sd }) := by
  unfold unlock
  cases hl : (s.hatch[h].shutter sd).locked
  · exact .inl ⟨rfl, by simp⟩
  · cases hc : canUnlock h sd s
    · exact .inr (.inr ⟨rfl, rfl, by simp [State.modHatch]⟩)
    · exact .inr (.inl ⟨rfl, rfl, by simp [State.modHatch, State.modShutter, State.setHatch]⟩)

/-- A release called for changes that hatch's live state and nothing else. -/
theorem unlock_only (h : HatchId) (sd : Side) (s : State) : ∃ x, unlock h sd s = s.setHatch h x := by
  rcases unlock_cases h sd s with ⟨-, e⟩ | ⟨-, -, e⟩ | ⟨-, -, e⟩
  · exact ⟨s.hatch[h], e.trans (by simp [State.setHatch])⟩
  · exact ⟨_, e⟩
  · exact ⟨_, e⟩

/-- A release that is due is made where it can be, and otherwise nothing is done. -/
theorem serveDue_cases (h : HatchId) (s : State) :
    serveDue h s = s ∨
    ∃ sd, s.hatch[h].unlockDue = some sd ∧ canUnlock h sd s = true ∧ serveDue h s = unlock h sd s := by
  unfold serveDue
  cases hd : s.hatch[h].unlockDue with
  | none => exact .inl rfl
  | some sd =>
    cases hc : canUnlock h sd s
    · exact .inl (by simp [hc])
    · exact .inr ⟨sd, rfl, hc, by simp [hc]⟩

/-! ### The custody table -/

/-- All that a cartridge taking its hold can do (R65). -/
theorem takeHold_cases (l : Text) (n : Nat) (s : State) :
    (s.cartridge? l = none ∧ takeHold l n s = s) ∨
    ∃ c, s.cartridge? l = some c ∧
      ((min n s.store.hold.holdMax = 0 ∧
        takeHold l n s = post (.holdEnded l (s.zoneOf c) c.home (some 0)) (s.changing l (·.enter .reshelve))) ∨
      (min n s.store.hold.holdMax ≠ 0 ∧
        takeHold l n s = s.changing l (·.enter (.quarantine (min n s.store.hold.holdMax))))) := by
  unfold takeHold
  cases hc : s.cartridge? l with
  | none => exact .inl ⟨rfl, rfl⟩
  | some c =>
    refine .inr ⟨c, rfl, ?_⟩
    by_cases h : min n s.store.hold.holdMax = 0
    · exact .inl ⟨h, by simp only [if_pos h]; rfl⟩
    · exact .inr ⟨h, by simp only [if_neg h]; rfl⟩

/-- A label looked up with its media code is found, mismatched, or not in the table (R43). -/
theorem lookup_cases (l : Text) (m : Char) (s : State) :
    (s.cartridge? l = none ∧ s.lookup l m = .notInTable) ∨
    ∃ c, s.cartridge? l = some c ∧
      ((c.media = m ∧ s.lookup l m = .found c) ∨ (c.media ≠ m ∧ s.lookup l m = .mediaMismatch c)) := by
  unfold State.lookup
  cases s.cartridge? l with
  | none => exact .inl ⟨rfl, rfl⟩
  | some c =>
    refine .inr ⟨c, rfl, ?_⟩
    by_cases h : c.media = m
    · exact .inl ⟨h, by simp [h]⟩
    · exact .inr ⟨h, by simp [h]⟩

/-- A record put in its place is added, and the others stand. -/
theorem insertCartridge_perm (c : Cartridge) (cs : List Cartridge) : (insertCartridge c cs).Perm (c :: cs) := by
  induction cs with
  | nil => exact .refl _
  | cons d ds ih =>
    simp only [insertCartridge]
    split
    · exact .refl _
    · exact (ih.cons d).trans (.swap c d ds)

/-! ### Label order (R44) -/

theorem labelBefore_irrefl (l : Text) : labelBefore l l = false := by
  induction l with
  | nil => rfl
  | cons a as ih => simp [labelBefore, ih]

theorem labelBefore_trans {a b c : Text} (h : labelBefore a b = true) (h' : labelBefore b c = true) :
    labelBefore a c = true := by
  induction a generalizing b c with
  | nil =>
    cases b with
    | nil => simp [labelBefore] at h
    | cons y ys => cases c with
      | nil => simp [labelBefore] at h'
      | cons z zs => rfl
  | cons x xs ih =>
    cases b with
    | nil => simp [labelBefore] at h
    | cons y ys =>
      cases c with
      | nil => simp [labelBefore] at h'
      | cons z zs =>
        simp only [labelBefore] at h h' ⊢
        by_cases e : x = y
        · subst e
          by_cases e' : x = z
          · subst e'
            simp only [if_true] at h h' ⊢
            exact ih h h'
          · simp only [if_neg e'] at h' ⊢
            exact h'
        · simp only [if_neg e, decide_eq_true_eq] at h
          by_cases e' : y = z
          · subst e'
            simp only [if_neg e, decide_eq_true_eq]
            exact h
          · simp only [if_neg e', decide_eq_true_eq] at h'
            have : x ≠ z := by
              rintro rfl
              omega
            simp only [if_neg this, decide_eq_true_eq]
            omega

theorem labelBefore_total (a b : Text) : labelBefore a b = true ∨ a = b ∨ labelBefore b a = true := by
  induction a generalizing b with
  | nil => cases b with
    | nil => exact .inr (.inl rfl)
    | cons y ys => exact .inl rfl
  | cons x xs ih =>
    cases b with
    | nil => exact .inr (.inr rfl)
    | cons y ys =>
      by_cases e : x = y
      · subst e
        simp only [labelBefore, if_true, List.cons.injEq, true_and]
        exact ih ys
      · simp only [labelBefore, if_neg e, if_neg (Ne.symm e), decide_eq_true_eq]
        have : x.toNat ≠ y.toNat := fun h => e (Char.toNat_inj.mp h)
        omega

/-! ### Fire states (R158) -/

/-- A state entered is reported, and then handed to each block once, in an order of which nothing is known. -/
theorem enterFire_spec (z : Zone) (e : FireState) (c : FireCause) (s : State) :
    ∃ order : List FireTaker, order.Perm (receivers s z) ∧
      enterFire z e c s = actAll (react z s.fire[z].state e) order
        { post (.fireState z s.fire[z].state e c) (s.modFire z fun x => { x with state := e }) with
          choice := s.choice + 1 } :=
  inFreeOrder_spec (react z s.fire[z].state e) (receivers s z)
    (post (.fireState z s.fire[z].state e c) (s.modFire z fun x => { x with state := e }))

/-- The shed set is part of the fire hold set (R158). -/
theorem FireState.holds_of_sheds {e : FireState} (h : e.sheds = true) : e.holds = true := by
  cases e <;> first | rfl | cases h

end Sys2Proof.Machine
end

