-- ==== Sys2Proof/Laws/Operations.lean ====
section
/-!
SUPPORT. What the shared operations of the loops, the banks, the reply text, the manifests and the tray can do, each said
once.
-/

namespace Sys2Proof.Machine

/-! ### Loops -/

/-- The next item changes the loops alone: every other field of the state stands (R143, R152). -/
theorem nextItem_only (l : LoopId) (s : State) : nextItem l s = { s with loop := (nextItem l s).loop } := by
  unfold nextItem
  split <;> rfl

/-- The next item is the pass poll at the pass position, or none where the pass has no position; the position, the run
of bus errors and the flags stand (R143, R152). -/
theorem nextItem_loop (l : LoopId) (s : State) :
    ∃ x : Loop, (nextItem l s).loop[l] = x ∧ x.position = s.loop[l].position ∧ x.void = false ∧
      x.item = (s.loop[l].position.map LoopItem.passPoll).getD .none ∧ x.roundTaken = s.loop[l].roundTaken ∧
      x.busErrors = s.loop[l].busErrors ∧ x.fault = s.loop[l].fault ∧ x.firstPass = s.loop[l].firstPass := by
  refine ⟨_, rfl, ?_⟩
  unfold nextItem
  split
  · next a h =>
    rw [Fin.getElem_fin] at h
    simp [beginPoll, sendOrder, State.modDet, h]
  · next h =>
    rw [Fin.getElem_fin] at h
    simp [h]

/-- An answer is taken, or set aside with nothing changed (R141). -/
theorem takeAnswer_cases (l : LoopId) (take : LoopId → Address → State → State) (a : Address) (s : State) :
    ((s.store.detectors[l][a].enabled = true ∧ s.loop[l].void = false) ∧ takeAnswer l take a s = take l a s) ∨
    ((s.store.detectors[l][a].enabled = false ∨ s.loop[l].void = true) ∧ takeAnswer l take a s = s) := by
  unfold takeAnswer State.detEntry
  cases s.store.detectors[l][a].enabled <;> cases s.loop[l].void <;> simp

/-- A detector that takes the disabled state posts one report at most: of a FAULT cleared, or of another state left
(R139, R141, R150). -/
theorem disableReport_cases (l : LoopId) (a : Address) (e : DetEntry) (d : Detector) :
    (d.state = .fault ∧ disableReport l a e d = [.detectorFaultDisabled l a]) ∨
    (d.state = .normal ∧ disableReport l a e d = []) ∨
    (d.state ≠ .fault ∧ d.state ≠ .normal ∧ disableReport l a e d = [.detectorState l a e.zone e.type none .normal]) := by
  unfold disableReport changeReport
  cases h : d.state <;> simp

/-! ### Banks -/

/-- A sensor that reads ACTIVE is one the carriage count has the bank read (R123). -/
theorem readsActive_iff {c k : Nat} {x : Bank} :
    readsActive c k x = true ↔ k ≤ c ∧ ∃ a : Aisle, a.val = k ∧ x.sensors[a] = true := by
  unfold readsActive
  by_cases hk : k < 13
  · simp only [Bool.and_eq_true, decide_eq_true_eq, Vector.getElem?_eq_getElem hk, Option.getD_some]
    exact and_congr_right fun _ => ⟨fun h => ⟨⟨k, hk⟩, rfl, h⟩, fun ⟨a, e, h⟩ => by subst e; exact h⟩
  · simp only [Bool.and_eq_true, decide_eq_true_eq, Vector.getElem?_eq_none (Nat.le_of_not_lt hk)]
    exact and_congr_right fun _ => ⟨fun h => by simp at h, fun ⟨a, e, _⟩ => by omega⟩

/-- Serving the queue changes the bank controllers and the report queue alone (R128 to R131). -/
theorem serve_only (b : BankId) (q : List Nat) (s : State) :
    serve b q s = { s with bank := (serve b q s).bank, reports := (serve b q s).reports } := by
  induction q generalizing s with
  | nil => rfl
  | cons k rest ih =>
    unfold serve
    dsimp only
    split
    · rw [ih]; rfl
    · split
      · rw [ih]; rfl
      · unfold waitClear
        split <;> rfl

/-- Taking the head changes the bank controllers and the report queue alone (R128). -/
theorem takeHead_only (b : BankId) (s : State) :
    takeHead b s = { s with bank := (takeHead b s).bank, reports := (takeHead b s).reports } := by
  unfold takeHead
  split
  · rfl
  · exact serve_only ..

/-- A motion start under fire park changes the bank controllers and the report queue alone (R135). -/
theorem parkStart_only (b : BankId) (s : State) :
    parkStart b s = { s with bank := (parkStart b s).bank, reports := (parkStart b s).reports } := by
  unfold parkStart parkMove
  dsimp only
  repeat' split
  all_goals rfl

/-- A bank that comes to rest changes the bank controllers and the report queue alone (R131, R134). -/
theorem comeToRest_only (b : BankId) (s : State) :
    comeToRest b s = { s with bank := (comeToRest b s).bank, reports := (comeToRest b s).reports } := by
  unfold comeToRest toIdle
  split
  · exact parkStart_only ..
  · rw [takeHead_only]; rfl

/-- The mark of an arrival says whether the drive runs again, and nothing else changes (R132). -/
theorem markArrival_eq (b : BankId) (s : State) :
    markArrival b s = s.setBank b { s.bank[b] with justArrived := s.bank[b].drive.runs } := rfl

/-- A curtain break stops the drive, finds it off at the aisle of an arrival of the same second, or is of no account
(R132). -/
theorem curtainBreaks_cases (b : BankId) (a : Aisle) (s : State) :
    (∃ k j, s.bank[b].justArrived = true ∧ s.bank[b].travel = some (k, j) ∧
      curtainBreaks b a s = breakAtArrival b k (curtainInput b a true s)) ∨
    (s.bank[b].drive.runs = true ∧ curtainBreaks b a s = bankStops b a (curtainInput b a true s)) ∨
    ((s.bank[b].drive.runs = false ∨ s.store.bank[b].carriages < a.val) ∧
      curtainBreaks b a s = curtainInput b a true s) := by
  unfold curtainBreaks
  dsimp only
  have hd : ((curtainInput b a true s).bank[b]).drive = s.bank[b].drive := by simp [curtainInput, State.modBank]
  have hj : ((curtainInput b a true s).bank[b]).justArrived = s.bank[b].justArrived := by
    simp [curtainInput, State.modBank]
  have ht : ((curtainInput b a true s).bank[b]).travel = s.bank[b].travel := by simp [curtainInput, State.modBank]
  have hc : (curtainInput b a true s).bankSettings b = s.store.bank[b] := rfl
  rw [hd, hj, ht, hc]
  split
  · next h =>
    split
    · next k j hk hm => exact .inl ⟨k, j, hk, hm, rfl⟩
    · exact .inr (.inl ⟨h.1, rfl⟩)
  · next h =>
    refine .inr (.inr ⟨?_, rfl⟩)
    cases hr : s.bank[b].drive.runs
    · exact .inl rfl
    · exact .inr (Nat.lt_of_not_le fun g => h ⟨hr, g⟩)

/-! ### Replies -/

/-- A free reason is a value of section 9.3 of 900 characters at most (R187). -/
theorem freeReason_form (n : Nat) : replyValue (freeReason n) = true ∧ (freeReason n).length ≤ 900 := by
  unfold freeReason
  dsimp only
  split
  · assumption
  · decide

/-- The plain names of a reply have the form of section 9.3 and each is its own. -/
theorem plainNames_form (k : Nat) :
    ((plainNames k).map lit).all (fieldName (nameRoom k)) = true ∧ ((plainNames k).map lit).Nodup := by
  by_cases h : k < 25
  · have : ∀ k : Fin 25, ((plainNames k).map lit).all (fieldName (nameRoom k)) = true ∧
      ((plainNames k).map lit).Nodup := by decide
    exact this ⟨k, h⟩
  · unfold plainNames
    split <;> simp_all

/-- The names of the slots of a reply are as many as its plain names, of the form of section 9.3, no longer than the
reply has room for, and each is its own (R186, R187). -/
theorem slotNames_form (b : Body) :
    (slotNames b).length = (plainNames b.kind).length ∧
      (∀ n ∈ slotNames b, fieldName (nameRoom b.kind) n = true) ∧ (slotNames b).Nodup := by
  unfold slotNames
  dsimp only
  split
  · next h =>
    simp only [namesFit, Bool.and_eq_true, decide_eq_true_eq, List.all_eq_true] at h
    exact ⟨by simp, h.1.1, h.1.2⟩
  · exact ⟨by simp, List.all_eq_true.1 (plainNames_form _).1, (plainNames_form _).2⟩

/-- A slot's name is no longer than its reply has room for. -/
theorem slotName_length (b : Body) (i : Nat) : ((slotNames b).getD i []).length ≤ nameRoom b.kind := by
  by_cases h : i < (slotNames b).length
  · have f := (slotNames_form b).2.1 _ (List.getElem_mem h)
    simp only [fieldName, Bool.and_eq_true, decide_eq_true_eq] at f
    simp [List.getD, h, f.1.2]
  · simp [List.getD, List.getElem?_eq_none (Nat.le_of_not_lt h)]

/-- The most characters a part takes in a line, its space and its equals sign among them. -/
def partRoom (room : Nat) : Part → Nat
  | .named n v => n.length + v.length + 2
  | .unnamed _ v => room + v.length + 2

/-- The most characters the fields of a body take in a line. -/
def bodyRoom (b : Body) : Nat := ((bodyParts b).map (partRoom (nameRoom b.kind))).sum

/-- The fields of a body take no more characters than their parts have room for (R186). -/
theorem bodyFields_length (b : Body) : (spaced ((bodyParts b).map (partText (slotNames b)))).length ≤ bodyRoom b := by
  unfold bodyRoom
  generalize bodyParts b = ps
  induction ps with
  | nil => simp [spaced]
  | cons p ps ih =>
    have h : (partText (slotNames b) p).length + 1 ≤ partRoom (nameRoom b.kind) p := by
      cases p with
      | named n v => simp [partText, partRoom]; omega
      | unnamed i v => have := slotName_length b i; simp [partText, partRoom] at this ⊢; omega
    simp only [spaced, List.map_cons, List.flatten_cons, List.length_append, List.length_cons, List.sum_cons] at ih ⊢
    omega

/-! ### Manifests -/

/-- The records of a list of labels entered into one custody state, one label after another: each of their records is in
it, and the rest of the store stands. -/
theorem foldl_enter (ls : List Text) (k : Custody) (st : Store) :
    ls.foldl (fun st l => st.modCartridge l (·.enter k)) st =
      { st with cartridges := st.cartridges.map fun c => if c.label ∈ ls then { c with custody := k } else c } := by
  induction ls generalizing st with
  | nil => simp
  | cons l ls ih =>
    rw [List.foldl_cons, ih]
    simp only [Store.modCartridge, List.map_map]
    congr 1
    apply List.map_congr_left
    intro c _
    simp only [Function.comp, List.mem_cons, Cartridge.enter]
    by_cases h : c.label = l <;> by_cases h' : c.label ∈ ls <;> simp [h, h']

/-- A manifest released takes every manifest of its ID from the table and, where it is outbound, its RESERVED cartridges to
SHELVED and its PICKED ones to RESHELVE; the rest of the store stands (R80). -/
theorem releaseManifest_eq (m : Manifest) (st : Store) :
    releaseManifest m st = { st with
      manifests := st.manifests.filter (·.id != m.id)
      cartridges := st.cartridges.map fun c =>
        if m.direction = .out ∧ c.label ∈ m.labelsIn .picked then { c with custody := .reshelve }
        else if m.direction = .out ∧ c.label ∈ m.labelsIn .reserved then { c with custody := .shelved }
        else c } := by
  unfold releaseManifest
  cases h : m.direction with
  | in_ => simp
  | out =>
    simp only [foldl_enter, List.map_map, true_and]
    congr 1
    apply List.map_congr_left
    intro c _
    simp only [Function.comp]
    by_cases h : c.label ∈ m.labelsIn .reserved <;> by_cases h' : c.label ∈ m.labelsIn .picked <;> simp [h, h']

/-! ### The tray -/

/-- A position is decided by its second reading where it has one, and else by its first (R92). -/
theorem readPosition_cases (r : TrayRead) :
    (∃ a, r.again = some a ∧ readPosition r = readAttempts a) ∨ (r.again = none ∧ readPosition r = readAttempts r.first) := by
  unfold readPosition
  cases r.again <;> simp

end Sys2Proof.Machine
end

