-- ==== Sys2Proof/Laws/Handing.lean ====
section
/-!
SUPPORT. A fire state handed on changes no fire zone: what the climate controller, the hatches and the banks make of it
stays in their own state.
-/

namespace Sys2Proof.Machine

variable (s : State)

@[simp] theorem State.modShutter_fire (h : HatchId) (sd : Side) (f : Shutter → Shutter) :
    (s.modShutter h sd f).fire = s.fire := rfl

theorem leaveShed_fire (z : Zone) : (leaveShed z s).fire = s.fire := by
  unfold leaveShed shedReturn
  dsimp only
  split
  · split
    · split <;> simp
    · split <;> simp
  · simp

theorem climateTakesFire_fire (z : Zone) (l e : FireState) : (climateTakesFire z l e s).fire = s.fire := by
  unfold climateTakesFire
  split
  · simp
  · split
    · exact leaveShed_fire s z
    · rfl

theorem endQuery_fire (h : HatchId) (c : QueryEnd) : (endQuery h c s).fire = s.fire := by
  unfold endQuery
  split
  · rfl
  · simp [light]

theorem holdHatch_fire (h : HatchId) : (holdHatch h s).fire = s.fire := by
  unfold holdHatch
  dsimp only
  split
  · simp
  · split <;> simp [endQuery_fire]

theorem hatchTakesFire_fire (h : HatchId) (l e : FireState) : (hatchTakesFire h l e s).fire = s.fire := by
  unfold hatchTakesFire
  dsimp only
  repeat' split
  all_goals simp [holdHatch_fire, startScan]

theorem serve_fire (b : BankId) (q : List Nat) : (serve b q s).fire = s.fire := by
  rw [serve_only]

theorem takeHead_fire (b : BankId) : (takeHead b s).fire = s.fire := by
  unfold takeHead
  split
  · rfl
  · exact serve_fire s b _

theorem parkStart_fire (b : BankId) : (parkStart b s).fire = s.fire := by
  unfold parkStart parkMove
  dsimp only
  repeat' split
  all_goals simp

theorem bankTakesFire_fire (b : BankId) (l e : FireState) : (bankTakesFire b l e s).fire = s.fire := by
  unfold bankTakesFire
  split
  · unfold parkBegins
    dsimp only
    split <;> simp [parkStart_fire]
  · split
    · unfold parkEnds
      dsimp only
      split <;> simp [toIdle, takeHead_fire]
    · rfl

theorem react_fire (z : Zone) (l e : FireState) (r : FireTaker) : (react z l e r s).fire = s.fire := by
  cases r with
  | climate => exact climateTakesFire_fire s z l e
  | hatch h => exact hatchTakesFire_fire s h l e
  | bank b => exact bankTakesFire_fire s b l e

/-- A state entered changes the fire zone's state and no other part of any fire zone. -/
theorem enterFire_fire (z : Zone) (e : FireState) (c : FireCause) :
    (enterFire z e c s).fire = s.fire.set z { s.fire[z] with state := e } :=
  inFreeOrder_induction (P := fun t => t.fire = s.fire.set z { s.fire[z] with state := e }) rfl
    fun r t h => (react_fire t z _ e r).trans h

theorem confirmSeen_releaseOut (z : Zone) : ((confirmSeen z s).fire[z]).releaseOut = (s.fire[z]).releaseOut := by
  unfold confirmSeen
  split
  · split <;> simp [State.modFire]
  · rfl

/-- The release energises the output (R168). -/
theorem release_releaseOut (z : Zone) : ((release z s).fire[z]).releaseOut = true := by
  unfold release
  dsimp only
  rw [confirmSeen_releaseOut, enterFire_fire]
  simp [State.modFire]

end Sys2Proof.Machine
end

