-- ==== Sys2Proof/Tests/Slice0.lean ====
section
/-!
SUPPORT. The model's own tests: the well-formedness checks each refuse an ill-formed term; the spec's worked figures and
sequences come out, a step at a time; and for every statement with hypotheses one theorem shows states and operands that
meet them, clause by clause.
-/

namespace Sys2Proof.Tests

open Sys2Proof Sys2Proof.Machine

-- One test at a time: elaborated side by side, their evaluations together ask for more memory than the check gives.
set_option Elab.async false

/-! ### Small states -/

/-- The state a command leaves. -/
def after (c : Instr) (s : State) : State :=
  match exec c s with
  | .next t => t
  | _ => s

/-- The answer owed in a state. -/
def answerOf (s : State) : Option Answer :=
  match s.line.reply with
  | .owed r => some r.answer
  | _ => none

/-- The factory part with one block's live state, or its store, put in place. -/
def withHatch (x : Hatch) : State := { State.reset with hatch := State.reset.hatch.set 0 x }
def withFire (x : FireZone) : State := { State.reset with fire := State.reset.fire.set 0 x }
def withBank (x : Bank) : State := { State.reset with bank := State.reset.bank.set 0 x }
def withLoop (x : Loop) : State := { State.reset with loop := State.reset.loop.set 0 x }
def withClimate (x : Climate) : State := { State.reset with climate := State.reset.climate.set 0 x }
def withFront (x : FrontEnd) : State := { State.reset with front := x }
def withLine (x : HostLine) : State := { State.reset with line := x }
def withStore (x : Store) : State := { State.reset with store := x }

/-- The first zone's climate as reset leaves it. -/
def air : Climate := { period := 240 }

/-- An unpowered part. -/
def off : State := { State.reset with powered := false }

/-- A cartridge of bank 1 in a custody state. -/
def tape (k : Custody) : Cartridge :=
  { label := "QX000117".toList, media := 'L', custody := k
    home := { bank := 0, carriage := 3, face := .front, shelf := 2, slot := 5 } }

/-- A part whose table holds that one cartridge. -/
def holding (k : Custody) : State := withStore { Store.factory with cartridges := [tape k] }

/-- The same with the cartridge's zone in ALARM. -/
def burning (k : Custody) : State := { holding k with fire := State.reset.fire.set 0 { state := .alarm } }

/-- A manifest of that one cartridge. -/
def job (d : Direction) (st : ItemStatus) (active : Bool) : Manifest :=
  { id := 612, direction := d, hatch := 0, courier := 4410, items := [{ label := "QX000117".toList, status := st }]
    validity := 60, active := active, exposure := none }

/-- A part whose table holds that manifest and its cartridge, the first hatch as given. -/
def working (k : Custody) (m : Manifest) (x : Hatch) : State :=
  { withHatch x with store := { Store.factory with cartridges := [tape k], manifests := [m] } }

/-- The same with a handover record of a class. -/
def handing (k : Custody) (m : Manifest) (c : PhaseClass) (x : Hatch) : State :=
  let s := working k m x
  s.setHandover 0 (some { manifest := m.id, direction := m.direction, phaseClass := c, tray := x.tray, start := 0 })

/-- The home of that cartridge, and the slot beside it. -/
def homeAt (slot : Int) : HomeFields := { bank := 1, carriage := 3, face := "F".toList, shelf := 2, slot := slot }

/-- A tray with that cartridge at its first position. -/
def loaded (v : Verdict) : Tray :=
  (Vector.replicate 24 {}).set 0 { presence := .present "QX000117".toList 'L', verdict := v }

/-- A label record of that cartridge, its CRC as section 3.4 computes it. -/
def record : LabelRun :=
  let body := byteOf '^' :: ("QX000117L".toList.map byteOf)
  { bytes := body ++ [BitVec.extractLsb' 8 8 (crc16 body), BitVec.extractLsb' 0 8 (crc16 body)], lineError := false }

/-! ### Well-formedness: an ill-formed term for each check -/

theorem test_wf_accepts : Instr.wf (.openAisle 1 7) = true ∧ Instr.wf (.addCartridge "QX000117".toList "L".toList (homeAt 5))
    = true := by decide
theorem test_wf_refuses_long_number : Instr.wf (.openAisle 1 10000000000) = false := by decide
theorem test_wf_refuses_small_letter : Instr.wf (.removeCartridge "qx000117".toList) = false := by decide
theorem test_wf_refuses_empty_word : Instr.wf (.setDetector 1 1 []) = false := by decide
theorem test_wf_refuses_empty_list : Instr.wf (.submitOutbound 1 1 1 []) = false := by decide
theorem test_wf_refuses_comma_in_element : Instr.wf (.submitOutbound 1 1 1 ["A,B".toList]) = false := by decide
theorem test_wf_refuses_field_name : Instr.wf (.badRequest (some "ZONE".toList)) = false := by decide
theorem test_wf_refuses_ill_label : Instr.wf (.holdEnded "QX00011".toList) = false := by decide
theorem test_wf_refuses_argument : Instr.wf (.writeSettingHoldMax none (some 10000000000)) = false := by decide
theorem test_wf_refuses_index_word : Instr.wf (.readSetting "ZONE-TSET".toList (some []) none none) = false := by decide +kernel
theorem test_wf_refuses_setpoint : Instr.wf (.setSetpoints 1 { tset := some 99999999999 }) = false := by decide
theorem test_wf_refuses_home : Instr.wf (.setHome "QX000117".toList { homeAt 5 with face := [] }) = false := by decide
theorem test_wf_refuses_summary : Instr.wf (.submitInbound 1 1 1 ["A".toList] { tmax := some 99999999999 }) = false := by
  decide
theorem test_wf_refuses_answer : Instr.wf (.answerQuery 1 { items := some [] }) = false := by decide
theorem test_wf_refuses_manifest_id : Instr.wf (.manifestExpired 65536) = false := by decide
theorem test_wf_refuses_courier : Instr.wf (.badgeRead 0 (some 1000000)) = false := by decide
theorem test_wf_refuses_four_attempts :
    Instr.wf (.trayScanEnd 0 ((Vector.replicate 24 {}).set 0 { first := List.replicate 4 .noResponse })) = false := by decide
theorem test_wf_refuses_repeated_alert : Instr.wf (.alert 0 [3, 3]) = false := by decide
theorem test_wf_refuses_known_setting : Instr.wf (.writeSettingUnknownName "HOLD-MAX".toList) = false := by
  decide +kernel

/-- The names of the well-formedness check are the names of the catalogue. -/
theorem test_setting_names : settingNames = catalogue.map Prod.fst := by decide +kernel

/-! ### No row of the table has bits -/

theorem test_decode_none : decodeTableWord 0 0 = none ∧ decodeTableWord 32 5 = none := by decide

/-! ### The spec's worked figures -/

/-- Section 3.4: the CRC of the characters 123456789 is 29B1. -/
theorem test_crc : crc16 ("123456789".toList.map byteOf) = 0x29B1 := by decide +kernel

/-- Section 1.3. -/
theorem test_conversion :
    engineering .rh (corrected {} 26214) = 400 ∧ engineering .temp (corrected {} 23831) = 200 ∧
    corrected { offset := 48, gain := 32935 } 30 = 0 := by decide

/-- Section 1.4: the loose connector's window and its last scan. -/
theorem test_window : windowMean [402, 404, 403, 405] = some 404 ∧ engineering .rh (corrected {} 26405) = 403 := by decide

/-- Section 1.5. -/
theorem test_calibration :
    calibrate {} 700 64600 = (.ok, { offset := 48, gain := 32935 }) ∧ calGain (58000 - 700) = 36728 ∧
    calibrate {} 700 58000 = (.gain, {}) ∧ corrected { offset := 48, gain := 32935 } 64600 = 64881 := by decide

/-- A failed row of CAL-DONE spells CAL-FAIL and its reason (R14, R15); a FAULT cleared by a disabling names the detector
and DISABLED alone (R141). -/
theorem test_report_words :
    calRowText false { channel := 4, outcome := .gain, low := 700, high := 58000, coef := {} } =
      "5,CAL-FAIL,GAIN,700,58000,0,32768".toList ∧
    eventText (.detectorFaultDisabled 0 4) =
      ("DETECTOR-FAULT".toList, detectorText 0 4, ["CLEARED".toList, "DISABLED".toList]) := by decide +kernel

/-- Chapter 11, the return at minute 5191: RECEIPT-READY, H1, M801, PARTIAL. -/
theorem test_receipt_ready_names_its_manifest :
    eventText (.receiptReady 0 801 .partly) =
      ("RECEIPT-READY".toList, "H1".toList, ["M801".toList, "PARTIAL".toList]) := by decide +kernel

/-- Section 1.6, the first row. -/
theorem test_zone_humidity : combine (some 50) [.valid 412, .valid 438] = (.valid 425, none) := by decide

/-- R21: the three clampings of its example. -/
theorem test_setpoint_clamps :
    usedClimate .period 250 = 248 ∧ usedClimate .period 40 = 64 ∧ usedClimate .cap 12 = 8 := by decide

/-- Section 2.2. -/
theorem test_dew_point :
    dewPoint 182 412 = 46 ∧ dewPoint 60 855 = 34 ∧ dewPoint 200 955 = 192 ∧ dewPoint 180 1000 = 180 ∧
    dewPoint 182 50 = -144 ∧ dewPoint (-300) 200 = -400 := by decide

/-- Section 2.4: the duties at 452, 421, 415 and 300. -/
theorem test_duties :
    let st : ClimateSettings := { hset := 400, band := 20, step := 10, cap := 3 }
    duties st 452 = (4, 0) ∧ duties st 421 = (1, 0) ∧ duties st 415 = (0, 0) ∧ duties st 300 = (0, 8) := by decide

/-- Section 3.5: rows of the figures of the hold. -/
theorem test_holds :
    let run : Exposure := { tmax := 265, tmin := 120, hmax := 620, hmin := 300, minutes := 540 }
    holdWithSummary {} 180 400 run false = 950 ∧ holdWithSummary {} 180 400 run true = 1900 ∧
    holdWithSummary {} 180 400 { run with minutes := 120 } false = 480 ∧
    holdWithSummary {} 180 400 { tmax := 60, tmin := -80, hmax := 850, hmin := 500, minutes := 300 } true = 2400 ∧
    holdWithSummary {} 180 400 { tmax := 187, tmin := 173, hmax := 413, hmin := 387, minutes := 10 } false = 60 ∧
    holdWithSummary {} 180 400 { tmax := 40, tmin := -200, hmax := 900, hmin := 400, minutes := 2000 } false = 2880 ∧
    holdFor {} 180 400 none true = 2880 := by decide

/-- Section 4.2: IDs 65535, 1, 2 and 9 are taken and 65534 was the last issued. -/
theorem test_fresh_id : freshId [65535, 1, 2, 9] 17 65534 = 3 := by decide

/-- Section 6.4: the travel times of the pick round. -/
theorem test_travel_times : travelTime 3 0 1 = 11 ∧ travelTime 3 1 4 = 23 ∧ travelTime 3 0 4 = 29 := by decide

/-- Section 7.4: three alerts in one gap; addresses 12, 13 and 20, then 13 and 20. -/
theorem test_round : roundWinner [11, 12, 19] = 11 ∧ roundWinner [12, 19] = 12 := by decide

/-- Section 7.3: 46 is a prealarm, and 85 and then 88 latch. -/
theorem test_smoke_latches :
    let d := answerDetector .smoke (some 40) 80 46 {}
    let e := answerDetector .smoke (some 40) 80 85 d
    let f := answerDetector .smoke (some 40) 80 88 e
    d.state = .prealarm ∧ e.state = .prealarm ∧ e.alarmRun = 1 ∧ f.state = .alarm ∧ f.latch = true := by decide

/-- Section 9.3: the line of the example is 26 characters long and asks for zone 2 of station 5. -/
theorem test_line :
    let body := "05 READ-ZONE zone=2".toList
    let line := ('@' :: body ++ '*' :: hexText (crc16 (body.map byteOf)) ++ ['\r']).map byteOf
    line.length = 26 ∧ (goodLine line).map lineParsed = some (.instr (.readZone 2)) := by decide +kernel

/-- Section 9.3: `channel=2X` is BAD-REQUEST with its field, and a head that is no request name is unknown. -/
theorem test_faults_of_form :
    parse " READ-CHANNEL channel=2X".toList = .badRequest "channel".toList ∧ parse " READ-MOON".toList = .unknown := by
  decide

/-! ### The spec's worked sequences, a step at a time -/

/-- Section 2.5, zone 3: ALARM sheds a zone in ECONOMY-BURST, and the burst left is deferred. -/
theorem test_fire_shed :
    let s := { withClimate { air with mode := .economyBurst, burst := some 350, dh := 2 } with
      store := { Store.factory with selection := Vector.replicate 4 .economy } }
    let t := climateTakesFire 0 .prealarm .alarm s
    (t.climate[(0 : Zone)]).mode = .shed ∧ (t.climate[(0 : Zone)]).dh = 0 ∧ (t.climate[(0 : Zone)]).burst = none ∧
    (t.climate[(0 : Zone)]).deferredBurst = true ∧ (t.climate[(0 : Zone)]).deferredBreak = false := by decide +kernel

/-- Section 6.4 at 25 s: the sensor of aisle 1 opens it, and the bank moves on to aisle 4 with 23 s. -/
theorem test_pick_round :
    let t := after (.aisleSensorActive 0 1)
      (withBank { motion := .moving, drive := .up, travel := some (0, 1), moving := some 7, queue := [1, 4] })
    (t.bank[(0 : BankId)]).motion = .moving ∧ (t.bank[(0 : BankId)]).queue = [4] ∧
    (t.bank[(0 : BankId)]).moving = some 23 ∧ (t.bank[(0 : BankId)]).travel = some (1, 4) ∧
    t.reports.getLast? = some { stamp := 0, event := .aisleOpen 0 1 } := by decide +kernel

/-- Section 8.6 at 12 s and 40 s: the abort station freezes the countdown at 18 and loads it anew. -/
theorem test_abort :
    let s := after (.abortStationChange 0 true) (withFire { state := .predischarge, countdown := .running 18 })
    let t := after (.abortStationChange 0 false) s
    (s.fire[(0 : Zone)]).countdown = .frozen 18 ∧ (t.fire[(0 : Zone)]).countdown = .running 30 := by decide +kernel

/-- Section 8.6 at 400 s: START-VENT before the soak's end is refused with the seconds left. -/
theorem test_early_vent :
    answerOf (after (.startVent 1) (withFire { state := .discharged, soak := some 270 })) =
      some { word := .refused, body := .fireRefused .discharged (some 270) } := by decide +kernel

/-- Section 10.2: the 64th report is replaced by a marker of count 1, and the next is counted in it. -/
theorem test_overflow :
    let e : Report := { stamp := 0, event := .isolated 0 }
    let q := enqueue (List.replicate 63 e) e
    q.length = 64 ∧ q.getLast? = some { stamp := 0, event := .lost 1 } ∧
    (enqueue q e).getLast? = some { stamp := 0, event := .lost 2 } := by decide +kernel

/-- Section 5.6: a cartridge of no table and an unreadable one are rejects, and the rest waits. -/
theorem test_inbound_reject :
    let t : Tray := (loaded .none).set 1 { presence := .unreadable .crc }
    let s := working (.out 4410) (job .in_ .expected true) {}
    inboundClass s (job .in_ .expected true) t 0 = some .manifest ∧
    inboundClass s (job .in_ .expected true) t 1 = some .reject ∧
    inboundClass (withStore Store.factory) (job .in_ .expected true) t 0 = some .reject ∧
    inboundClass s { job .in_ .expected true with items := [] } t 0 = some .cross := by decide +kernel

/-! ### What meets the hypotheses of the statements: steps, power and laws -/

theorem witness_StepRunsTheFrontCommand :
    ({ State.reset with pending := [.status, .identify] } : State).pending = .status :: [.identify] ∧
    State.reset.pending = [] ∧ State.reset.powered = true ∧ off.pending = [] ∧ off.powered = false :=
  ⟨rfl, rfl, rfl, rfl, rfl⟩

theorem witness_UnpoweredPartTakesNothing :
    off.powered = false ∧ Instr.shutterOpened 0 .outer ≠ .powerUp ∧ Instr.shutterOpened 0 .outer ≠ .powerOff := by decide

/-- The factory store with one SMOKE detector of zone 1 enabled, the last of L1. -/
def watched : Store := { Store.factory with
  detectors := Store.factory.detectors.set 0 ((Vector.replicate 32 {}).set 31 { zone := 0, type := .smoke, enabled := true }) }

/-- A record, and a receipt, of that manifest. -/
def written (c : PhaseClass) : Handover :=
  { manifest := 612, direction := .out, phaseClass := c, tray := Vector.replicate 24 {}, start := 0 }
def issued : Receipt :=
  { hatch := 0, manifest := 612, direction := .out, courier := 4410, outcome := .complete, start := 0, finish := 0
    entries := [], furtherRejects := 0 }

theorem witness_PowerUpStartsEveryBlock :
    let s := { off with store := { watched with handover := #v[some (written .wait), none] } }
    let e := s.store.detectors
    s.powered = false ∧ (∀ a : Address, e[(1 : LoopId)][a].enabled = false) ∧
    e[(0 : LoopId)][(31 : Address)].enabled = true ∧
    (∀ q : Address, q < 31 → e[(0 : LoopId)][q].enabled = false) ∧
    s.store.handover[(0 : HatchId)] = some (written .wait) ∧ s.store.handover[(1 : HatchId)] = none ∧
    State.reset.powered = true := by decide +kernel

/-- What a start leaves of manifests, zones and owners: one ACTIVE and held, one ACTIVE and not, one OPEN; a zone with a
detector and one with none; a kind of reading with a channel and one without (R20, R86, R162). -/
theorem test_start_words :
    let n : Manifest := { job .in_ .expected true with id := 9, hatch := 1 }
    let s := { off with store := { watched with
      handover := #v[some (written .wait), none], manifests := [job .out .loaded true, n, { n with id := 10, active := false }]
      channels := Vector.replicate 24 { kind := .rh, owner := .zone 0, group := 0 } } }
    unheldManifests s = [n] ∧ zoneWatched s 0 = true ∧ zoneWatched s 1 = false ∧
    unread s (.zone 0) .rh = { value := .notReady } ∧ unread s (.zone 0) .temp = { value := .invalid } ∧
    (startedHatch s 0).heldClass = some .wait ∧ (startedHatch s 1).scan = some .resume := by decide +kernel

/-- An ACTIVE manifest whose hatch holds its receipt stays ACTIVE at a start, and one with neither is released with its
report (R86). -/
theorem test_orphan_is_released :
    let at_ (r : Option Receipt) : State :=
      releaseOrphans (withStore { Store.factory with manifests := [job .out .left true], receipt := #v[r, none] })
    (at_ (some issued)).store.manifests = [job .out .left true] ∧
    (at_ none).store.manifests = [job .out .left false] ∧
    (at_ none).reports.getLast? = some { stamp := 0, event := .manifestReleased 612 0 } := by decide +kernel

theorem witness_StepKeepsTheQueueLaw :
    let s : State := { State.reset with reports := [{ stamp := 3, event := .lost 65535 }], pending := [.fetchReports none] }
    QueueLaw s.reports ∧ ∃ t, step s = .next t :=
  ⟨{ size := by decide
     marker := by decide
     full := by decide
     count := by
       intro t n h
       simp only [List.mem_singleton, Report.mk.injEq, Event.lost.injEq] at h
       omega }, _, rfl⟩

theorem witness_StepKeepsOneShutterLocked :
    let s : State := { withHatch { phase := .loading, inner := { locked := false } } with
      pending := [.shutterOpened 0 .inner] }
    (∀ h : HatchId, s.hatch[h].oneLocked) ∧ ∃ t, step s = .next t := by
  refine ⟨fun h => ?_, _, rfl⟩
  match h with
  | 0 => exact .inl rfl
  | 1 => exact .inl rfl

theorem witness_LockReleasedOnlyWhenSafe :
    let s : State := { withHatch { phase := .loading } with pending := [.innerRequestButton 0] }
    (s.hatch[(0 : HatchId)].shutter .inner).locked = true ∧
    ∃ t, step s = .next t ∧ (t.hatch[(0 : HatchId)].shutter .inner).locked = false := by
  exact ⟨rfl, _, rfl, by decide +kernel⟩

theorem witness_StepKeepsTheEconomyCap :
    let s : State := { withClimate { air with mode := .economy, dh := 3, hu := 0 } with
      pending := [.writeSettingZoneClimate .cap (some 1) (some 1)] }
    CapLaw s ∧ ∃ t, step s = .next t := by
  exact ⟨show ∀ z : Zone, _ from by decide +kernel, _, rfl⟩

theorem witness_StepKeepsTheFireLaw :
    let s : State := { State.reset with fire := Vector.replicate 4 { state := .predischarge, countdown := .running 0 }
                                        pending := [.countdownExpiry 2] }
    (∀ z : Zone, FireLaw s.fire[z]) ∧ ∃ t, step s = .next t := by
  refine ⟨fun z => ?_, _, rfl⟩
  simp only [Fin.getElem_fin, Vector.getElem_replicate]
  constructor <;> decide

/-- A discharge that energises the release output: everything the free order of the receivers does leaves it so. -/
theorem witness_OnlyTheCountdownReleasesAgent :
    let s := withFire { state := .predischarge, countdown := .running 0 }
    ∃ t, exec (.countdownExpiry 0) s = .next t ∧ s.fire[(0 : Zone)].releaseOut = false ∧
      t.fire[(0 : Zone)].releaseOut = true := by
  exact ⟨_, event_powered rfl, rfl, release_releaseOut _ 0⟩

theorem witness_StepKeepsTheBankLaw :
    let s : State := { State.reset with pending := [.openAisle 1 7] }
    (∀ b : BankId, BankLaw s.bank[b]) ∧ ∃ t, step s = .next t := by
  refine ⟨fun b => ?_, _, rfl⟩
  simp only [State.reset, Fin.getElem_fin, Vector.getElem_replicate]
  constructor <;> decide

theorem witness_StepKeepsTheCustodyTable :
    let s : State := { holding .shelved with pending := [.addCartridge "QX000118".toList "L".toList (homeAt 6)] }
    TableLaw s.store.cartridges ∧ ∃ t, step s = .next t :=
  ⟨⟨by decide, by decide, by decide⟩, _, rfl⟩

/-! ### What meets the hypotheses: the host line, reports and the minute -/

/-- A part whose receiver stands in a state with a buffer. -/
def lineAt (r : Receiver) (buffer : List Byte) : State :=
  withLine { rate := 19200, station := 1, receiver := r, buffer := buffer }

/-- A part with a reply standing. -/
def replying (r : ReplyState) : State := withLine { rate := 19200, station := 1, reply := r }

/-- A reply to an IDENTIFY. -/
def reply : Reply := { station := 1, answer := { word := .ok } }

theorem witness_ReceiverTakesTheAddress :
    (∀ r buffer, (lineAt r buffer).powered = true ∧ (lineAt r buffer).line.driving = false ∧
      (lineAt r buffer).line.gap = 0) ∧
    (withLine { rate := 19200, station := 1, receiver := .address, gap := 1 }).line.receiver ≠ .hunt ∧
    1 ≤ (withLine { rate := 19200, station := 1, receiver := .address, gap := 1 }).line.gap ∧
    (lineAt .hunt []).line.receiver = .hunt ∧ (0x3F : Byte) ≠ 0x40 ∧
    (lineAt .address [0x40]).line.receiver = .address ∧ (0x2F : Byte).toNat < 48 ∧ 57 < (0x3A : Byte).toNat ∧
    (lineAt .address [0x40]).line.buffer = [0x40] ∧ 48 ≤ (0x30 : Byte).toNat ∧ (0x39 : Byte).toNat ≤ 57 ∧
    (lineAt .address [0x40, 0x30]).line.buffer = [0x40, 0x30] :=
  ⟨fun _ _ => ⟨rfl, rfl, rfl⟩, by decide⟩

/-- A character after a gap of 100 ms finds the line abandoned; an `@` begins the next one (R180). -/
theorem test_late_character :
    let s := withLine { rate := 19200, station := 1, receiver := .address, buffer := [0x40], gap := 1 }
    (after (.characterReceived 0x30 false) s).line.receiver = .hunt ∧
    (after (.characterReceived 0x40 false) s).line.receiver = .address := by decide +kernel

theorem test_address :
    (after (.characterReceived 0x31 false) (lineAt .address [0x40, 0x30])).line.receiver = .collect .station ∧
    (after (.characterReceived 0x30 false) (lineAt .address [0x40, 0x30])).line.receiver = .collect .broadcast ∧
    (after (.characterReceived 0x32 false) (lineAt .address [0x40, 0x30])).line.receiver = .hunt := by decide +kernel

theorem witness_ReceiverCollectsTheLine :
    let s := lineAt (.collect .station) [0x40, 0x30, 0x31]
    let full := lineAt (.collect .broadcast) (List.replicate 512 0x41)
    s.powered = true ∧ s.line.driving = false ∧ s.line.receiver = .collect .station ∧ s.line.gap = 0 ∧
    s.line.buffer.length < 512 ∧ 0x20 ≤ (0x20 : Byte).toNat ∧ (0x7E : Byte).toNat ≤ 0x7E ∧ (0x1F : Byte).toNat < 0x20 ∧ (0x1F : Byte) ≠ 0x0D ∧
    0x7E < (0x7F : Byte).toNat ∧ full.powered = true ∧ full.line.driving = false ∧
    full.line.receiver = .collect .broadcast ∧ 512 ≤ full.line.buffer.length := by decide +kernel

theorem witness_LineAbandonedSilently :
    let s := lineAt .address [0x40]
    let t := withLine { rate := 19200, station := 1, driving := true }
    s.powered = true ∧ s.line.driving = false ∧ s.line.receiver ≠ .hunt ∧ State.reset.line.driving = false ∧
    State.reset.line.receiver = .hunt ∧ t.powered = true ∧ t.line.driving = true := by decide

/-- A line of the station, but for its carriage return. -/
def lineOf (request : String) : List Byte :=
  let body := "01 ".toList ++ request.toList
  ('@' :: body ++ '*' :: hexText (crc16 (body.map byteOf))).map byteOf

theorem witness_CompletedLineRunsItsCommand :
    (∀ request, (lineAt (.collect .station) (lineOf request)).powered = true ∧
      (lineAt (.collect .station) (lineOf request)).line.driving = false ∧
      (lineAt (.collect .station) (lineOf request)).line.receiver = .collect .station ∧
      (lineAt (.collect .station) (lineOf request)).line.gap = 0) ∧
    ["IDENTIFY", "IDENTIFY zone=1", "READ-MOON"].all (fun request => decide ((lineOf request).length < 512)) = true ∧
    goodLine ((lineOf "IDENTIFY").dropLast ++ [0x0D]) = none ∧
    (goodLine (lineOf "IDENTIFY" ++ [0x0D])).map lineParsed = some (.instr .identify) ∧
    (goodLine (lineOf "IDENTIFY zone=1" ++ [0x0D])).map lineParsed = some (.badRequest "zone".toList) ∧
    (goodLine (lineOf "READ-MOON" ++ [0x0D])).map lineParsed = some .unknown :=
  ⟨fun _ => ⟨rfl, rfl, rfl, rfl⟩, by decide +kernel⟩

/-- The broadcast lines: one with a bad check, the one request that is acted on, and another (R184). -/
theorem witness_CompletedLineRunsItsCommand_broadcast :
    let all (request : String) : List Byte :=
      let body := "00 ".toList ++ request.toList
      ('@' :: body ++ '*' :: hexText (crc16 (body.map byteOf))).map byteOf
    (∀ request, (lineAt (.collect .broadcast) (all request)).line.receiver = .collect .broadcast) ∧
    goodLine ((all "IDENTIFY").dropLast ++ [0x0D]) = none ∧
    (goodLine (all "SET-CLIMATE-MODE mode=ECONOMY" ++ [0x0D])).map lineParsed =
      some (.instr (.setClimateMode false "ECONOMY".toList none)) ∧
    (goodLine (all "IDENTIFY" ++ [0x0D])).map lineParsed = some (.instr .identify) :=
  ⟨fun _ => rfl, by decide +kernel⟩

/-- What a line's head and fields can be: no space, a stray character, an empty head and one of 25 characters, a name of
the catalogue and another, and a field read, malformed, unknown, repeated or missing (R183). -/
theorem witness_CompletedLineRunsItsCommand_form :
    let fields : List FieldSpec := [{ name := "zone", type := .num, required := true }]
    ("X".toList.head? ≠ some ' ' ∧ ('$' : Char) ≠ ' ' ∧ (24 : Nat) < (List.replicate 25 'A').length) ∧
    specOf "READ-ZONE".toList [] ≠ none ∧ specOf "READ-MOON".toList [] = none ∧ rawField "zone".toList = none ∧
    rawField "zone=2".toList = some ("zone".toList, "2".toList) ∧ readFields fields [] [] = .ok [] ∧
    readFields fields [] ["zone=2".toList] = .ok [("zone".toList, .num 2)] ∧
    readFields fields [] ["zone=2X".toList] = .error "zone".toList ∧
    readFields fields [] ["zone=2".toList, "zone=3".toList] = .error "zone".toList ∧
    readFields fields [] ["bank=2".toList] = .error "bank".toList ∧ readValue .list "A,,B".toList = none ∧
    (fields.find? fun q => q.required && (fieldOf [] q.name).isNone).isSome = true ∧
    lineParsed ("01 READ-ZONE".toList.map byteOf) = .badRequest "zone".toList ∧
    lineParsed ("01  zone=2".toList.map byteOf) = .badRequest "LINE".toList ∧
    lineParsed ("01 READ-ZONE$".toList.map byteOf) = .badRequest "LINE".toList := by decide +kernel

/-- Fields of each type and one absent; the names of settings of each shape, one by address, one of no setting (R183,
R199, R201). -/
theorem witness_CompletedLineRunsItsCommand_requests :
    let fs : Fields := [("zone".toList, .num 2), ("mode".toList, .word "RUN".toList), ("items".toList, .list [])]
    fieldOf fs "zone" = some (.num 2) ∧ fieldOf fs "mode" = some (.word "RUN".toList) ∧
    fieldOf fs "items" = some (.list []) ∧ fieldOf fs "bank" = none ∧
    (["CH-OFFSET", "SCAN-PERIOD", "GROUP-TIMER", "LINE-RATE", "CHANNEL", "DETECTOR", "MOON"].all fun n =>
      decide (settingNamed ["index=1".toList, "name=".toList ++ n.toList] = n.toList)) = true ∧
    wordOf catalogue "MOON".toList = none ∧ (catalogue.all fun n =>
      n.1 == "CHANNEL" || n.1 == "DETECTOR" || (wordOf writeTable n.1.toList).isSome) = true ∧
    (writeTable.all fun n => (wordOf catalogue n.1.toList).isSome) = true := by decide +kernel

/-- Numbers of a request (section 9.3): ten digits at most, one leading hyphen, no plus sign. -/
theorem test_numbers :
    ["-3277", "0012", "-", "+1", "--1", "12345678901"].map (fun t : String => numberOf t.toList) =
      [some (-3277), some 12, none, none, none, none] := by decide +kernel

/-- The boundaries of the hexadecimal digits (R182). -/
theorem test_hex_digits :
    ["/", "0", "9", ":", "@", "A", "F", "G", "`", "a", "f", "g"].map (fun t : String => t.toList.map fun c => hexValue (byteOf c)) =
      [[none], [some 0], [some 9], [none], [none], [some 10], [some 15], [none], [none], [some 10], [some 15], [none]] := by
  decide +kernel

theorem witness_RequestFindsAReplyStanding :
    (replying (.owed reply)).powered = true ∧ requestOf .identify = some identify ∧
    (replying (.owed reply)).line.reply = .owed reply ∧ (replying (.sending reply)).line.reply = .sending reply :=
  ⟨rfl, rfl, rfl, rfl⟩

theorem witness_Ready : Ready State.reset := ⟨rfl, rfl⟩

theorem witness_ReplyLeavesTheLine :
    (replying (.owed reply)).powered = true ∧ (replying (.owed reply)).line.reply = .owed reply ∧
    (replying (.sending reply)).line.reply = .sending reply ∧ (replying (.sending reply)).line.restartDue = false ∧
    reply.station ≤ 99 ∧ (textIn statusWords reply.answer.word).length +
      ((answerFields 0 reply.answer).map fun f => f.length + 1).sum ≤ 1014 ∧ reply.answer.word ≠ .refused ∧
    namesNoReason .empty = true ∧ namesNoReason (.fireRefused .vent none) = true := by decide +kernel

/-- The longest refusal of a submission: 24 items found in the wrong state. -/
def longestRefusal : List ItemFailure :=
  List.replicate 24 { pos := 24, label := "QX000117".toList, fault := .wrongState .inHatchOut }

/-- The longest page of READ-FIRE-ZONE. -/
def longestFireZone : FireView :=
  { live := { state := .predischarge, countdown := .running 60, pulse := some 10, confirmWait := some 30
              soak := some 3600, vent := some 3600 }
    inHoldSet := true, inShedSet := true, settings := { coincidence := 2, countdown := 60, soak := 3600, vent := 3600 }
    spent := true, counts := { auto := 64, manual := 64, prealarm := 64, usable := 64 }, coincidence := 2
    degraded := true, next := some 49
    page := List.replicate 16
      { loop := 1, address := 31, zone := 3, type := .manual, state := .prealarm, latch := true } }

/-- The longest replies keep to 1024 characters, 17 of them and the status word aside, whatever their free names (R186). -/
theorem test_longest_replies :
    longestRefusal.length ≤ 24 ∧ bodyRoom (.items longestRefusal) ≤ 1007 - 7 ∧
    bodyRoom (.fireZone longestFireZone) ≤ 1007 := by decide +kernel

/-- Fields that sections 9.5 and 4.2 and chapter 11 show: the ID of a cleared receipt and its removal, a level that is
none, the failing item of section 4.2, the next page of a tray. -/
theorem test_named_fields :
    bodyParts (.settled 801 false) = [.named "id".toList "801".toList, .unnamed 0 "REMOVED".toList] ∧
    Part.named "level".toList "-".toList ∈
      bodyParts (.detector { entry := {}, live := {}, prealarm := some 40, alarm := 80 }) ∧
    bodyParts (.items [{ pos := 3, label := "QX000240".toList, fault := .wrongState .out }]) =
      [.named "reason".toList "ITEMS".toList, .unnamed 0 "3/QX000240/WRONG-STATE/OUT".toList] ∧
    bodyParts (.tray [(12, {})] (some 13)) = [.unnamed 0 "12/EMPTY/-/NONE/-".toList, .named "next".toList "13".toList] ∧
    bodyParts (.cartridges [{ index := 12, label := "QX000117".toList, media := 'L', state := .shelved, zone := 0 }] none) =
      [.named "rec".toList "12/QX000117/L/SHELVED/1".toList, .named "next".toList "END".toList] := by decide +kernel

/-- The fields of refusals as sections 3.2, 3.3 and 4.2 spell them (R45, R46, R74, R187). -/
theorem test_reply_fields :
    bodyParts (.wrongState .out) = [.named "reason".toList "WRONG-STATE".toList, .unnamed 0 "OUT".toList] ∧
    bodyParts (.slotTaken "QX000117".toList) =
      [.named "reason".toList "SLOT-TAKEN".toList, .unnamed 0 "QX000117".toList] ∧
    bodyParts (.duplicate true (some "QX000117".toList)) =
      [.named "reason".toList "DUPLICATE-LABEL,SLOT-TAKEN".toList, .unnamed 0 "QX000117".toList] ∧
    bodyParts (.minutes 950) = [.unnamed 0 "950".toList] := by decide +kernel

theorem witness_RestartWaitsForItsReply :
    let s := withFire { state := .predischarge, countdown := .running 9 }
    let t := withLine { rate := 19200, station := 1, reply := .sending reply, restartDue := true }
    Ready State.reset ∧ Ready s ∧ ((∀ z : Zone, State.reset.fire[z].state ≠ .alarm ∧ State.reset.fire[z].state ≠ .predischarge) ∧
    (∃ z : Zone, s.fire[z].state = .alarm ∨ s.fire[z].state = .predischarge) ∧ t.powered = true ∧
    t.line.reply = .sending reply ∧ t.line.restartDue = true) :=
  ⟨⟨rfl, rfl⟩, ⟨rfl, rfl⟩, by decide⟩

theorem witness_LineSettingsAreStored :
    let rates : List (Text × Nat) :=
      [("9600".toList, 9600), ("19200".toList, 19200), ("38400".toList, 38400), ("57600".toList, 57600)]
    Ready State.reset ∧ (("57600".toList, 57600) ∈ rates ∧ "FAST".toList ∉ rates.map Prod.fst) :=
  ⟨⟨rfl, rfl⟩, by decide⟩

/-- The boundary values of the two line settings. -/
theorem test_line_settings :
    ["9600", "57600", "9601", "FAST"].map (fun w : String =>
      (answerOf (after (.writeSettingLineRate none (some w.toList)) State.reset)).map Answer.word) =
      [some .ok, some .ok, some .badValue, some .badValue] ∧
    [0, 1, 31, 32].map (fun v => (after (.writeSettingStationAddress none (some v)) State.reset).store.station) =
      [1, 1, 31, 31] := by decide +kernel

theorem witness_PostedReportIsPlaced :
    let e : Report := { stamp := 0, event := .isolated 0 }
    let s (n : Nat) : State := { State.reset with reports := List.replicate n e }
    (∀ r ∈ (s 62).reports, r.isLost = false) ∧ (s 62).reports.length < 63 ∧
    (∀ r ∈ (s 63).reports, r.isLost = false) ∧ (s 63).reports.length = 63 ∧
    ({ State.reset with reports := [e] ++ [{ stamp := 5, event := .lost 65535 }] } : State).reports =
      [e] ++ [{ stamp := 5, event := .lost 65535 }] := by decide +kernel

theorem witness_FetchTakesTheOldestReports :
    Ready State.reset ∧
    ((after (.fetchReports (some 2)) State.reset).reports.length = 3 ∧
    (answerOf (after (.fetchReports (some 9)) State.reset)).map Answer.word = some .clamped ∧
    (after (.fetchReports none) State.reset).reports = []) := ⟨⟨rfl, rfl⟩, by decide +kernel⟩

theorem witness_PartIsRead :
    Ready State.reset ∧ (indexOf 4 4 = some 3 ∧ indexOf 2 2 = some 1 ∧ indexOf 32 32 = some 31 ∧
    indexOf 24 24 = some 23 ∧ indexOf 4 5 = none ∧ indexOf 4 0 = none ∧ numberOf "4".toList = some 4 ∧
    numberOf "24".toList = some 24 ∧ numberOf "2X".toList = none ∧ indexOf 2 5 = none ∧ indexOf 24 25 = none ∧
    numberOf "25".toList = some 25 ∧ indexOf 32 33 = none ∧ "C".toList ≠ "A".toList ∧ "MANUAL".toList ≠ "HEAT".toList) ∧
    (wordOf catalogue "ZONE-TEMP".toList).isNone = true := ⟨⟨rfl, rfl⟩, by decide, by decide +kernel⟩

/-- A validity and a hold that end with a minute, and a hatch in CONDITIONING that comes to its limit, is past it, and
is in another phase. -/
theorem witness_MinuteIsHandedOn :
    let m := { job .out .reserved false with validity := 1 }
    let x : Hatch := { phase := .conditioning, limitCount := 119 }
    let s : State := { working (.quarantine 1) m x with minute := 4294967295 }
    s.powered = true ∧ s.store.manifests.filter (fun m => !m.active && decide (m.validity ≤ 1)) = [m] ∧
    m.direction = .out ∧ "QX000117".toList ∈ m.labelsIn .reserved ∧ s.hatch[(0 : HatchId)].phase = .conditioning ∧
    s.store.hatch[(0 : HatchId)].condLimit ≤ x.limitCount + 1 ∧ x.limitPosted = false ∧
    { x with limitPosted := true }.limitPosted = true ∧
    { x with limitCount := 118 }.limitCount + 1 < s.store.hatch[(0 : HatchId)].condLimit ∧
    s.hatch[(1 : HatchId)].phase ≠ .conditioning := by decide +kernel

/-- The minute that ends a validity: the manifest leaves the table, its RESERVED cartridge goes back to its shelf and the
report names it; one that ends a hold, and one that comes to the conditioning limit (R66, R79, R80, R109). -/
theorem test_minute_ends :
    let m := { job .out .reserved false with validity := 1 }
    let at_ (w : MinuteTaker) (k : Custody) : State :=
      takeMinute w (working k m { phase := .conditioning, limitCount := 119, manifest := some 612 })
    (at_ .manifests (.reserved 612)).store.manifests = [] ∧
    (at_ .manifests (.reserved 612)).store.cartridges.map Cartridge.custody = [.shelved] ∧
    ((at_ .manifests (.reserved 612)).reports.getLast?).map Report.event =
      some (.manifestExpired 612 .out 0 4410 false ["QX000117".toList] []) ∧
    (at_ .custody (.quarantine 1)).store.cartridges.map Cartridge.custody = [.reshelve] ∧
    ((at_ .custody (.quarantine 1)).reports.getLast?).map Report.event =
      some (.holdEnded "QX000117".toList 0 (tape .shelved).home none) ∧
    ((at_ (.hatch 0) .shelved).reports.getLast?).map Report.event =
      some (.conditionTimeout 0 (some 612) .unknown .unknown) := by decide +kernel

/-! ### What meets the hypotheses: the front end and the climate -/

/-- A front end whose first group stands in a state. -/
def groupIn (x : GroupState) (scanning : Bool) : State :=
  withFront { timers := #v[100, 10], groups := #v[{ state := x, scanning := scanning }, {}] }

/-- A group with no channels: every entry UNUSED (R1, R12). -/
theorem witness_CalibrationRunsAndEnds_empty :
    let s := withStore { Store.factory with
      channels := Vector.replicate 24 { kind := .unused, owner := .zone 0, group := 0 } }
    Ready s ∧ (groupChannels s.store 0 = [] ∧ (s.front.groups[(0 : Group)]).state.calibrates = false ∧
    s.store.groupTimer[(0 : Group)] ≠ .off) := ⟨⟨rfl, rfl⟩, by decide +kernel⟩

theorem witness_EngineeringValueByKind :
    engineering .rh 0 = 0 ∧ engineering .rh 65535 = 1000 ∧ engineering .temp 0 = -400 ∧
    engineering .probe 65535 = 1250 := by decide

theorem witness_CodeEntersTheWindow :
    let x : ChanLive := { window := [402, 404, 403, 405], railRun := 1, goodRun := 1 }
    ((16 : Code).toNat ≤ 16 ∧ 65519 ≤ (65519 : Code).toNat ∧ 16 < (17 : Code).toNat ∧ (65518 : Code).toNat < 65519) ∧
    x.fault = false ∧ x.railRun ≤ 1 ∧ x.window.length ≤ 4 ∧ { x with railRun := 2 }.railRun = 2 ∧
    { x with fault := true }.fault = true ∧ x.goodRun ≤ 1 ∧ { x with goodRun := 2 }.goodRun = 2 ∧
    ((17 : Int) - 3277) * 32768 + 16384 < 0 ∧ 65536 * 32768 ≤ ((65518 : Int) - (-3277)) * 32768 + 16384 ∧
    0 ≤ ((17 : Int) - 0) * 32768 + 16384 := by decide

theorem witness_CalibrationOutcomeOfMeans :
    calibrate {} 700 700 = (.order, {}) ∧ (calibrate {} 700 58000).1 = .gain ∧ (calibrate {} 9000 73225).1 = .offset ∧
    (calibrate {} 655 64880).1 = .ok := by decide

theorem witness_CalibrationRunsAndEnds :
    let s := groupIn (.calibrating true) false
    let t := withStore { Store.factory with groupTimer := #v[.off, .tb] }
    Ready State.reset ∧ Ready s ∧ Ready t ∧ (indexOf 2 0 = none ∧ indexOf 2 3 = none ∧ indexOf 2 1 = some 0 ∧
    (s.front.groups[(0 : Group)]).state.calibrates = true ∧ (t.front.groups[(0 : Group)]).state.calibrates = false ∧
    t.store.groupTimer[(0 : Group)] = .off ∧ State.reset.store.groupTimer[(0 : Group)] ≠ .off ∧
    groupChannels State.reset.store 0 ≠ [] ∧ s.powered = true) :=
  ⟨⟨rfl, rfl⟩, ⟨rfl, rfl⟩, ⟨rfl, rfl⟩, by decide +kernel⟩

/-- A part whose first zone's two humidity channels are VALID, the second in a group of the state given. -/
def paired (x : GroupState) : State :=
  let chans := ((Vector.replicate 24 ({} : ChanLive)).set 0 { window := [412] }).set 1 { window := [438] }
  { withFront { timers := #v[100, 10], groups := #v[{ state := .ready }, { state := x }], chans := chans } with
    store := { Store.factory with
      channels := Store.factory.channels.set 1 { kind := .rh, owner := .zone 0, group := 1 } } }

/-- The owner values of a scan: two VALID channels, one, and none; a group calibrating; a dew point that stands. -/
theorem witness_ScansBeginAndComplete_values :
    let s := paired .ready
    let c := paired (.calibrating true)
    let d := paired (.notReady 2)
    channelsOf s.store (.zone 0) .rh = [0, 1] ∧ chanValue s.store s.front 0 = .valid 412 ∧
    chanValue s.store s.front 1 = .valid 438 ∧ (25 : Int) < |412 - 438| ∧ |(412 : Int) - 438| ≤ 26 ∧
    chanValue d.store d.front 1 = .notReady ∧ channelsOf s.store (.hatch 0) .rh = [16] ∧
    channelsOf s.store (.hatch 0) .rh ≠ [] ∧ (channelsOf s.store (.zone 0) .probe) = [] ∧
    (∀ q ∈ channelsOf s.store (.zone 0) .temp, isCal c.store c.front q = false) ∧
    (∀ q ∈ channelsOf s.store (.zone 0) .rh, isCal s.store s.front q = false) ∧
    1 ∈ channelsOf c.store (.zone 0) .rh ∧ chanValue c.store c.front 1 = .valid 438 ∧
    isCal c.store c.front 1 = true ∧ nextDew (.valid 46 182 412 false) { value := .valid 412 } { value := .valid 182 } =
      .valid 46 182 412 false := by decide +kernel

theorem witness_ScansBeginAndComplete :
    State.reset.powered = true ∧ (∀ g : Group, groupChannels State.reset.store g ≠ []) ∧
    ((groupIn (.notReady 2) true).front.groups[(0 : Group)]).scanning = true ∧
    ((groupIn (.notReady 2) true).front.groups[(0 : Group)]).state = .notReady (1 + 1) ∧
    ((groupIn (.notReady 0) true).front.groups[(0 : Group)]).state = .notReady 0 ∧
    ((groupIn .ready true).front.groups[(0 : Group)]).state = .ready ∧
    ((groupIn .ready false).front.groups[(0 : Group)]).scanning = false := by decide +kernel

/-- An owner's first channel NOT-READY and its second VALID (R17). -/
theorem witness_ScansBeginAndComplete_second :
    let s := { paired .ready with front := { (paired .ready).front with
      groups := #v[{ state := .notReady 2 }, { state := .ready }] } }
    channelsOf s.store (.zone 0) .rh = [0, 1] ∧ chanValue s.store s.front 0 = .notReady ∧
    chanValue s.store s.front 1 = .valid 438 := by decide +kernel

/-- A channel retired in FAULT, words and numbers that name nothing, an entry past the limits, one as it stood, and a
group that calibrates (R2). -/
theorem witness_FrontSettingsAreWritten_retire :
    let e : ChanEntry := State.reset.store.channels[(0 : Channel)]
    let probe : ChanEntry := { e with kind := .probe }
    let s := withFront { timers := #v[100, 10], chans := (Vector.replicate 24 {}).set 0 { fault := true } }
    let c := groupIn (.calibrating true) false
    Ready s ∧ Ready c ∧ (indexOf 24 1 = some 0 ∧ e.kind ≠ .unused ∧ (s.front.groups[e.group]).state.calibrates = false ∧
    (s.front.chans[(0 : Channel)]).fault = true ∧ indexOf 24 0 = none ∧ indexOf 24 25 = none ∧
    wordOf kindWords "MOON".toList = none ∧ wordOf ownerWords "Z5".toList = none ∧ indexOf 2 0 = none ∧
    indexOf 2 3 = none ∧ wordOf kindWords "RH".toList = some e.kind ∧ wordOf ownerWords "Z1".toList = some e.owner ∧
    indexOf 2 1 = some e.group ∧ wordOf kindWords "PROBE".toList = some probe.kind ∧
    entryAllowed (s.store.channels.set 0 probe) probe = false ∧ entryAllowed (s.store.channels.set 0 e) e = true ∧
    (c.front.groups[e.group]).state.calibrates = true) :=
  ⟨⟨rfl, rfl⟩, ⟨rfl, rfl⟩, by decide +kernel⟩

theorem witness_FrontSettingsAreWritten :
    let s := groupIn (.calibrating true) false
    let e : ChanEntry := { kind := .temp, owner := .zone 0, group := 1 }
    let t := withStore { Store.factory with channels := Store.factory.channels.set 2 { e with kind := .probe } }
    Ready State.reset ∧ Ready s ∧ Ready t ∧ (indexOf 24 1 = some 0 ∧ indexOf 24 24 = some 23 ∧
    (State.reset.front.groups[(0 : Group)]).state.calibrates = false ∧
    ({ offset := 48, gain := 32768 } : Coef) ≠ State.reset.store.coefs[(0 : Channel)] ∧
    ({ offset := 0, gain := 36045 } : Coef) ≠ State.reset.store.coefs[(0 : Channel)] ∧
    (s.front.groups[s.store.channels[(0 : Channel)].group]).state.calibrates = true ∧
    wordOf timerIndexWords "B".toList = some 1 ∧ indexOf 4 4 = some 3 ∧ indexOf 2 2 = some 1 ∧
    wordOf timerWords "OFF".toList = some .off ∧ GroupTimer.off ≠ State.reset.store.groupTimer[(1 : Group)] ∧
    indexOf 24 3 = some 2 ∧ wordOf kindWords "TEMP".toList = some e.kind ∧ wordOf ownerWords "Z1".toList = some e.owner ∧
    indexOf 2 2 = some e.group ∧ e.kind ≠ .unused ∧ t.store.channels[(2 : Channel)].kind ≠ .unused ∧
    e ≠ t.store.channels[(2 : Channel)] ∧ entryAllowed (t.store.channels.set 2 e) e = true ∧
    (t.front.groups[t.store.channels[(2 : Channel)].group]).state.calibrates = false ∧
    (t.front.groups[e.group]).state.calibrates = false) :=
  ⟨⟨rfl, rfl⟩, ⟨rfl, rfl⟩, ⟨rfl, rfl⟩, by decide +kernel⟩

/-- An UNUSED channel put to use by its kind alone, or kept UNUSED under another owner; fields left out; a coefficient and
an assignment as they stood, and one while its group calibrates (R2, R16). -/
theorem witness_FrontSettingsAreWritten_unused :
    let idle : ChanEntry := { kind := .unused, owner := .zone 0, group := 0 }
    let used : ChanEntry := { idle with kind := .rh }
    let moved : ChanEntry := { idle with owner := .zone 1 }
    let s := withStore { Store.factory with channels := Vector.replicate 24 idle }
    let c := groupIn (.calibrating true) false
    Ready s ∧ Ready c ∧ (s.store.channels[(0 : Channel)] = idle ∧ wordOf kindWords "RH".toList = some used.kind ∧
    used.owner = idle.owner ∧ used.group = idle.group ∧ used.kind ≠ .unused ∧
    entryAllowed (s.store.channels.set 0 used) used = true ∧ (s.front.groups[idle.group]).state.calibrates = false ∧
    wordOf ownerWords "Z2".toList = some moved.owner ∧ moved ≠ idle ∧
    entryAllowed (s.store.channels.set 0 moved) moved = true ∧
    clamp (-3277) 3277 0 = (s.store.coefs[(0 : Channel)]).offset ∧
    clamp 29491 36045 32768 = (s.store.coefs[(0 : Channel)]).gain ∧
    wordOf timerWords "TA".toList = some s.store.groupTimer[(0 : Group)] ∧ wordOf timerWords "TC".toList = none ∧
    (c.front.groups[(0 : Group)]).state.calibrates = true) :=
  ⟨⟨rfl, rfl⟩, ⟨rfl, rfl⟩, by decide +kernel⟩

theorem witness_ChannelAndZoneAreRead :
    Ready State.reset ∧ (indexOf 24 24 = some 23 ∧ indexOf 24 25 = none ∧ indexOf 4 1 = some 0 ∧ indexOf 4 0 = none) :=
  ⟨⟨rfl, rfl⟩, by decide⟩

/-- A channel in FAULT, one whose group is NOT-READY, and windows filled and empty (R11). -/
theorem witness_ChannelAndZoneAreRead_value :
    let s := paired .ready
    let c := groupIn (.calibrating true) false
    ({ fault := true } : ChanLive).fault = true ∧
    (State.reset.front.groups[(State.reset.store.channels[(0 : Channel)]).group]).state = .notReady 2 ∧
    (s.front.chans[(0 : Channel)]).window ≠ [] ∧ (s.front.groups[(0 : Group)]).state = .ready ∧
    (s.front.chans[(5 : Channel)]).window = [] ∧ (c.front.groups[(0 : Group)]).state = .calibrating true ∧
    (c.front.chans[(0 : Channel)]).window = [] := by decide +kernel

theorem witness_DewPointFollowsTheTable :
    (3 : Int) = (clamp 100 1000 412 - 100) / 100 ∧ (12 : Int) = (clamp 100 1000 412 - 100) % 100 ∧
    (9 : Int) = (clamp 100 1000 1000 - 100) / 100 ∧ (0 : Int) = (clamp 100 1000 1000 - 100) % 100 := by decide

theorem witness_SetpointsAreWritten :
    let s := withClimate { air with mode := .economy, dh := 8 }
    let t := after (.setSetpoints 1 { cap := some 2, period := some 250 }) s
    Ready s ∧ (indexOf 4 1 = some 0 ∧ (t.climate[(0 : Zone)]).dh = 2 ∧ (t.store.climate[(0 : Zone)]).period = 248 ∧
    (answerOf t).map Answer.word = some .clamped) := ⟨⟨rfl, rfl⟩, by decide +kernel⟩

theorem witness_ClimateModeIsSelected :
    Ready State.reset ∧ (wordOf selectionWords "ECONOMY".toList = some .economy ∧
    wordOf selectionWords "RUN".toList = some .run ∧ indexOf 4 2 = some 1) := ⟨⟨rfl, rfl⟩, by decide⟩

theorem witness_BurstStartsAndEnds :
    let s := withClimate { air with mode := .economyBurst, burst := some 0 }
    let c (m : ClimateMode) (out : Bool) : Climate := (withClimate { air with mode := m, outRh := out }).climate[(0 : Zone)]
    let st := s.store.climate[(0 : Zone)]
    Ready s ∧ (indexOf 4 1 = some 0 ∧ indexOf 4 5 = none ∧ s.powered = true ∧
    (s.climate[(0 : Zone)]).mode = .economyBurst ∧ (s.climate[(0 : Zone)]).burst = some 0 ∧
    (State.reset.climate[(0 : Zone)]).burst ≠ some 0 ∧
    st.rhband < |481 - st.hset| ∧ ¬(st.rhband < |480 - st.hset|) ∧ st.rhband - 10 < |471 - st.hset| ∧
    ¬(st.rhband - 10 < |470 - st.hset|) ∧ st.tband < |211 - st.tset| ∧ (c .run true).mode ≠ .hold ∧
    (c .economy false).outRh = false ∧ (c .shed false).mode = .shed ∧ (c .hold false).outTemp = false ∧
    (c .hold false).deferredBreak = false ∧ s.store.selection[(0 : Zone)] = .run ∧
    ({ Store.factory with selection := Vector.replicate 4 .economy } : Store).selection[(0 : Zone)] = .economy ∧
    (∀ v : Int, Value.notReady ≠ .valid v) ∧ ({ value := .valid 481 } : Reading).value = .valid 481) :=
  ⟨⟨rfl, rfl⟩, by decide, by decide, rfl, by decide, by decide, by decide, by decide +kernel, by decide +kernel,
    by decide +kernel, by decide +kernel, by decide +kernel, by decide, by decide, by decide, by decide, by decide,
    by decide, by decide, fun _ => nofun, rfl⟩

/-- The stages of a handing of both values: a temperature that leaves OUT, one in SHED, and a humidity whose excursion
changes in the handing that ends HOLD (R25, R33, R37). -/
theorem witness_BurstStartsAndEnds_stages :
    let st := State.reset.store.climate[(0 : Zone)]
    let warm : Climate := { air with mode := .shed, outTemp := true }
    let still : Climate := { air with mode := .hold, rh := { value := .valid 481 } }
    ¬(st.tband - 10 < |200 - st.tset|) ∧ st.tband < |211 - st.tset| ∧ st.rhband < |481 - st.hset| ∧
    ((withClimate warm).climate[(0 : Zone)]).outTemp = true ∧ ((withClimate warm).climate[(0 : Zone)]).mode = .shed ∧
    ((withClimate still).climate[(0 : Zone)]).mode = .hold ∧
    ((withClimate still).climate[(0 : Zone)]).rh.value = .valid 481 ∧
    ((withClimate still).climate[(0 : Zone)]).outRh = false ∧
    ((withClimate still).climate[(0 : Zone)]).deferredBreak = false := by decide +kernel

/-- An ordinary scan's handing of both values ends HOLD and puts RH and temperature OUT, RH reported first (R25, R37). -/
theorem test_handing_of_both :
    let s := handZone 0 (some { value := .valid 481 }) (some { value := .valid 211 }) (withClimate { air with mode := .hold })
    (s.climate[(0 : Zone)]).mode = .run ∧ (s.climate[(0 : Zone)]).outRh = true ∧ (s.climate[(0 : Zone)]).outTemp = true ∧
    (s.reports.drop State.reset.reports.length).map Report.event =
      [.excursion 0 .rh true 481 400 80, .excursion 0 .temp true 211 180 30] := by decide +kernel

/-- A burst event taken before a queued expiry reloads the timer, and the expiry is no longer due (R35). -/
theorem test_burst_is_reloaded :
    let s := withClimate { air with mode := .economyBurst, burst := some 0 }
    let t := after (.burstTimerExpiry 0) (burstEvent 0 s)
    (t.climate[(0 : Zone)]).mode = .economyBurst ∧ (t.climate[(0 : Zone)]).burst = some 600 := by decide +kernel

theorem witness_PeriodStartsAndDutiesEnd :
    let s := withClimate { air with mode := .economy, rh := { value := .valid 452 } }
    let st := s.store.climate[(0 : Zone)]
    s.powered = true ∧ (s.climate[(0 : Zone)]).elapsed = some 0 ∧ (s.climate[(0 : Zone)]).mode.computes = true ∧
    (s.climate[(0 : Zone)]).rh.value = .valid 452 ∧ (s.climate[(0 : Zone)]).dh < 8 ∧ (s.climate[(0 : Zone)]).hu < 8 ∧
    (State.reset.climate[(0 : Zone)]).mode = .hold ∧ (State.reset.climate[(0 : Zone)]).elapsed.isSome = true ∧
    0 < st.step ∧ -st.band ≤ st.hset + st.band - st.hset ∧ st.hset + st.band - st.hset ≤ st.band ∧
    452 - st.hset > st.band ∧ ((4 - 1 : Int)) * st.step < 452 - st.hset - st.band ∧
    452 - st.hset - st.band ≤ 4 * st.step ∧ 0 ≤ st.band ∧ 300 - st.hset < -st.band ∧
    ((8 - 1 : Int)) * st.step < -(300 - st.hset) - st.band ∧ -(300 - st.hset) - st.band ≤ 8 * st.step ∧
    FireState.prealarm.sheds = false ∧ FireState.alarm.sheds = true ∧ FireState.vent.sheds = true ∧
    FireState.normal.sheds = false ∧ (State.reset.climate[(0 : Zone)]).rh.value = .notReady := by
  decide +kernel

/-- Section 2.5: the return from SHED with a burst deferred is ECONOMY-BURST with the timer loaded, and with a break
deferred RUN with its report (R39). -/
theorem test_return_from_shed :
    let s (broke : Bool) : State :=
      { withClimate { air with mode := .shed, elapsed := none, rh := { value := .valid 452 }, deferredBurst := true
                               deferredBreak := broke } with
        store := { Store.factory with selection := Vector.replicate 4 .economy } }
    let t (broke : Bool) : Climate := (climateTakesFire 0 .vent .normal (s broke)).climate[(0 : Zone)]
    (t false).mode = .economyBurst ∧ (t false).burst = some 600 ∧ (t false).dh = 4 ∧ (t true).mode = .run := by
  decide +kernel

/-! ### What meets the hypotheses: cartridges, staging and manifests -/

/-- A part with a full table; its records differ in label and home. -/
def crowd : List Cartridge :=
  (List.range 2048).map fun n =>
    { label := 'Q' :: (List.replicate (7 - (natText n).length) '0' ++ natText n), media := 'L', custody := .shelved
      home := { bank := 0, carriage := 1 + n / 320, face := .front, shelf := 1 + n / 40 % 8, slot := 1 + n % 40 } }

theorem witness_CartridgeIsAddedAndRead :
    let s := holding .shelved
    Ready s ∧ Ready (burning .shelved) ∧ (labelOk "QX00011".toList = false ∧ mediaOf "LL".toList = none ∧
    s.homeNamed { homeAt 41 with bank := 1 } = none ∧ labelOk "QX000118".toList = true ∧ mediaOf "L".toList = some 'L' ∧
    s.homeNamed (homeAt 40) = some { bank := 0, carriage := 3, face := .front, shelf := 2, slot := 40 } ∧
    (burning .shelved).held ((burning .shelved).store.bank[(0 : BankId)].zone) = true ∧
    s.held (s.store.bank[(0 : BankId)].zone) = false ∧ s.store.cartridges.length < 2048 ∧
    (∃ c ∈ s.store.cartridges, c.label = "QX000117".toList) ∧
    (∀ c ∈ s.store.cartridges, c.label ≠ "QX000118".toList ∧ c.home.slot ≠ 40) ∧ 2048 ≤ crowd.length ∧
    s.cartridge? "QX000117".toList = some (tape .shelved) ∧ s.cartridge? "QX000118".toList = none) :=
  ⟨⟨rfl, rfl⟩, ⟨rfl, rfl⟩, by decide +kernel⟩

theorem witness_RemovedCartridgeFreesLabelAndHome :
    let s := holding .shelved
    Ready s ∧ Ready (burning .shelved) ∧ TableLaw s.store.cartridges ∧ (labelOk "QX000117".toList = true ∧
    s.cartridge? "QX000117".toList = some (tape .shelved) ∧
    (burning .shelved).held ((burning .shelved).store.bank[(0 : BankId)].zone) = true ∧
    s.held (s.store.bank[(0 : BankId)].zone) = false ∧ (tape .reshelve).custody ≠ .shelved ∧
    (tape .reshelve).custody ≠ .missing ∧ (tape .missing).custody = .missing) :=
  ⟨⟨rfl, rfl⟩, ⟨rfl, rfl⟩, ⟨by decide, by decide, by decide⟩, by decide +kernel⟩

theorem witness_MissingIsMarkedAndFound :
    let s := holding .missing
    Ready s ∧ Ready (burning .missing) ∧ (labelOk "QX000117".toList = true ∧
    s.cartridge? "QX000117".toList = some (tape .missing) ∧
    (burning .missing).held ((burning .missing).store.bank[(0 : BankId)].zone) = true ∧
    s.held (s.store.bank[(0 : BankId)].zone) = false ∧ (tape .reshelve).custody = .reshelve ∧
    (tape .missing).custody ≠ .shelved ∧ (tape .missing).custody ≠ .reshelve ∧ (tape .shelved).custody ≠ .missing ∧
    labelOk "QX000118".toList = true ∧ mediaOf "L".toList = some 'L' ∧
    s.homeNamed (homeAt 5) = some (tape .missing).home ∧ s.store.cartridges.length < 2048) :=
  ⟨⟨rfl, rfl⟩, ⟨rfl, rfl⟩, by decide +kernel⟩

theorem witness_HomesAndHoldsAreChanged :
    let s := holding .shelved
    let q := holding (.quarantine 1)
    Ready s ∧ Ready q ∧ (labelOk "QX000117".toList = true ∧ s.cartridge? "QX000117".toList = some (tape .shelved) ∧
    s.homeNamed (homeAt 5) = some (tape .shelved).home ∧ s.held (s.store.bank[(0 : BankId)].zone) = false ∧
    (s.homeNamed (homeAt 6)).map s.holderOf = some none ∧
    (s.homeNamed (homeAt 5)).map s.holderOf = some (some "QX000117".toList) ∧ q.powered = true ∧
    q.cartridge? "QX000117".toList = some (tape (.quarantine 1)) ∧
    (∀ d ∈ q.store.cartridges, d.label = "QX000117".toList → d = tape (.quarantine 1)) ∧
    (tape (.quarantine 2)).custody = .quarantine 2) :=
  ⟨⟨rfl, rfl⟩, ⟨rfl, rfl⟩, by decide +kernel⟩

theorem witness_HoldIsComputedInSixStages :
    (85 : Int) = clamp 0 1000 (max |265 - 180| |180 - 120|) ∧ (220 : Int) = clamp 0 1000 (max |620 - 400| |400 - 300|) ∧
    10 * ((950 : Int) - 1) < 60 * 85 + 20 * 220 ∧ 60 * 85 + 20 * 220 ≤ 10 * (950 : Int) := by decide

theorem witness_StagingReadIsDecided :
    let p : Staging := { lastGood := some ("QX000117".toList, 'L'), window := some 1, left := some 1 }
    let s := { holding .reshelve with staging := State.reset.staging.set 0 p }
    s.powered = true ∧ readLabel { bytes := [], lineError := false } = .error .length ∧
    readLabel record = .ok ("QX000117".toList, 'L') ∧ (s.staging[(0 : ReaderId)]).lastGood = some ("QX000117".toList, 'L') ∧
    (s.staging[(0 : ReaderId)]).window.isSome = true ∧ (State.reset.staging[(0 : ReaderId)]).window = none ∧
    s.held (s.store.bank[(0 : ReaderId)].zone) = false ∧ s.cartridge? "QX000117".toList = some (tape .reshelve) ∧
    (burning .shelved).held ((burning .shelved).store.bank[(0 : ReaderId)].zone) = true ∧
    State.reset.cartridge? "QX000117".toList = none ∧ (s.staging[(0 : ReaderId)]).left.isSome = true ∧
    indexOf 4 1 = some 0 ∧ s.line.reply = .none := by decide +kernel

/-- The steps of R57 and R59: a media code that is not the record's, a cartridge whose zone alone is in the fire hold
set, an aisle above the carriage count, a queue that is full and one that is not. -/
theorem witness_StagingReadIsDecided_steps :
    let s := holding .reshelve
    let few := { s with store := { s.store with
      bank := s.store.bank.set 0 { s.store.bank[(0 : BankId)] with carriages := 1 } } }
    let full := { s with bank := s.bank.set 0 { queue := [5, 6, 7, 8, 9, 10, 11, 12] } }
    s.held (s.store.bank[(0 : ReaderId)].zone) = false ∧ s.cartridge? "QX000117".toList = some (tape .reshelve) ∧
    'X' ≠ (tape .reshelve).media ∧ (burning .shelved).held ((burning .shelved).store.bank[(1 : ReaderId)].zone) = false ∧
    (burning .shelved).held ((burning .shelved).store.bank[(tape .shelved).home.bank].zone) = true ∧
    (tape .reshelve).home.face = .front ∧ (tape .reshelve).home.carriage - 1 = 2 ∧
    (few.store.bank[(0 : BankId)]).carriages < 2 ∧ 2 ≤ (s.store.bank[(0 : BankId)]).carriages ∧
    (s.bank[(0 : BankId)]).position ≠ some 2 ∧ 2 ∉ (full.bank[(0 : BankId)]).queue ∧
    8 ≤ (full.bank[(0 : BankId)]).queue.length ∧ (s.bank[(0 : BankId)]).queue.length < 8 := by decide +kernel

theorem witness_SubmissionIsAccepted :
    let s := holding .shelved
    let t := holding (.out 4410)
    let full := { s with store := { s.store with manifests := List.replicate 16 (job .out .reserved false) } }
    let none_ : SummaryFields := {}
    Ready s ∧ Ready t ∧ Ready full ∧ (indexOf 2 1 = some 0 ∧ submissionOk 4410 ["QX000117".toList] = true ∧
    16 ≤ full.store.manifests.length ∧ s.store.manifests.length < 16 ∧
    itemFailures .out t [] 1 ["QX000117".toList] ≠ [] ∧ itemFailures .out s [] 1 ["QX000117".toList] = [] ∧
    itemFailures .in_ t [] 1 ["QX000117".toList] = [] ∧ partialSummary none_ = none ∧ s.nextManifestId = 1 ∧
    itemFault .out s [] "QX000117".toList = none ∧ itemFailures .in_ s [] 1 ["QX000117".toList] ≠ [] ∧
    partialSummary { none_ with tmax := some 0 } = some "tmin" ∧ s.cartridge? "QX000117".toList = some (tape .shelved) ∧
    (burning .shelved).held ((burning .shelved).store.bank[(tape .shelved).home.bank].zone) = true) :=
  ⟨⟨rfl, rfl⟩, ⟨rfl, rfl⟩, ⟨rfl, rfl⟩, by decide +kernel⟩

/-- An inbound list with two failing items is refused whole, each with its position and its first failed test (R74,
R76). -/
theorem test_inbound_refused :
    answerOf (after (.submitInbound 1 4410 60 ["QX000117".toList, "QX000117".toList, "QX000118".toList] {})
      (holding (.out 7))) = some { word := .refused, body := .items [
        { pos := 2, label := "QX000117".toList, fault := .duplicate },
        { pos := 3, label := "QX000118".toList, fault := .notFound }] } ∧
    (after (.submitInbound 1 4410 60 ["QX000117".toList, "QX000118".toList] {}) (holding (.out 7))).store.manifests = [] :=
  by decide +kernel

theorem witness_ManifestsEndAndAreRead :
    let m := job .out .reserved false
    let s := working (.reserved 612) m {}
    let hot := { s with fire := State.reset.fire.set 0 { state := .alarm } }
    let a := working (.inHatchOut 612) (job .out .loaded true) {}
    let i := working (.out 4410) (job .in_ .expected false) {}
    Ready s ∧ Ready hot ∧ Ready a ∧ Ready i ∧ (s.manifest? m.id = some m ∧ s.powered = true ∧ m.active = false ∧
    { m with validity := 1 }.validity ≤ 1 ∧ 2 ≤ m.validity ∧ a.manifest? 612 = some (job .out .loaded true) ∧
    (job .out .loaded true).active = true ∧ m.touchesFire hot = true ∧ m.touchesFire s = false ∧
    i.manifest? 612 = some (job .in_ .expected false) ∧ (job .in_ .expected false).direction = .in_ ∧
    m.direction = .out ∧ s.manifestNamed 613 = none) :=
  ⟨⟨rfl, rfl⟩, ⟨rfl, rfl⟩, ⟨rfl, rfl⟩, ⟨rfl, rfl⟩, by decide +kernel⟩

/-- A pick whose aisle the bank has, and one above its carriage count (R78). -/
theorem witness_ManifestsEndAndAreRead_picks :
    let s := holding (.reserved 612)
    let few := { s with store := { s.store with
      bank := s.store.bank.set 0 { s.store.bank[(0 : BankId)] with carriages := 1 } } }
    s.cartridge? "QX000117".toList = some (tape (.reserved 612)) ∧ (tape (.reserved 612)).home.carriage - 1 = 2 ∧
    2 ≤ (s.store.bank[(0 : BankId)]).carriages ∧ (few.store.bank[(0 : BankId)]).carriages < 2 ∧
    few.cartridge? "QX000117".toList = some (tape (.reserved 612)) := by decide +kernel

/-! ### What meets the hypotheses: hatches -/

/-- A hatch at rest in a phase, with its idle timer. -/
def hatchIn (p : Phase) : Hatch := { phase := p, idle := some 1, manifest := some 612 }

theorem witness_HandoverBegins :
    let m := job .out .picked false
    let s := working (.picked 612) m (hatchIn .idle)
    let hot := { working (.picked 612) m (hatchIn .loading) with fire := State.reset.fire.set 0 { state := .alarm } }
    let i := working (.out 4410) (job .in_ .expected false) (hatchIn .idle)
    let w := working (.inHatchOut 612) (job .out .loaded true) (hatchIn .awaitCourier)
    let x := s.hatch[(0 : HatchId)]
    Ready s ∧ Ready hot ∧ (x.scan = none ∧ x.inner.locked = true ∧ x.inner.sensorOpen = false ∧ x.outer.locked = true ∧
    x.outer.sensorOpen = false ∧ indexOf 2 1 = some 0 ∧ s.held (s.store.hatch[(0 : HatchId)].zone) = false ∧
    x.phase = .idle ∧ s.manifest? m.id = some m ∧ m.direction = .out ∧ m.hatch = 0 ∧ m.active = false ∧
    m.workLeft = true ∧ hot.held (hot.store.hatch[(0 : HatchId)].zone) = true ∧
    hot.hatch[(0 : HatchId)].phase = .loading ∧ i.powered = true ∧
    i.inboundFor 0 4410 = some (job .in_ .expected false) ∧ (job .in_ .expected false).direction = .in_ ∧
    i.inboundFor 0 4411 = none ∧ w.hatch[(0 : HatchId)].phase = .awaitCourier ∧
    w.hatch[(0 : HatchId)].manifest = some 612 ∧ w.manifest? 612 = some (job .out .loaded true) ∧
    (job .out .loaded true).courier ≠ 4411 ∧ (job .out .loaded true).courier = 4410) :=
  ⟨⟨rfl, rfl⟩, ⟨rfl, rfl⟩, by decide +kernel⟩

/-- Each check of R93 that fails, a hatch in STANDBY, and the phases in which a badge is no handover (R92, R102). -/
theorem witness_HandoverBegins_refused :
    let s (m : Manifest) (p : Phase) := working (.picked 612) m (hatchIn p)
    let m := job .out .picked false
    let hot := { s m .idle with fire := State.reset.fire.set 0 { state := .alarm } }
    (∀ m p, Ready (s m p)) ∧ Ready hot ∧ (indexOf 2 3 = none ∧ hot.held (hot.store.hatch[(0 : HatchId)].zone) = true ∧
    (hatchIn .idle).scan = none ∧ (s m .loading).held ((s m .loading).store.hatch[(0 : HatchId)].zone) = false ∧
    (∀ n ∈ (s m .idle).store.manifests, (n.id : Int) ≠ 611) ∧
    (s (job .in_ .expected false) .idle).manifest? 612 = some (job .in_ .expected false) ∧
    (s { m with hatch := 1 } .idle).manifest? 612 = some { m with hatch := 1 } ∧ ({ m with hatch := 1 }).hatch ≠ 0 ∧
    (s (job .out .picked true) .idle).manifest? 612 = some (job .out .picked true) ∧
    (s (job .out .left false) .idle).manifest? 612 = some (job .out .left false) ∧
    (∀ i ∈ (job .out .left false).items, i.status ≠ .reserved ∧ i.status ≠ .picked) ∧
    Phase.conditioning ∉ ([.idle, .standby, .awaitCourier, .receiptPending, .heldFire] : List Phase) ∧
    (hatchIn .standby).phase = .standby ∧ (hatchIn .receiptPending).phase = .receiptPending ∧
    (hatchIn .awaitCourier).phase = .awaitCourier ∧ (hatchIn .heldFire).phase = .heldFire) :=
  ⟨fun _ _ => ⟨rfl, rfl⟩, ⟨rfl, rfl⟩, by decide +kernel⟩

theorem witness_QueryEndsAndHandoverAborts :
    let q : Query := { courier := 4410, wait := 1 }
    let s := working (.out 4410) (job .in_ .expected true) { hatchIn .query with query := some q, manifest := none }
    let e := { s with store := { s.store with manifests := [] } }
    let w := handing (.inHatchOut 612) (job .out .loaded true) .wait (hatchIn .awaitCourier)
    Ready s ∧ Ready e ∧ Ready w ∧ Ready (withHatch (hatchIn .heldFire)) ∧ Ready (withHatch (hatchIn .loading)) ∧
    (indexOf 2 1 = some 0 ∧ s.hatch[(0 : HatchId)].phase = .query ∧ s.hatch[(0 : HatchId)].query = some q ∧
    s.powered = true ∧ submissionOk q.courier ["QX000117".toList] = true ∧
    (submitChecked .in_ 0 q.courier 60 ["QX000117".toList] true {} e.heard).2.isSome = true ∧
    w.hatch[(0 : HatchId)].phase ≠ .query ∧ w.hatch[(0 : HatchId)].phase ≠ .idle ∧
    w.hatch[(0 : HatchId)].phase ≠ .standby ∧ w.hatch[(0 : HatchId)].phase = .awaitCourier ∧
    w.store.handover[(0 : HatchId)].isSome = true ∧ w.hatch[(0 : HatchId)].inner.locked = true ∧
    w.held (w.store.hatch[(0 : HatchId)].zone) = false ∧ (hatchIn .heldFire).phase = .heldFire ∧
    (hatchIn .loading).phase = .loading) :=
  ⟨⟨rfl, rfl⟩, ⟨rfl, rfl⟩, ⟨rfl, rfl⟩, ⟨rfl, rfl⟩, ⟨rfl, rfl⟩, by decide +kernel⟩

theorem witness_ShutterMoves :
    let x := hatchIn .loading
    let unlocked : Shutter := { locked := false, unlock := some 1 }
    let s := handing (.inHatchOut 612) (job .out .loaded true) .outAccess { hatchIn .courierAccess with outer := unlocked }
    s.powered = true ∧ x.phase ≠ .idle ∧ x.phase ≠ .standby ∧ x.unlockDue = none ∧ unlocked.locked = false ∧
    unlocked.sensorOpen = false ∧ { unlocked with sensorOpen := true }.sensorOpen = true ∧ x.phase = .loading ∧
    x.inner.locked = true ∧ x.inner.sensorOpen = false ∧ { x.inner with sensorOpen := true }.sensorOpen = true ∧
    unlocked.unlock.isSome = true ∧ s.hatch[(0 : HatchId)].phase = .courierAccess ∧
    s.hatch[(0 : HatchId)].shutter .outer = unlocked ∧
    (s.store.handover[(0 : HatchId)]).map Handover.direction = some .out := by decide +kernel

/-- The same for a hatch at rest, the close that ends STAFF-ACCESS, and the inbound manifest let go. -/
theorem witness_ShutterMoves_rest :
    let unlocked : Shutter := { locked := false, unlock := some 1 }
    let i := handing (.out 4410) (job .in_ .expected true) .inAccess { hatchIn .courierAccess with outer := unlocked }
    let e : Hatch := { hatchIn .staffAccess with inner := { locked := false, sensorOpen := true } }
    (hatchIn .idle).unlockDue = none ∧ (hatchIn .standby).phase = .standby ∧ (hatchIn .idle).inner.locked = true ∧
    e.inner.locked = false ∧ e.inner.sensorOpen = true ∧ (∀ p : TrayIdx, e.tray[p].presence = .empty) ∧
    (loaded .accepted)[(0 : TrayIdx)].presence ≠ .empty ∧ i.hatch[(0 : HatchId)].phase = .courierAccess ∧
    i.hatch[(0 : HatchId)].outer = unlocked ∧ i.hatch[(0 : HatchId)].manifest = some 612 ∧
    (i.store.handover[(0 : HatchId)]).map Handover.direction = some .in_ := by decide +kernel

/-- An inner opening is a burst event of the hatch's zone, and starts the open alarm timer (R89). -/
theorem test_inner_opens :
    let x : Hatch := { hatchIn .loading with inner := { locked := false, unlock := some 1 } }
    let s := { withHatch x with climate := State.reset.climate.set 0 { air with mode := .economy } }
    let t := after (.shutterOpened 0 .inner) s
    (t.climate[(0 : Zone)]).mode = .economyBurst ∧ t.hatch[(0 : HatchId)].inner.openAlarm = some 120 ∧
    t.hatch[(0 : HatchId)].lastOpened = some .inner := by decide +kernel

theorem witness_HatchTimersAndSettings :
    let openLong : Shutter := { locked := false, sensorOpen := true, openAlarm := some 0 }
    let driven : Shutter := { closer := true, closerTimer := some 0 }
    let s := withHatch { hatchIn .loading with outer := openLong, inner := driven, colourLeft := some 0 }
    let i := withHatch { hatchIn .idle with tray := Vector.replicate 24 {} }
    let r := withHatch { hatchIn .rejectClear with rejectTimer := some 0 }
    let k := withHatch (hatchIn .heldStuck)
    Ready k ∧ Ready i ∧ Ready s ∧ (s.powered = true ∧ (s.hatch[(0 : HatchId)].shutter .outer).locked = false ∧
    (s.hatch[(0 : HatchId)].shutter .outer).sensorOpen = true ∧
    (s.hatch[(0 : HatchId)].shutter .outer).openAlarm.isSome = true ∧
    (s.hatch[(0 : HatchId)].shutter .inner).closer = true ∧
    (s.hatch[(0 : HatchId)].shutter .inner).closerTimer.isSome = true ∧
    s.hatch[(0 : HatchId)].colourLeft.isSome = true ∧ (hatchIn .unload).scan = none ∧ (hatchIn .unload).inner.locked = true ∧
    (hatchIn .unload).inner.sensorOpen = false ∧ (hatchIn .unload).outer.locked = true ∧
    (hatchIn .unload).outer.sensorOpen = false ∧ s.held (s.store.hatch[(0 : HatchId)].zone) = false ∧
    i.hatch[(0 : HatchId)].phase = .idle ∧ i.hatch[(0 : HatchId)].idle.isSome = true ∧
    (∀ p : TrayIdx, i.hatch[(0 : HatchId)].tray[p].presence = .empty) ∧ r.hatch[(0 : HatchId)].phase = .rejectClear ∧
    r.hatch[(0 : HatchId)].rejectTimer.isSome = true ∧ r.hatch[(0 : HatchId)].scan = none ∧
    r.hatch[(0 : HatchId)].outer.locked = true ∧ k.hatch[(0 : HatchId)].phase = .heldStuck ∧ indexOf 2 1 = some 0 ∧
    indexOf 4 3 = some 2 ∧ i.held 2 = false ∧ (2 : Zone) ≠ i.store.hatch[(0 : HatchId)].zone) :=
  ⟨⟨rfl, rfl⟩, ⟨rfl, rfl⟩, ⟨rfl, rfl⟩, by decide +kernel⟩

/-- CLEAR-STUCK at rest, with the other shutter forced open, and with a shutter not yet relocked; an idle timer that
starts again; a zone under fire (R106, R118, R87). -/
theorem witness_HatchTimersAndSettings_stuck :
    let k := withHatch (hatchIn .heldStuck)
    let forced := withHatch { hatchIn .heldStuck with outer := { sensorOpen := true } }
    let open_ := withHatch { hatchIn .heldStuck with inner := { locked := false, unlock := some 3 } }
    let i := withHatch { hatchIn .idle with tray := loaded .none }
    let hot := { withHatch (hatchIn .idle) with fire := State.reset.fire.set 2 { state := .alarm } }
    Ready k ∧ Ready forced ∧ Ready open_ ∧ Ready hot ∧ (k.hatch[(0 : HatchId)].phase = .heldStuck ∧
    k.hatch[(0 : HatchId)].scan = none ∧ k.held (k.store.hatch[(0 : HatchId)].zone) = false ∧
    (forced.hatch[(0 : HatchId)].shutter (otherSide .inner)).sensorOpen = true ∧
    forced.hatch[(0 : HatchId)].outer.locked = true ∧ open_.hatch[(0 : HatchId)].inner.locked = false ∧
    "SIDE".toList ≠ "OUTER".toList ∧ "SIDE".toList ≠ "INNER".toList ∧ i.powered = true ∧
    i.hatch[(0 : HatchId)].idle.isSome = true ∧ (∃ p : TrayIdx, i.hatch[(0 : HatchId)].tray[p].presence ≠ .empty) ∧
    hot.held 2 = true ∧ indexOf 4 3 = some 2 ∧ (2 : Zone) ≠ hot.store.hatch[(0 : HatchId)].zone) :=
  ⟨⟨rfl, rfl⟩, ⟨rfl, rfl⟩, ⟨rfl, rfl⟩, ⟨rfl, rfl⟩, by decide +kernel⟩

/-- CLEAR-STUCK side=INNER unlocks the inner shutter, and a zone under fire holds the hatch moved to it (R106, R87). -/
theorem test_clear_stuck_and_move :
    let k := after (.clearStuck 1 "INNER".toList) (withHatch (hatchIn .heldStuck))
    let m := after (.writeSettingHatchZone (some 1) (some 3))
      { withHatch (hatchIn .idle) with fire := State.reset.fire.set 2 { state := .alarm } }
    k.hatch[(0 : HatchId)].inner.locked = false ∧ k.hatch[(0 : HatchId)].outer.locked = true ∧
    m.hatch[(0 : HatchId)].phase = .heldFire ∧ m.hatch[(0 : HatchId)].heldClass = none := by decide +kernel

/-- A page of the tray from its boundaries, and a position that names nothing (R119). -/
theorem witness_HatchTimersAndSettings_tray :
    Ready (withHatch (hatchIn .loading)) ∧ (indexOf 24 24 = some 23 ∧ indexOf 24 1 = some 0 ∧ indexOf 24 25 = none ∧
    (withHatch (hatchIn .loading)).hatch[(0 : HatchId)].phase ≠ .idle) := ⟨⟨rfl, rfl⟩, by decide⟩

/-- The fire states a hatch takes: entry into the set, a change within it, departure, and none. -/
theorem witness_HatchTimersAndSettings_fire :
    let q : Query := { courier := 4410, wait := 1 }
    FireState.normal.holds = false ∧ FireState.alarm.holds = true ∧ FireState.predischarge.holds = true ∧
    FireState.prealarm.holds = false ∧ (hatchIn .heldFire).phase = .heldFire ∧ (hatchIn .loading).phase ≠ .heldFire ∧
    (hatchIn .loading).phase ≠ .query ∧ { hatchIn .query with query := some q }.query = some q := by decide

theorem witness_TrayIsReadAndJudged :
    let m := job .out .picked true
    let s := handing (.picked 612) m .load { hatchIn .loadScan with
      scan := some .load, sensors := (Vector.replicate 24 false).set 0 true }
    let st := handing (.inHatchIn 612) (job .in_ .received true) .inStaff { hatchIn .staffAccess with
      tray := loaded .accepted, sensors := (Vector.replicate 24 false).set 0 true }
    s.powered = true ∧ (hatchIn .loadScan).phase ≠ .idle ∧ (hatchIn .loadScan).phase ≠ .standby ∧
    s.hatch[(0 : HatchId)].sensors[(23 : TrayIdx)] ≠ true ∧ st.hatch[(0 : HatchId)].phase = .staffAccess ∧
    st.hatch[(0 : HatchId)].sensors[(0 : TrayIdx)] ≠ false ∧
    st.hatch[(0 : HatchId)].tray[(0 : TrayIdx)].presence = .present "QX000117".toList 'L' ∧
    st.hatch[(0 : HatchId)].tray[(0 : TrayIdx)].verdict = .accepted ∧ st.hatch[(0 : HatchId)].scan = none ∧
    { hatchIn .heldFire with scan := some .setAside }.scan = some .setAside ∧
    s.hatch[(0 : HatchId)].scan = some .load ∧ s.hatch[(0 : HatchId)].manifest = some m.id ∧
    s.manifest? m.id = some m := by decide +kernel

/-- A cartridge taken with a hold and with one of 0, where the record holds no entry of its label and where it does
(R65, R111). -/
theorem witness_TrayIsReadAndJudged_taken :
    let s := handing (.inHatchIn 612) (job .in_ .received true) .inStaff (hatchIn .staffAccess)
    let e : Entry := { label := some "QX000117".toList, result := .received }
    s.cartridge? "QX000117".toList = some (tape (.inHatchIn 612)) ∧ s.store.handover[(0 : HatchId)].isSome = true ∧
    min (({ hold := some 950 } : TrayPos).hold.getD 0) s.store.hold.holdMax = 950 ∧
    min (({ hold := some 0 } : TrayPos).hold.getD 0) s.store.hold.holdMax = 0 ∧
    ([] : List Entry).any (fun d => d.label == some "QX000117".toList && d.result != .rejectedRemoved) = false ∧
    [e].any (fun d => d.label == some "QX000117".toList && d.result != .rejectedRemoved) = true := by decide +kernel

/-- Staff take the one cartridge with its hold: QUARANTINE for 950 minutes; with a hold of 0 it goes to RESHELVE with
HOLD-ENDED (R65). -/
theorem test_staff_take :
    let at_ (n : Nat) : State := after (.trayPresenceChange 0 0 false)
      (handing (.inHatchIn 612) (job .in_ .received true) .inStaff { hatchIn .staffAccess with
        tray := (loaded .accepted).set 0 { presence := .present "QX000117".toList 'L', verdict := .accepted, hold := some n }
        sensors := (Vector.replicate 24 false).set 0 true, inner := { locked := false, sensorOpen := true } })
    (at_ 950).store.cartridges.map Cartridge.custody = [.quarantine 950] ∧
    (at_ 0).store.cartridges.map Cartridge.custody = [.reshelve] ∧
    ((at_ 0).reports.getLast?).map Report.event = some (.holdEnded "QX000117".toList 0 (tape .shelved).home (some 0)) := by
  decide +kernel

/-- The sensors of a tray with its first position occupied. -/
def oneOccupied : Vector Bool 24 := (Vector.replicate 24 false).set 0 true

/-- The readings that give the label record at the first position, and those with no response. -/
def good : Vector TrayRead 24 := (Vector.replicate 24 {}).set 0 { first := [.run record] }
def silent : Vector TrayRead 24 := (Vector.replicate 24 {}).set 0 { first := [.noResponse] }

/-- The tray a scan forms from its readings. -/
def formedTray (sensors : Vector Bool 24) (reads : Vector TrayRead 24) : Tray :=
  Vector.ofFn fun p : TrayIdx => if sensors[p] then { presence := readPosition reads[p] } else {}

/-- The reconcile and unload scans: a record of the manifest, a position UNREADABLE, a tray EMPTY by either side, and
an inbound tray with no reject. -/
theorem witness_TrayIsReadAndJudged_reconcile :
    let m := job .out .loaded true
    let n := job .in_ .expected true
    let s := handing (.inHatchOut 612) m .outAccess
      { hatchIn .reconcile with scan := some .reconcile, lastOpened := some .inner }
    let i := handing (.out 4410) n .inAccess { hatchIn .reconcile with scan := some .reconcile, sensors := oneOccupied }
    let u := handing (.inHatchOut 612) m .abortUnload { hatchIn .unload with scan := some .unload, sensors := oneOccupied }
    (hatchIn .reconcile).phase ≠ .idle ∧ (hatchIn .unload).phase ≠ .standby ∧
    s.hatch[(0 : HatchId)].manifest = some m.id ∧ s.manifest? m.id = some m ∧
    (s.store.handover[(0 : HatchId)]).map Handover.manifest = some m.id ∧
    (s.store.handover[(0 : HatchId)]).map Handover.direction = some .out ∧
    s.hatch[(0 : HatchId)].lastOpened = some .inner ∧ (∀ p : TrayIdx, s.hatch[(0 : HatchId)].sensors[p] = false) ∧
    i.hatch[(0 : HatchId)].phase = .reconcile ∧ i.hatch[(0 : HatchId)].outer.locked = true ∧
    i.hatch[(0 : HatchId)].inner.locked = true ∧ i.hatch[(0 : HatchId)].inner.sensorOpen = false ∧
    i.held (i.store.hatch[(0 : HatchId)].zone) = false ∧ i.manifest? n.id = some n ∧
    (i.store.handover[(0 : HatchId)]).map Handover.direction = some .in_ ∧
    (formedTray oneOccupied silent)[(0 : TrayIdx)].presence = .unreadable .noResponse ∧
    (formedTray oneOccupied good)[(0 : TrayIdx)].presence = .present "QX000117".toList (tape (.out 4410)).media ∧
    (∀ p : TrayIdx, p ≠ 0 → (formedTray oneOccupied good)[p].presence = .empty) ∧
    i.cartridge? "QX000117".toList = some (tape (.out 4410)) ∧
    (∀ t ∈ n.items, t.label = "QX000117".toList → t.status = .expected) ∧
    u.hatch[(0 : HatchId)].sensors[(0 : TrayIdx)] = true ∧ u.hatch[(0 : HatchId)].outer.sensorOpen = false ∧
    (u.store.handover[(0 : HatchId)]).map Handover.phaseClass = some .abortUnload ∧
    "QX000117".toList ∈ m.labelsIn .loaded := by decide +kernel

/-- Reconcile scans that reject by label: outbound a cartridge that is not LOADED, inbound one that is not OUT; in each
phase a scan can come from; and an outbound tray that holds a LOADED cartridge still (R99, R104 to R106). -/
theorem witness_TrayIsReadAndJudged_rejects :
    let v : TrayIdx → Verdict := fun p => if p = 0 then .rejected else .none
    let t0 := formedTray oneOccupied good
    let x (p : Phase) : Hatch := { hatchIn p with
      scan := some .reconcile, sensors := oneOccupied, lastOpened := some .outer, rejectTimer := some 0 }
    let o := handing (.picked 612) (job .out .picked true) .outAccess (x .reconcile)
    let l := handing (.inHatchOut 612) (job .out .loaded true) .outAccess (x .heldStuck)
    (∃ p : TrayIdx, v p = .rejected) ∧ (∀ p : TrayIdx, v p = .none ↔ t0[p].presence = .empty) ∧
    (∀ p : TrayIdx, v p ≠ .accepted) ∧ (job .out .picked true).labelsIn .loaded = [] ∧
    t0[(0 : TrayIdx)].presence = .present "QX000117".toList 'L' ∧
    o.cartridge? "QX000117".toList = some (tape (.picked 612)) ∧ (∀ k : Nat, Custody.picked 612 ≠ .out k) ∧
    (x .reconcile).phase = .reconcile ∧ (x .rejectClear).phase = .rejectClear ∧ (x .rejectClear).rejectExpired = false ∧
    { x .rejectClear with rejectExpired := true }.rejectExpired = true ∧ (x .heldStuck).phase = .heldStuck ∧
    (x .reconcile).outer.locked = true ∧ (x .reconcile).inner.locked = true ∧
    (x .reconcile).inner.sensorOpen = false ∧ o.held (o.store.hatch[(0 : HatchId)].zone) = false ∧
    "QX000117".toList ∈ (job .out .loaded true).labelsIn .loaded ∧
    (l.store.handover[(0 : HatchId)]).map Handover.direction = some .out ∧
    (∀ p : TrayIdx, p ≠ 0 → t0[p].presence = .empty) ∧ (x .heldStuck).outer.sensorOpen = false :=
  ⟨⟨0, rfl⟩, by decide +kernel, by decide +kernel, by decide +kernel, by decide +kernel, by decide +kernel,
    fun _ => by simp, by decide +kernel⟩

/-- A label that is not LOADED sends the hatch to REJECT-CLEAR, and once the timer has expired to HELD-STUCK with the
position named; a LOADED cartridge on the tray is LEFT and the hatch goes to UNLOAD (R99, R105). -/
theorem test_rejected_and_left :
    let x (p : Phase) (expired : Bool) : Hatch := { hatchIn p with
      scan := some .reconcile, sensors := oneOccupied, rejectTimer := some 0, rejectExpired := expired }
    let at_ (k : Custody) (st : ItemStatus) (y : Hatch) : State :=
      after (.trayScanEnd 0 good) (handing k (job .out st true) .outAccess y)
    let f := at_ (.picked 612) .picked (x .reconcile false)
    let g := at_ (.picked 612) .picked (x .rejectClear true)
    let l := at_ (.inHatchOut 612) .loaded (x .heldStuck false)
    f.hatch[(0 : HatchId)].phase = .rejectClear ∧ f.hatch[(0 : HatchId)].outer.locked = false ∧
    g.hatch[(0 : HatchId)].phase = .heldStuck ∧ g.hatch[(0 : HatchId)].outer.locked = true ∧
    (g.reports.getLast?).map Report.event = some (.hatchStuck 0 (some 612) [0]) ∧
    l.hatch[(0 : HatchId)].phase = .unload ∧ l.store.cartridges.map Cartridge.custody = [.reshelve] ∧
    (l.store.handover[(0 : HatchId)]).map Handover.phaseClass = some .outUnload := by decide +kernel

/-- The other resume classes, and a remembered cartridge found nowhere: not recovering, and in the recovery after a start
(R117, R121). -/
theorem witness_TrayIsReadAndJudged_lost :
    let m := job .out .loaded true
    let none_ : Tray := formedTray (Vector.replicate 24 false) silent
    let x (c : PhaseClass) (rec_ : Bool) : Hatch := { hatchIn .heldFire with
      scan := some .resume, heldTray := some (loaded .accepted), heldClass := some c, recovering := rec_ }
    let s (c : PhaseClass) (d : Direction) : State := handing (.inHatchOut 612) (job d .loaded true) c (x c false)
    (∀ c : PhaseClass, c = .outAccess ∨ c = .inAccess ∨ c = .outUnload ∨ c = .abortUnload →
      (x c false).heldClass = some c ∧ (x c false).recovering = false) ∧
    ((s .outAccess .out).store.handover[(0 : HatchId)]).map Handover.direction = some .out ∧
    ((s .inAccess .in_).store.handover[(0 : HatchId)]).map Handover.direction = some .in_ ∧
    (s .abortUnload .out).hatch[(0 : HatchId)].manifest = some m.id ∧ (s .abortUnload .out).manifest? m.id = some m ∧
    (m.labelsIn .loaded).filter (fun l => l ∉ labelsOn none_) = ["QX000117".toList] ∧
    (∀ p : TrayIdx, (x .outUnload false).sensors[p] = false) ∧
    { x .outUnload false with sensors := oneOccupied }.sensors[(0 : TrayIdx)] = true ∧
    (x .outUnload false).outer.locked = true ∧ (x .outUnload false).inner.locked = true ∧
    (x .outUnload false).inner.sensorOpen = false ∧ (x .inStaff false).recovering = false ∧
    (x .load true).recovering = true ∧ PhaseClass.load ≠ .receipt ∧
    (lostFrom (loaded .accepted) none_).map Prod.fst = ["QX000117".toList] := by
  refine ⟨fun c h => ⟨rfl, rfl⟩, by decide +kernel⟩

/-- A cartridge found nowhere: an inbound one in the recovery of IN-STAFF is MISSING with its report and its marked entry,
and where the hatch held no power failure it takes its hold (R117, R121). -/
theorem test_found_nowhere :
    let held : Tray := (loaded .accepted).set 0
      { presence := .present "QX000117".toList 'L', verdict := .accepted, hold := some 950 }
    let at_ (rec_ : Bool) : State := after (.trayScanEnd 0 silent)
      (handing (.inHatchIn 612) (job .in_ .received true) .inStaff { hatchIn .heldFire with
        scan := some .resume, heldTray := some held, heldClass := some .inStaff, recovering := rec_ })
    (at_ true).store.cartridges.map Cartridge.custody = [.missing] ∧
    ((at_ true).reports.getLast?).map Report.event = some (.cartridgeMissing 0 "QX000117".toList) ∧
    ((at_ true).store.handover[(0 : HatchId)]).map Handover.entries =
      some [{ label := some "QX000117".toList, result := .received, hold := some 950, missing := true }] ∧
    (at_ false).store.cartridges.map Cartridge.custody = [.quarantine 950] ∧
    (at_ false).hatch[(0 : HatchId)].phase = .conditioning := by decide +kernel

/-- The resume scan: with no class, a receipt, a class whose cartridges are all found, and one whose cartridge is
not. -/
theorem witness_TrayIsReadAndJudged_resume :
    let m := job .out .loaded true
    let x (c : Option PhaseClass) (occupied : Bool) : Hatch := { hatchIn .heldFire with
      scan := some .resume, heldTray := some (loaded .accepted), heldClass := c
      sensors := (Vector.replicate 24 false).set 0 occupied }
    let s := handing (.inHatchOut 612) m .wait (x (some .wait) true)
    (x none true).heldTray = some (loaded .accepted) ∧ (x none true).heldClass = none ∧
    (x (some .receipt) true).heldClass = some .receipt ∧ s.store.handover[(0 : HatchId)].isSome = true ∧
    s.hatch[(0 : HatchId)].heldClass = some .wait ∧ (x (some .inStaff) true).heldClass = some .inStaff ∧
    (loaded .accepted)[(0 : TrayIdx)].verdict = .accepted ∧
    (loaded .accepted)[(0 : TrayIdx)].presence = .present "QX000117".toList 'L' ∧
    (∀ p : TrayIdx, p ≠ 0 → (loaded .accepted)[p].verdict ≠ .accepted) ∧
    (formedTray oneOccupied good)[(0 : TrayIdx)].presence = .present "QX000117".toList 'L' ∧
    (∀ p : TrayIdx, (formedTray (Vector.replicate 24 false) good)[p].presence = .empty) := by decide +kernel

/-- A resume of class LOAD (R117). -/
theorem witness_TrayIsReadAndJudged_load :
    let m := job .out .picked true
    let s := handing (.picked 612) m .load { hatchIn .heldFire with
      scan := some .resume, heldTray := some (loaded .none), heldClass := some .load, sensors := oneOccupied }
    s.hatch[(0 : HatchId)].recovering = false ∧ s.store.handover[(0 : HatchId)].isSome = true ∧
    s.hatch[(0 : HatchId)].manifest = some m.id ∧ s.manifest? m.id = some m ∧
    s.hatch[(0 : HatchId)].heldTray.isSome = true := by decide +kernel

/-- A LOAD resume that accepts nothing lets the manifest go, a position left REJECTED or not; one that accepts the
cartridge waits for the courier (R96, R117). -/
theorem test_load_resume :
    let at_ (reads : Vector TrayRead 24) : State := after (.trayScanEnd 0 reads)
      (handing (.picked 612) (job .out .picked true) .load { hatchIn .heldFire with
        scan := some .resume, heldTray := some (loaded .none), heldClass := some .load, sensors := oneOccupied })
    (at_ silent).hatch[(0 : HatchId)].phase = .idle ∧ ((at_ silent).store.manifests.map Manifest.active) = [false] ∧
    (at_ good).hatch[(0 : HatchId)].phase = .awaitCourier := by decide +kernel

/-- A position read once more is decided by that reading alone (R92). -/
theorem test_second_reading_decides :
    readPosition { first := [.run record], again := some [.noResponse] } = .unreadable .noResponse ∧
    readPosition { first := [.noResponse], again := some [.noResponse, .run record] } = .present "QX000117".toList 'L' ∧
    readPosition { first := [.noResponse, .run record], again := none } = .present "QX000117".toList 'L' := by
  decide +kernel

/-- Section 5.8: an outbound tray found EMPTY through the outer shutter departs, and its cartridge is OUT (R99). -/
theorem test_departure :
    let s := handing (.inHatchOut 612) (job .out .loaded true) .outAccess
      { hatchIn .reconcile with scan := some .reconcile, lastOpened := some .outer }
    let t := after (.trayScanEnd 0 silent) s
    t.hatch[(0 : HatchId)].phase = .receiptPending ∧ t.store.cartridges.map Cartridge.custody = [.out 4410] := by
  decide +kernel

/-- A load scan that finds the one picked cartridge waits for the courier with it (R95, R96). -/
theorem test_load_scan :
    let s := handing (.picked 612) (job .out .picked true) .load { hatchIn .loadScan with
      scan := some .load, sensors := (Vector.replicate 24 false).set 0 true }
    let t := after (.trayScanEnd 0 ((Vector.replicate 24 {}).set 0 { first := [.noResponse, .run record] })) s
    t.hatch[(0 : HatchId)].phase = .awaitCourier ∧ t.store.cartridges.map Cartridge.custody = [.inHatchOut 612] := by
  decide +kernel

theorem witness_ConditioningAndReceipts :
    let m := job .in_ .received true
    let c := handing (.inHatchIn 612) m .inCondition { hatchIn .conditioning with
      tray := loaded .accepted, limitCount := 119, condensation := .failing }
    let rc : Receipt := { hatch := 0, manifest := 612, direction := .in_, courier := 4410, outcome := .complete
                          start := 0, finish := 0, entries := [], furtherRejects := 0 }
    let w := working (.inHatchIn 612) m (hatchIn .receiptPending)
    let p := { w with store := { w.store with receipt := w.store.receipt.set 0 (some rc) } }
    Ready c ∧ Ready p ∧ Ready (withHatch (hatchIn .heldFire)) ∧ Ready (withHatch (hatchIn .loading)) ∧
    (indexOf 2 1 = some 0 ∧ c.hatch[(0 : HatchId)].phase = .conditioning ∧ c.hatch[(0 : HatchId)].manifest = some m.id ∧
    c.manifest? m.id = some m ∧ c.powered = true ∧ c.hatch[(0 : HatchId)].limitPosted = false ∧
    (c.store.hatch[(0 : HatchId)]).condLimit ≤ c.hatch[(0 : HatchId)].limitCount + 1 ∧
    (hatchIn .loading).phase ≠ .conditioning ∧ p.hatch[(0 : HatchId)].phase = .receiptPending ∧
    p.store.receipt[(0 : HatchId)] = some rc ∧ p.manifest? rc.manifest = some m ∧
    (withHatch (hatchIn .loading)).store.receipt[(0 : HatchId)] = none ∧ (hatchIn .loading).phase ≠ .idle ∧
    (hatchIn .loading).phase ≠ .standby ∧ c.store.handover[(0 : HatchId)].isSome = true) :=
  ⟨⟨rfl, rfl⟩, ⟨rfl, rfl⟩, ⟨rfl, rfl⟩, ⟨rfl, rfl⟩, by decide +kernel⟩

/-- Section 5.9: the gate opens where both conditions are met at their boundary, and a point short of either keeps the
hatch in CONDITIONING with that output on (R107, R108). -/
theorem test_gate :
    let at_ (rh probe : Int) : Hatch :=
      let s := handing (.inHatchIn 612) (job .in_ .received true) .inCondition { hatchIn .conditioning with
        rh := { value := .valid rh }, probe := { value := .valid probe } }
      let c := { air with rh := { value := .valid 412 }, dew := .valid 46 182 412 false }
      (evaluateGate 0 { s with climate := s.climate.set 0 c }).hatch[(0 : HatchId)]
    let st := Store.factory.hatch[(0 : HatchId)]
    (at_ (412 + st.purgeBand) (46 + st.condMargin)).phase = .staffAccess ∧
    (at_ (413 + st.purgeBand) (46 + st.condMargin)).purgeOn = true ∧
    (at_ (412 + st.purgeBand) (45 + st.condMargin)).heaterOn = true ∧
    (at_ (412 + st.purgeBand) (45 + st.condMargin)).phase = .conditioning := by decide +kernel

/-! ### What meets the hypotheses: banks, loops and fire zones -/

theorem witness_AisleRequestsAreDecided :
    let s := withBank { position := some 3 }
    let hot := { s with fire := State.reset.fire.set 0 { state := .starting } }
    let q := withBank { motion := .moving, drive := .up, queue := [7, 2] }
    let full := withBank { motion := .moving, drive := .up, queue := [1, 2, 3, 4, 5, 6, 7, 8] }
    let st := s.store.bank[(0 : BankId)]
    Ready s ∧ Ready hot ∧ Ready q ∧ Ready full ∧ Ready (withBank { motion := .fault }) ∧ (indexOf 4 1 = some 0 ∧
    (-1 : Int) < 0 ∧ (st.carriages : Int) < 13 ∧ 12 ≤ st.carriages ∧ hot.held st.zone = true ∧ s.held st.zone = false ∧
    (s.bank[(0 : BankId)]).motion = .idle ∧ (s.bank[(0 : BankId)]).position = some 3 ∧
    ((q.bank[(0 : BankId)]).queue.findIdx? fun k => k == 2) = some 1 ∧ (q.bank[(0 : BankId)]).motion ≠ .idle ∧
    12 ∉ (full.bank[(0 : BankId)]).queue ∧ 8 ≤ (full.bank[(0 : BankId)]).queue.length ∧
    12 ∉ (q.bank[(0 : BankId)]).queue ∧ (q.bank[(0 : BankId)]).queue.length < 8 ∧
    (q.bank[(0 : BankId)]).motion ≠ .stopped ∧ (s.bank[(0 : BankId)]).queue = [] ∧ 3 ≠ 12 ∧ s.broken 0 = [] ∧
    (∀ q : Aisle, q.val = 12 → (s.bank[(0 : BankId)]).sensors[q] = false) ∧
    ((withBank { position := some 3, sensors := (Vector.replicate 13 false).set 12 true }).bank[(0 : BankId)]).sensors[
      (12 : Aisle)] = true ∧
    ((withBank { motion := .fault }).bank[(0 : BankId)]).motion = .fault ∧
    ((withBank { motion := .fault }).bank[(0 : BankId)]).parkDemand = false) :=
  ⟨⟨rfl, rfl⟩, ⟨rfl, rfl⟩, ⟨rfl, rfl⟩, ⟨rfl, rfl⟩, ⟨rfl, rfl⟩, by decide +kernel⟩

/-- A bank at rest at an UNKNOWN position, its curtains CLEAR and one BROKEN, its home sensor not ACTIVE and ACTIVE; one
STOPPED; and one that waits so (R128 to R130). -/
theorem witness_AisleRequestsAreDecided_homing :
    let lost : Bank := {}
    let blocked : Bank := { curtains := (Vector.replicate 13 false).set 12 true }
    let home : Bank := { sensors := (Vector.replicate 13 false).set 0 true }
    let wait : Bank := { blocked with motion := .waitClear, block := some 120, queue := [7] }
    lost.motion = .idle ∧ { lost with motion := .stopped }.motion = .stopped ∧ lost.position = none ∧ lost.queue = [] ∧
    lost.sensors[(0 : Aisle)] = false ∧ (withBank lost).broken 0 = [] ∧ (withBank blocked).broken 0 ≠ [] ∧
    (none : Option Nat) ≠ some 7 ∧ home.sensors[(0 : Aisle)] = true ∧ home.position = none ∧
    (∀ q : Aisle, q.val = 7 → home.sensors[q] = false) ∧ wait.queue = 7 :: [] ∧
    (∀ q : Aisle, q.val ≤ ((withBank wait).store.bank[(0 : BankId)]).carriages → q ≠ 12 → wait.curtains[q] = false) ∧
    { wait with motion := .homing }.motion = .homing := by decide +kernel

/-- A first request homes the bank with its timer; with a curtain BROKEN it waits 120 s, and homes once the curtain is
CLEAR (R128 to R130). -/
theorem test_first_request_homes :
    let blocked := withBank { curtains := (Vector.replicate 13 false).set 12 true }
    let s := (after (.openAisle 1 7) State.reset).bank[(0 : BankId)]
    let w := after (.openAisle 1 7) blocked
    let c := (after (.curtainClear 0 12) w).bank[(0 : BankId)]
    let st := Store.factory.bank[(0 : BankId)]
    (s.motion, s.drive, s.homing, s.queue, s.block) = (.homing, .down, some (2 * st.carriages * st.step), [7], none) ∧
    ((w.bank[(0 : BankId)]).motion, (w.bank[(0 : BankId)]).block, (w.bank[(0 : BankId)]).queue) =
      (.waitClear, some 120, [7]) ∧
    (c.motion, c.homing, c.block) = (.homing, some (2 * st.carriages * st.step), none) := by decide +kernel

theorem witness_BankMovesAndStops :
    let moving : Bank := { motion := .moving, drive := .up, travel := some (0, 12), moving := some 0, queue := [12] }
    let waiting : Bank := { motion := .waitClear, position := some 3, block := some 0, queue := [12]
                            curtains := (Vector.replicate 13 false).set 12 true }
    let homing : Bank := { motion := .homing, drive := .down, homing := some 0 }
    let s := withBank waiting
    let st := s.store.bank[(0 : BankId)]
    s.powered = true ∧ waiting.parkDemand = false ∧ s.shed st.zone = false ∧ waiting.drive = .off ∧
    moving.motion = .moving ∧ moving.drive ≠ .off ∧ (12 : Aisle).val ≤ st.carriages ∧ moving.queue = 12 :: [] ∧
    moving.sensors[(0 : Aisle)] = false ∧ waiting.motion = .waitClear ∧ waiting.position = some 3 ∧ 3 ≠ 12 ∧
    (∀ q : Aisle, q.val ≤ st.carriages → q ≠ 12 → waiting.curtains[q] = false) ∧ moving.motion ≠ .waitClear ∧
    moving.motion ≠ .parkWait ∧ homing.motion = .homing ∧ homing.queue = [] ∧ homing.justArrived = false ∧
    homing.drive ≠ .off ∧
    moving.travel = some (0, (12 : Aisle).val) ∧ moving.queue = [(12 : Aisle).val] ∧ waiting.block.isSome = true ∧
    s.broken 0 ≠ [] ∧ homing.homing.isSome = true ∧ moving.moving.isSome = true ∧
    (∀ q : Aisle, q.val = 12 → waiting.sensors[q] = false) := by decide +kernel

/-- A bank under the fire park: at rest with a curtain BROKEN, at an UNKNOWN position, at its park aisle or another,
and moving; travelling to park, homing under the demand, and each way out. -/
theorem witness_BankMovesAndStops_park :
    let blocked := withBank { position := some 3, curtains := (Vector.replicate 13 false).set 12 true }
    let rest := withBank { position := some 3 }
    let st := rest.store.bank[(0 : BankId)]
    let travel : Bank := { motion := .parkTravel, drive := .down, travel := some (3, 6), parkDemand := true }
    let parked : Bank := { motion := .parked, position := some 0, parkDemand := true, queue := [7] }
    let s := withBank { motion := .parkHoming, drive := .down, homing := some 1, parkDemand := true }
    let t := { s with store := { s.store with bank := s.store.bank.set 0 { st with park := 4 } } }
    FireState.normal.sheds = false ∧ FireState.alarm.sheds = true ∧ FireState.vent.sheds = true ∧
    blocked.broken 0 ≠ [] ∧ rest.broken 0 = [] ∧ ({} : Bank).position = none ∧ ({} : Bank).sensors[(0 : Aisle)] = false ∧
    st.park = 6 ∧ (3 : Nat) ≠ st.park ∧ (∀ q : Aisle, q.val = st.park → ({} : Bank).sensors[q] = false) ∧
    Motion.moving ≠ .idle ∧ Motion.moving ≠ .stopped ∧ Motion.moving ≠ .waitClear ∧
    travel.travel = some (3, (6 : Aisle).val) ∧ travel.parkDemand = true ∧ (6 : Aisle).val ≤ st.carriages ∧
    t.broken 0 = [] ∧ 0 < (t.store.bank[(0 : BankId)]).park ∧ rest.shed st.zone = false ∧ parked.motion = .parked ∧
    parked.queue = 7 :: [] ∧ parked.position = some 0 ∧ (0 : Nat) ≠ 7 ∧
    (∀ q : Aisle, q.val = 7 → parked.sensors[q] = false) ∧ { parked with queue := [] }.queue = [] ∧
    travel.motion ≠ .parkWait := by decide +kernel

/-- A travel begun by an arrival of this second, at rest again after a break with it: under the demand, and with the
next head; an arrival with a next head; a homing that reaches aisle 0; the plain finish of a travel to park; a break
that finds the drive running (R131, R132, R135, R136). -/
theorem witness_BankMovesAndStops_together :
    let next : Bank := { motion := .moving, drive := .up, travel := some (1, 4), moving := some 23, queue := [4]
                         justArrived := true }
    let park : Bank := { motion := .parkTravel, drive := .up, travel := some (1, 6), moving := some 35
                         parkDemand := true, justArrived := true }
    let arriving : Bank := { motion := .moving, drive := .up, travel := some (0, 1), moving := some 7, queue := [1, 4] }
    let st := (withBank next).store.bank[(0 : BankId)]
    (withBank next).shed st.zone = false ∧ next.parkDemand = false ∧ next.drive ≠ .off ∧ (12 : Aisle).val ≤ st.carriages ∧
    next.travel = some ((1 : Aisle).val, 4) ∧ next.queue = 4 :: [] ∧ (4 : Nat) ≠ (1 : Aisle).val ∧
    park.travel = some ((1 : Aisle).val, 6) ∧ park.parkDemand = true ∧ park.justArrived = true ∧
    park.motion = .parkTravel ∧ { park with justArrived := false }.justArrived = false ∧
    { next with justArrived := false }.motion = .moving ∧ arriving.queue = (1 : Aisle).val :: 4 :: [] ∧
    arriving.travel = some (0, (1 : Aisle).val) ∧ (withBank arriving).broken 0 = [] ∧
    { arriving with parkDemand := true }.parkDemand = true ∧ (1 : Aisle).val ≠ st.park ∧
    { next with motion := .homing, queue := [0] }.queue = [0] ∧
    { next with motion := .homing, queue := [0, 4] }.queue = 0 :: 4 :: [] ∧
    { park with parkDemand := false }.queue = [] := by decide +kernel

/-- Section 6.5 at 6 s: the bank reaches the aisle it sought as the curtain breaks, and waits there in PARKING with
BANK-BLOCKED; the drive never stopped a motion (R132). -/
theorem test_break_with_arrival :
    let x : Bank := { motion := .moving, drive := .up, travel := some (0, 1), moving := some 7, queue := [1]
                      parkDemand := true }
    let t := after (.curtainBroken 0 3) (after (.aisleSensorActive 0 1) (withBank x))
    (t.bank[(0 : BankId)]).motion = .parkWait ∧ (t.bank[(0 : BankId)]).drive = .off ∧
    (t.bank[(0 : BankId)]).position = some 1 ∧
    t.reports.map Report.event = State.reset.reports.map Report.event ++ [.aisleOpen 0 1, .bankBlocked 0 [3]] := by
  decide +kernel

/-- A travel whose aisle's sensor reads ACTIVE already arrives at once (R131), and a sensor above the carriage count is
not read (R123). -/
theorem test_active_sensor :
    let x : Bank := { position := some 3, sensors := (Vector.replicate 13 false).set 7 true }
    let s := withBank x
    let few := { s with store := { s.store with
      bank := s.store.bank.set 0 { s.store.bank[(0 : BankId)] with carriages := 8 } } }
    (serve 0 [7] s).bank[(0 : BankId)].position = some 7 ∧ (serve 0 [7] s).bank[(0 : BankId)].motion = .idle ∧
    (after (.aisleSensorActive 0 9) few).bank[(0 : BankId)].sensors[(7 : Aisle)] = true := by decide +kernel

theorem witness_BankSettingsAreWritten :
    let busy := withBank { motion := .moving, drive := .up }
    let s := withBank { motion := .stopped }
    let st := s.store.bank[(0 : BankId)]
    Ready busy ∧ Ready s ∧ (indexOf 4 1 = some 0 ∧ (busy.bank[(0 : BankId)]).motion ≠ .idle ∧
    (busy.bank[(0 : BankId)]).motion ≠ .stopped ∧ (s.bank[(0 : BankId)]).motion = .stopped ∧ (1 : Int) ≤ 5 ∧
    5 = (5 : Int).toNat ∧ 5 ≠ st.carriages ∧ indexOf 4 4 = some 3 ∧ (3 : Zone) ≠ st.zone ∧ s.shed 3 = s.shed st.zone) :=
  ⟨⟨rfl, rfl⟩, ⟨rfl, rfl⟩, by decide +kernel⟩

/-- A part with that detector and the first loop as given. -/
def loopAt (x : Loop) : State := { withLoop x with store := watched }

theorem witness_DetectorTableIsWritten :
    let latched := loopAt { position := some 31, item := .passPoll 31
                            dets := (Vector.replicate 32 {}).set 31 { state := .alarm, latch := true } }
    Ready State.reset ∧ Ready latched ∧ (indexOf 2 1 = some 0 ∧ indexOf 32 32 = some 31 ∧ indexOf 4 4 = some 3 ∧
    wordOf typeWords "HEAT".toList = some .heat ∧ (latched.store.detectors[(0 : LoopId)][(31 : Address)]).enabled = true ∧
    (State.reset.store.detectors[(0 : LoopId)][(31 : Address)]).enabled = false ∧
    ((latched.loop[(0 : LoopId)]).dets[(31 : Address)]).latch = true ∧
    (State.reset.loop[(0 : LoopId)]).position = none ∧ (State.reset.loop[(0 : LoopId)]).item = .none ∧
    ((loopAt { position := some 31, item := .passPoll 31 }).loop[(0 : LoopId)]).dets[(31 : Address)].latch = false ∧
    indexOf 32 1 = some 0 ∧ (latched.store.detectors[(0 : LoopId)][(0 : Address)]).enabled = false ∧
    (latched.loop[(0 : LoopId)]).position ≠ none ∧ (latched.loop[(0 : LoopId)]).item ≠ .none) :=
  ⟨⟨rfl, rfl⟩, ⟨rfl, rfl⟩, by decide +kernel⟩

/-- A detector in PREALARM to be disabled, an entry enabled while a poll set aside runs with no pass position, a flag
that changes and one that does not, and zones in and out of STARTING (R141, R154, R162). -/
theorem witness_DetectorTableIsWritten_handed :
    let p := loopAt { position := some 31, item := .passPoll 31, firstPass := true
                      dets := (Vector.replicate 32 {}).set 31 { state := .prealarm, level := some 46 } }
    let v := loopAt { item := .passPoll 31, void := true, fault := true, firstPass := true }
    let w : State := { p with fire := State.reset.fire.set 0 { state := .starting } }
    Ready p ∧ Ready v ∧ ((p.store.detectors[(0 : LoopId)][(31 : Address)]).enabled = true ∧
    ((p.loop[(0 : LoopId)]).dets[(31 : Address)]).latch = false ∧
    (v.loop[(0 : LoopId)]).position = none ∧ (v.loop[(0 : LoopId)]).item ≠ .none ∧
    (v.store.detectors[(0 : LoopId)][(0 : Address)]).enabled = false ∧ v.degraded 0 = true ∧ p.degraded 0 = false ∧
    (w.fire[(0 : Zone)]).state = .starting ∧ (∀ o : LoopId, w.carries o 0 = true → (w.loop[o]).firstPass = true) ∧
    (loopAt {}).carries 0 0 = true ∧ ((loopAt {}).loop[(0 : LoopId)]).firstPass = false ∧
    (p.fire[(0 : Zone)]).state ≠ .starting) :=
  ⟨⟨rfl, rfl⟩, ⟨rfl, rfl⟩, by decide +kernel⟩

/-- A detector disabled in PREALARM posts its DETECTOR-STATE, with level none (R139, R150). -/
theorem test_disable_in_prealarm :
    let p := loopAt { position := some 31, item := .passPoll 31, firstPass := true
                      dets := (Vector.replicate 32 {}).set 31 { state := .prealarm, level := some 46 } }
    ((after (.setDetector 1 32 "NO".toList) p).reports.map Report.event).contains
      (.detectorState 0 31 0 .smoke none .normal) = true := by decide +kernel

/-- The pass position with an address above it, with none, and with no entry enabled; a detector that changes nothing,
its latch alone, into FAULT, out of it, and among the others (R143, R145, R150). -/
theorem witness_PollsAndRoundsRun_changes :
    let s := loopAt { position := some 31, item := .passPoll 31, firstPass := true }
    let d : Detector := { level := some 90, alarmRun := 1, state := .prealarm }
    let f : Detector := { state := .fault, miss := 3 }
    (s.store.detectors[(0 : LoopId)][(31 : Address)]).enabled = true ∧ (0 : Address) < 31 ∧
    (∀ q : Address, (s.store.detectors[(0 : LoopId)][q]).enabled = true → 0 < q → 31 ≤ q) ∧
    (∀ q : Address, (s.store.detectors[(0 : LoopId)][q]).enabled = true → q ≤ 31) ∧
    (∀ b : Address, (some 31 : Option Address) = some b ↔ (s.store.detectors[(0 : LoopId)][b]).enabled = true ∧
      ∀ q : Address, (s.store.detectors[(0 : LoopId)][q]).enabled = true → b ≤ q) ∧
    (∀ b : Address, (State.reset.store.detectors[(0 : LoopId)][b]).enabled = false) ∧
    (s.loop[(0 : LoopId)]).firstPass = true ∧ ((loopAt {}).loop[(0 : LoopId)]).firstPass = false ∧
    (missDetector { d with miss := 0 }).state = d.state ∧ (missDetector { d with miss := 2 }).state = .fault ∧
    (answerDetector .smoke (some 40) 80 46 f).state = .prealarm ∧
    (answerDetector .smoke (some 40) 80 90 d).state = .alarm ∧ { d with latch := true }.latch ≠ d.latch ∧
    (answerDetector .smoke (some 40) 80 90 { f with alarmRun := 1 }).alarmRun = 1 := by decide +kernel

theorem witness_PollsAndRoundsRun :
    let x : Loop := { position := some 31, item := .passPoll 31, busErrors := 7 }
    let s := loopAt x
    let d : Detector := { alarmRun := 1, lowRun := 1, state := .prealarm, miss := 2 }
    s.powered = true ∧ (s.loop[(0 : LoopId)]).item = .passPoll 31 ∧ (s.loop[(0 : LoopId)]).position = some 31 ∧
    (s.loop[(0 : LoopId)]).void = false ∧ { x with void := true }.void = true ∧ { x with fault := true }.fault = true ∧
    { x with position := none }.position = none ∧ { x with item := .priorityPoll 31 }.item = .priorityPoll 31 ∧
    (1 : LoopId) ≠ 0 ∧ { x with item := .round [] }.item = .round [] ∧ { x with roundTaken := true }.roundTaken = true ∧
    (s.store.detectors[(0 : LoopId)][(3 : Address)]).enabled = false ∧ x.item ≠ .none ∧
    (s.store.detectors[(0 : LoopId)][(31 : Address)]).enabled = true ∧ (s.loop[(0 : LoopId)]).roundTaken = false ∧
    { x with item := .round [31] }.item = .round [31] ∧ (31 : Address) ∈ [(31 : Address)] ∧ x.fault = false ∧
    { x with busErrors := 6 }.busErrors < 7 ∧ x.busErrors = 7 ∧ DetType.smoke ≠ .manual ∧ d.state ≠ .fault ∧
    d.latch = false ∧ d.alarmRun ≤ 1 ∧ 40 < 80 ∧ d.alarmRun = 1 ∧ { d with alarmRun := 0 }.alarmRun ≠ 1 ∧ d.miss ≤ 2 := by
  decide +kernel

/-- A poll of a passed-over entry that is abandoned is not made again (R141, R143); a seizure no detector continues
reads as address 32 (R151). -/
theorem test_disabled_entry_is_passed_over :
    let t := after (.itemAbandoned 0) (withLoop { item := .passPoll 31, void := true })
    (t.loop[(0 : LoopId)]).item = .none ∧ (t.loop[(0 : LoopId)]).void = false ∧ Instr.wf (.alert 0 []) = true ∧
    roundWinner [] = 31 := by decide +kernel

/-- A poll's order carries the alarm level in force as the poll becomes the item (R144). -/
theorem test_order_carries_the_level :
    ((nextItem 0 (loopAt { position := some 31 })).loop[(0 : LoopId)]).dets[(31 : Address)].order = some 80 := by
  decide +kernel

/-- The evaluation's other cases: a latched MANUAL detector, and one SMOKE detector in prealarm (R163). -/
theorem witness_FireRequestsAreTaken_counts :
    let entry (t : DetType) : Store := { Store.factory with
      detectors := Store.factory.detectors.set 0 ((Vector.replicate 32 {}).set 31 { zone := 0, type := t, enabled := true }) }
    let at_ (t : DetType) (d : Detector) : State :=
      { withLoop { dets := (Vector.replicate 32 {}).set 31 d } with store := entry t }
    1 ≤ ((at_ .manual { state := .alarm, latch := true }).counts 0).manual ∧
    ((at_ .smoke { state := .prealarm }).counts 0).manual = 0 ∧
    ((at_ .smoke { state := .prealarm }).counts 0).auto < (at_ .smoke { state := .prealarm }).coincidence 0 ∧
    1 ≤ ((at_ .smoke { state := .prealarm }).counts 0).prealarm := by decide +kernel

/-- A zone in ALARM with its agent spent and a manual alarm latched, its key OFF and ON; a frozen countdown; a detector
of the zone to clear and another; a coincidence that changes and one that does not (R149, R159, R165, R167, R174). -/
theorem witness_FireRequestsAreTaken_alarm :
    let pulled : Store := { Store.factory with
      detectors := Store.factory.detectors.set 0 ((Vector.replicate 32 {}).set 31 { zone := 0, type := .manual, enabled := true })
      spent := Store.factory.spent.set 0 true }
    let s (x : FireZone) : State :=
      { withLoop { dets := (Vector.replicate 32 {}).set 31 { state := .alarm, latch := true } } with
        store := pulled, fire := State.reset.fire.set 0 x }
    Ready (s { state := .alarm }) ∧ Ready (s { state := .prealarm }) ∧
    ((s { state := .alarm }).fire[(0 : Zone)].state = .alarm ∧ (s { state := .alarm }).store.spent[(0 : Zone)] = true ∧
    (s { state := .alarm }).fire[(0 : Zone)].isolateOn = false ∧ 1 ≤ ((s { state := .alarm }).counts 0).manual ∧
    (s { state := .alarm, isolateOn := true }).fire[(0 : Zone)].isolateOn = true ∧
    (s { state := .predischarge, countdown := .frozen 18 }).fire[(0 : Zone)].countdown = .frozen 18 ∧
    (∀ n : Nat, Countdown.running 18 ≠ .frozen n) ∧ (0 : Nat) < ((s { state := .alarm }).counts 0).manual ∧
    (pulled.detectors[(0 : LoopId)][(31 : Address)]).zone = 0 ∧
    (pulled.detectors[(0 : LoopId)][(0 : Address)]).enabled = false ∧
    1 ≠ (s { state := .prealarm }).store.fire[(0 : Zone)].coincidence ∧
    clamp 1 2 2 = ((s { state := .prealarm }).store.fire[(0 : Zone)].coincidence : Int)) :=
  ⟨⟨rfl, rfl⟩, ⟨rfl, rfl⟩, by simp only [reduceCtorEq, not_false_eq_true, implies_true, ne_eq]; decide +kernel⟩

/-- A refused RESTORE-AGENT carries no field of its own, and a refused RESET-FIRE-ZONE its zone's state (R173, R174). -/
theorem test_restore_refused :
    answerOf (after (.restoreAgent 1) (withFire { state := .predischarge })) = some { word := .refused } ∧
    answerOf (after (.resetFireZone 1) (withFire { state := .predischarge })) =
      some { word := .refused, body := .fireRefused .predischarge none } := by decide +kernel

/-- What a clear leaves of three detectors: at a prealarm level, below it, and in FAULT (R149). -/
theorem test_clear_takes_the_last_level :
    let at_ (d : Detector) : Detector := clearDetector (some 40) { d with latch := true, alarmRun := 2 }
    (at_ { level := some 40, state := .alarm }).state = .prealarm ∧ (at_ { level := some 39, state := .alarm }).state = .normal ∧
    (at_ { state := .fault }).state = .fault ∧ (at_ { state := .fault }).latch = false ∧
    (at_ { level := some 39, state := .alarm }).alarmRun = 0 := by decide

/-- A zone with the 32 detectors of L1, whose page starts at the first place, at the last, and beyond it; a zone in each
set and in neither (R176). -/
theorem witness_FireRequestsAreTaken_page :
    let full := withStore { Store.factory with
      detectors := Store.factory.detectors.set 0 (Vector.replicate 32 { zone := 0, type := .smoke, enabled := true }) }
    Ready full ∧ (((List.finRange 32).filter fun a : Address =>
      full.store.detectors[(0 : LoopId)][a].enabled && full.store.detectors[(0 : LoopId)][a].zone == 0).length = 32 ∧
    16 < 32 ∧ 1 ≤ (32 : Nat) ∧ (32 : Nat) < 33 ∧ (answerOf (after (.readFireZone 1 (some 17)) full)).map (fun a =>
      match a.body with
      | .fireZone v => (v.page.length, v.next, v.inHoldSet, v.inShedSet)
      | _ => (0, none, true, true)) = some (16, none, false, false) ∧
    (answerOf (after (.readFireZone 1 none) { full with fire := State.reset.fire.set 0 { state := .starting } })).map
      (fun a => match a.body with
        | .fireZone v => (v.page.map DetectorRow.address, v.next, v.inHoldSet, v.inShedSet)
        | _ => ([], none, true, true)) = some ((List.finRange 32).take 16, some 17, true, false)) :=
  ⟨⟨rfl, rfl⟩, by decide +kernel⟩

theorem witness_FireRequestsAreTaken :
    let z (e : FireState) := withFire { state := e }
    let latch := loopAt { item := .passPoll 31, dets := (Vector.replicate 32 {}).set 31 { state := .alarm, latch := true } }
    let s := { withFire { state := .discharged, soakComplete := true } with
      store := { Store.factory with spent := Store.factory.spent.set 0 true } }
    (∀ e, Ready (z e)) ∧ Ready s ∧ (indexOf 4 1 = some 0 ∧ (latch.counts 0).manual = 0 ∧ (latch.counts 0).auto = 1 ∧
    latch.coincidence 0 = 1 ∧ (State.reset.counts 0).auto < State.reset.coincidence 0 ∧
    (State.reset.counts 0).prealarm = 0 ∧ (s.fire[(0 : Zone)]).state = .discharged ∧
    (s.fire[(0 : Zone)]).soakComplete = true ∧ s.store.spent[(0 : Zone)] = true ∧
    ((z .discharged).fire[(0 : Zone)]).soakComplete = false ∧ ((z .prealarm).fire[(0 : Zone)]).state = .prealarm ∧
    ((z .vent).fire[(0 : Zone)]).state = .vent ∧ (z .vent).store.spent[(0 : Zone)] = false ∧
    ((z .predischarge).fire[(0 : Zone)]).state = .predischarge ∧
    1 ≠ ((z .alarm).store.fire[(0 : Zone)]).coincidence ∧ ((z .alarm).fire[(0 : Zone)]).isolateOn = false ∧
    (withFire { state := .alarm, isolateOn := true }).fire[(0 : Zone)].isolateOn = true ∧
    ((z .alarm).counts 0).manual = 0 ∧ ((z .starting).fire[(0 : Zone)]).state = .starting) :=
  ⟨fun _ => ⟨rfl, rfl⟩, ⟨rfl, rfl⟩, by decide +kernel⟩

theorem witness_FireInputsAndTimersRun :
    let p : FireZone := { state := .predischarge, countdown := .running 0 }
    let f : FireZone := { state := .predischarge, countdown := .frozen 18, abortHeld := true }
    let d : FireZone := { state := .discharged, soak := some 0, confirmWait := some 27, pulse := some 0 }
    let v : FireZone := { state := .vent, vent := some 0, ventOut := true }
    (withFire p).powered = true ∧ p.isolateOn = false ∧ p.state = .predischarge ∧ d.isolateOn ≠ true ∧
    d.state ≠ .starting ∧ d.state ≠ .predischarge ∧ d.state ≠ .alarm ∧ d.abortHeld ≠ true ∧ p.abortHeld = false ∧
    p.countdown = .running 0 ∧ ((withFire p).counts 0).manual = 0 ∧ f.abortHeld = true ∧ f.countdown = .frozen 18 ∧
    p.confirmWait = none ∧ d.confirmWait = some 27 ∧ d.pulse.isSome = true ∧ d.confirmSeen = false ∧
    d.soak.isSome = true ∧ v.state = .vent ∧ v.vent.isSome = true ∧
    ({ state := .alarm, isolateOn := true } : FireZone).isolateOn = true ∧
    ({ state := .starting } : FireZone).isolateOn ≠ true ∧ p.abortHeld ≠ true ∧ (false = true → 1 ≤ (0 : Nat)) ∧
    { p with abortHeld := true }.abortHeld ≠ false := by decide +kernel

end Sys2Proof.Tests
end

