-- ==== Sys2Proof/Proofs/Sensors.lean ====
section
/-!
PROOFS. The sensor front end's arithmetic (chapter 1): the engineering value by kind of channel, and the outcome of a
calibration from its two means.
-/

namespace Sys2Proof.Machine

/-! ### Quotients rounded to the nearest whole number -/

/-- The quotient of a dividend that is not negative is the whole number whose multiple lies within half a divisor of
it, the half below excluded: halves go up. -/
theorem roundDiv_bounds_of_nonneg {a : Int} {b : Nat} (ha : 0 ≤ a) (hb : 0 < b) :
    2 * (roundDiv a b * b) ≤ 2 * a + b ∧ 2 * a < 2 * (roundDiv a b * b) + b := by
  have hpos : (0 : Int) < 2 * b := by omega
  have hlow := Int.ediv_mul_le (2 * a + b) hpos.ne'
  have hhigh := Int.lt_ediv_add_one_mul_self (2 * a + b) hpos
  rw [roundDiv, if_pos ha]
  constructor <;> linarith

/-- Rounding is symmetric about zero. -/
theorem roundDiv_of_neg {a : Int} (b : Nat) (ha : a < 0) : roundDiv a b = -roundDiv (-a) b := by
  rw [roundDiv, if_neg (by omega), roundDiv, if_pos (by omega)]

/-- The rounded quotient's multiple lies within half a divisor of the dividend, whatever the dividend's sign. -/
theorem absDiff_roundDiv_le (a : Int) {b : Nat} (hb : 0 < b) : 2 * absDiff a (roundDiv a b * b) ≤ b := by
  rcases lt_or_ge a 0 with ha | ha
  · have hbounds := roundDiv_bounds_of_nonneg (a := -a) (by omega) hb
    rw [roundDiv_of_neg b ha, neg_mul, absDiff]
    omega
  · have hbounds := roundDiv_bounds_of_nonneg ha hb
    rw [absDiff]
    omega

/-! ### A channel's calibration (R14) -/

section

variable (old : Coef) {low high : Nat}

/-- A high mean not above the low one fails on ORDER. -/
theorem calibrate_of_le (h : high ≤ low) : calibrate old low high = (.order, old) := if_pos h

/-- A gain out of range fails on GAIN. -/
theorem calibrate_of_gain (h : low < high) (hg : calGain (high - low) < 29491 ∨ 36045 < calGain (high - low)) :
    calibrate old low high = (.gain, old) := by
  rw [calibrate, if_neg h.not_ge]
  exact if_pos hg

/-- A gain in range with an offset out of range fails on OFFSET. -/
theorem calibrate_of_offset (h : low < high) (hg : 29491 ≤ calGain (high - low)) (hg' : calGain (high - low) ≤ 36045)
    (ho : calOffset low (high - low) < -3277 ∨ 3277 < calOffset low (high - low)) :
    calibrate old low high = (.offset, old) := by
  rw [calibrate, if_neg h.not_ge]
  exact (if_neg (by omega)).trans (if_pos ho)

/-- Gain and offset in range are the new coefficients. -/
theorem calibrate_of_mem (h : low < high) (hg : 29491 ≤ calGain (high - low)) (hg' : calGain (high - low) ≤ 36045)
    (ho : -3277 ≤ calOffset low (high - low)) (ho' : calOffset low (high - low) ≤ 3277) :
    calibrate old low high =
      (.ok, { offset := calOffset low (high - low), gain := calGain (high - low) }) := by
  rw [calibrate, if_neg h.not_ge]
  exact (if_neg (by omega)).trans (if_neg (by omega))

end

/-- Settles O30: the gain and the offset computed are the witnesses; their bounds are those of a rounded quotient, and
each failure is one case of the calibration. -/
theorem calibrationOutcomeOfMeans : Obligations.CalibrationOutcomeOfMeans := by
  unfold Obligations.CalibrationOutcomeOfMeans
  intro old low high
  refine ⟨calibrate_of_le old, fun h => ?_⟩
  have hspan : ((high - low : Nat) : Int) = high - low := Int.ofNat_sub h.le
  obtain ⟨gain_low, gain_high⟩ :=
    roundDiv_bounds_of_nonneg (a := 32768 * 64225) (by decide) (Nat.sub_pos_of_lt h)
  have offset_near := absDiff_roundDiv_le ((low : Int) * 64225 - 655 * (high - low : Nat)) (b := 64225) (by decide)
  rw [hspan] at gain_low gain_high offset_near
  refine ⟨calGain (high - low), calOffset low (high - low), ?_, ?_, ?_,
    calibrate_of_gain old h, calibrate_of_offset old h, calibrate_of_mem old h⟩
  · rw [calGain]; linarith
  · rw [calGain]; linarith
  · rw [calOffset, hspan]; exact offset_near

/-! ### The engineering value (R7) -/

/-- The value of a humidity channel. -/
theorem engineering_rh (c : Int) : engineering .rh c = (c * 1000 + 32767) / 65535 := rfl

/-- The value of a channel of any other kind. -/
theorem engineering_of_ne_rh {k : ChanKind} (h : k ≠ .rh) (c : Int) :
    engineering k c = -400 + (c * 1650 + 32767) / 65535 := by
  cases k with
  | rh => exact absurd rfl h
  | temp | probe | unused => rfl

/-- A corrected value scaled to a span, rounded, lies in the span. -/
theorem scaled_mem {c n : Int} (hc : 0 ≤ c) (hc' : c ≤ 65535) (hn : 0 ≤ n) :
    0 ≤ c * n + 32767 ∧ 0 ≤ (c * n + 32767) / 65535 ∧ (c * n + 32767) / 65535 ≤ n := by
  have hlow : 0 ≤ c * n := mul_nonneg hc hn
  have hhigh : c * n ≤ 65535 * n := mul_le_mul_of_nonneg_right hc' hn
  omega

/-- Settles O28: each kind scales the corrected value to a span of its own, 1000 for RH and 1650 for TEMP and PROBE. -/
theorem engineeringValueByKind : Obligations.EngineeringValueByKind := by
  unfold Obligations.EngineeringValueByKind
  intro c hc hc'
  obtain ⟨rh_dividend, rh_low, rh_high⟩ := scaled_mem (n := 1000) hc hc' (by decide)
  obtain ⟨temp_dividend, temp_low, temp_high⟩ := scaled_mem (n := 1650) hc hc' (by decide)
  refine ⟨rh_dividend, temp_dividend, engineering_rh c, rh_low, rh_high, fun k hk => ?_⟩
  have hne : k ≠ .rh := by rcases hk with rfl | rfl <;> decide
  rw [engineering_of_ne_rh hne]
  exact ⟨rfl, by omega, by omega⟩

end Sys2Proof.Machine
end

