-- ==== Sys2Proof/Proofs/Climate.lean ====
section
/-!
PROOFS. The zone climate controllers' arithmetic (chapter 2): the dew point over the table of depressions.
-/

namespace Sys2Proof.Machine

/-! ### The table of depressions (section 2.2) -/

/-- The table has an entry at each of the positions 0 to 9. -/
theorem depressions_getElem? {n : Nat} (h : n ≤ 9) : depressions[n]? = some (depressions.getD n 0) := by
  rw [List.getD_eq_getElem?_getD, List.getElem?_eq_getElem (Nat.lt_succ_of_le h), Option.getD_some]

/-- The depressions never rise from one position to the next, the 0 that stands for the missing D[10] included. -/
theorem depressions_succ_le {n : Nat} (h : n ≤ 9) : depressions.getD (n + 1) 0 ≤ depressions.getD n 0 := by
  have table : ∀ k : Fin 10, depressions.getD (k + 1) 0 ≤ depressions.getD k 0 := by decide
  exact table ⟨n, Nat.lt_succ_of_le h⟩

/-! ### The four steps of the dew point (R23) -/

/-- Steps 1 and 2: a humidity brought into its range gives a position of the table and the hundredths beyond it, none
beyond the last position, which 1000 alone reaches. -/
theorem depression_position (h : Int) :
    0 ≤ (clamp 100 1000 h - 100) / 100 ∧ (clamp 100 1000 h - 100) / 100 ≤ 9 ∧
    0 ≤ (clamp 100 1000 h - 100) % 100 ∧ (clamp 100 1000 h - 100) % 100 ≤ 99 ∧
    ((clamp 100 1000 h - 100) / 100 = 9 → (clamp 100 1000 h - 100) % 100 = 0) := by
  have range := clamp_mem (lo := 100) (hi := 1000) (v := h) (by decide)
  omega

/-- Step 3: between two falling entries, the part of their difference taken off the higher one is rounded from a
dividend that is not negative, and it leaves the depression between them. -/
theorem interpolation_mem {d0 d1 f : Int} (hd : d1 ≤ d0) (hf : 0 ≤ f) (hf' : f ≤ 99) :
    0 ≤ (d0 - d1) * f + 50 ∧ d1 ≤ d0 - ((d0 - d1) * f + 50) / 100 ∧ d0 - ((d0 - d1) * f + 50) / 100 ≤ d0 := by
  have hlow : 0 ≤ (d0 - d1) * f := mul_nonneg (by omega) hf
  have hhigh : (d0 - d1) * f ≤ (d0 - d1) * 99 := mul_le_mul_of_nonneg_left hf' (by omega)
  omega

/-- Settles O35: the entries are those at the humidity's position and the next one; the table falls, so the depression
lies between them, and the position after the last one counts as 0. -/
theorem dewPointFollowsTheTable : Obligations.DewPointFollowsTheTable := by
  unfold Obligations.DewPointFollowsTheTable
  rintro t h _ _ rfl rfl
  obtain ⟨i_low, i_high, f_low, f_high, f_last⟩ := depression_position h
  have hn : ((clamp 100 1000 h - 100) / 100).toNat ≤ 9 := by omega
  obtain ⟨dividend, above, below⟩ := interpolation_mem (depressions_succ_le hn) f_low f_high
  refine ⟨i_low, i_high, f_low, f_high, f_last, _, _, depressions_getElem? hn, ?_, dividend, above, below, rfl⟩
  rcases i_high.eq_or_lt with last | inner
  · exact .inr ⟨last, by rw [last]; rfl⟩
  · exact .inl (depressions_getElem? (by omega))

end Sys2Proof.Machine
end

