-- ==== Sys2Proof/Proofs/Custody.lean ====
section
/-!
PROOFS. The cartridge custody table (chapter 3): the requests that a record's custody state allows or refuses, the table
without one record, and the quarantine hold of a return.
-/

namespace Sys2Proof.Machine

/-! ### Requests that a custody state allows (section 3.2) -/

/-- A request on the record of a label whose zone is outside the fire hold set: done in the custody states allowed, and
WRONG-STATE in any other. -/
def custodyRequest (label : Text) (allowed : Custody → Prop) [DecidablePred allowed] (act : State → State) : Request :=
  onCartridge label fun c s =>
    unheld (s.zoneOf c) (fun s => if allowed c.custody then (act s, { word := .ok }) else wrongState c s) s

theorem exec_removeCartridge (label : Text) (s : State) :
    exec (.removeCartridge label) s = request (custodyRequest label (fun k => k = .shelved ∨ k = .missing)
      fun s => s.withTable (s.store.cartridges.filter (·.label != label))) s := rfl

theorem exec_markMissing (label : Text) (s : State) :
    exec (.markMissing label) s = request (custodyRequest label (fun k => k = .shelved ∨ k = .reshelve)
      fun s => s.changing label fun d => { d with custody := .missing }) s := rfl

theorem exec_markFound (label : Text) (s : State) :
    exec (.markFound label) s = request (custodyRequest label (fun k => k = .missing)
      fun s => s.changing label fun d => { d with custody := .shelved }) s := rfl

theorem exec_addCartridge (label media : Text) (f : HomeFields) (s : State) :
    exec (.addCartridge label media f) s = request (addCartridge label media f) s := rfl

section

variable {s : State} {label : Text} {c : Cartridge} {allowed : Custody → Prop} [DecidablePred allowed]
  (act : State → State)

/-- A request on a record that is in the table is that record's own. -/
theorem onCartridge_found (f : Cartridge → Request) (ok : labelOk label = true) (found : s.cartridge? label = some c) :
    onCartridge label f s = f c s := by
  simp only [onCartridge, ok, found, if_true]

/-- The fire hold set decides first (R52), and outside it the record's custody state. -/
theorem custodyRequest_eq (ok : labelOk label = true) (found : s.cartridge? label = some c) :
    custodyRequest label allowed act s =
      if s.held (s.zoneOf c) then answer .fireHold .empty s
      else if allowed c.custody then (act s, { word := .ok }) else wrongState c s := by
  rw [custodyRequest, onCartridge_found _ ok found, unheld]

/-- A record whose zone is in the fire hold set is left alone. -/
theorem request_custody_of_held (ready : Ready s) (ok : labelOk label = true) (found : s.cartridge? label = some c)
    (held : s.held (s.zoneOf c) = true) :
    request (custodyRequest label allowed act) s = .next (s.repliedWord .fireHold) :=
  request_word ready ((custodyRequest_eq (s := s.heard) act ok found).trans (if_pos held))

/-- In a state allowed the request is done and answered OK. -/
theorem request_custody_of_allowed (ready : Ready s) (ok : labelOk label = true) (found : s.cartridge? label = some c)
    (free : s.held (s.zoneOf c) = false) (h : allowed c.custody) :
    request (custodyRequest label allowed act) s = .next ((act s.heard).answered { word := .ok }) :=
  request_next ready
    ((custodyRequest_eq (s := s.heard) act ok found).trans ((if_neg (Bool.eq_false_iff.mp free)).trans (if_pos h)))

/-- In any other state the request is refused with the state's name. -/
theorem request_custody_of_not_allowed (ready : Ready s) (ok : labelOk label = true)
    (found : s.cartridge? label = some c) (free : s.held (s.zoneOf c) = false) (h : ¬ allowed c.custody) :
    request (custodyRequest label allowed act) s =
      .next (s.replied { word := .refused, body := .wrongState c.custody.name }) :=
  request_same ready
    ((custodyRequest_eq (s := s.heard) act ok found).trans ((if_neg (Bool.eq_false_iff.mp free)).trans (if_neg h)))

end

/-! ### The table without one record (R44, R46) -/

/-- A label that is found splits the table at its record. -/
theorem cartridge?_eq_some {s : State} {label : Text} {c : Cartridge} (found : s.cartridge? label = some c) :
    c.label = label ∧ ∃ before after, s.store.cartridges = before ++ c :: after := by
  obtain ⟨same, before, after, divided, -⟩ := List.find?_eq_some_iff_append.mp found
  exact ⟨eq_of_beq same, before, after, divided⟩

section

variable {before after : List Cartridge} {c : Cartridge}

/-- In a table divided at a record, the records on its one side come before it and it before those on the other. -/
theorem TableLaw.split_ordered (law : TableLaw (before ++ c :: after)) :
    (∀ d ∈ before, labelBefore d.label c.label = true) ∧ (∀ d ∈ after, labelBefore c.label d.label = true) := by
  obtain ⟨-, right, across⟩ := List.pairwise_append.mp law.ordered
  exact ⟨fun d hd => across d hd c List.mem_cons_self, (List.pairwise_cons.mp right).1⟩

/-- No other record has the label. -/
theorem TableLaw.label_ne (law : TableLaw (before ++ c :: after)) {d : Cartridge} (hd : d ∈ before ++ after) :
    d.label ≠ c.label := by
  obtain ⟨left, right⟩ := law.split_ordered
  intro same
  rcases List.mem_append.mp hd with h | h
  · simpa [same, labelBefore_irrefl] using left d h
  · simpa [same, labelBefore_irrefl] using right d h

/-- No other record holds the home. -/
theorem TableLaw.home_ne (law : TableLaw (before ++ c :: after)) {d : Cartridge} (hd : d ∈ before ++ after) :
    d.home ≠ c.home := by
  obtain ⟨-, right, across⟩ := List.pairwise_append.mp law.homes
  rcases List.mem_append.mp hd with h | h
  · exact across d h c List.mem_cons_self
  · exact ((List.pairwise_cons.mp right).1 d h).symm

/-- The records of all other labels are those on the two sides. -/
theorem TableLaw.filter_label_ne (law : TableLaw (before ++ c :: after)) :
    (before ++ c :: after).filter (·.label != c.label) = before ++ after := by
  have keep : (before ++ after).filter (·.label != c.label) = before ++ after :=
    List.filter_eq_self.mpr fun d hd => bne_iff_ne.mpr (law.label_ne hd)
  rw [List.filter_append] at keep
  rw [List.filter_append, List.filter_cons_of_neg (by simp), keep]

/-- Without the record, a label after it stands one place lower. -/
theorem TableLaw.findIdx_of_after (law : TableLaw (before ++ c :: after)) {l : Text}
    (later : labelBefore c.label l = true) :
    (before ++ after).findIdx (·.label == l) + 1 = (before ++ c :: after).findIdx (·.label == l) := by
  obtain ⟨left, -⟩ := law.split_ordered
  have ne_of_before {k : Text} (h : labelBefore k l = true) : (k == l) = false :=
    beq_false_of_ne fun same => by simp [same, labelBefore_irrefl] at h
  have absent : before.findIdx (·.label == l) = before.length :=
    List.findIdx_eq_length_of_false fun d hd => ne_of_before (labelBefore_trans (left d hd) later)
  simp only [List.findIdx_append, absent, lt_irrefl, if_false, List.findIdx_cons, ne_of_before later, cond_false]
  omega

end

/-- Settles O41: the table splits at the record found, no record beside it shares its label or its home, and the labels
after it lose one place. -/
theorem removedCartridgeFreesLabelAndHome : Obligations.RemovedCartridgeFreesLabelAndHome := by
  unfold Obligations.RemovedCartridgeFreesLabelAndHome
  intro s label c ready law ok found
  rw [exec_removeCartridge]
  refine ⟨fun held => request_custody_of_held _ ready ok found held, fun free shelved missing =>
    request_custody_of_not_allowed _ ready ok found free (not_or.mpr ⟨shelved, missing⟩), fun free allowed => ?_⟩
  obtain ⟨rfl, before, after, divided⟩ := cartridge?_eq_some found
  have rest : s.store.cartridges.eraseIdx before.length = before ++ after := by
    simp [divided, List.eraseIdx_append_of_length_le]
  rw [divided] at law
  refine ⟨before.length, _, by simp [divided], rfl, ?_, ?_, ?_, fun d _ later => ?_⟩
  · rw [request_custody_of_allowed _ ready ok found free allowed, rest, ← law.filter_label_ne,
      ← divided]
    rfl
  · rw [rest]
    exact List.find?_eq_none.mpr fun d hd => by simpa using law.label_ne hd
  · rw [rest]
    exact Option.map_eq_none_iff.mpr (List.find?_eq_none.mpr fun d hd => by simpa using law.home_ne hd)
  · rw [rest]
    exact (law.findIdx_of_after later).trans (by rw [State.indexOfLabel, divided])

/-! ### A home that is taken (R45, R50) -/

/-- ADD-CARTRIDGE to the home of a record in the table is refused as a duplicate. -/
theorem exec_addCartridge_of_taken {s : State} {label media : Text} {m : Char} {f : HomeFields} {c : Cartridge}
    (ready : Ready s) (ok : labelOk label = true) (hm : mediaOf media = some m) (hf : s.homeNamed f = some c.home)
    (free : s.held (s.zoneOf c) = false) (room : s.store.cartridges.length < 2048) (hc : c ∈ s.store.cartridges) :
    exec (.addCartridge label media f) s = .next (s.replied
      { word := .refused, body := .duplicate (s.cartridge? label).isSome (s.holderOf c.home) }) := by
  have taken : (s.holderOf c.home).isSome = true := by
    rw [State.holderOf, Option.isSome_map, List.find?_isSome]
    exact ⟨c, hc, beq_self_eq_true _⟩
  have unheld_home : s.held (s.bankZone c.home.bank) = false := free
  rw [exec_addCartridge]
  apply request_same ready
  simp [addCartridge, ok, hm, hf, unheld_home, room.not_ge, taken, answer]

/-- Settles O42: both requests are allowed by the custody state alone, and a record keeps its home in the table, MISSING
or not. -/
theorem missingIsMarkedAndFound : Obligations.MissingIsMarkedAndFound := by
  unfold Obligations.MissingIsMarkedAndFound
  intro s label c ready ok found
  rw [exec_markMissing, exec_markFound]
  refine ⟨fun held => ⟨request_custody_of_held _ ready ok found held, request_custody_of_held _ ready ok found held⟩,
    fun free => ⟨fun h => ?_, fun shelved reshelve => ?_, fun h => ?_, fun h => ?_,
      fun label' media m f _ ok' hm hf room => ?_⟩⟩
  · exact request_custody_of_allowed _ ready ok found free h
  · exact request_custody_of_not_allowed _ ready ok found free (not_or.mpr ⟨shelved, reshelve⟩)
  · exact request_custody_of_allowed _ ready ok found free h
  · exact request_custody_of_not_allowed _ ready ok found free h
  · exact ⟨_, exec_addCartridge_of_taken ready ok' hm hf free room (List.mem_of_find?_eq_some found)⟩

/-! ### The quarantine hold (R63) -/

/-- The distance of two values is the absolute value of their difference. -/
theorem absDiff_eq_abs (a b : Int) : absDiff a b = |a - b| := by
  rw [absDiff, abs, neg_sub]

/-- Stage 2: the least whole number of tenths not below a weighted sum. -/
theorem tenths_eq_of_bounds {n : Nat} {t : Int} (above : 10 * (t - 1) < n) (below : n ≤ 10 * t) :
    t = ((n + 9) / 10 : Nat) := by
  omega

/-- A hold brought up to HoldMin, doubled for a risk and brought down to HoldMax lies between the two. -/
theorem holdWithSummary_mem {k : HoldSettings} (h : k.holdMin ≤ k.holdMax) (tset hset : Int) (e : Exposure)
    (risk : Bool) : k.holdMin ≤ holdWithSummary k tset hset e risk ∧ holdWithSummary k tset hset e risk ≤ k.holdMax := by
  unfold holdWithSummary
  cases risk <;> simp only [Bool.false_eq_true, if_false, if_true] <;> omega

/-- A map that keeps every record of a label keeps the state. -/
theorem modCartridge_of_fixed {f : Cartridge → Cartridge} (fixed : ∀ c, f c = c) (s : State) (l : Text) :
    s.modCartridge l f = s := by
  have same : (fun c : Cartridge => if c.label = l then f c else c) = id := funext fun c => by simp [fixed]
  rw [State.modCartridge_eq, State.changing, same, List.map_id]
  rfl

/-- Labels gone through with an action that keeps the state. -/
theorem forLabels_of_fixed {f : Text → State → State} (fixed : ∀ l s, f l s = s) (ls : List Text) (s : State) :
    forLabels f ls s = s := by
  induction ls with
  | nil => rfl
  | cons l ls ih => rw [forLabels, List.foldl_cons, fixed]; exact ih

/-- A hold computed from a summary without a risk leaves the whole store as it was: no record has a flag set. -/
theorem keepHold_store_of_summary {m : Manifest} {e : Exposure} (h : m.exposure = some e) (hatch : HatchId)
    (s : State) : (keepHold hatch m false s).store = s.store := by
  unfold keepHold
  rw [forLabels_of_fixed fun l s => modCartridge_of_fixed (fun c => by simp [h]) s l]
  rfl

/-- Settles O44: the stages on whole numbers are those on integers, as no stage is negative; the bounds are those of the
last three stages. -/
theorem holdIsComputedInSixStages : Obligations.HoldIsComputedInSixStages := by
  unfold Obligations.HoldIsComputedInSixStages
  rintro k tset hset dT dH h1 h2 h3 h4 e risk hT hH above below rfl rfl rfl
  have rangeT := clamp_mem (lo := 0) (hi := 1000) (v := max |e.tmax - tset| |tset - e.tmin|) (by decide)
  have rangeH := clamp_mem (lo := 0) (hi := 1000) (v := max |e.hmax - hset| |hset - e.hmin|) (by decide)
  rw [← hT] at rangeT
  rw [← hH] at rangeH
  obtain ⟨nT, rfl⟩ := Int.eq_ofNat_of_zero_le rangeT.1
  obtain ⟨nH, rfl⟩ := Int.eq_ofNat_of_zero_le rangeH.1
  have tenths : h1 = ((k.kT * nT + k.kH * nH + 9) / 10 : Nat) :=
    tenths_eq_of_bounds (by exact_mod_cast above) (by exact_mod_cast below)
  refine ⟨?_, fun wT wH => ?_, fun h => holdWithSummary_mem h tset hset e risk,
    fun s hatch m hm => keepHold_store_of_summary hm hatch s⟩
  · simp only [holdWithSummary, absDiff_eq_abs, ← hT, ← hH, Int.toNat_natCast, tenths]
    cases risk <;> push_cast <;> rfl
  · have boundT : k.kT * nT ≤ 255 * 1000 := Nat.mul_le_mul wT (by omega)
    have boundH : k.kH * nH ≤ 255 * 1000 := Nat.mul_le_mul wH (by omega)
    omega

end Sys2Proof.Machine
end

