-- ==== Sys2Proof/Proofs/Changes.lean ====
section
/-!
PROOFS. One change of the state, as the operations of every block make them; changes one after another; and the laws that every
change keeps.
-/

namespace Sys2Proof.Machine

/-! ### Small laws a change is held to -/

/-- The cap of ECONOMY on one zone's duties (R31). -/
def CapHolds (st : ClimateSettings) (c : Climate) : Prop := c.mode = .economy → c.dh ≤ st.cap ∧ c.hu ≤ st.cap

/-- No lock engaged in `x` is released in `y`. -/
def KeepsLocks (x y : Hatch) : Prop := ∀ sd, (x.shutter sd).locked = true → (y.shutter sd).locked = true

/-- No shutter secured in `x` is unsecured in `y`. -/
def KeepsSecured (x y : Hatch) : Prop := ∀ sd, (x.shutter sd).secured = true → (y.shutter sd).secured = true

/-- The report is no LOST marker: those the queue makes itself, and nothing posts one (R194). -/
@[reducible] def Event.Ordinary (e : Event) : Prop := (Report.mk 0 e).isLost = false

/-- The two shutters of a hatch. -/
def Hatch.shutters (x : Hatch) : Shutter × Shutter := (x.outer, x.inner)

/-- What the law of the custody table speaks of in a record. -/
def Cartridge.place (c : Cartridge) : Text × Home := (c.label, c.home)

/-- What the laws speak of in the store. -/
def Store.tied (a : Store) := (a.climate, a.hatch, a.cartridges)

/-- What a bank's law speaks of. -/
def Bank.tied (x : Bank) : Motion × Drive × Option Nat × List Nat := (x.motion, x.drive, x.position, x.queue)

/-- What a fire zone's law speaks of. -/
def FireZone.tied (x : FireZone) :=
  (x.state, x.countdown, x.ventOut, x.vent, x.releaseOut, x.pulse, x.soak, x.soakComplete)

/-- What a write of the store keeps: the climate settings, the hatches' zones and the law of the custody table. -/
structure Store.Keeps (a b : Store) : Prop where
  climate : b.climate = a.climate
  zones : ∀ h : HatchId, b.hatch[h].zone = a.hatch[h].zone
  table : TableLaw a.cartridges → TableLaw b.cartridges

/-- What a course of changes may do: release locks, or move fire states and zones instead, and whose agent it may
release. -/
structure Course where
  releases : Bool := false
  agent : Option Zone := none

/-! ### One change -/

/-- One change of the state, as the operations of every block make them. A change of a bank or of a fire zone is held to
the law of its own; a lock is released under the conditions of R88 alone, in a course in which no fire state moves. -/
inductive Change (m : Course) (s : State) : State → Prop
  | report (e : Event) (ordinary : e.Ordinary) : Change m s (post e s)
  | fetch (k : Nat) : Change m s (s.setReports (s.reports.drop k))
  | choice : Change m s { s with choice := s.choice + 1 }
  | minute : Change m s { s with minute := s.minute + 1, seconds := 0 }
  | line (x : HostLine) : Change m s (s.setLine x)
  | front (x : FrontEnd) : Change m s (s.setFront x)
  | staging (r : ReaderId) (x : Staging) : Change m s (s.setStaging r x)
  | loop (l : LoopId) (x : Loop) : Change m s (s.setLoop l x)
  | climate (z : Zone) (c : Climate) (cap : CapHolds s.store.climate[z] s.climate[z] → CapHolds s.store.climate[z] c) :
      Change m s (s.setClimate z c)
  | settings (z : Zone) (st : ClimateSettings) (c : Climate)
      (cap : CapHolds s.store.climate[z] s.climate[z] → CapHolds st c) :
      Change m s ((s.setStore { s.store with climate := s.store.climate.set z st }).setClimate z c)
  | hatch (h : HatchId) (x : Hatch) (locks : KeepsLocks s.hatch[h] x)
      (secured : m.releases = true → KeepsSecured s.hatch[h] x) : Change m s (s.setHatch h x)
  | release (h : HatchId) (sd : Side) (course : m.releases = true) (may : canUnlock h sd s = true) :
      Change m s (s.setHatch h { s.hatch[h].setShutter sd
        (releaseLock (s.hatchSettings h) (s.hatch[h].shutter sd)) with unlockDue := none })
  | bank (b : BankId) (x : Bank) (law : BankLaw s.bank[b] → BankLaw x) : Change m s (s.setBank b x)
  | fire (z : Zone) (x : FireZone) (law : FireLaw s.fire[z] → FireLaw x)
      (course : m.releases = true → x.state = s.fire[z].state)
      (output : x.releaseOut = true → s.fire[z].releaseOut = true ∨ m.agent = some z) : Change m s (s.setFire z x)
  | store (st : Store) (keeps : s.store.Keeps st) : Change m s (s.setStore st)
  | rezone (h : HatchId) (z : Zone) (course : m.releases = false) :
      Change m s (s.setHatchSettings h { s.hatchSettings h with zone := z })
  | cold (course : m.releases = false) (p : Bool) (l : Vector Loop 2) :
      Change m s { coldState s with powered := p, loop := l }

/-- Changes one after another. -/
def Moves (m : Course) : State → State → Prop := Relation.ReflTransGen (Change m)

variable {m : Course} {s t u : State}

theorem Moves.refl (s : State) : Moves m s s := Relation.ReflTransGen.refl

theorem Moves.trans (h : Moves m s t) (h' : Moves m t u) : Moves m s u := Relation.ReflTransGen.trans h h'

theorem Change.moves (h : Change m s t) : Moves m s t := Relation.ReflTransGen.single h

theorem Moves.of_eq (h : t = s) : Moves m s t := by rw [h]; exact .refl s

/-! ### What changes keep -/

/-- What every change keeps, changes one after another keep. -/
theorem Moves.keeps {P : State → Prop} (h : Moves m s t) (step : ∀ a b, P a → Change m a b → P b) (hs : P s) : P t := by
  induction h with
  | refl => exact hs
  | tail _ c ih => exact step _ _ ih c

theorem Change.pending (h : Change m s t) : t.pending = s.pending := by
  cases h <;> rfl

theorem Moves.pending (h : Moves m s t) : t.pending = s.pending :=
  h.keeps (P := fun u => u.pending = s.pending) (fun _ _ e c => c.pending.trans e) rfl

/-! ### The report queue (R194) -/

/-- The entry a queue ends with is a marker or it is not; where it is not, no entry is one. -/
theorem QueueLaw.no_marker {q : List Report} (law : QueueLaw q) (last : ∀ x, q.getLast? = some x → x.isLost = false) :
    ∀ r ∈ q, r.isLost = false := by
  intro r hr
  rcases List.eq_nil_or_concat q with rfl | ⟨l, a, rfl⟩
  · cases hr
  · rw [List.concat_eq_append] at hr last law
    rcases List.mem_append.1 hr with h | h
    · exact law.marker r (by simpa using h)
    · rw [List.mem_singleton.1 h]
      exact last a (by simp)

/-- A report put in the queue keeps the queue's law. -/
theorem QueueLaw.enqueue {q : List Report} (law : QueueLaw q) {r : Report} (hr : r.isLost = false) :
    QueueLaw (Machine.enqueue q r) := by
  have lost_count : ∀ t n, ({ stamp := t, event := .lost n } : Report) ≠ r := by
    rintro t n rfl
    cases hr
  rcases enqueue_cases q r with ⟨t, n, last, e⟩ | ⟨last, short, e⟩ | ⟨last, long, e⟩ <;> rw [e]
  · obtain ⟨l, rfl⟩ := List.getLast?_eq_some_iff.1 last
    obtain ⟨size, marker, -, count⟩ := law
    simp only [List.dropLast_concat, List.length_append, List.length_singleton] at *
    refine ⟨by simpa using size, by simpa using marker, fun x hx hl => ?_, fun t' n' h' => ?_⟩
    · obtain rfl : _ = x := by simpa using hx
      cases hl
    · rcases List.mem_append.1 h' with h' | h'
      · exact count t' n' (List.mem_append_left _ h')
      · have h1 := count t n (by simp)
        obtain ⟨-, rfl⟩ : t' = t ∧ n' = min (n + 1) 65535 := by simpa using h'
        omega
  · refine ⟨by simp; omega, ?_, fun x hx hl => by simp; omega, fun t n h => ?_⟩
    · simpa using law.no_marker last
    · rcases List.mem_append.1 h with h | h
      · exact law.count t n h
      · exact absurd (List.mem_singleton.1 h) (lost_count t n)
  · have size : q.length ≤ 63 := by
      rcases List.eq_nil_or_concat q with rfl | ⟨l, a, rfl⟩
      · simp
      · exact law.full a (by simp) (last a (by simp))
    refine ⟨by simp; omega, ?_, fun x hx hl => ?_, fun t n h => ?_⟩
    · simpa using law.no_marker last
    · obtain rfl : _ = x := by simpa using hx
      cases hl
    · rcases List.mem_append.1 h with h | h
      · exact law.count t n h
      · obtain ⟨-, rfl⟩ : t = r.stamp ∧ n = 1 := by simpa using h
        omega

/-- The oldest reports taken from the queue leave its law. -/
theorem QueueLaw.drop {q : List Report} (law : QueueLaw q) (k : Nat) : QueueLaw (q.drop k) := by
  refine ⟨by have := law.size; simp; omega, fun r hr => ?_, fun r hr hl => ?_,
    fun t n h => law.count t n (List.mem_of_mem_drop h)⟩
  · rw [List.dropLast_drop_eq_drop_dropLast] at hr
    exact law.marker r (List.mem_of_mem_drop hr)
  · rw [List.getLast?_drop] at hr
    split at hr
    · cases hr
    · have := law.full r hr hl
      simp; omega

theorem QueueLaw.nil : QueueLaw [] := ⟨by simp, by simp, by simp, by simp⟩

theorem Change.queue (h : Change m s t) (law : QueueLaw s.reports) : QueueLaw t.reports := by
  cases h with
  | report e he => exact law.enqueue he
  | fetch k => exact law.drop k
  | cold => exact .nil
  | _ => exact law

theorem Moves.queue (h : Moves m s t) (law : QueueLaw s.reports) : QueueLaw t.reports :=
  h.keeps (P := fun s => QueueLaw s.reports) (fun _ _ e c => c.queue e) law

/-! ### Locks (R88) -/

theorem Hatch.oneLocked_iff {x : Hatch} : x.oneLocked ↔ ∃ sd, (x.shutter sd).locked = true := by
  constructor
  · rintro (h | h)
    · exact ⟨.outer, h⟩
    · exact ⟨.inner, h⟩
  · rintro ⟨sd, h⟩
    cases sd with
    | outer => exact .inl h
    | inner => exact .inr h

@[simp] theorem Hatch.shutter_setShutter_same (x : Hatch) (sd : Side) (sh : Shutter) :
    (x.setShutter sd sh).shutter sd = sh := by
  cases sd <;> rfl

@[simp] theorem Hatch.shutter_setShutter_other (x : Hatch) (sd : Side) (sh : Shutter) :
    (x.setShutter sd sh).shutter (otherSide sd) = x.shutter (otherSide sd) := by
  cases sd <;> rfl

theorem otherSide_or (a b : Side) : b = a ∨ b = otherSide a := by
  cases a <;> cases b <;> simp [otherSide]

@[simp] theorem otherSide_otherSide (sd : Side) : otherSide (otherSide sd) = sd := by
  cases sd <;> rfl

/-- A fact about each of the two hatches, where one of them has been written. -/
theorem forall_set {α : Type} {n : Nat} {v : Vector α n} {i : Fin n} {x : α} {P : Fin n → α → Prop} (hx : P i x)
    (hv : ∀ j, j ≠ i → P j v[j]) (j : Fin n) : P j (v.set i x)[j] := by
  by_cases e : j = i
  · subst e
    simpa using hx
  · have : (i : Nat) ≠ j := fun h => e (Fin.ext h.symm)
    simpa [Vector.getElem_set_ne, this] using hv j e

theorem coldHatch_locked (x : Hatch) (sd : Side) : ((coldHatch x).shutter sd).locked = true := by
  cases sd <;> rfl

theorem coldState_hatch (s : State) (h : HatchId) : (coldState s).hatch[h] = coldHatch s.hatch[h] := by
  simp [coldState]

theorem Change.oneLocked (h : Change m s t) (law : ∀ h : HatchId, s.hatch[h].oneLocked) (i : HatchId) :
    t.hatch[i].oneLocked := by
  cases h with
  | hatch j x locks =>
    refine forall_set (P := fun _ x => Hatch.oneLocked x) ?_ (fun k _ => law k) i
    obtain ⟨sd, h⟩ := Hatch.oneLocked_iff.1 (law j)
    exact Hatch.oneLocked_iff.2 ⟨sd, locks sd h⟩
  | release j sd _ may =>
    refine forall_set (P := fun _ x => Hatch.oneLocked x) ?_ (fun k _ => law k) i
    simp only [canUnlock, Shutter.secured, Bool.and_eq_true] at may
    obtain ⟨⟨locked, -⟩, -⟩ := may
    exact Hatch.oneLocked_iff.2 ⟨otherSide sd, by cases sd <;> exact locked⟩
  | cold =>
    refine Hatch.oneLocked_iff.2 ⟨.outer, ?_⟩
    show (((coldState s).hatch[i]).shutter .outer).locked = true
    rw [coldState_hatch, coldHatch_locked]
  | _ => exact law i

theorem Moves.oneLocked (h : Moves m s t) (law : ∀ h : HatchId, s.hatch[h].oneLocked) : ∀ h :
    HatchId, t.hatch[h].oneLocked :=
  h.keeps (P := fun s => ∀ h : HatchId, s.hatch[h].oneLocked) (fun _ _ e c => c.oneLocked e) law

/-- In a course that releases no lock, every lock engaged stays engaged. -/
theorem Change.locked (h : Change m s t) (course : m.releases = false) (i : HatchId) (sd : Side)
    (locked : (s.hatch[i].shutter sd).locked = true) : (t.hatch[i].shutter sd).locked = true := by
  cases h with
  | hatch j x locks =>
    exact forall_set (P := fun k y => (s.hatch[k].shutter sd).locked = true → (Hatch.shutter y sd).locked = true)
      (locks sd) (fun _ _ h => h) i locked
  | release _ _ c => rw [c] at course; cases course
  | cold =>
    show (((coldState s).hatch[i]).shutter sd).locked = true
    rw [coldState_hatch, coldHatch_locked]
  | _ => exact locked

theorem Moves.locked (h : Moves m s t) (course : m.releases = false) (i : HatchId) (sd : Side)
    (locked : (s.hatch[i].shutter sd).locked = true) : (t.hatch[i].shutter sd).locked = true :=
  h.keeps (P := fun s => (s.hatch[i].shutter sd).locked = true) (fun _ _ e c => c.locked course i sd e) locked

/-- What R88 asks of a shutter that is unlocked: the other secured and the zone outside the fire hold set. -/
def ReleasedSafely (i : HatchId) (sd : Side) (s : State) : Prop :=
  (s.hatch[i].shutter sd).locked = true ∨
    ((s.hatch[i].shutter (otherSide sd)).secured = true ∧ s.held (s.hatchZone i) = false)

/-- In a course that moves no fire state, what R88 asks stays so. -/
theorem Change.releasedSafely (h : Change m s t) (course : m.releases = true) (i : HatchId) (sd : Side)
    (safe : ReleasedSafely i sd s) : ReleasedSafely i sd t := by
  cases h with
  | hatch j x locks secured =>
    refine forall_set (P := fun k y => ReleasedSafely k sd s →
      (Hatch.shutter y sd).locked = true ∨ ((Hatch.shutter y (otherSide sd)).secured = true ∧
        s.held (s.hatchZone k) = false)) ?_ (fun _ _ h => h) i safe
    exact fun h => h.imp (locks sd) fun h => ⟨secured course _ h.1, h.2⟩
  | release j sd' _ may =>
    refine forall_set (P := fun k y => ReleasedSafely k sd s →
      (Hatch.shutter y sd).locked = true ∨ ((Hatch.shutter y (otherSide sd)).secured = true ∧
        s.held (s.hatchZone k) = false)) ?_ (fun _ _ h => h) i safe
    intro h
    simp only [canUnlock, Bool.and_eq_true, Bool.not_eq_true'] at may
    obtain ⟨secured, unheld⟩ := may
    rcases otherSide_or sd' sd with rfl | rfl
    · exact .inr ⟨by cases sd <;> exact secured, unheld⟩
    · refine .inl ?_
      simp only [Shutter.secured, Bool.and_eq_true] at secured
      cases sd' <;> exact secured.1
  | fire z x _ c =>
    refine safe.imp_right fun h => ⟨h.1, ?_⟩
    have same : ((s.fire.set z x)[s.hatchZone i]).state = (s.fire[s.hatchZone i]).state :=
      forall_set (P := fun k (y : FireZone) => y.state = s.fire[k].state) (c course) (fun _ _ => rfl) _
    show ((s.fire.set z x)[s.hatchZone i]).state.holds = false
    rw [same]
    exact h.2
  | store st keeps =>
    refine safe.imp_right fun h => ⟨h.1, ?_⟩
    show s.held (st.hatch[i]).zone = false
    rw [keeps.zones]
    exact h.2
  | rezone _ _ c => rw [c] at course; cases course
  | cold c => rw [c] at course; cases course
  | _ => exact safe

theorem Moves.releasedSafely (h : Moves m s t) (course : m.releases = true) (i : HatchId) (sd : Side)
    (safe : ReleasedSafely i sd s) : ReleasedSafely i sd t :=
  h.keeps (P := ReleasedSafely i sd) (fun _ _ e c => c.releasedSafely course i sd e) safe

/-- A lock released in any course is released under the conditions of R88, which stand at its end. -/
theorem Moves.safe_of_released (h : Moves m s t) {i : HatchId} {sd : Side}
    (locked : (s.hatch[i].shutter sd).locked = true) (released : (t.hatch[i].shutter sd).locked = false) :
    (t.hatch[i].shutter (otherSide sd)).secured = true ∧ t.held (t.hatchZone i) = false := by
  cases course : m.releases
  · rw [h.locked course i sd locked] at released; cases released
  · rcases h.releasedSafely course i sd (.inl locked) with h | h
    · rw [h] at released; cases released
    · exact h

/-! ### The cap of ECONOMY (R31) -/

theorem capLaw_iff {s : State} : CapLaw s ↔ ∀ z : Zone, CapHolds s.store.climate[z] s.climate[z] := .rfl

theorem Change.cap (h : Change m s t) (law : CapLaw s) : CapLaw t := by
  rw [capLaw_iff] at law ⊢
  intro z
  cases h with
  | climate y c cap =>
    exact forall_set (P := fun k (x : Climate) => CapHolds s.store.climate[k] x) (cap (law y)) (fun k _ => law k) z
  | settings y st c cap =>
    show CapHolds (s.store.climate.set y st)[z] (s.climate.set y c)[z]
    by_cases e : z = y
    · subst e
      simpa using cap (law z)
    · have : (y : Nat) ≠ z := fun h => e (Fin.ext h.symm)
      simpa [Vector.getElem_set_ne, this] using law z
  | store st keeps =>
    show CapHolds (st.climate[z]) s.climate[z]
    rw [keeps.climate]
    exact law z
  | cold =>
    intro e
    simp [coldState, startClimate, Climate.start] at e
  | _ => exact law z

theorem Moves.cap (h : Moves m s t) (law : CapLaw s) : CapLaw t :=
  h.keeps (P := CapLaw) (fun _ _ e c => c.cap e) law

/-! ### Fire zones (chapter 8) -/

theorem FireLaw.start (x : FireZone) : FireLaw x.start := by
  constructor <;> simp [FireZone.start]

theorem Change.fireLaw (h : Change m s t) (law : ∀ z : Zone, FireLaw s.fire[z]) (z : Zone) : FireLaw t.fire[z] := by
  cases h with
  | fire y x keeps => exact forall_set (P := fun _ x => FireLaw x) (keeps (law y)) (fun k _ => law k) z
  | cold => simpa [coldState] using FireLaw.start s.fire[z]
  | _ => exact law z

theorem Moves.fireLaw (h : Moves m s t) (law : ∀ z : Zone, FireLaw s.fire[z]) : ∀ z : Zone, FireLaw t.fire[z] :=
  h.keeps (P := fun s => ∀ z : Zone, FireLaw s.fire[z]) (fun _ _ e c => c.fireLaw e) law

/-- A release output stays off in every course but that of its own zone's release. -/
theorem Change.releaseOut (h : Change m s t) (z : Zone) (course : m.agent ≠ some z) (off : s.fire[z].releaseOut = false) :
    t.fire[z].releaseOut = false := by
  cases h with
  | fire y x _ _ output =>
    refine forall_set (P := fun k (x : FireZone) => k = z → x.releaseOut = false) ?_ ?_ z rfl
    · rintro rfl
      cases e : x.releaseOut
      · rfl
      · rcases output e with h | h
        · rw [off] at h; cases h
        · exact absurd h course
    · rintro k _ rfl; exact off
  | cold => simp [coldState, FireZone.start]
  | _ => exact off

theorem Moves.releaseOut (h : Moves m s t) (z : Zone) (course : m.agent ≠ some z) (off : s.fire[z].releaseOut = false) :
    t.fire[z].releaseOut = false :=
  h.keeps (P := fun s => s.fire[z].releaseOut = false) (fun _ _ e c => c.releaseOut z course e) off

/-! ### Banks (chapter 6) -/

theorem BankLaw.start (x : Bank) : BankLaw x.start := by
  constructor <;> simp [Bank.start, Drive.runs, Motion.drives]

theorem Change.bankLaw (h : Change m s t) (law : ∀ b : BankId, BankLaw s.bank[b]) (b : BankId) : BankLaw t.bank[b] := by
  cases h with
  | bank c x keeps => exact forall_set (P := fun _ x => BankLaw x) (keeps (law c)) (fun k _ => law k) b
  | cold => simpa [coldState] using BankLaw.start s.bank[b]
  | _ => exact law b

theorem Moves.bankLaw (h : Moves m s t) (law : ∀ b : BankId, BankLaw s.bank[b]) : ∀ b : BankId, BankLaw t.bank[b] :=
  h.keeps (P := fun s => ∀ b : BankId, BankLaw s.bank[b]) (fun _ _ e c => c.bankLaw e) law

/-! ### The custody table (R44) -/

theorem Change.table (h : Change m s t) (law : TableLaw s.store.cartridges) : TableLaw t.store.cartridges := by
  cases h with
  | store st keeps => exact keeps.table law
  | _ => exact law

theorem Moves.table (h : Moves m s t) (law : TableLaw s.store.cartridges) : TableLaw t.store.cartridges :=
  h.keeps (P := fun s => TableLaw s.store.cartridges) (fun _ _ e c => c.table e) law

end Sys2Proof.Machine
end

