-- ==== Sys2Proof/Proofs/ChangesOfRecords.lean ====
section
/-!
PROOFS. The store, the custody table, the manifest table and the zone climate controllers make changes alone.
-/

namespace Sys2Proof.Machine

variable {m : Course} {s t : State}

/-! ### The part that was written -/

@[simp] theorem State.modBank_get (b : BankId) (f : Bank → Bank) : (s.modBank b f).bank[b] = f s.bank[b] := by simp
@[simp] theorem State.modHatch_get (h : HatchId) (f : Hatch → Hatch) : (s.modHatch h f).hatch[h] = f s.hatch[h] :=
  by simp
@[simp] theorem State.modFire_get (z : Zone) (f : FireZone → FireZone) : (s.modFire z f).fire[z] = f s.fire[z] :=
  by simp
@[simp] theorem State.modClimate_get (z : Zone) (f : Climate → Climate) :
    (s.modClimate z f).climate[z] = f s.climate[z] := by simp
@[simp] theorem State.modLoop_get (l : LoopId) (f : Loop → Loop) : (s.modLoop l f).loop[l] = f s.loop[l] := by simp

/-! ### A course extended by one change, or by a list of them -/

namespace Moves

/-- Either branch of a decision. -/
theorem ite {c : Prop} [Decidable c] {t u : State} (h : c → Moves m s t) (h' : ¬c → Moves m s u) :
    Moves m s (if c then t else u) := by
  split
  · next hc => exact h hc
  · next hc => exact h' hc

/-- A branch of a decision that changes nothing otherwise. -/
theorem ite_skip {c : Prop} [Decidable c] {t u : State} (h : Moves m s u) (h' : c → Moves m u t) :
    Moves m s (if c then t else u) :=
  ite (fun hc => h.trans (h' hc)) fun _ => h

theorem post {e : Event} (h : Moves m s t) (he : e.Ordinary) : Moves m s (Machine.post e t) :=
  h.trans (Change.report e he).moves

theorem postAll {es : List Event} (h : Moves m s t) (he : ∀ e ∈ es, e.Ordinary) : Moves m s (Machine.postAll es t) := by
  unfold Machine.postAll
  induction es generalizing t with
  | nil => exact h
  | cons e es ih => exact ih (h.post (he e (by simp))) fun x hx => he x (by simp [hx])

theorem setLine {x : HostLine} (h : Moves m s t) : Moves m s (t.setLine x) := h.trans (Change.line x).moves
theorem setFront {x : FrontEnd} (h : Moves m s t) : Moves m s (t.setFront x) := h.trans (Change.front x).moves
theorem modStaging {r : ReaderId} {f : Staging → Staging} (h : Moves m s t) : Moves m s (t.modStaging r f) :=
  h.trans (Change.staging r _).moves
theorem modLoop {l : LoopId} {f : Loop → Loop} (h : Moves m s t) : Moves m s (t.modLoop l f) :=
  h.trans (Change.loop l _).moves
theorem choice (h : Moves m s t) : Moves m s { t with choice := t.choice + 1 } := h.trans Change.choice.moves

theorem modClimate {z : Zone} {f : Climate → Climate} (h : Moves m s t)
    (cap : CapHolds t.store.climate[z] t.climate[z] → CapHolds t.store.climate[z] (f t.climate[z])) :
    Moves m s (t.modClimate z f) :=
  h.trans (Change.climate z _ cap).moves

/-- A change of a hatch that leaves both shutters as they are. -/
theorem modHatch {i : HatchId} {f : Hatch → Hatch} (h : Moves m s t)
    (same : (f t.hatch[i]).shutters = t.hatch[i].shutters) : Moves m s (t.modHatch i f) := by
  obtain ⟨outer, inner⟩ := Prod.ext_iff.1 same
  have shutter : ∀ sd, (f t.hatch[i]).shutter sd = t.hatch[i].shutter sd := by
    rintro (_ | _)
    · exact outer
    · exact inner
  refine h.trans (Change.hatch i _ (fun sd e => ?_) fun _ sd e => ?_).moves <;> rw [shutter] <;> exact e

/-- A change of one shutter that keeps its lock, and its security too in a course that releases locks. -/
theorem modShutter {i : HatchId} {sd : Side} {f : Shutter → Shutter} (h : Moves m s t)
    (lock : (t.hatch[i].shutter sd).locked = true → (f (t.hatch[i].shutter sd)).locked = true)
    (secured : m.releases = true → (t.hatch[i].shutter sd).secured = true → (f (t.hatch[i].shutter sd)).secured = true) :
    Moves m s (t.modShutter i sd f) := by
  refine h.trans (Change.hatch i _ (fun sd' e => ?_) fun c sd' e => ?_).moves
  · rcases otherSide_or sd sd' with rfl | rfl
    · simpa using lock e
    · simpa using e
  · rcases otherSide_or sd sd' with rfl | rfl
    · simpa using secured c e
    · simpa using e

/-- Both shutters changed alike, their locks and sensors kept or made safer. -/
theorem bothShutters {i : HatchId} {g : Hatch → Hatch} {f : Shutter → Shutter} (h : Moves m s t)
    (shutters : ∀ x sd, (g x).shutter sd = f (x.shutter sd)) (lock : ∀ sh, sh.locked = true → (f sh).locked = true)
    (secured : ∀ sh, sh.secured = true → (f sh).secured = true) : Moves m s (t.modHatch i g) := by
  refine h.trans (Change.hatch i _ (fun sd e => ?_) fun _ sd e => ?_).moves <;> rw [shutters]
  · exact lock _ e
  · exact secured _ e

theorem modBank {b : BankId} {f : Bank → Bank} (h : Moves m s t) (law : BankLaw t.bank[b] → BankLaw (f t.bank[b])) :
    Moves m s (t.modBank b f) :=
  h.trans (Change.bank b _ law).moves

theorem setStore {st : Store} (h : Moves m s t) (keeps : t.store.Keeps st) : Moves m s (t.setStore st) :=
  h.trans (Change.store st keeps).moves

/-- A write of the store that leaves what the laws speak of. -/
theorem setOther {st : Store} (h : Moves m s t) (same : st.tied = t.store.tied) : Moves m s (t.setStore st) := by
  refine h.setStore ?_
  simp only [Store.tied, Prod.mk.injEq] at same
  obtain ⟨climate, hatch, table⟩ := same
  exact ⟨climate, fun i => by rw [hatch], fun h => by rwa [table]⟩

theorem actAll {α : Type} {act : α → State → State} {l : List α} (h : Moves m s t)
    (each : ∀ a s, Moves m s (act a s)) : Moves m s (Machine.actAll act l t) :=
  actAll_induction (P := Moves m s) h fun a _ h => h.trans (each a _)

theorem inFreeOrder {α : Type} {act : α → State → State} {l : List α} (h : Moves m s t)
    (each : ∀ a s, Moves m s (act a s)) : Moves m s (Machine.inFreeOrder act l t) :=
  inFreeOrder_induction (P := Moves m s) h.choice fun a _ h => h.trans (each a _)

theorem foldl {α : Type} {act : State → α → State} {l : List α} (h : Moves m s t)
    (each : ∀ s a, Moves m s (act s a)) : Moves m s (l.foldl act t) := by
  induction l generalizing t with
  | nil => exact h
  | cons a as ih => exact ih (h.trans (each t a))

theorem forLabels {f : Text → State → State} {ls : List Text} (h : Moves m s t) (each : ∀ l s, Moves m s (f l s)) :
    Moves m s (Machine.forLabels f ls t) :=
  h.foldl fun s l => each l s

end Moves

/-! ### The custody table and the manifests -/

/-- Records changed in place keep the table's law where label and home stand. -/
theorem TableLaw.map {cs : List Cartridge} (law : TableLaw cs) {f : Cartridge → Cartridge}
    (same : Cartridge.place ∘ f = Cartridge.place) : TableLaw (cs.map f) := by
  have label : ∀ c, (f c).label = c.label := fun c => congrArg Prod.fst (congrFun same c)
  have home : ∀ c, (f c).home = c.home := fun c => congrArg Prod.snd (congrFun same c)
  obtain ⟨ordered, homes, size⟩ := law
  refine ⟨?_, ?_, by simpa using size⟩
  · simpa [List.pairwise_map, label] using ordered
  · simpa [List.pairwise_map, home] using homes

theorem TableLaw.filter {cs : List Cartridge} (law : TableLaw cs) (p : Cartridge → Bool) : TableLaw (cs.filter p) :=
  ⟨law.ordered.filter p, law.homes.filter p, (List.length_filter_le p cs).trans law.size⟩

namespace Store.Keeps

variable {a b c : Store}

theorem refl (a : Store) : a.Keeps a := ⟨rfl, fun _ => rfl, id⟩

theorem trans (h : a.Keeps b) (h' : b.Keeps c) : a.Keeps c :=
  ⟨h'.climate.trans h.climate, fun i => (h'.zones i).trans (h.zones i), h'.table ∘ h.table⟩

theorem of_tied (same : b.tied = a.tied) : a.Keeps b := by
  simp only [Store.tied, Prod.mk.injEq] at same
  obtain ⟨climate, hatch, table⟩ := same
  exact ⟨climate, fun i => by rw [hatch], fun h => by rwa [table]⟩

theorem modManifest (a : Store) (id : Nat) (f : Manifest → Manifest) : a.Keeps (a.modManifest id f) :=
  of_tied rfl

/-- A record changed but for its label and home. -/
theorem modCartridge (a : Store) (l : Text) {f : Cartridge → Cartridge}
    (same : Cartridge.place ∘ f = Cartridge.place) : a.Keeps (a.modCartridge l f) := by
  refine ⟨rfl, fun _ => rfl, fun h => h.map (funext fun c => ?_)⟩
  rw [Function.comp_apply]
  split
  · exact congrFun same c
  · rfl

theorem moveItem (a : Store) (id : Nat) (l : Text) {f : Cartridge → Cartridge} (st : ItemStatus)
    (same : Cartridge.place ∘ f = Cartridge.place) : a.Keeps (a.moveItem id l f st) :=
  (modCartridge a l same).trans (modManifest _ _ _)

/-- Records changed one label after another. -/
theorem foldl {α : Type} {act : Store → α → Store} (each : ∀ (a : Store) x, a.Keeps (act a x)) (l : List α) (a : Store) :
    a.Keeps (l.foldl act a) := by
  induction l generalizing a with
  | nil => exact refl a
  | cons x xs ih => exact (each a x).trans (ih _)

end Store.Keeps

theorem countHold_place : Cartridge.place ∘ countHold = Cartridge.place := by
  funext c
  unfold Function.comp countHold
  split
  · split <;> rfl
  · rfl

theorem lowerHold_place (n : Nat) : Cartridge.place ∘ lowerHold n = Cartridge.place := by
  funext c
  unfold Function.comp lowerHold
  split
  · split <;> rfl
  · rfl

theorem releaseManifest_keeps (x : Manifest) (a : Store) : a.Keeps (releaseManifest x a) := by
  refine ⟨by rw [releaseManifest_eq], fun _ => by rw [releaseManifest_eq], fun h => ?_⟩
  rw [releaseManifest_eq]
  refine h.map (funext fun c => ?_)
  rw [Function.comp_apply]
  split
  · rfl
  · split <;> rfl

/-- A record put in its place keeps the order where its label is new (R44, R45). -/
theorem insertCartridge_ordered {c : Cartridge} {cs : List Cartridge} (new : ∀ d ∈ cs, d.label ≠ c.label)
    (h : cs.Pairwise fun a b => labelBefore a.label b.label = true) :
    (insertCartridge c cs).Pairwise fun a b => labelBefore a.label b.label = true := by
  induction cs with
  | nil => simp [insertCartridge]
  | cons d ds ih =>
    obtain ⟨first, rest⟩ := List.pairwise_cons.1 h
    simp only [insertCartridge]
    split
    · next before =>
      refine List.pairwise_cons.2 ⟨fun e he => ?_, h⟩
      rcases List.mem_cons.1 he with rfl | he
      · exact before
      · exact labelBefore_trans before (first e he)
    · next before =>
      have after : labelBefore d.label c.label = true := by
        rcases labelBefore_total c.label d.label with h | h | h
        · exact absurd h before
        · exact absurd h.symm (new d (by simp))
        · exact h
      refine List.pairwise_cons.2 ⟨fun e he => ?_, ih (fun x hx => new x (by simp [hx])) rest⟩
      rcases List.mem_cons.1 ((insertCartridge_perm c ds).mem_iff.1 he) with rfl | he
      · exact after
      · exact first e he

theorem TableLaw.insert {c : Cartridge} {cs : List Cartridge} (law : TableLaw cs) (label : ∀ d ∈ cs, d.label ≠ c.label)
    (home : ∀ d ∈ cs, d.home ≠ c.home) (room : cs.length < 2048) : TableLaw (insertCartridge c cs) := by
  have perm := insertCartridge_perm c cs
  refine ⟨insertCartridge_ordered label law.ordered, ?_, by rw [perm.length_eq]; simp; omega⟩
  exact (perm.pairwise_iff fun h => h.symm).2 (List.pairwise_cons.2 ⟨fun d hd => (home d hd).symm, law.homes⟩)

namespace Moves

theorem modCartridge {l : Text} {f : Cartridge → Cartridge} (h : Moves m s t)
    (same : Cartridge.place ∘ f = Cartridge.place) :
    Moves m s (t.modCartridge l f) :=
  h.setStore (.modCartridge _ l same)

theorem moveItem {id : Nat} {l : Text} {f : Cartridge → Cartridge} {st : ItemStatus} (h : Moves m s t)
    (same : Cartridge.place ∘ f = Cartridge.place) :
    Moves m s (t.moveItem id l f st) :=
  h.setStore (.moveItem _ id l st same)

theorem modManifest {id : Nat} {f : Manifest → Manifest} (h : Moves m s t) : Moves m s (t.modManifest id f) :=
  h.setStore (.modManifest _ _ _)

theorem takeHold {l : Text} {n : Nat} (h : Moves m s t) : Moves m s (Machine.takeHold l n t) := by
  unfold Machine.takeHold
  split
  · exact h
  · exact .ite (fun _ => (h.modCartridge (by rfl)).post (by rfl)) fun _ => h.modCartridge (by rfl)

theorem custodyMinute (h : Moves m s t) : Moves m s (Machine.custodyMinute t) := by
  unfold Machine.custodyMinute
  refine .postAll (.setStore h ?_) fun e he => ?_
  · exact ⟨rfl, fun _ => rfl, fun law => law.map countHold_place⟩
  · obtain ⟨c, -, rfl⟩ := List.mem_map.1 he
    exact rfl

theorem endHold {l : Text} (h : Moves m s t) : Moves m s (Machine.endHold l t) := by
  unfold Machine.endHold
  split
  · exact h
  · exact .ite (fun _ => (h.modCartridge countHold_place).post (by rfl)) fun _ => h

theorem expireManifest {cancelled : Bool} {x : Manifest} (h : Moves m s t) :
    Moves m s (Machine.expireManifest cancelled x t) := by
  refine (h.setStore (releaseManifest_keeps x t.store)).post ?_
  unfold expiredReport
  split <;> exact rfl

theorem manifestMinute (h : Moves m s t) : Moves m s (Machine.manifestMinute t) :=
  (h.setOther (by rfl)).actAll fun _ _ => (refl _).expireManifest

theorem endValidity {id : Nat} (h : Moves m s t) : Moves m s (Machine.endValidity id t) := by
  unfold Machine.endValidity
  split
  · exact .ite (fun _ => h.expireManifest) fun _ => h
  · exact h

theorem settle {id : Nat} (h : Moves m s t) : Moves m s (Machine.settle id t) := by
  unfold Machine.settle
  split
  · exact h
  · exact .ite (fun _ => h.modManifest) fun _ => h.setOther (by rfl)

theorem createManifest {x : Manifest} (h : Moves m s t) : Moves m s (Machine.createManifest x t) := by
  unfold Machine.createManifest
  refine h.setStore (Store.Keeps.trans (b :=
    { t.store with manifests := t.store.manifests ++ [x], lastManifest := x.id })
    (.of_tied rfl) ?_)
  dsimp only
  split
  · exact .foldl (fun a (i : Item) => .modCartridge a i.label (f := Cartridge.reserve x.id) rfl) _ _
  · exact .refl _

end Moves

/-! ### Zone climate -/

theorem capHolds_of_ne {st : ClimateSettings} {c : Climate} (h : c.mode ≠ .economy) : CapHolds st c :=
  fun e => absurd e h

theorem lowerDuty_le (c : Climate) (cap duty : Nat) (on : Bool) : (lowerDuty c cap duty on).1 ≤ cap := by
  unfold lowerDuty
  split <;> simp only <;> omega

theorem capHolds_capDuties (st : ClimateSettings) (c : Climate) : CapHolds st (capDuties st.cap c) :=
  fun _ => ⟨lowerDuty_le _ _ _ _, lowerDuty_le _ _ _ _⟩

theorem capHolds_toSelected (st : ClimateSettings) (sel : Selection) (c : Climate) :
    CapHolds st (toSelected st sel c) := by
  cases sel with
  | run => exact capHolds_of_ne nofun
  | economy => exact fun _ => ⟨lowerDuty_le _ _ _ _, lowerDuty_le _ _ _ _⟩

theorem capHolds_beginPeriod (st : ClimateSettings) (c : Climate) : CapHolds st (beginPeriod st c) := by
  intro e
  have e : c.mode = .economy := e
  simp only [beginPeriod, e, if_true]
  omega

/-- What only a cap below the one in force can break: a zone held to another cap where its duties are brought to it. -/
theorem capHolds_applied {st st' : ClimateSettings} {c : Climate} (h : CapHolds st c)
    (same : st'.cap = st.cap) : CapHolds st' c := by
  unfold CapHolds
  rw [same]
  exact h

namespace Moves

theorem toRun {z : Zone} (h : Moves m s t) : Moves m s (t.modClimate z Machine.toRun) :=
  h.modClimate fun _ => capHolds_of_ne nofun

theorem toSelected {z : Zone} {sel : Selection} (h : Moves m s t) :
    Moves m s (t.modClimate z (Machine.toSelected (t.climateSettings z) sel)) :=
  h.modClimate fun _ => capHolds_toSelected _ _ _

theorem beginPeriod {z : Zone} (h : Moves m s t) :
    Moves m s (t.modClimate z (Machine.beginPeriod (t.climateSettings z))) :=
  h.modClimate fun _ => capHolds_beginPeriod _ _

theorem breakEvent {z : Zone} {q : Quantity} (h : Moves m s t) : Moves m s (Machine.breakEvent z q t) := by
  unfold Machine.breakEvent
  split
  · exact h
  · exact h.toRun.post (by rfl)
  · exact h.toRun.post (by rfl)
  · exact h.modClimate fun law => law
  · exact h.modClimate fun law => law

theorem burstEvent {z : Zone} (h : Moves m s t) : Moves m s (Machine.burstEvent z t) := by
  unfold Machine.burstEvent
  split
  · exact h.modClimate fun _ => capHolds_of_ne nofun
  · exact h.modClimate fun law => law
  · exact h
  · exact h
  · exact h.modClimate fun law => law

theorem leaveHold {z : Zone} (h : Moves m s t) : Moves m s (Machine.leaveHold z t) := by
  unfold Machine.leaveHold
  exact modClimate (.ite (fun _ => h.toSelected.toRun.post (by rfl)) fun _ => h.toSelected) fun law => law

theorem modeStep {z : Zone} (h : Moves m s t) : Moves m s (Machine.modeStep z t) := by
  unfold Machine.modeStep
  dsimp only
  split
  · exact .ite (fun _ => h.leaveHold) fun _ => h
  · exact .ite (fun _ => h.modClimate fun _ => capHolds_of_ne nofun) fun _ => h

theorem testExcursion {z : Zone} {q : Quantity} {r : Reading} (h : Moves m s t) :
    Moves m s (Machine.testExcursion z q r t) := by
  unfold Machine.testExcursion
  dsimp only
  split
  · refine .ite (fun _ => h) fun _ => .ite (fun _ => breakEvent (post (modClimate h ?_) (by rfl))) fun _ =>
      post (modClimate h ?_) rfl
    all_goals cases q <;> exact fun law => law
  · exact h

theorem handZone {z : Zone} {rh temp : Option Reading} (h : Moves m s t) :
    Moves m s (Machine.handZone z rh temp t) := by
  have handed : ∀ f : Climate → Climate, (∀ c, (f c).mode = c.mode ∧ (f c).dh = c.dh ∧ (f c).hu = c.hu) →
      Moves m s (t.modClimate z f) := by
    intro f same
    refine h.modClimate fun law => ?_
    obtain ⟨mode, dh, hu⟩ := same t.climate[z]
    unfold CapHolds
    rw [mode, dh, hu]
    exact law
  unfold Machine.handZone
  cases rh with
  | none => cases temp with
    | none => exact handed _ fun _ => ⟨rfl, rfl, rfl⟩
    | some _ => refine (handed _ ?_).testExcursion; exact fun _ => ⟨rfl, rfl, rfl⟩
  | some _ => cases temp with
    | none => refine (handed _ ?_).modeStep.testExcursion; exact fun _ => ⟨rfl, rfl, rfl⟩
    | some _ => refine (handed _ ?_).modeStep.testExcursion.testExcursion; exact fun _ => ⟨rfl, rfl, rfl⟩

theorem shedReturn {z : Zone} (h : Moves m s t) : Moves m s (Machine.shedReturn z t) := by
  unfold Machine.shedReturn
  dsimp only
  split
  · refine modClimate ?_ fun law => law
    exact .ite (fun _ => .ite (fun _ => h.toSelected.toRun.post (by rfl)) fun _ => h.toSelected) fun _ =>
      .ite (fun _ => h.toSelected.modClimate fun _ => capHolds_of_ne nofun) fun _ => h.toSelected
  · exact h.modClimate fun _ => capHolds_of_ne nofun

theorem leaveShed {z : Zone} (h : Moves m s t) : Moves m s (Machine.leaveShed z t) := h.shedReturn.beginPeriod

theorem climateTakesFire {z : Zone} {l e : FireState} (h : Moves m s t) :
    Moves m s (Machine.climateTakesFire z l e t) :=
  .ite (fun _ => h.modClimate fun _ => capHolds_of_ne nofun) fun _ => .ite (fun _ => h.leaveShed) fun _ => h

end Moves

/-- A setting but the cap leaves the cap. -/
theorem ClimateSettings.write_cap {st : ClimateSettings} {n : ClimateName} {v : Int} (h : n ≠ .cap) :
    (st.write n v).cap = st.cap := by
  cases n with
  | cap => exact absurd rfl h
  | _ => rfl

theorem foldl_write_cap {given : List (ClimateName × Int)} (h : ∀ g ∈ given, g.1 ≠ .cap) (st : ClimateSettings) :
    (given.foldl (fun st g => st.write g.1 (usedClimate g.1 g.2)) st).cap = st.cap := by
  induction given generalizing st with
  | nil => rfl
  | cons g gs ih =>
    rw [List.foldl_cons, ih (fun x hx => h x (by simp [hx])), ClimateSettings.write_cap (h g (by simp))]

namespace Moves

/-- Settings written with the cap put to use at once (R22, R31): one change of the settings and the duties. -/
theorem writeClimate {z : Zone} {given : List (ClimateName × Int)} (h : Moves m s t) :
    Moves m s (Machine.writeClimate z given t) := by
  have written : ∀ (st : ClimateSettings) (f : Climate → Climate),
      (CapHolds t.store.climate[z] t.climate[z] → CapHolds st (f t.climate[z])) →
      Moves m s ((t.setStore { t.store with climate := t.store.climate.set z st }).modClimate z f) :=
    fun st f cap => h.trans (Change.settings z st _ cap).moves
  have unchanged : ∀ u : State, u = u.modClimate z id := fun u => by simp [State.modClimate, State.setClimate]
  unfold Machine.writeClimate
  dsimp only
  split
  · unfold applyCap
    split
    · refine written _ _ fun _ => ?_
      simpa [State.climateSettings] using capHolds_capDuties _ _
    · next other =>
      rw [unchanged (t.setStore _)]
      exact written _ _ fun _ => capHolds_of_ne other
  · next caps =>
    rw [unchanged (t.setStore _)]
    refine written _ _ fun law => capHolds_applied law (foldl_write_cap (fun g hg e => caps ?_) _)
    exact List.any_eq_true.2 ⟨g, hg, by simp [e]⟩

theorem selectMode {sel : Selection} {z : Zone} (h : Moves m s t) : Moves m s (Machine.selectMode sel z t) := by
  have stored : Moves m s (t.setStore { t.store with selection := t.store.selection.set z sel }) := h.setOther (by rfl)
  refine .ite (fun _ => ?_) fun _ => stored
  split
  · exact stored
  · exact stored
  · exact stored.toSelected

end Moves

end Sys2Proof.Machine
end

