-- ==== Sys2Proof/Proofs/ChangesOfBanks.lean ====
section
/-!
PROOFS. The rack banks make changes alone.
-/

namespace Sys2Proof.Machine

variable {m : Course} {s t : State}

/-! ### Banks -/

/-- The queue's part of the law of a bank. -/
def QueueFits (q : List Nat) : Prop := q.length ≤ 8 ∧ q.Nodup

theorem QueueFits.tail {k : Nat} {q : List Nat} (h : QueueFits (k :: q)) : QueueFits q :=
  ⟨by have := h.1; simp at this; omega, (List.nodup_cons.1 h.2).2⟩

theorem BankLaw.fits {x : Bank} (h : BankLaw x) : QueueFits x.queue := ⟨h.size, h.distinct⟩

/-- A bank whose drive is off in a motion in which it does not run. -/
theorem bankLaw_of_rest {x : Bank} (drive : x.drive.runs = false) (motion : x.motion.drives = false)
    (queue : QueueFits x.queue) : BankLaw x :=
  ⟨by rw [drive, motion], by simp [motion], queue.1, queue.2⟩

/-- A bank in a motion in which the drive does not run has its drive off. -/
theorem BankLaw.drive_off {x : Bank} (h : BankLaw x) (motion : x.motion.drives = false) : x.drive.runs = false := by
  rw [h.drive, motion]

theorem bankLaw_startHoming {m : Motion} (st : BankSettings) {x : Bank} (hm : m.drives = true) (queue : QueueFits x.queue) :
    BankLaw (startHoming m st x) :=
  ⟨by simp [startHoming, hm, Drive.runs], fun _ => rfl, queue.1, queue.2⟩

theorem bankLaw_startTravel {m : Motion} (st : BankSettings) (a k : Nat) {x : Bank} (hm : m.drives = true)
    (queue : QueueFits x.queue) : BankLaw (startTravel m st a k x) := by
  refine ⟨?_, fun _ => rfl, queue.1, queue.2⟩
  simp only [startTravel, driveToward, hm]
  split <;> rfl

/-- Locating a bank at home changes its position alone. -/
theorem locate_eq (x : Bank) : locate x = { x with position := (locate x).position } := by
  unfold locate
  split
  · split <;> rfl
  · rfl

theorem locate_motion (x : Bank) : (locate x).motion = x.motion := by rw [locate_eq]
theorem locate_drive (x : Bank) : (locate x).drive = x.drive := by rw [locate_eq]

namespace Moves

/-- A change of a bank at rest that leaves it at rest. -/
theorem restBank {b : BankId} {f : Bank → Bank} (h : Moves m s t) (rest : t.bank[b].motion.drives = false)
    (same : (f t.bank[b]).drive = t.bank[b].drive ∧ (f t.bank[b]).motion.drives = false)
    (queue : BankLaw t.bank[b] → QueueFits (f t.bank[b]).queue) : Moves m s (t.modBank b f) :=
  h.modBank fun law => bankLaw_of_rest (by rw [same.1, law.drive_off rest]) same.2 (queue law)

theorem waitClear {b : BankId} {k : Nat} (h : Moves m s t) (rest : t.bank[b].motion.drives = false) :
    Moves m s (Machine.waitClear b k t) := by
  refine .ite (fun _ => h.modBank fun law => ?_) fun _ => ?_
  · split
    · exact bankLaw_startHoming _ rfl law.fits
    · exact bankLaw_startTravel _ _ _ rfl law.fits
  · exact h.restBank rest ⟨rfl, rfl⟩ BankLaw.fits

theorem serve {b : BankId} {q : List Nat} (h : Moves m s t) (rest : t.bank[b].motion.drives = false)
    (fits : BankLaw t.bank[b] → QueueFits q) : Moves m s (Machine.serve b q t) := by
  induction q generalizing t with
  | nil => exact h.restBank rest ⟨rfl, rfl⟩ fun _ => ⟨by simp, by simp⟩
  | cons k ks ih =>
    unfold Machine.serve
    have located : (t.modBank b fun x => { locate x with queue := k :: ks }).bank[b].motion.drives = false := by
      rw [State.modBank_get]
      show (locate _).motion.drives = false
      rw [locate_motion, rest]
    have queued : Moves m s (t.modBank b fun x => { locate x with queue := k :: ks }) :=
      h.restBank rest ⟨locate_drive _, by rw [locate_motion, rest]⟩ fits
    refine .ite (fun _ => ih (queued.post (by rfl)) located fun law => ?_) fun _ =>
      .ite (fun _ => ih ((queued.restBank located ⟨rfl, located⟩ BankLaw.fits).post (by rfl)) ?_ fun law => ?_)
        fun _ => queued.waitClear located
    · have fits := law.fits
      rw [post_bank, State.modBank_get] at fits
      exact fits.tail
    · rw [post_bank, State.modBank_get]
      exact located
    · have fits := law.fits
      rw [post_bank, State.modBank_get, State.modBank_get] at fits
      exact fits.tail

theorem takeHead {b : BankId} (h : Moves m s t) (rest : t.bank[b].motion.drives = false) :
    Moves m s (Machine.takeHead b t) :=
  .ite (fun _ => h) fun _ => h.serve rest BankLaw.fits

/-- The bank to IDLE from any motion, its drive off and its queue standing. -/
theorem toIdle {b : BankId} {f : Bank → Bank} (h : Moves m s t)
    (off : BankLaw t.bank[b] → (f t.bank[b]).drive.runs = false ∧ QueueFits (f t.bank[b]).queue) :
    Moves m s (Machine.toIdle b (t.modBank b f)) := by
  have merged : (t.modBank b f).modBank b (fun x => { x with motion := .idle }) =
      t.modBank b fun x => { f x with motion := .idle } := by
    simp [State.modBank, State.setBank]
  unfold Machine.toIdle
  rw [merged]
  refine takeHead (h.modBank fun law => ?_) (by rw [State.modBank_get]; rfl)
  exact bankLaw_of_rest (off law).1 rfl (off law).2

theorem parkMove {b : BankId} {p : Nat} (h : Moves m s t) (rest : t.bank[b].motion.drives = false) :
    Moves m s (Machine.parkMove b p t) :=
  .ite (fun _ => (h.restBank rest ⟨rfl, rfl⟩ BankLaw.fits).post (by rfl)) fun _ =>
    .ite (fun _ => (h.restBank rest ⟨rfl, rfl⟩ BankLaw.fits).post (by rfl)) fun _ =>
      h.modBank fun law => bankLaw_startTravel _ _ _ rfl law.fits

/-- A motion start under fire park from any motion, the drive off and the queue standing. -/
theorem parkStart {b : BankId} {f : Bank → Bank} (h : Moves m s t)
    (off : BankLaw t.bank[b] → (f t.bank[b]).drive.runs = false ∧ QueueFits (f t.bank[b]).queue) :
    Moves m s (Machine.parkStart b (t.modBank b f)) := by
  have merged : (t.modBank b f).modBank b (fun x => { x with motion := .parkWait }) =
      t.modBank b fun x => { f x with motion := .parkWait } := by
    simp [State.modBank, State.setBank]
  have rest : (t.modBank b fun x => { f x with motion := .parkWait }).bank[b].motion.drives = false := by
    rw [State.modBank_get]; rfl
  have waits : Moves m s (t.modBank b fun x => { f x with motion := .parkWait }) :=
    h.modBank fun law => bankLaw_of_rest (off law).1 rfl (off law).2
  unfold Machine.parkStart
  rw [merged]
  dsimp only
  refine .ite (fun _ => ?_) fun _ => .ite (fun _ => waits) fun _ => ?_
  · split
    · exact waits.modBank fun law => bankLaw_startHoming _ rfl law.fits
    · refine parkMove (waits.restBank rest ⟨locate_drive _, by rw [locate_motion, rest]⟩ fun law => ?_) ?_
      · rw [locate_eq]; exact law.fits
      · rw [State.modBank_get, locate_motion, rest]
  · exact (waits.restBank rest ⟨rfl, rest⟩ BankLaw.fits).post (by rfl)

theorem comeToRest {b : BankId} {f : Bank → Bank} (h : Moves m s t)
    (off : BankLaw t.bank[b] → (f t.bank[b]).drive.runs = false ∧ QueueFits (f t.bank[b]).queue) :
    Moves m s (Machine.comeToRest b (t.modBank b f)) :=
  .ite (fun _ => h.parkStart off) fun _ => h.toIdle off

/-- A bank left as it is, written as a change, for the rules above. -/
theorem modBank_id (b : BankId) (u : State) : u.modBank b id = u := by simp [State.modBank, State.setBank]

theorem parkStart_rest {b : BankId} (h : Moves m s t) (rest : t.bank[b].motion.drives = false) :
    Moves m s (Machine.parkStart b t) := by
  rw [← modBank_id b t]
  exact h.parkStart fun law => ⟨law.drive_off rest, law.fits⟩

theorem toIdle_rest {b : BankId} (h : Moves m s t) (rest : t.bank[b].motion.drives = false) :
    Moves m s (Machine.toIdle b t) := by
  rw [← modBank_id b t]
  exact h.toIdle fun law => ⟨law.drive_off rest, law.fits⟩

/-- A bank change that leaves motion, drive, position and queue as they are. -/
theorem sideBank {b : BankId} {f : Bank → Bank} (h : Moves m s t)
    (same : (f t.bank[b]).tied = t.bank[b].tied) : Moves m s (t.modBank b f) := by
  refine h.modBank fun law => ?_
  simp only [Bank.tied, Prod.mk.injEq] at same
  obtain ⟨motion, drive, position, queue⟩ := same
  exact ⟨by rw [motion, drive, law.drive], by rw [motion, position]; exact law.position, by rw [queue]; exact law.size,
    by rw [queue]; exact law.distinct⟩

theorem parkBegins {b : BankId} (h : Moves m s t) : Moves m s (Machine.parkBegins b t) := by
  have demanded : Moves m s (t.modBank b fun x => { x with parkDemand := true, blockedPosted := false }) :=
    h.sideBank (by rfl)
  unfold Machine.parkBegins
  dsimp only
  split
  · next e => exact demanded.parkStart_rest (by rw [e]; rfl)
  · next e => exact demanded.parkStart_rest (by rw [e]; rfl)
  · next e => exact demanded.parkStart fun law => ⟨law.drive_off (by rw [e]; rfl), law.fits⟩
  · exact demanded

theorem parkEnds {b : BankId} (h : Moves m s t) : Moves m s (Machine.parkEnds b t) := by
  have released : Moves m s (t.modBank b fun x => { x with parkDemand := false }) := h.sideBank (by rfl)
  unfold Machine.parkEnds
  dsimp only
  split
  · next e => exact released.toIdle_rest (by rw [e]; rfl)
  · next e => exact released.toIdle_rest (by rw [e]; rfl)
  · next e => exact released.takeHead (by rw [e]; rfl)
  · exact released

theorem bankTakesFire {b : BankId} {l e : FireState} (h : Moves m s t) : Moves m s (Machine.bankTakesFire b l e t) :=
  .ite (fun _ => h.parkBegins) fun _ => .ite (fun _ => h.parkEnds) fun _ => h

theorem markArrival {b : BankId} (h : Moves m s t) : Moves m s (Machine.markArrival b t) := h.sideBank (by rfl)

theorem homed {b : BankId} (h : Moves m s t) : Moves m s (Machine.homed b t) := by
  have rests : Moves m s (Machine.comeToRest b (t.modBank b fun x =>
      { x with drive := .off, homing := none, position := some 0 })) :=
    h.comeToRest fun law => ⟨rfl, law.fits⟩
  exact .ite (fun _ => rests.markArrival) fun _ => rests

/-- The target reached taken from a queue that fits. -/
theorem queueFits_reached {q : List Nat} (h : QueueFits q) (k : Nat) :
    QueueFits (if q.head? = some k then q.tail else q) := by
  split
  · cases q with
    | nil => exact h
    | cons _ _ => exact h.tail
  · exact h

/-- A report posted before or after a change of a bank. -/
theorem post_modBank (e : Event) (b : BankId) (f : Bank → Bank) (u : State) :
    Machine.post e (u.modBank b f) = (Machine.post e u).modBank b f := rfl

theorem arrived {b : BankId} {k : Nat} (h : Moves m s t) : Moves m s (Machine.arrived b k t) := by
  unfold Machine.arrived
  dsimp only
  rw [post_modBank]
  exact markArrival ((h.post (by rfl)).comeToRest fun law => ⟨rfl, queueFits_reached law.fits k⟩)

theorem parkArrived {b : BankId} {k : Nat} (h : Moves m s t) : Moves m s (Machine.parkArrived b k t) := by
  have merged : ∀ f g : Bank → Bank, (t.modBank b f).modBank b g = t.modBank b (g ∘ f) := by
    intro f g
    simp [State.modBank, State.setBank]
  unfold Machine.parkArrived
  refine .ite (fun _ => post ?_ (by rfl)) fun _ => markArrival (h.toIdle fun law => ⟨rfl, law.fits⟩)
  rw [merged]
  exact h.modBank fun law => bankLaw_of_rest rfl rfl law.fits

theorem bankStops {b : BankId} {a : Aisle} (h : Moves m s t) : Moves m s (Machine.bankStops b a t) := by
  unfold Machine.bankStops
  dsimp only
  have stopped : ∀ e : Event, e.Ordinary → Moves m s (Machine.post e (t.modBank b fun x =>
      { x with
        motion := .stopped, drive := .off, homing := none, moving := none, travel := none, position := none,
        lastStop := some (a.val, t.bank[b].motion) })) := fun e he =>
    post (h.modBank fun law => bankLaw_of_rest rfl rfl law.fits) he
  have rest : ∀ x : Bank, (Motion.stopped).drives = false := fun _ => rfl
  refine .ite (fun _ => (stopped _ (by rfl)).parkStart_rest ?_) fun _ => (stopped _ (by rfl)).takeHead ?_ <;>
    rw [post_bank, State.modBank_get] <;> rfl

theorem sensorInput {b : BankId} {a : Aisle} (h : Moves m s t) : Moves m s (Machine.sensorInput b a t) := by
  unfold Machine.sensorInput
  exact h.sideBank (by rfl)

theorem sensorActive {b : BankId} {a : Aisle} (h : Moves m s t) : Moves m s (Machine.sensorActive b a t) := by
  unfold Machine.sensorActive
  dsimp only
  refine .ite (fun _ => h.sensorInput) fun _ => ?_
  split
  · exact .ite (fun _ => h.sensorInput.homed) fun _ => h.sensorInput
  · exact .ite (fun _ => h.sensorInput.homed) fun _ => h.sensorInput
  · exact .ite (fun _ => h.sensorInput.arrived) fun _ => h.sensorInput
  · exact .ite (fun _ => h.sensorInput.parkArrived) fun _ => h.sensorInput
  · exact h.sensorInput

theorem curtainInput {b : BankId} {a : Aisle} {r : Bool} (h : Moves m s t) : Moves m s (Machine.curtainInput b a r t) :=
  h.sideBank (by rfl)

theorem curtainClears {b : BankId} {a : Aisle} (h : Moves m s t) : Moves m s (Machine.curtainClears b a t) := by
  have cleared : Moves m s (Machine.curtainInput b a false t) := h.curtainInput
  refine .ite (fun _ => ?_) fun _ => cleared
  split
  · next e =>
    refine (cleared.sideBank (by rfl)).serve (by rw [State.modBank_get, e]; rfl) fun law => ?_
    have fits := law.fits
    rwa [State.modBank_get] at fits
  · next e => exact cleared.parkStart_rest (by rw [e]; rfl)
  · exact cleared

theorem breakAtArrival {b : BankId} {k : Nat} (h : Moves m s t) : Moves m s (Machine.breakAtArrival b k t) :=
  h.comeToRest fun law => ⟨rfl, law.fits⟩

theorem curtainBreaks {b : BankId} {a : Aisle} (h : Moves m s t) : Moves m s (Machine.curtainBreaks b a t) := by
  refine .ite (fun _ => ?_) fun _ => h.curtainInput
  split
  · exact h.curtainInput.breakAtArrival
  · exact h.curtainInput.bankStops

theorem blockExpires {b : BankId} (h : Moves m s t) : Moves m s (Machine.blockExpires b t) := by
  unfold Machine.blockExpires
  dsimp only
  split
  · next waiting _ queue =>
    refine .ite (fun _ => h) fun _ =>
      takeHead (post (h.restBank (by rw [waiting]; rfl) ⟨rfl, rfl⟩ fun law => ?_) (by rfl))
      (by rw [post_bank, State.modBank_get]; rfl)
    have fits := law.fits
    rw [queue] at fits
    exact fits.tail
  · exact h

theorem toFault {b : BankId} (h : Moves m s t) : Moves m s (t.modBank b Machine.toFault) :=
  h.modBank fun law => bankLaw_of_rest rfl rfl law.fits

theorem homingExpires {b : BankId} (h : Moves m s t) : Moves m s (Machine.homingExpires b t) := by
  unfold Machine.homingExpires
  split
  · exact h.toFault.post (by rfl)
  · exact h

theorem travelExpires {b : BankId} (h : Moves m s t) : Moves m s (Machine.travelExpires b t) := by
  unfold Machine.travelExpires
  split
  · exact h.toFault.post (by rfl)
  · exact h

/-- A target that has no place in the queue is not in it. -/
theorem not_mem_of_placeOf {k : Nat} {q : List Nat} (h : placeOf k q = none) : k ∉ q := by
  intro hk
  simp only [placeOf, Option.map_eq_none_iff, List.findIdx?_eq_none_iff] at h
  simpa using h k hk

theorem aisleRequest {b : BankId} {k : Nat} (h : Moves m s t) : Moves m s (Machine.aisleRequest b k t).1 := by
  unfold Machine.aisleRequest
  dsimp only
  split
  · exact h
  · split
    · exact h
    · split
      · exact h
      · next new =>
        split
        · exact h
        · next room =>
          have queued : Moves m s (t.modBank b fun x => { x with queue := x.queue ++ [k] }) := by
            refine h.modBank fun law => ⟨law.drive, law.position, ?_, ?_⟩
            · rw [List.length_append, List.length_singleton]
              exact Nat.lt_of_not_le room
            · exact List.Nodup.append law.distinct (by simp) (by simpa using not_mem_of_placeOf new)
          refine .ite (fun rest => queued.takeHead ?_) fun _ => queued
          rw [State.modBank_get]
          show t.bank[b].motion.drives = false
          rcases rest with e | e <;> rw [e] <;> rfl

end Moves

end Sys2Proof.Machine
end

