-- ==== Sys2Proof/Proofs/ChangesOfHatches.lean ====
section
/-!
PROOFS. The hatches make changes alone.
-/

namespace Sys2Proof.Machine

variable {m : Course} {s t : State}

/-! ### Shutters -/

theorem engage_secured {sh : Shutter} (h : sh.secured = true) : (engage sh).secured = true := by
  simp only [Shutter.secured, Bool.and_eq_true] at h
  simpa [Shutter.secured, engage] using h.2

theorem driveCloser_locked (sh : Shutter) : (driveCloser sh).locked = sh.locked := by
  unfold driveCloser; split <;> rfl

theorem driveCloser_secured (sh : Shutter) : (driveCloser sh).secured = sh.secured := by
  unfold driveCloser; split <;> rfl

theorem Hatch.bothShutters_shutter (x : Hatch) (f : Shutter → Shutter) (sd : Side) :
    (x.bothShutters f).shutter sd = f (x.shutter sd) := by
  cases sd <;> rfl

namespace Moves

theorem enterIdle {i : HatchId} (h : Moves m s t) : Moves m s (Machine.enterIdle i t) := h.modHatch (by rfl)

theorem wake {i : HatchId} (h : Moves m s t) : Moves m s (Machine.wake i t) := by
  unfold Machine.wake
  split
  · exact h.enterIdle
  · exact h.modHatch (by rfl)
  · exact h

theorem light {i : HatchId} {c : Colour} {n : Option Nat} (h : Moves m s t) : Moves m s (Machine.light i c n t) :=
  h.modHatch (by rfl)

theorem toPhase {i : HatchId} {p : Phase} (h : Moves m s t) : Moves m s (Machine.toPhase i p t) := h.modHatch (by rfl)

theorem setTray {i : HatchId} {y : Tray} (h : Moves m s t) : Moves m s (Machine.setTray i y t) := h.modHatch (by rfl)

theorem startScan {i : HatchId} {w : ScanFor} (h : Moves m s t) : Moves m s (Machine.startScan i w t) :=
  h.modHatch (by rfl)

/-- A release called for, in a course that may release locks. -/
theorem unlock {i : HatchId} {sd : Side} (h : Moves m s t) (course : m.releases = true) :
    Moves m s (Machine.unlock i sd t) := by
  rcases unlock_cases i sd t with ⟨-, e⟩ | ⟨-, may, e⟩ | ⟨-, -, e⟩ <;> rw [e]
  · exact h
  · exact h.trans (Change.release i sd course may).moves
  · exact h.modHatch (f := fun x => { x with unlockDue := some sd }) (by rfl)

theorem serveDue {i : HatchId} (h : Moves m s t) (course : m.releases = true) : Moves m s (Machine.serveDue i t) := by
  rcases serveDue_cases i t with e | ⟨sd, -, -, e⟩ <;> rw [e]
  · exact h
  · exact h.unlock course

theorem setHandover {i : HatchId} {r : Option Handover} (h : Moves m s t) : Moves m s (t.setHandover i r) :=
  h.setOther (by rfl)

theorem modHandover {i : HatchId} {f : Handover → Handover} (h : Moves m s t) : Moves m s (t.modHandover i f) :=
  h.setHandover

theorem saveTray {i : HatchId} (h : Moves m s t) : Moves m s (Machine.saveTray i t) := h.modHandover

theorem setClass {i : HatchId} {c : PhaseClass} (h : Moves m s t) : Moves m s (Machine.setClass i c t) := h.modHandover

theorem addEntry {i : HatchId} {e : Entry} (h : Moves m s t) : Moves m s (Machine.addEntry i e t) := h.modHandover

theorem beginHandover {i : HatchId} {x : Manifest} {c : PhaseClass} (h : Moves m s t) :
    Moves m s (Machine.beginHandover i x c t) :=
  h.setHandover.modHatch (by rfl)

theorem letGo {i : HatchId} (h : Moves m s t) : Moves m s (Machine.letGo i t) := by
  unfold Machine.letGo
  dsimp only
  split
  · exact h.modManifest.setHandover.enterIdle
  · exact h.setHandover.enterIdle

theorem toCourierAccess {i : HatchId} (h : Moves m s t) (course : m.releases = true) :
    Moves m s (Machine.toCourierAccess i t) :=
  h.toPhase.unlock course

theorem toReceipt {i : HatchId} (h : Moves m s t) : Moves m s (Machine.toReceipt i t) := by
  unfold Machine.toReceipt
  split
  · exact h
  · split
    · exact h
    · exact post (modHatch (toPhase (h.setOther (by rfl))) (by rfl)) (by rfl)

/-! ### Scans -/

theorem afterLoad {i : HatchId} {resumed : Bool} {y : Tray} (h : Moves m s t) (course : m.releases = true) :
    Moves m s (Machine.afterLoad i resumed y t) :=
  .ite (fun _ => h.letGo) fun _ => .ite (fun _ => h.setClass.toPhase.unlock course) fun _ =>
    .ite (fun _ => h.setClass.toPhase) fun _ => h.letGo

theorem loadScanEnd {i : HatchId} {resumed : Bool} {y : Tray} (h : Moves m s t) (course : m.releases = true) :
    Moves m s (Machine.loadScanEnd i resumed y t) := by
  unfold Machine.loadScanEnd
  split
  · exact h.setTray
  · exact afterLoad (saveTray (setTray (forLabels (forLabels h fun _ _ => (refl _).moveItem (by rfl))
      fun _ _ => (refl _).moveItem (by rfl)))) course

theorem enterRemoved {i : HatchId} {y : Tray} (h : Moves m s t) : Moves m s (Machine.enterRemoved i y t) := by
  unfold Machine.enterRemoved
  split
  · exact h
  · exact h.foldl fun u _ => (refl u).addEntry

theorem toStuck {i : HatchId} (h : Moves m s t) : Moves m s (Machine.toStuck i t) := by
  unfold Machine.toStuck
  exact modHatch (toPhase (post (h.modShutter (fun _ => rfl) fun _ => engage_secured) (by rfl))) (by rfl)

theorem rejectsRemain {i : HatchId} (h : Moves m s t) (course : m.releases = true) :
    Moves m s (Machine.rejectsRemain i t) := by
  unfold Machine.rejectsRemain
  split
  · exact h
  · exact .ite (fun _ => h.toStuck) fun _ => h.unlock course
  · exact (h.toPhase.modHatch (by rfl)).unlock course

theorem rejectsGone {i : HatchId} (h : Moves m s t) : Moves m s (Machine.rejectsGone i t) := h.modHatch (by rfl)

theorem takenBy {i : HatchId} {x : Manifest} {sd : Side} {l : Text} (h : Moves m s t) :
    Moves m s (Machine.takenBy i x sd l t) := by
  cases sd with
  | outer => exact (h.moveItem (by rfl)).addEntry
  | inner => exact (h.moveItem (by rfl)).addEntry

theorem settleGone {i : HatchId} {x : Manifest} {y : Tray} (h : Moves m s t) :
    Moves m s (Machine.settleGone i x y t) := by
  unfold Machine.settleGone
  split
  · exact h
  · refine .forLabels ?_ fun _ _ => (refl _).takenBy
    unfold goneSide
    split
    · exact h
    · exact h.choice

theorem toUnload {i : HatchId} {y : Tray} (h : Moves m s t) (course : m.releases = true) :
    Moves m s (Machine.toUnload i y t) :=
  .ite (fun _ => h.toReceipt) fun _ => h.toPhase.unlock course

theorem finishOutbound {i : HatchId} {x : Manifest} {y : Tray} (h : Moves m s t) (course : m.releases = true) :
    Moves m s (Machine.finishOutbound i x y t) := by
  have taken : Moves m s (Machine.setTray i (withVerdicts y fun _ => .none)
      (Machine.forLabels (Machine.takenBy i x .inner) (x.labelsIn .loaded) (Machine.rejectsGone i t))) :=
    (h.rejectsGone.forLabels fun _ _ => (refl _).takenBy).setTray
  exact .ite (fun _ => taken.saveTray.toReceipt) fun _ => taken.setClass.saveTray.toPhase.unlock course

theorem outboundScanEnd {i : HatchId} {y : Tray} (h : Moves m s t) (course : m.releases = true) :
    Moves m s (Machine.outboundScanEnd i y t) := by
  unfold Machine.outboundScanEnd
  dsimp only
  split
  · exact h.enterRemoved.setTray
  · exact .ite (fun _ => h.enterRemoved.settleGone.setTray.saveTray.rejectsRemain course) fun _ =>
      h.enterRemoved.settleGone.setTray.saveTray.finishOutbound course

theorem toConditioning {i : HatchId} (h : Moves m s t) : Moves m s (Machine.toConditioning i t) := by
  unfold Machine.toConditioning
  exact h.modHandover.toPhase.modHatch (by rfl)

theorem receiveOne {i : HatchId} {x : Manifest} {a : Text × TrayPos} (h : Moves m s t) :
    Moves m s (Machine.receiveOne i x a t) :=
  .ite (fun _ => (h.modCartridge (by rfl)).addEntry) fun _ => h.moveItem (by rfl)

theorem inboundScanEnd {i : HatchId} {y : Tray} (h : Moves m s t) (course : m.releases = true) :
    Moves m s (Machine.inboundScanEnd i y t) := by
  unfold Machine.inboundScanEnd
  dsimp only
  split
  · exact h.enterRemoved.setTray
  · refine .ite (fun _ => h.enterRemoved.setTray.saveTray.rejectsRemain course) fun _ => ?_
    have received : ∀ (l : List (Text × TrayPos)) (x : Manifest) (u : Tray), Moves m s (Machine.saveTray i
        (Machine.setTray i u ((l.foldl (fun v a => Machine.receiveOne i x a v)
          (Machine.rejectsGone i (Machine.enterRemoved i y t))).modManifest x.id Manifest.expire))) := fun _ _ _ =>
      (h.enterRemoved.rejectsGone.foldl fun u _ => (refl u).receiveOne).modManifest.setTray.saveTray
    exact .ite (fun _ => (received _ _ _).toConditioning) fun _ => (received _ _ _).toReceipt

theorem reconcileScanEnd {i : HatchId} {y : Tray} (h : Moves m s t) (course : m.releases = true) :
    Moves m s (Machine.reconcileScanEnd i y t) := by
  unfold Machine.reconcileScanEnd
  split
  · exact h.setTray
  · split
    · exact h.outboundScanEnd course
    · exact h.inboundScanEnd course

theorem unloadGone {i : HatchId} {y : Tray} (h : Moves m s t) : Moves m s (Machine.unloadGone i y t) := by
  unfold Machine.unloadGone
  split
  · exact h
  · exact h.forLabels fun _ _ => ((refl _).moveItem (by rfl)).addEntry

theorem unloadScanEnd {i : HatchId} {y : Tray} (h : Moves m s t) (course : m.releases = true) :
    Moves m s (Machine.unloadScanEnd i y t) :=
  toUnload (saveTray (setTray (.ite (fun _ => h.unloadGone) fun _ => h))) course

/-! ### Conditioning and the minute -/

theorem keepHold {i : HatchId} {x : Manifest} {risk : Bool} (h : Moves m s t) :
    Moves m s (Machine.keepHold i x risk t) :=
  (h.modHatch (by rfl)).forLabels fun _ _ => (refl _).modCartridge (by rfl)

theorem openGate {i : HatchId} {risk : Bool} (h : Moves m s t) (course : m.releases = true) :
    Moves m s (Machine.openGate i risk t) := by
  unfold Machine.openGate
  dsimp only
  split
  · exact (h.keepHold.modHatch (by rfl)).modHandover.saveTray.toPhase.unlock course
  · exact (h.modHatch (by rfl)).modHandover.saveTray.toPhase.unlock course

theorem evaluateGate {i : HatchId} (h : Moves m s t) (course : m.releases = true) :
    Moves m s (Machine.evaluateGate i t) :=
  .ite (fun _ => .ite (fun _ => (h.modHatch (by rfl)).openGate course) fun _ => h.modHatch (by rfl)) fun _ => h

theorem hatchMinute {i : HatchId} (h : Moves m s t) : Moves m s (Machine.hatchMinute i t) :=
  .ite (fun _ => .ite (fun _ => ((h.modHatch (by rfl)).modHatch (by rfl)).post (by rfl)) fun _ =>
    h.modHatch (by rfl)) fun _ => h

theorem limitReached {i : HatchId} (h : Moves m s t) : Moves m s (Machine.limitReached i t) :=
  .ite (fun _ => h.hatchMinute) fun _ => h

theorem takenToStaff {i : HatchId} {l : Text} {p : TrayPos} (h : Moves m s t) :
    Moves m s (Machine.takenToStaff i l p t) :=
  h.takeHold.addEntry

theorem staffDone {i : HatchId} (h : Moves m s t) : Moves m s (Machine.staffDone i t) :=
  .ite (fun _ => h.toReceipt) fun _ => h

/-! ### Fire hold and resume -/

theorem endQuery {i : HatchId} {c : QueryEnd} (h : Moves m s t) : Moves m s (Machine.endQuery i c t) := by
  unfold Machine.endQuery
  split
  · exact h
  · exact (h.modHatch (by rfl)).light.post (by rfl)

theorem holdHatch {i : HatchId} (h : Moves m s t) : Moves m s (Machine.holdHatch i t) := by
  have engaged : Moves m s (t.modHatch i fun x => asideScan { x.bothShutters engage with unlockDue := none }) :=
    h.bothShutters (f := engage) (fun x sd => by cases sd <;> rfl) (fun _ _ => rfl) fun _ => engage_secured
  exact .ite (fun _ => engaged) fun _ => modHatch (.ite (fun _ => engaged.endQuery) fun _ => engaged) (by rfl)

theorem hatchTakesFire {i : HatchId} {l e : FireState} (h : Moves m s t) :
    Moves m s (Machine.hatchTakesFire i l e t) := by
  have held : Moves m s (if !l.holds && e.holds then Machine.holdHatch i t else t) :=
    .ite (fun _ => h.holdHatch) fun _ => h
  have driven : ∀ u, Moves m s u → Moves m s (if e = .predischarge ∧ l ≠ .predischarge then
      u.modHatch i (·.bothShutters driveCloser) else u) := fun u hu =>
    .ite (fun _ => hu.bothShutters (fun x => x.bothShutters_shutter driveCloser)
      (fun sh h => by rw [driveCloser_locked, h]) fun sh h => by rw [driveCloser_secured, h]) fun _ => hu
  have stopped : ∀ u, Moves m s u → Moves m s (u.modHatch i (·.bothShutters stopCloser)) := fun u hu =>
    hu.bothShutters (fun x => x.bothShutters_shutter stopCloser) (fun _ h => h) fun _ h => h
  exact .ite (fun _ => .ite (fun _ => (stopped _ (driven _ held)).startScan) fun _ =>
    stopped _ (driven _ held)) fun _ =>
    driven _ held

theorem goesMissing {i : HatchId} {r : Handover} {mark : Bool} {l : Text} {p : TrayPos} (h : Moves m s t) :
    Moves m s (Machine.goesMissing i r mark l p t) := by
  unfold Machine.goesMissing
  dsimp only
  split
  · exact (h.moveItem (by rfl)).addEntry.post (by rfl)
  · exact (h.modCartridge (by rfl)).addEntry.post (by rfl)

theorem settleLost {i : HatchId} {r : Handover} {rec_ : Bool} {a : Text × TrayPos} (h : Moves m s t) :
    Moves m s (Machine.settleLost i r rec_ a t) := by
  refine .ite (fun _ => h.goesMissing) fun _ => ?_
  split
  · exact h.goesMissing
  · exact h.goesMissing
  · exact h.takenToStaff
  · exact h

theorem resumeIn {i : HatchId} {c : PhaseClass} {y u : Tray} (h : Moves m s t) (course : m.releases = true) :
    Moves m s (Machine.resumeIn i c y u t) := by
  cases c with
  | load => exact h.toPhase.loadScanEnd course
  | wait => exact h.setTray.saveTray.toPhase
  | outAccess => exact h.toPhase.outboundScanEnd course
  | outUnload => exact h.setTray.saveTray.toUnload course
  | abortUnload => exact h.unloadGone.setTray.saveTray.toUnload course
  | inAccess => exact h.toPhase.inboundScanEnd course
  | inCondition => exact h.setTray.saveTray.toConditioning
  | inStaff => exact h.setTray.saveTray.toConditioning
  | receipt => exact h.setTray.toPhase

theorem resumeHatch {i : HatchId} {y : Tray} (h : Moves m s t) (course : m.releases = true) :
    Moves m s (Machine.resumeHatch i y t) := by
  unfold Machine.resumeHatch
  dsimp only
  split
  · exact (h.modHatch (by rfl)).setTray.enterIdle
  · exact (h.modHatch (by rfl)).resumeIn course
  · exact (h.modHatch (by rfl)).setTray.enterIdle
  · exact ((h.modHatch (by rfl)).foldl fun u _ => (refl u).settleLost).resumeIn course

theorem scanEnds {i : HatchId} {reads : Vector TrayRead 24} (h : Moves m s t) (course : m.releases = true) :
    Moves m s (Machine.scanEnds i reads t) := by
  unfold Machine.scanEnds
  dsimp only
  split
  · exact h
  · split
    · exact (h.modHatch (by rfl)).loadScanEnd course
    · exact (h.modHatch (by rfl)).unloadScanEnd course
    · exact (h.modHatch (by rfl)).reconcileScanEnd course
    · exact (h.modHatch (by rfl)).resumeHatch course
    · exact h.modHatch (by rfl)

theorem phaseClosed {i : HatchId} {sd : Side} (h : Moves m s t) : Moves m s (Machine.phaseClosed i sd t) := by
  unfold Machine.phaseClosed
  split
  · exact h.toPhase.startScan
  · exact h.startScan
  · exact h.toPhase.startScan
  · exact h.startScan
  · exact h.startScan
  · exact h.startScan
  · exact h.staffDone
  · exact h

theorem phaseRelocked {i : HatchId} {sd : Side} (h : Moves m s t) (course : m.releases = true) :
    Moves m s (Machine.phaseRelocked i sd t) := by
  unfold Machine.phaseRelocked
  split
  · split
    · split
      · exact h.setClass.toPhase
      · exact h.letGo
    · exact h
  · exact h.unlock course
  · exact h.staffDone
  · exact h

theorem recordOpening {i : HatchId} {sd : Side} (h : Moves m s t) : Moves m s (Machine.recordOpening i sd t) := by
  unfold Machine.recordOpening
  cases sd with
  | outer => exact h.modHatch (by rfl)
  | inner => exact (h.modHatch (by rfl)).burstEvent

/-! ### The hatch's requests and inputs -/

theorem closeQuery {i : HatchId} {c : QueryEnd} (h : Moves m s t) : Moves m s (Machine.closeQuery i c t) :=
  h.endQuery.enterIdle

theorem beginInbound {i : HatchId} {x : Manifest} (h : Moves m s t) (course : m.releases = true) :
    Moves m s (Machine.beginInbound i x t) :=
  h.beginHandover.light.toCourierAccess course

theorem afterReceipt {i : HatchId} (h : Moves m s t) : Moves m s (Machine.afterReceipt i t) := by
  unfold Machine.afterReceipt
  split
  · exact h.enterIdle
  · exact h.modHatch (by rfl)
  · exact h

theorem badgeInIdle {i : HatchId} {c : Nat} (h : Moves m s t) (course : m.releases = true) :
    Moves m s (Machine.badgeInIdle i c t) := by
  unfold Machine.badgeInIdle
  split
  · exact h.modManifest.beginInbound course
  · exact ((h.toPhase.modHatch (by rfl)).post (by rfl)).light

theorem badgeInAwait {i : HatchId} {c : Nat} (h : Moves m s t) (course : m.releases = true) :
    Moves m s (Machine.badgeInAwait i c t) := by
  unfold Machine.badgeInAwait
  split
  · exact h
  · exact .ite (fun _ => h.light.setClass.toCourierAccess course) fun _ => h.light.post (by rfl)

theorem badgeTaken {i : HatchId} {b : Option Nat} (h : Moves m s t) (course : m.releases = true) :
    Moves m s (Machine.badgeTaken i b t) := by
  refine .ite (fun _ => h.wake) fun _ => ?_
  split
  · exact h.wake.badgeInIdle course
  · exact h.wake.light
  · exact h.wake.badgeInAwait course
  · exact h.wake.light
  · exact h.wake.light
  · exact h.wake.light
  · exact h.wake

theorem buttonPressed {i : HatchId} (h : Moves m s t) (course : m.releases = true) :
    Moves m s (Machine.buttonPressed i t) :=
  .ite (fun _ => h.unlock course) fun _ => h

/-- A shutter that is UNLOCKED opens: it was not secured. -/
theorem shutterOpens {i : HatchId} {sd : Side} (h : Moves m s t) : Moves m s (Machine.shutterOpens i sd t) := by
  refine .ite (fun unlocked => recordOpening (wake (h.modShutter (fun e => e) fun _ secured => ?_))) fun _ => h
  simp only [Shutter.unlocked, Shutter.secured, Bool.and_eq_true, Bool.not_eq_true'] at unlocked secured
  rw [unlocked.1] at secured
  cases secured.1

theorem shutterCloses {i : HatchId} {sd : Side} (h : Moves m s t) (course : m.releases = true) :
    Moves m s (Machine.shutterCloses i sd t) :=
  .ite (fun _ => serveDue (phaseClosed (wake (h.modShutter (fun _ => rfl) fun _ _ => rfl))) course) fun _ => h

/-- A sensor that reads OPEN, in a course that releases no lock. -/
theorem sensorReads {i : HatchId} {sd : Side} {o : Bool} (h : Moves m s t) (course : m.releases = false) :
    Moves m s (Machine.sensorReads i sd o t) :=
  h.modShutter (fun e => e) fun c => by rw [c] at course; cases course

/-- A sensor that reads CLOSED. -/
theorem sensorCloses {i : HatchId} {sd : Side} (h : Moves m s t) : Moves m s (Machine.sensorReads i sd false t) :=
  h.modShutter (fun e => e) fun _ e => by
    simp only [Shutter.secured, Bool.and_eq_true] at e ⊢
    exact ⟨e.1, rfl⟩

theorem shutterForced {i : HatchId} {sd : Side} (h : Moves m s t) (course : m.releases = false) :
    Moves m s (Machine.shutterForced i sd t) :=
  .ite (fun _ => ((h.sensorReads course).wake.post (by rfl)).recordOpening) fun _ => h

theorem shutterCaught {i : HatchId} {sd : Side} (h : Moves m s t) (course : m.releases = true) :
    Moves m s (Machine.shutterCaught i sd t) :=
  .ite (fun _ => serveDue (wake (h.modShutter (fun e => e) fun _ e => by
    simp only [Shutter.secured, Bool.and_eq_true] at e ⊢
    exact ⟨e.1, rfl⟩)) course) fun _ => h

theorem unlockExpires {i : HatchId} {sd : Side} (h : Moves m s t) (course : m.releases = true) :
    Moves m s (Machine.unlockExpires i sd t) :=
  .ite (fun _ => serveDue (phaseRelocked (h.modShutter (fun _ => rfl) fun _ =>
    engage_secured) course) course) fun _ => h

theorem openTooLong {i : HatchId} {sd : Side} (h : Moves m s t) : Moves m s (Machine.openTooLong i sd t) :=
  .ite (fun _ => post (h.modShutter (fun e => e) fun _ e => e) (by rfl)) fun _ => h

theorem notSecured {i : HatchId} {sd : Side} (h : Moves m s t) : Moves m s (Machine.notSecured i sd t) :=
  .ite (fun _ => post (h.modShutter (fun e => e) fun _ e => e) (by rfl)) fun _ => h

theorem presenceReads {i : HatchId} {p : TrayIdx} {o : Bool} (h : Moves m s t) :
    Moves m s (Machine.presenceReads i p o t) :=
  h.modHatch (by rfl)

theorem presenceChanges {i : HatchId} {p : TrayIdx} {o : Bool} (h : Moves m s t) :
    Moves m s (Machine.presenceChanges i p o t) := by
  unfold Machine.presenceChanges
  dsimp only
  refine .ite (fun _ => h) fun _ => .ite (fun _ => ?_) fun _ => h.wake.presenceReads.modHatch (by rfl)
  split
  · exact (h.wake.presenceReads.modHatch (by rfl)).takenToStaff.saveTray.staffDone
  · exact (h.wake.presenceReads.modHatch (by rfl)).staffDone

theorem rejectExpires {i : HatchId} (h : Moves m s t) : Moves m s (Machine.rejectExpires i t) :=
  .ite (fun _ => .ite (fun _ => h.modHatch (by rfl)) fun _ => h.toStuck) fun _ => h

theorem idleExpires {i : HatchId} (h : Moves m s t) : Moves m s (Machine.idleExpires i t) :=
  .ite (fun _ => .ite (fun _ => h.modHatch (by rfl)) fun _ => h.modHatch (by rfl)) fun _ => h

end Moves

end Sys2Proof.Machine
end

