-- ==== Sys2Proof/Proofs/ChangesOfFire.lean ====
section
/-!
PROOFS. The fire zones, the loops, the staging ports, the front end, the minute and a start make changes alone.
-/

namespace Sys2Proof.Machine

variable {m : Course} {s t : State}

/-! ### Fire zones -/

/-- The fire states in which no countdown, soak or vent stands (R158). -/
def FireState.plain : FireState → Bool
  | .starting => true
  | .normal => true
  | .prealarm => true
  | .alarm => true
  | _ => false

/-- A zone in a plain state has none of what the other states hold. -/
theorem FireLaw.plain {x : FireZone} (law : FireLaw x) (h : x.state.plain = true) :
    x.countdown = .stopped ∧ x.ventOut = false ∧ x.vent = none ∧ x.soak = none ∧ x.soakComplete = false := by
  have predischarge : x.state ≠ .predischarge := by rintro e; rw [e] at h; cases h
  have discharged : x.state ≠ .discharged := by rintro e; rw [e] at h; cases h
  have vent : x.state ≠ .vent := by rintro e; rw [e] at h; cases h
  refine ⟨law.countdown.2 predischarge, ?_, ?_, ?_, ?_⟩
  · simpa using mt law.ventOut.1 vent
  · simpa using mt law.vent.1 vent
  · simpa using mt (fun e => (law.soak e).1) discharged
  · simpa using mt law.complete (by simp [discharged, vent])

/-- A zone with none of what the other states hold stands lawfully in a plain state. -/
theorem fireLaw_of_plain {x : FireZone} (h : x.state.plain = true) (countdown : x.countdown = .stopped)
    (ventOut : x.ventOut = false) (vent : x.vent = none) (soak : x.soak = none) (complete : x.soakComplete = false)
    (pulse : x.releaseOut = x.pulse.isSome) : FireLaw x := by
  have predischarge : x.state ≠ .predischarge := by rintro e; rw [e] at h; cases h
  have open_ : x.state ≠ .vent := by rintro e; rw [e] at h; cases h
  constructor <;> simp_all

/-- A move from one plain state to another. -/
theorem FireLaw.move {x : FireZone} (law : FireLaw x) (h : x.state.plain = true) {e : FireState} (he : e.plain = true) :
    FireLaw { x with state := e } := by
  obtain ⟨countdown, ventOut, vent, soak, complete⟩ := law.plain h
  exact fireLaw_of_plain he countdown ventOut vent soak complete law.pulse

section

variable {x : FireZone} (law : FireLaw x)
include law

theorem FireLaw.toPredischarge (plain : x.state.plain = true) {c : Countdown} (hc : c ≠ .stopped) :
    FireLaw { x with countdown := c, state := .predischarge } := by
  obtain ⟨-, ventOut, vent, soak, complete⟩ := law.plain plain
  exact ⟨by simp [hc], by simp [ventOut], by simp [vent], law.pulse, by simp [soak], by simp [complete]⟩

theorem FireLaw.recount {c : Countdown} (hc : c = .stopped ↔ x.countdown = .stopped) :
    FireLaw { x with countdown := c } :=
  ⟨hc.trans law.countdown, law.ventOut, law.vent, law.pulse, law.soak, law.complete⟩

/-- What PREDISCHARGE has of the other states: its countdown alone. -/
theorem FireLaw.predischarge (state : x.state = .predischarge) :
    x.ventOut = false ∧ x.vent = none ∧ x.soak = none ∧ x.soakComplete = false := by
  refine ⟨?_, ?_, ?_, ?_⟩
  · simpa [state] using mt law.ventOut.1
  · simpa [state] using mt law.vent.1
  · simpa [state] using mt fun e => (law.soak e).1
  · simpa [state] using mt law.complete

theorem FireLaw.heldOff (state : x.state = .predischarge) :
    FireLaw { x with countdown := .stopped, state := .alarm } := by
  obtain ⟨ventOut, vent, soak, complete⟩ := law.predischarge state
  exact fireLaw_of_plain rfl rfl ventOut vent soak complete law.pulse

theorem FireLaw.released (state : x.state = .predischarge) (n k w : Nat) :
    FireLaw { x with
      countdown := .stopped, releaseOut := true, pulse := some n, confirmWait := some k, confirmSeen := false,
      soak := some w, soakComplete := false, state := .discharged } := by
  obtain ⟨ventOut, vent, -, -⟩ := law.predischarge state
  exact ⟨by simp, by simp [ventOut], by simp [vent], rfl, fun _ => ⟨rfl, rfl⟩, nofun⟩

theorem FireLaw.vents (complete : x.soakComplete = true) (n : Nat) :
    FireLaw { x with ventOut := true, vent := some n, state := .vent } := by
  have soak : x.soak = none := by
    have h := mt fun e => (law.soak e).2
    simpa [complete] using h
  have stopped : x.countdown = .stopped := law.countdown.2 fun e => by
    rcases law.complete complete with h | h <;> rw [h] at e <;> cases e
  exact ⟨by simp [stopped], by simp, by simp, law.pulse, by simp [soak], fun _ => .inr rfl⟩

theorem FireLaw.ventEnds (state : x.state = .vent) :
 
      FireLaw { x with ventOut := false, vent := none, soakComplete := false, confirmSeen := false, state := .normal } := by
  have soak : x.soak = none := by simpa [state] using mt fun e => (law.soak e).1
  exact fireLaw_of_plain rfl (law.countdown.2 (by rw [state]; simp)) rfl rfl soak rfl law.pulse

end

theorem enterFire_state (z : Zone) (e : FireState) (c : FireCause) (s : State) :
    (enterFire z e c s).fire[z].state = e := by
  rw [enterFire_fire]
  simp

namespace Moves

theorem modFire {z : Zone} {f : FireZone → FireZone} (h : Moves m s t) (law : FireLaw t.fire[z] → FireLaw (f t.fire[z]))
    (course : m.releases = true → (f t.fire[z]).state = t.fire[z].state)
    (output : (f t.fire[z]).releaseOut = true → t.fire[z].releaseOut = true ∨ m.agent = some z) :
    Moves m s (t.modFire z f) :=
  h.trans (Change.fire z _ law course output).moves

/-- A change of a fire zone that leaves its law's fields as they are. -/
theorem sideFire {z : Zone} {f : FireZone → FireZone} (h : Moves m s t)
    (same : (f t.fire[z]).tied = t.fire[z].tied) : Moves m s (t.modFire z f) := by
  simp only [FireZone.tied, Prod.mk.injEq] at same
  obtain ⟨state, countdown, ventOut, vent, releaseOut, pulse, soak, complete⟩ := same
  refine h.modFire (fun law => ?_) (fun _ => state) fun e => .inl (releaseOut ▸ e)
  obtain ⟨l1, l2, l3, l4, l5, l6⟩ := law
  constructor <;> simpa only [state, countdown, ventOut, vent, releaseOut, pulse, soak, complete]

theorem react {z : Zone} {l e : FireState} {r : FireTaker} (h : Moves m s t) : Moves m s (Machine.react z l e r t) := by
  cases r with
  | climate => exact h.climateTakesFire
  | hatch _ => exact h.hatchTakesFire
  | bank _ => exact h.bankTakesFire

/-- A state entered together with what the zone makes ready for it. -/
theorem enterFire {z : Zone} {e : FireState} {c : FireCause} {f : FireZone → FireZone} (h : Moves m s t)
    (course : m.releases = false) (law : FireLaw t.fire[z] → FireLaw { f t.fire[z] with state := e })
    (output : (f t.fire[z]).releaseOut = true → t.fire[z].releaseOut = true ∨ m.agent = some z) :
    Moves m s (Machine.enterFire z e c (t.modFire z f)) := by
  have merged : (t.modFire z f).modFire z (fun x => { x with state := e }) =
      t.modFire z fun x => { f x with state := e } := by
    simp [State.modFire, State.setFire]
  unfold Machine.enterFire
  rw [merged]
  exact inFreeOrder (post (h.modFire law (fun c => by rw [c] at course; cases course) output) (by rfl)) fun _ _ => (refl _).react

theorem modFire_id (z : Zone) (u : State) : u.modFire z id = u := by simp [State.modFire, State.setFire]

theorem enterPlain {z : Zone} {e : FireState} {c : FireCause} (h : Moves m s t) (course : m.releases = false)
    (plain : t.fire[z].state.plain = true) (he : e.plain = true) : Moves m s (Machine.enterFire z e c t) := by
  rw [← modFire_id z t]
  exact h.enterFire course (fun law => law.move plain he) .inl

theorem moveFire {z : Zone} {e : FireState} {c : FireCause} (h : Moves m s t) (course : m.releases = false)
    (plain : t.fire[z].state.plain = true) (he : e.plain = true) : Moves m s (Machine.moveFire z e c t) :=
  .ite (fun _ => h) fun _ => h.enterPlain course plain he

theorem toPredischarge {z : Zone} {c : FireCause} (h : Moves m s t) (course : m.releases = false)
    (plain : t.fire[z].state.plain = true) : Moves m s (Machine.toPredischarge z c t) := by
  refine h.enterFire course (fun law => law.toPredischarge plain ?_) .inl
  simp only [loadedCountdown]
  split <;> simp

theorem heldOffReports {z : Zone} (h : Moves m s t) : Moves m s (Machine.postAll (Machine.heldOffReports z t) t) := by
  refine h.postAll fun e he => ?_
  unfold Machine.heldOffReports at he
  rcases List.mem_append.1 he with he | he <;> split at he
  · rw [List.mem_singleton.1 he]; exact rfl
  · cases he
  · rw [List.mem_singleton.1 he]; exact rfl
  · cases he

theorem releaseTest {z : Zone} {c : FireCause} (h : Moves m s t) (course : m.releases = false)
    (plain : t.fire[z].state.plain = true) : Moves m s (Machine.releaseTest z c t) :=
  .ite (fun _ => h.heldOffReports) fun _ => h.toPredischarge course plain

theorem manualPath {z : Zone} (h : Moves m s t) (course : m.releases = false)
    (plain : t.fire[z].state.plain = true) : Moves m s (Machine.manualPath z t) :=
  .ite (fun _ => (h.moveFire course plain rfl).heldOffReports) fun _ => h.toPredischarge course plain

theorem evaluate {z : Zone} {c : FireCause} (h : Moves m s t) (course : m.releases = false)
    (plain : t.fire[z].state.plain = true) : Moves m s (Machine.evaluate z c t) :=
  .ite (fun _ => h.manualPath course plain) fun _ =>
    .ite (fun _ => (h.enterPlain course plain rfl).releaseTest course (by rw [enterFire_state]; rfl)) fun _ =>
      .ite (fun _ => h.moveFire course plain rfl) fun _ => h.moveFire course plain rfl

theorem takeDetectorChange {z : Zone} {n : Nat} (h : Moves m s t) (course : m.releases = false) :
    Moves m s (Machine.takeDetectorChange z n t) := by
  unfold Machine.takeDetectorChange State.fireState
  split
  · next e => exact h.evaluate course (by rw [e]; rfl)
  · next e => exact h.evaluate course (by rw [e]; rfl)
  · next e => exact .ite (fun _ => h.manualPath course (by rw [e]; rfl)) fun _ => h
  · refine h.modFire (fun law => ?_) (fun _ => ?_) fun e => .inl ?_
    · split
      · next frozen =>
        split
        · exact law.recount (by rw [frozen]; simp)
        · exact law
      · exact law
    · split
      · split <;> rfl
      · rfl
    · revert e
      split
      · split <;> exact id
      · exact id
  · exact h

theorem tryLeaveStarting {z : Zone} {c : FireCause} (h : Moves m s t) (course : m.releases = false) :
    Moves m s (Machine.tryLeaveStarting z c t) := by
  refine .ite (fun starting => ?_) fun _ => h
  have plain : t.fire[z].state.plain = true := by
    have e : t.fire[z].state = .starting := starting.1
    rw [e]; rfl
  exact (h.enterPlain course plain rfl).evaluate course (by rw [enterFire_state]; rfl)

theorem clearLatches {z : Zone} (h : Moves m s t) : Moves m s (Machine.clearLatches z t) := by
  refine ((h.trans (Change.loop 0 _).moves).trans (Change.loop 1 _).moves).postAll fun e he => ?_
  obtain ⟨d, -, hd⟩ := List.mem_filterMap.1 he
  dsimp only at hd
  split at hd
  · cases hd
  · obtain rfl := Option.some.inj hd
    exact rfl

theorem isolateReads {z : Zone} {on : Bool} (h : Moves m s t) : Moves m s (Machine.isolateReads z on t) :=
  h.sideFire (by rfl)
theorem abortReads {z : Zone} {held : Bool} (h : Moves m s t) : Moves m s (Machine.abortReads z held t) :=
  h.sideFire (by rfl)
theorem confirmReads {z : Zone} {on : Bool} (h : Moves m s t) : Moves m s (Machine.confirmReads z on t) :=
  h.sideFire (by rfl)

/-- What the isolate key makes of a zone in PREDISCHARGE or ALARM, its own report posted or not. -/
theorem isolateActs {z : Zone} {on : Bool} (h : Moves m s t) (course : m.releases = false) :
    Moves m s (match t.fireState z, on with
      | .predischarge, true => Machine.post (.isolated z) (Machine.enterFire z .alarm .isolateOn
          (t.modFire z fun x => { x with countdown := .stopped }))
      | .alarm, false => isolateOffInAlarm z t
      | _, _ => t) := by
  split
  · next e => exact post (h.enterFire course (fun law => law.heldOff e) .inl) (by rfl)
  · next e =>
    have plain : t.fire[z].state.plain = true := by
      have e : t.fire[z].state = .alarm := e
      rw [e]; rfl
    exact .ite (fun _ => h.manualPath course plain) fun _ =>
      .ite (fun _ => h.releaseTest course plain) fun _ => h
  · exact h

theorem isolateKey {z : Zone} {on : Bool} (h : Moves m s t) (course : m.releases = false) :
    Moves m s (Machine.isolateKey z on t) :=
  .ite (fun _ => h) fun _ => isolateActs (.ite (fun _ => h.isolateReads) fun _ => h.isolateReads.post (by rfl)) course

/-- The abort station stops no countdown and starts none. -/
theorem abortedCountdown_stopped (held : Bool) (manual full : Nat) (c : Countdown) :
    abortedCountdown held manual full c = .stopped ↔ c = .stopped := by
  cases c <;> simp only [abortedCountdown] <;> (try split) <;> simp

theorem abortStation {z : Zone} {held : Bool} (h : Moves m s t) : Moves m s (Machine.abortStation z held t) := by
  refine .ite (fun _ => h) fun _ => .ite (fun _ => ?_) fun _ => h.abortReads
  exact (h.abortReads.modFire (fun law => law.recount (abortedCountdown_stopped _ _ _ _)) (fun _ => rfl) .inl).post (by rfl)

theorem confirmSeen {z : Zone} (h : Moves m s t) : Moves m s (Machine.confirmSeen z t) := by
  unfold Machine.confirmSeen
  split
  · exact .ite (fun _ => (h.sideFire (by rfl)).post (by rfl)) fun _ => h
  · exact h

/-- The release of a zone's agent, from PREDISCHARGE, in the course of that zone's release alone (R168). -/
theorem release {z : Zone} (h : Moves m s t) (course : m.releases = false) (agent : m.agent = some z)
    (state : t.fire[z].state = .predischarge) : Moves m s (Machine.release z t) := by
  have stored : Moves m s (t.setStore { t.store with spent := t.store.spent.set z true }) := h.setOther (by rfl)
  exact (stored.enterFire course (fun law => law.released state _ _ _) fun _ => .inr agent).confirmSeen

theorem confirmWaitExpires {z : Zone} (h : Moves m s t) : Moves m s (Machine.confirmWaitExpires z t) := by
  unfold Machine.confirmWaitExpires
  split
  · exact .ite (fun _ => h.sideFire (by rfl)) fun _ => (h.sideFire (by rfl)).post (by rfl)
  · exact h

theorem soakExpires {z : Zone} (h : Moves m s t) : Moves m s (Machine.soakExpires z t) := by
  unfold Machine.soakExpires State.fireState
  split
  · next state _ =>
    refine ((h.modFire (fun law => ?_) (fun _ => rfl) .inl).post (by rfl))
    exact ⟨law.countdown, law.ventOut, law.vent, law.pulse, fun e => (by cases e), fun _ => .inl state⟩
  · exact h

/-- The loops clear a zone's latches whatever the zone's own state. -/
theorem clearLatches_modFire (z : Zone) (f : FireZone → FireZone) (u : State) :
    Machine.clearLatches z (u.modFire z f) = (Machine.clearLatches z u).modFire z f := by
  simp only [Machine.clearLatches, postAll_eq]
  rfl

theorem clearLatches_fire (z : Zone) (u : State) : (Machine.clearLatches z u).fire = u.fire := by
  simp only [Machine.clearLatches, postAll_eq]
  rfl

theorem ventExpires {z : Zone} (h : Moves m s t) (course : m.releases = false) :
    Moves m s (Machine.ventExpires z t) := by
  unfold Machine.ventExpires State.fireState
  dsimp only
  split
  · next state _ =>
    have merged : ∀ f g : FireZone → FireZone, ∀ u : State, (u.modFire z f).modFire z g = u.modFire z (g ∘ f) := by
      intro f g u
      simp [State.modFire, State.setFire]
    rw [clearLatches_modFire, merged]
    refine (h.clearLatches.enterFire course (fun law => ?_) .inl).evaluate course (by rw [enterFire_state]; rfl)
    rw [clearLatches_fire] at law ⊢
    exact law.ventEnds state
  · exact h

theorem pulseExpires {z : Zone} (h : Moves m s t) :
    Moves m s (t.modFire z fun x => { x with releaseOut := false, pulse := none }) :=
  h.modFire (fun law => ⟨law.countdown, law.ventOut, law.vent, rfl, law.soak, law.complete⟩) (fun _ => rfl) nofun

theorem ventStarts {z : Zone} {n : Nat} (h : Moves m s t) (course : m.releases = false)
    (complete : t.fire[z].soakComplete = true) :
    Moves m s (Machine.enterFire z .vent .startVent (t.modFire z fun x =>
      { x with ventOut := true, vent := some n })) :=
  h.enterFire course (fun law => law.vents complete n) .inl

/-! ### Detection loops -/

theorem modDet {l : LoopId} {a : Address} {f : Detector → Detector} (h : Moves m s t) : Moves m s (t.modDet l a f) :=
  h.modLoop

theorem beginPoll {l : LoopId} {i : LoopItem} {a : Address} (h : Moves m s t) :
    Moves m s (Machine.beginPoll l i a t) := by
  unfold Machine.beginPoll Machine.sendOrder
  exact h.modLoop.modDet

theorem nextItem {l : LoopId} (h : Moves m s t) : Moves m s (Machine.nextItem l t) := by
  unfold Machine.nextItem
  split
  · exact h.beginPoll
  · exact h.modLoop

theorem changeReport_ordinary {l : LoopId} {a : Address} {e : DetEntry} {x y : Detector} :
    ∀ r ∈ changeReport l a e x y, r.Ordinary := by
  intro r hr
  unfold changeReport at hr
  split at hr
  · cases hr
  · split at hr
    · rw [List.mem_singleton.1 hr]; exact rfl
    · split at hr <;> rw [List.mem_singleton.1 hr] <;> exact rfl

theorem disableReport_ordinary {l : LoopId} {a : Address} {e : DetEntry} {x : Detector} :
    ∀ r ∈ disableReport l a e x, r.Ordinary := by
  intro r hr
  unfold disableReport at hr
  split at hr
  · rw [List.mem_singleton.1 hr]; exact rfl
  · exact changeReport_ordinary r hr

theorem changeDetector {l : LoopId} {a : Address} {f : Detector → Detector} (h : Moves m s t)
    (course : m.releases = false) : Moves m s (Machine.changeDetector l a f t) :=
  .ite (fun _ => h.modDet) fun _ => (h.modDet.postAll changeReport_ordinary).takeDetectorChange course

theorem completeItem {l : LoopId} (h : Moves m s t) : Moves m s (Machine.completeItem l t) :=
  .ite (fun _ => h.modLoop.post (by rfl)) fun _ => h.modLoop

theorem firstPassDone {l : LoopId} (h : Moves m s t) (course : m.releases = false) :
    Moves m s (Machine.firstPassDone l t) :=
  .ite (fun _ => h) fun _ => h.modLoop.inFreeOrder fun _ _ => (refl _).tryLeaveStarting course

theorem movePosition {l : LoopId} {a : Address} (h : Moves m s t) (course : m.releases = false) :
    Moves m s (Machine.movePosition l a t) := by
  unfold Machine.movePosition
  split
  · exact h.modLoop
  · exact h.modLoop.firstPassDone course

theorem pollEnds {l : LoopId} {take : LoopId → Address → State → State} (h : Moves m s t) (course : m.releases = false)
    (taken : ∀ a u, Moves m u (take l a u)) : Moves m s (Machine.pollEnds l take t) := by
  have answer : ∀ a u, Moves m s u → Moves m s (Machine.takeAnswer l take a u) := fun a u hu =>
    .ite (fun _ => hu.trans (taken a u)) fun _ => hu
  unfold Machine.pollEnds
  dsimp only
  split
  · exact nextItem (.ite (fun _ => answer _ _ h.modLoop.completeItem) fun _ =>
      (answer _ _ h.modLoop.completeItem).movePosition course)
  · exact (answer _ _ h.completeItem).nextItem
  · exact h

theorem alertTaken {l : LoopId} {as : List Address} (h : Moves m s t) : Moves m s (Machine.alertTaken l as t) := by
  unfold Machine.alertTaken
  split
  · exact .ite (fun _ => h) fun _ => h.modLoop
  · exact h

theorem roundEnds {l : LoopId} (h : Moves m s t) : Moves m s (Machine.roundEnds l t) := by
  unfold Machine.roundEnds
  split
  · exact .ite (fun _ => h.beginPoll) fun _ => h.completeItem.nextItem
  · exact h

theorem countAbandoned {l : LoopId} (h : Moves m s t) : Moves m s (Machine.countAbandoned l t) :=
  .ite (fun _ => h.modLoop.post (by rfl)) fun _ => h.modLoop

theorem itemAbandoned {l : LoopId} (h : Moves m s t) : Moves m s (Machine.itemAbandoned l t) := by
  unfold Machine.itemAbandoned
  split
  · exact h
  · exact h.modLoop.countAbandoned.nextItem
  · exact h.countAbandoned.nextItem

theorem setDetEntry {l : LoopId} {a : Address} {e : DetEntry} (h : Moves m s t) : Moves m s (t.setDetEntry l a e) :=
  h.setOther (by rfl)

theorem handEnable {z : Zone} {d : Bool} {n : Nat} (h : Moves m s t) (course : m.releases = false) :
    Moves m s (Machine.handEnable z d n t) :=
  ((ite (fun _ => h) fun _ => h.post (by rfl)).takeDetectorChange course).tryLeaveStarting course

theorem enableDetector {l : LoopId} {a : Address} (h : Moves m s t) (course : m.releases = false) :
    Moves m s (Machine.enableDetector l a t) := by
  have placed : ∀ e d, Moves m s (if ((t.setDetEntry l a e).modDet l a d).loop[l].position = none then
      ((t.setDetEntry l a e).modDet l a d).modLoop l fun x => { x with position := some a } else
      (t.setDetEntry l a e).modDet l a d) := fun _ _ =>
    .ite (fun _ => h.setDetEntry.modDet.modLoop) fun _ => h.setDetEntry.modDet
  exact handEnable (.ite (fun _ => (placed _ _).nextItem) fun _ => placed _ _) course

theorem disableDetector {l : LoopId} {a : Address} (h : Moves m s t) (course : m.releases = false) :
    Moves m s (Machine.disableDetector l a t) := by
  unfold Machine.disableDetector
  dsimp only
  exact .ite (fun _ => ((h.setDetEntry.modDet.modLoop.postAll disableReport_ordinary).handEnable course).movePosition
    course) fun _ => (h.setDetEntry.modDet.modLoop.postAll disableReport_ordinary).handEnable course

/-! ### Staging ports -/

theorem requestShelf {c : Cartridge} (h : Moves m s t) : Moves m s (Machine.requestShelf c t) := by
  unfold Machine.requestShelf
  dsimp only
  refine .ite (fun _ => h.post (by rfl)) fun _ => ?_
  have asked : Moves m s (Machine.aisleRequest c.home.bank c.home.aisle t).1 := h.aisleRequest
  split
  · next e => rw [e] at asked; exact asked.post (by rfl)
  · next e => rw [e] at asked; exact asked

theorem custodyRead {r : ReaderId} {c : Cartridge} (h : Moves m s t) : Moves m s (Machine.custodyRead r c t).1 := by
  unfold Machine.custodyRead
  dsimp only
  split
  · exact h.moveItem (by rfl)
  · exact (h.modCartridge (by rfl)).requestShelf
  · exact (h.modCartridge (by rfl)).post (by rfl)
  all_goals exact h.post (by rfl)

theorem decideRead {r : ReaderId} {l : Text} {k : Char} (h : Moves m s t) :
    Moves m s (Machine.decideRead r l k t).1 := by
  unfold Machine.decideRead
  split
  · exact h.post (by rfl)
  · split
    · exact h.post (by rfl)
    · exact h.post (by rfl)
    · split
      · exact h.post (by rfl)
      · exact h.custodyRead

theorem stagingRead {r : ReaderId} {run : LabelRun} (h : Moves m s t) : Moves m s (Machine.stagingRead r run t) := by
  unfold Machine.stagingRead
  split
  · exact h.modStaging
  · exact .ite (fun _ => h.modStaging) fun _ => h.decideRead.modStaging

/-! ### The sensor front end -/

theorem formZone {gs : List Group} {force : Bool} {z : Zone} (h : Moves m s t) :
    Moves m s (Machine.formZone gs force z t) :=
  handZone (.ite (fun _ => .ite (fun _ => h) fun _ => h.setFront.post (by rfl)) fun _ => h)

theorem formHatch {gs : List Group} {force : Bool} {i : HatchId} (h : Moves m s t) :
    Moves m s (Machine.formHatch gs force i t) := by
  unfold Machine.formHatch
  exact h.modHatch (by rfl)

theorem formOwners {gs : List Group} {extra : List Owner} {force : Bool} (h : Moves m s t) :
    Moves m s (Machine.formOwners gs extra force t) :=
  (h.actAll fun _ _ => (refl _).formZone).actAll fun _ _ => (refl _).formHatch

theorem restartGroups {gs : List Group} {extra : List Owner} (h : Moves m s t) :
    Moves m s (Machine.restartGroups gs extra t) :=
  h.setFront.formOwners

theorem takeCode_ordinary {ch : Channel} {k : ChanKind} {c : Coef} {code : Code} {x : ChanLive} :
    ∀ e ∈ (takeCode ch k c code x).2, e.Ordinary := by
  unfold takeCode
  dsimp only
  intro e he
  split at he
  · split at he
    · rw [List.mem_singleton.1 he]; exact rfl
    · cases he
  · split at he
    · split at he
      · rw [List.mem_singleton.1 he]; exact rfl
      · cases he
    · cases he

theorem takeScan {g : Group} {codes : Vector Code 24} (h : Moves m s t) : Moves m s (Machine.takeScan g codes t) :=
  h.foldl fun u _ => (refl u).setFront.postAll takeCode_ordinary

theorem setGroup {g : Group} {x : GroupLive} (h : Moves m s t) : Moves m s (Machine.setGroup g x t) := h.setFront

theorem completeScan {g : Group} {codes : Vector Code 24} (h : Moves m s t) (course : m.releases = true) :
    Moves m s (Machine.completeScan g codes t) := by
  have gates : ∀ u, Moves m s u → Moves m s (Machine.evaluateGates g (Machine.formOwners [g] [] false u)) := fun _ hu =>
    .ite (fun _ => hu.formOwners.actAll fun _ _ => (refl _).evaluateGate course) fun _ => hu.formOwners
  refine gates _ ?_
  split
  · exact h.setGroup
  · exact h.setGroup.takeScan
  · exact h.setGroup.takeScan
  · exact h.setGroup

theorem timerExpires {i : TimerId} (h : Moves m s t) (course : m.releases = true) :
    Moves m s (Machine.timerExpires i t) :=
  h.setFront.actAll fun _ u => .ite (fun _ => .ite (fun _ => (refl u).completeScan course) fun _ => (refl u).setGroup)
    fun _ => refl u

theorem scanDone {g : Group} {codes : Vector Code 24} (h : Moves m s t) (course : m.releases = true) :
    Moves m s (Machine.scanDone g codes t) :=
  .ite (fun _ => h.completeScan course) fun _ => h

theorem finishCalibration {g : Group} {codes : Vector CalCodes 24} (h : Moves m s t) :
    Moves m s (Machine.finishCalibration g codes t) := by
  unfold Machine.finishCalibration
  exact restartGroups (post (h.setOther (by rfl)) (by rfl))

theorem beginCalibration {g : Group} (h : Moves m s t) : Moves m s (Machine.beginCalibration g t) :=
  .ite (fun _ => h.setGroup.formOwners.finishCalibration) fun _ => h.setGroup.formOwners

theorem calibrationDone {g : Group} {codes : Vector CalCodes 24} (h : Moves m s t) :
    Moves m s (Machine.calibrationDone g codes t) :=
  .ite (fun _ => h.finishCalibration) fun _ => h

theorem applyEntry {c : Channel} {e : ChanEntry} (h : Moves m s t) : Moves m s (Machine.applyEntry c e t) := by
  have stored : Moves m s (t.setStore { t.store with channels := t.store.channels.set c e }) := h.setOther (by rfl)
  have retired : ∀ u, Moves m s u → Moves m s (Machine.retireChannel c u) := fun _ hu =>
    .ite (fun _ => hu.setFront.post (by rfl)) fun _ => hu.setFront
  unfold Machine.applyEntry
  dsimp only
  split
  · exact .ite (fun _ => retired _ stored) fun _ => stored
  · exact (ite (fun _ => retired _ stored) fun _ => stored).restartGroups

theorem writeCoef {c : Channel} {k : Coef} (h : Moves m s t) : Moves m s (Machine.writeCoef c k t) := by
  refine .ite (fun _ => h) fun _ => ?_
  exact restartGroups (h.setOther (by rfl))

/-! ### The minute and the start -/

theorem takeMinute {k : MinuteTaker} (h : Moves m s t) : Moves m s (Machine.takeMinute k t) := by
  cases k with
  | custody => exact h.custodyMinute
  | manifests => exact h.manifestMinute
  | hatch _ => exact h.hatchMinute

theorem minuteIncreases (h : Moves m s t) : Moves m s (Machine.minuteIncreases t) :=
  (h.trans Change.minute.moves).inFreeOrder fun _ _ => (refl _).takeMinute

/-- A hatch whose shutters are both engaged in place of the old one. -/
theorem freshHatch {i : HatchId} {x : Hatch} (h : Moves m s t) (course : m.releases = false)
    (locked : ∀ sd, (x.shutter sd).locked = true) : Moves m s (t.setHatch i x) :=
  h.trans (Change.hatch i x (fun sd _ => locked sd) fun c => by rw [c] at course; cases course).moves

theorem startHatch {i : HatchId} (h : Moves m s t) (course : m.releases = false) :
    Moves m s (Machine.startHatch i t) := by
  have engaged : ∀ sh : Shutter, (driveCloser { sensorOpen := sh.sensorOpen }).locked = true := fun _ => by
    rw [driveCloser_locked]
  unfold Machine.startHatch
  dsimp only
  split
  · exact h.setHandover.freshHatch course fun sd => by cases sd <;> exact engaged _
  · exact h.freshHatch course fun sd => by cases sd <;> exact engaged _
  · exact h.freshHatch course fun sd => by cases sd <;> exact engaged _

theorem bringUpHatch {i : HatchId} (h : Moves m s t) (course : m.releases = false) :
    Moves m s (Machine.bringUpHatch i t) :=
  ((h.startHatch course).modHatch (by rfl)).holdHatch

theorem startUp {c : StartCause} (h : Moves m s t) (course : m.releases = false) : Moves m s (Machine.startUp c t) := by
  refine inFreeOrder (bringUpHatch (bringUpHatch (post (h.trans (Change.cold course true _).moves) (by rfl)) course) course) ?_
  intro a u
  cases a with
  | manifests => exact (refl u).actAll fun _ v => (refl v).modManifest.post (by rfl)
  | zone _ => exact (refl u).tryLeaveStarting course

theorem powerDown (h : Moves m s t) (course : m.releases = false) : Moves m s (Machine.powerDown t) :=
  h.trans (Change.cold course false _).moves

theorem replyStarts (h : Moves m s t) : Moves m s (Machine.replyStarts t) := by
  unfold Machine.replyStarts
  split
  · exact .ite (fun _ => h.setLine.choice) fun _ => h.setLine
  · exact h

theorem replyEnds (h : Moves m s t) (course : m.releases = false) : Moves m s (Machine.replyEnds t) := by
  unfold Machine.replyEnds
  split
  · exact .ite (fun _ => h.setLine.startUp course) fun _ => h.setLine
  · exact h

end Moves

end Sys2Proof.Machine
end

