-- ==== Sys2Proof/Proofs/ChangesOfCommands.lean ====
section
/-!
PROOFS. Every request and every command is a course of changes.
-/

namespace Sys2Proof.Machine

variable {m : Course} {s t : State}

/-! ### Requests -/

/-- The request's effect is changes of the course, in every state. -/
def RequestMoves (m : Course) (r : Request) : Prop := ∀ s, Moves m s (r s).1

namespace RequestMoves

theorem answer {w : StatusWord} {b : Body} : RequestMoves m (Machine.answer w b) := fun s => .refl s

theorem naming {n : Nat} {k : Int} {f : Fin n → Request} (each : ∀ i, RequestMoves m (f i)) :
    RequestMoves m (Machine.naming n k f) := by
  intro s
  unfold Machine.naming
  split
  · exact each _ s
  · exact .refl s

theorem onCartridge {l : Text} {f : Cartridge → Request} (each : ∀ c, RequestMoves m (f c)) :
    RequestMoves m (Machine.onCartridge l f) := by
  intro s
  rcases onCartridge_cases l f s with ⟨-, e⟩ | ⟨-, -, e⟩ | ⟨c, -, -, e⟩ <;> rw [e]
  · exact .refl s
  · exact .refl s
  · exact each c s

theorem unheld {z : Zone} {r : Request} (h : RequestMoves m r) : RequestMoves m (Machine.unheld z r) := by
  intro s
  rcases unheld_cases z r s with ⟨-, e⟩ | ⟨-, e⟩ <;> rw [e]
  · exact .refl s
  · exact h s

theorem indexedSetting {ι α β : Type} {index : Option ι} {value : Option β} {find : ι → Option α} {f : α → β → Request}
    (each : ∀ a v, RequestMoves m (f a v)) : RequestMoves m (Machine.indexedSetting index value find f) := by
  intro s
  rcases indexedSetting_cases index value find f s with ⟨-, e⟩ | ⟨-, -, e⟩ | ⟨_, v, -, -, ⟨-, e⟩ | ⟨a, -, e⟩⟩ <;> rw [e]
  · exact .refl s
  · exact .refl s
  · exact .refl s
  · exact each a v s

theorem plainSetting {ι β : Type} {index : Option ι} {value : Option β} {f : β → Request}
    (each : ∀ v, RequestMoves m (f v)) : RequestMoves m (Machine.plainSetting index value f) := by
  intro s
  unfold Machine.plainSetting
  split
  · exact .refl s
  · exact .refl s
  · exact each _ s

theorem onHatch {k : Int} {f : HatchId → Request} (each : ∀ i, RequestMoves m (f i)) :
    RequestMoves m (Machine.onHatch k f) := by
  intro s
  unfold Machine.onHatch
  split
  · exact (Moves.refl s).wake.trans (each _ _)
  · exact .refl s

theorem atRest {b : BankId} {r : Request} (h : RequestMoves m r) : RequestMoves m (Machine.atRest b r) := by
  intro s
  unfold Machine.atRest
  split
  · exact h s
  · exact .refl s

theorem onDetector {l a : Int} {f : LoopId → Address → Request} (each : ∀ l a, RequestMoves m (f l a)) :
    RequestMoves m (Machine.onDetector l a f) :=
  naming fun l => naming fun a => each l a

/-! ### Banks, climate, custody -/

theorem openAisle {b k : Int} : RequestMoves m (Machine.openAisle b k) := naming fun b s => by
  split
  · exact (Moves.refl s).aisleRequest
  · exact .refl s

theorem clearAisleQueue {b : Int} : RequestMoves m (Machine.clearAisleQueue b) := naming fun b s => by
  refine (Moves.refl s).modBank fun law => ?_
  unfold clearQueue
  split
  · next e => exact bankLaw_of_rest (law.drive_off (by rw [e]; rfl)) rfl ⟨by simp, by simp⟩
  · exact ⟨law.drive, law.position, by simp, by simp⟩

theorem resetBank {b : Int} : RequestMoves m (Machine.resetBank b) := naming fun b s => by
  split
  · next e => exact (Moves.refl s).comeToRest fun law => ⟨law.drive_off (by rw [e]; rfl), law.fits⟩
  · exact .refl s

theorem writeBankZone {i v : Option Int} : RequestMoves m (Machine.writeBankZone i v) := indexedSetting fun b v s => by
  split
  · exact .refl s
  · refine atRest (fun s => .ite (fun _ => .refl s) fun _ => ?_) s
    exact Moves.bankTakesFire ((Moves.refl s).setOther (by rfl))

theorem writeBankCarriages {i v : Option Int} : RequestMoves m (Machine.writeBankCarriages i v) :=
  indexedSetting fun b v => atRest fun s => by
    dsimp only
    split
    · exact .refl s
    · unfold changeCarriages
      dsimp only
      refine Moves.modBank ?_ fun law => ?_
      · exact (Moves.refl s).setOther (by rfl)
      · exact ⟨law.drive, fun _ => rfl, law.size, law.distinct⟩

theorem writeBankPark {i v : Option Int} : RequestMoves m (Machine.writeBankPark i v) :=
  indexedSetting fun _ _ => atRest fun s => (Moves.refl s).setOther (by rfl)

theorem writeBankStep {i v : Option Int} : RequestMoves m (Machine.writeBankStep i v) :=
  indexedSetting fun _ _ => atRest fun s => (Moves.refl s).setOther (by rfl)

theorem setSetpoints {z : Int} {f : SetpointFields} : RequestMoves m (Machine.setSetpoints z f) :=
  naming fun _ s => (Moves.refl s).writeClimate

theorem setClimateMode {w : Text} {z : Option Int} : RequestMoves m (Machine.setClimateMode w z) := fun s => by
  unfold Machine.setClimateMode
  split
  · exact (Moves.refl s).actAll fun _ u => (Moves.refl u).selectMode
  · exact .refl s

theorem burst {z : Int} : RequestMoves m (Machine.burst z) := naming fun _ s => (Moves.refl s).burstEvent

theorem writeZoneClimate {n : ClimateName} {i v : Option Int} : RequestMoves m (Machine.writeZoneClimate n i v) :=
  indexedSetting fun _ _ s => (Moves.refl s).writeClimate

theorem writeClimateMode {i : Option Int} {v : Option Text} : RequestMoves m (Machine.writeClimateMode i v) :=
  indexedSetting fun _ _ s => by
    split
    · exact (Moves.refl s).selectMode
    · exact .refl s

theorem addCartridge {l k : Text} {f : HomeFields} : RequestMoves m (Machine.addCartridge l k f) := fun s => by
  unfold Machine.addCartridge
  split
  · next c home _ _ _ =>
    split
    · exact .refl s
    · split
      · exact .refl s
      · next room =>
        split
        · exact .refl s
        · next new =>
          refine (Moves.refl s).setStore ⟨rfl, fun _ => rfl, fun law => law.insert (fun d hd => ?_) (fun d hd => ?_)
            (Nat.lt_of_not_le room)⟩
          · rintro e
            refine new (.inl (List.find?_isSome.2 ⟨d, hd, ?_⟩))
            simpa [newCartridge] using e
          · rintro e
            refine new (.inr ?_)
            rw [State.holderOf, Option.isSome_map, List.find?_isSome]
            exact ⟨d, hd, by simpa [newCartridge] using e⟩
  · exact .refl s

theorem removeCartridge {l : Text} : RequestMoves m (Machine.removeCartridge l) := onCartridge fun c s =>
  unheld (fun s => by
    split
    · exact (Moves.refl s).setStore ⟨rfl, fun _ => rfl, fun law => law.filter _⟩
    · exact .refl s) s

/-- A home no record holds may be given to the records of a label that is one record's alone. -/
theorem tableLaw_setHome {cs : List Cartridge} (law : TableLaw cs) (l : Text) {home : Home}
    (free : ∀ c ∈ cs, c.home ≠ home) :
    TableLaw (cs.map fun c => if c.label = l then { c with home := home } else c) := by
  obtain ⟨ordered, homes, size⟩ := law
  have same : ∀ c : Cartridge, (if c.label = l then { c with home := home } else c).label = c.label := by
    intro c; split <;> rfl
  refine ⟨?_, ?_, by simpa using size⟩
  · simpa [List.pairwise_map, same] using ordered
  · refine List.pairwise_map.2 (List.Pairwise.imp_of_mem (fun {a b} ha hb h => ?_) (ordered.and homes))
    obtain ⟨before, other⟩ := h
    have differ : a.label ≠ b.label := fun e => by rw [e, labelBefore_irrefl] at before; cases before
    by_cases hal : a.label = l
    · rw [if_pos hal, if_neg (fun e => differ (hal.trans e.symm))]
      exact (free b hb).symm
    · rw [if_neg hal]
      split
      · exact free a ha
      · exact other

theorem setHome {l : Text} {f : HomeFields} : RequestMoves m (Machine.setHome l f) := fun s => by
  unfold Machine.setHome
  split
  · exact .refl s
  · refine onCartridge (fun c s => unheld (unheld fun s => ?_) s) s
    split
    · exact .refl s
    · split
      · exact .refl s
      · split
        · exact .refl s
        · next none =>
          refine (Moves.refl s).setStore ⟨rfl, fun _ => rfl, fun law => tableLaw_setHome law _ fun d hd => ?_⟩
          simp only [State.holderOf, Option.map_eq_none_iff, List.find?_eq_none] at none
          simpa using none d hd

theorem markMissing {l : Text} : RequestMoves m (Machine.markMissing l) := onCartridge fun _ s =>
  unheld (fun s => by
    split
    · exact (Moves.refl s).modCartridge (by rfl)
    · exact .refl s) s

theorem markFound {l : Text} : RequestMoves m (Machine.markFound l) := onCartridge fun _ s =>
  unheld (fun s => by
    split
    · exact (Moves.refl s).modCartridge (by rfl)
    · exact .refl s) s

theorem releaseHold {l : Text} : RequestMoves m (Machine.releaseHold l) := onCartridge fun _ s =>
  unheld (fun s => by
    split
    · exact (Moves.refl s).modCartridge (by rfl)
    · exact .refl s) s

theorem listCartridges {n : Int} {k : Option Text} {z : Option Int} : RequestMoves m (Machine.listCartridges n k z) :=
  fun s => by
    unfold Machine.listCartridges
    split
    · exact .refl s
    · split <;> exact .refl s

theorem writeHoldWeight {w : HoldWeight} {i : Option Text} {v : Option Int} :
    RequestMoves m (Machine.writeHoldWeight w i v) :=
  plainSetting fun _ s => (Moves.refl s).setOther (by rfl)

theorem writeHoldMin {i : Option Text} {v : Option Int} : RequestMoves m (Machine.writeHoldMin i v) :=
  plainSetting fun _ s => (Moves.refl s).setOther (by rfl)

theorem writeHoldMax {i : Option Text} {v : Option Int} : RequestMoves m (Machine.writeHoldMax i v) :=
  plainSetting fun _ s => (Moves.refl s).setStore ⟨rfl, fun _ => rfl, fun law => law.map (lowerHold_place _)⟩

/-! ### Manifests -/

theorem submitChecked_moves {d : Direction} {i : HatchId} {c v : Int} {ls : List Text} {a : Bool} {f : SummaryFields}
    (s : State) : Moves m s (submitChecked d i c v ls a f s).1.1 := by
  unfold submitChecked
  split
  · exact .refl s
  · split
    · exact .refl s
    · exact (Moves.refl s).createManifest

theorem submitOutbound {i c v : Int} {ls : List Text} : RequestMoves m (Machine.submitOutbound i c v ls) :=
  onHatch fun _ s => by
    split
    · exact submitChecked_moves s
    · exact .refl s

theorem submitInbound {i c v : Int} {ls : List Text} {f : SummaryFields} :
    RequestMoves m (Machine.submitInbound i c v ls f) := fun s => by
  unfold Machine.submitInbound
  split
  · exact .refl s
  · refine onHatch (fun _ s => ?_) s
    split
    · exact submitChecked_moves s
    · exact .refl s

theorem guide_moves (ls : List Text) (s : State) (rows : Vector PickRow 4) : Moves m s (guide ls s rows).1 := by
  induction ls generalizing s rows with
  | nil => exact .refl s
  | cons l ls ih =>
    unfold guide
    split
    · exact ih s rows
    · refine Moves.trans ?_ (ih _ _)
      unfold pickAisle
      split
      · exact .refl s
      · exact (Moves.refl s).aisleRequest

theorem guidePicks {i : Int} : RequestMoves m (Machine.guidePicks i) := fun s => by
  unfold Machine.guidePicks
  split
  · exact .refl s
  · split
    · exact .refl s
    · exact guide_moves _ s _

theorem cancelManifest {i : Int} : RequestMoves m (Machine.cancelManifest i) := fun s => by
  unfold Machine.cancelManifest
  split
  · exact .refl s
  · split
    · exact .refl s
    · split
      · exact .refl s
      · exact (Moves.refl s).expireManifest

theorem readManifest {i : Int} {n : Option Int} : RequestMoves m (Machine.readManifest i n) := fun s => by
  unfold Machine.readManifest
  split <;> exact .refl s

/-! ### Hatches -/

theorem loadHatch {i k : Int} (course : m.releases = true) : RequestMoves m (Machine.loadHatch i k) :=
  onHatch fun _ s => by
    split
    · exact .refl s
    · split
      · exact .refl s
      · split
        · exact .refl s
        · split
          · exact .refl s
          · exact (Moves.refl s).modManifest.beginHandover.toPhase.unlock course

theorem answerItems {i : HatchId} {c : Nat} {ls : List Text} {a : AnswerFields} (course : m.releases = true) :
    RequestMoves m (Machine.answerItems i c ls a) := fun s => by
  have checked := submitChecked_moves (m := m) (d := .in_) (i := i) (c := c) (v := a.validity.getD 60) (ls := ls)
    (a := true) (f := a.summary) s
  unfold Machine.answerItems
  split
  · split
    · next e => rw [e] at checked; exact checked.beginInbound course
    · next e => rw [e] at checked; exact checked
  · exact .refl s

theorem answerQuery {i : Int} {a : AnswerFields} (course : m.releases = true) :
    RequestMoves m (Machine.answerQuery i a) := fun s => by
  unfold Machine.answerQuery
  split
  · exact .refl s
  · exact .refl s
  · refine onHatch (fun _ s => ?_) s
    split
    · split
      · split
        · exact (Moves.refl s).closeQuery
        · exact .refl s
      · exact answerItems course s
      · exact .refl s
    · exact .refl s

theorem abortHandover {i : Int} (course : m.releases = true) : RequestMoves m (Machine.abortHandover i) :=
  onHatch fun _ s => by
    split
    · exact (Moves.refl s).setClass.toPhase.unlock course
    · exact (Moves.refl s).closeQuery
    · exact .refl s
    · exact .refl s

theorem releaseHatch {i : Int} (course : m.releases = true) : RequestMoves m (Machine.releaseHatch i) :=
  onHatch fun _ s => by
    dsimp only
    split
    · exact (Moves.refl s).openGate course
    · exact .refl s
    · exact .refl s

theorem clearStuck {i : Int} {w : Text} (course : m.releases = true) : RequestMoves m (Machine.clearStuck i w) :=
  onHatch fun _ s => by
    split
    · exact .refl s
    · split
      · split
        · exact .refl s
        · exact (Moves.refl s).unlock course
      · exact .refl s
      · exact .refl s

theorem fetchReceipt {i : Int} {n : Option Int} : RequestMoves m (Machine.fetchReceipt i n) := onHatch fun _ s => by
  dsimp only
  split <;> exact .refl s

theorem clearReceipt {i : Int} : RequestMoves m (Machine.clearReceipt i) := onHatch fun _ s => by
  dsimp only
  split
  · exact .refl s
  · exact ((Moves.refl s).setOther (by rfl)).settle.afterReceipt

theorem readHatch {i : Int} {n : Option Int} : RequestMoves m (Machine.readHatch i n) := onHatch fun _ s => by
  dsimp only
  split
  · exact .refl s
  · split <;> exact .refl s

theorem writeHatchZone {i v : Option Int} (course : m.releases = false) : RequestMoves m (Machine.writeHatchZone i v) :=
  indexedSetting fun _ _ s => by
    split
    · exact .refl s
    · split
      · refine .ite (fun _ => .refl s) fun _ => ?_
        exact (Change.rezone _ _ course).moves.hatchTakesFire
      · exact .refl s

theorem writeHatchTiming {n : HatchTiming} {i v : Option Int} : RequestMoves m (Machine.writeHatchTiming n i v) :=
  indexedSetting fun h v s => by
    refine (Moves.refl s).setStore ⟨rfl, fun j => ?_, id⟩
    refine forall_set (P := fun k (x : HatchSettings) => x.zone = s.store.hatch[k].zone) ?_ (fun _ _ => rfl) j
    cases n <;> rfl

/-! ### Fire zones and loops -/

theorem startVent {z : Int} (course : m.releases = false) : RequestMoves m (Machine.startVent z) := naming fun _ s => by
  split
  · next h => exact (Moves.refl s).ventStarts course h.2
  · exact .refl s

theorem resetFireZone {z : Int} (course : m.releases = false) : RequestMoves m (Machine.resetFireZone z) :=
  naming fun z s => by
    have evaluated : s.fire[z].state.plain = true →
        Moves m s (evaluate z .reset (enterFire z .normal .reset (clearLatches z s))) := fun plain =>
      ((Moves.refl s).clearLatches.enterPlain course (by rw [Moves.clearLatches_fire]; exact plain) rfl).evaluate course
        (by rw [enterFire_state]; rfl)
    split
    · next e => dsimp only; exact evaluated (congrArg FireState.plain e)
    · next e => dsimp only; exact evaluated (congrArg FireState.plain e)
    · dsimp only; exact (Moves.refl s).clearLatches
    · exact .refl s

theorem restoreAgent {z : Int} (course : m.releases = false) : RequestMoves m (Machine.restoreAgent z) :=
  naming fun z s => by
    dsimp only
    split
    · exact .refl s
    · split
      · refine .ite (fun alarm => ?_) fun _ => Moves.post ((Moves.refl s).setOther (by rfl)) (by rfl)
        refine Moves.releaseTest (Moves.post ((Moves.refl s).setOther (by rfl)) (by rfl)) course ?_
        have e : s.fire[z].state = .alarm := alarm.1
        show s.fire[z].state.plain = true
        rw [e]; rfl
      · exact .refl s

theorem writeCoincidence {i v : Option Int} (course : m.releases = false) :
    RequestMoves m (Machine.writeCoincidence i v) :=
  indexedSetting fun z v s => by
    have stored : ∀ st, Moves m s (s.setFireSettings z st) := fun _ => (Moves.refl s).setOther (by rfl)
    dsimp only
    split
    · exact .refl s
    · unfold reevaluate State.fireState
      dsimp only
      split
      · next e => exact (stored _).evaluate course (by rw [e]; rfl)
      · next e => exact (stored _).evaluate course (by rw [e]; rfl)
      · exact stored _

theorem writeFireTime {k : FireTime} {i v : Option Int} : RequestMoves m (Machine.writeFireTime k i v) :=
  indexedSetting fun _ _ s => (Moves.refl s).setOther (by rfl)

theorem setDetector {l a : Int} {w : Text} (course : m.releases = false) : RequestMoves m (Machine.setDetector l a w) :=
  onDetector fun l a s => by
    split
    · exact .refl s
    · split
      · exact .refl s
      · split
        · dsimp only
          exact (Moves.refl s).enableDetector course
        · split
          · exact .refl s
          · dsimp only
            exact (Moves.refl s).disableDetector course

theorem writeDetector {l a z : Option Int} {w : Option Text} : RequestMoves m (Machine.writeDetector l a z w) :=
  fun s => by
    unfold Machine.writeDetector
    split
    · exact .refl s
    · exact .refl s
    · split
      · exact .refl s
      · refine onDetector (fun _ _ s => ?_) s
        dsimp only
        split
        · split
          · exact .refl s
          · exact (Moves.refl s).setDetEntry
        · exact .refl s

theorem setLevels_keeps (st : Store) (smoke : Bool) (v : Levels) : st.Keeps (st.setLevels smoke v) := by
  cases smoke <;> exact .of_tied rfl

theorem writePrealarm {i : Option Text} {v : Option Int} : RequestMoves m (Machine.writePrealarm i v) :=
  indexedSetting fun _ _ s => (Moves.refl s).setStore (setLevels_keeps _ _ _)

theorem writeAlarm {i : Option Text} {v : Option Int} : RequestMoves m (Machine.writeAlarm i v) :=
  indexedSetting fun _ _ s => (Moves.refl s).setStore (setLevels_keeps _ _ _)

/-! ### The front end, the line and the whole part -/

theorem calibrateGroup {g : Int} : RequestMoves m (Machine.calibrateGroup g) := naming fun _ s => by
  split
  · exact .refl s
  · split
    · exact .refl s
    · exact (Moves.refl s).beginCalibration

theorem writeChannel {i : Option Int} {k o : Option Text} {g : Option Int} :
    RequestMoves m (Machine.writeChannel i k o g) := fun s => by
  unfold Machine.writeChannel
  split
  · exact .refl s
  · split
    · exact .refl s
    · dsimp only
      split
      · split
        · exact .refl s
        · split
          · exact .refl s
          · split
            · exact .refl s
            · exact (Moves.refl s).applyEntry
      · exact .refl s

theorem writeChOffset {i v : Option Int} : RequestMoves m (Machine.writeChOffset i v) := indexedSetting fun _ _ s => by
  dsimp only
  split
  · exact .refl s
  · exact (Moves.refl s).writeCoef

theorem writeChGain {i v : Option Int} : RequestMoves m (Machine.writeChGain i v) := indexedSetting fun _ _ s => by
  dsimp only
  split
  · exact .refl s
  · exact (Moves.refl s).writeCoef

theorem writeScanPeriod {i : Option Text} {v : Option Int} : RequestMoves m (Machine.writeScanPeriod i v) :=
  indexedSetting fun _ _ s => (Moves.refl s).setOther (by rfl)

theorem writeGroupTimer {i : Option Int} {v : Option Text} : RequestMoves m (Machine.writeGroupTimer i v) :=
  indexedSetting fun _ _ s => by
    dsimp only
    split
    · exact .refl s
    · split
      · exact .refl s
      · split
        · exact .refl s
        · exact Moves.restartGroups ((Moves.refl s).setOther (by rfl))

theorem writeDisagreeLimit {i v : Option Int} : RequestMoves m (Machine.writeDisagreeLimit i v) :=
  indexedSetting fun _ _ s => (Moves.refl s).setOther (by rfl)

theorem readSetting {n : Text} {i : Option Text} {l a : Option Int} : RequestMoves m (Machine.readSetting n i l a) := by
  have view : ∀ v, RequestMoves m (viewAnswer v) := fun v => by cases v <;> exact answer
  have indexed : ∀ r i, RequestMoves m (readIndexed r i) := fun r i s => by
    unfold readIndexed
    split
    · exact view _ s
    · split
      · exact view _ s
      · exact .refl s
    · exact view _ s
    · exact .refl s
  intro s
  unfold Machine.readSetting
  split
  · exact .refl s
  · split
    · exact .refl s
    · exact .refl s
    · exact .refl s
    · exact onDetector (fun _ _ s => view _ s) s
  · split
    · exact .refl s
    · exact .refl s
    · exact indexed _ _ s

theorem fetchReports {n : Option Int} : RequestMoves m (Machine.fetchReports n) := fun _ => (Change.fetch _).moves

theorem restart : RequestMoves m Machine.restart := fun s => by
  unfold Machine.restart
  split
  · exact (Moves.refl s).setLine
  · exact .refl s

theorem writeLineRate {i v : Option Text} : RequestMoves m (Machine.writeLineRate i v) := plainSetting fun _ s => by
  dsimp only
  split
  · exact (Moves.refl s).setOther (by rfl)
  · exact .refl s

theorem writeStationAddress {i : Option Text} {v : Option Int} : RequestMoves m (Machine.writeStationAddress i v) :=
  plainSetting fun _ s => (Moves.refl s).setOther (by rfl)

/-- A request that reads one of several things. -/
theorem reading {n : Nat} {k : Int} {a : Fin n → State → Answer} :
    RequestMoves m (Machine.naming n k fun i s => (s, a i s)) :=
  naming fun _ s => .refl s

end RequestMoves

/-- The request of every command is a course of changes that releases no agent. -/
theorem requestOf_moves (c : Instr) (r : Request) (h : requestOf c = some r) :
    ∃ m : Course, m.agent = none ∧ RequestMoves m r := by
  have releasing : ∀ {r'}, some r' = some r → (RequestMoves { releases := true } r') →
      ∃ m : Course, m.agent = none ∧ RequestMoves m r := fun e h => ⟨_, rfl, Option.some.inj e ▸ h⟩
  have locking : ∀ {r'}, some r' = some r → (RequestMoves {} r') →
      ∃ m : Course, m.agent = none ∧ RequestMoves m r := fun e h => ⟨_, rfl, Option.some.inj e ▸ h⟩
  cases c with
  | calibrate => exact locking h .calibrateGroup
  | readChannel => exact locking h .reading
  | setSetpoints => exact locking h .setSetpoints
  | setClimateMode => exact locking h .setClimateMode
  | burst => exact locking h .burst
  | readZone => exact locking h .reading
  | addCartridge => exact locking h .addCartridge
  | removeCartridge => exact locking h .removeCartridge
  | readCartridge => exact locking h (.onCartridge fun _ s => .refl s)
  | listCartridges => exact locking h .listCartridges
  | setHome => exact locking h .setHome
  | markMissing => exact locking h .markMissing
  | markFound => exact locking h .markFound
  | releaseHold => exact locking h .releaseHold
  | readStaging => exact locking h .reading
  | submitOutbound => exact locking h .submitOutbound
  | submitInbound => exact locking h .submitInbound
  | guidePicks => exact locking h .guidePicks
  | cancelManifest => exact locking h .cancelManifest
  | readManifest => exact locking h .readManifest
  | listManifests => exact locking h fun s => Moves.refl s
  | loadHatch => exact releasing h (.loadHatch rfl)
  | answerQuery => exact releasing h (.answerQuery rfl)
  | abortHandover => exact releasing h (.abortHandover rfl)
  | releaseHatch => exact releasing h (.releaseHatch rfl)
  | clearStuck => exact releasing h (.clearStuck rfl)
  | fetchReceipt => exact locking h .fetchReceipt
  | clearReceipt => exact locking h .clearReceipt
  | readHatch => exact locking h .readHatch
  | openAisle => exact locking h .openAisle
  | clearAisleQueue => exact locking h .clearAisleQueue
  | resetBank => exact locking h .resetBank
  | readBank => exact locking h .reading
  | setDetector => exact locking h (.setDetector rfl)
  | readDetector => exact locking h (.onDetector fun _ _ s => .refl s)
  | readLoop => exact locking h .reading
  | startVent => exact locking h (.startVent rfl)
  | resetFireZone => exact locking h (.resetFireZone rfl)
  | restoreAgent => exact locking h (.restoreAgent rfl)
  | readFireZone => exact locking h .reading
  | identify => exact locking h fun s => Moves.refl s
  | status => exact locking h fun s => Moves.refl s
  | readSetting => exact locking h .readSetting
  | fetchReports => exact locking h .fetchReports
  | restart => exact locking h .restart
  | writeSettingChannel => exact locking h .writeChannel
  | writeSettingChOffset => exact locking h .writeChOffset
  | writeSettingChGain => exact locking h .writeChGain
  | writeSettingScanPeriod => exact locking h .writeScanPeriod
  | writeSettingGroupTimer => exact locking h .writeGroupTimer
  | writeSettingDisagreeLimit => exact locking h .writeDisagreeLimit
  | writeSettingZoneClimate => exact locking h .writeZoneClimate
  | writeSettingClimateMode => exact locking h .writeClimateMode
  | writeSettingHoldKtKh => exact locking h .writeHoldWeight
  | writeSettingHoldMin => exact locking h .writeHoldMin
  | writeSettingHoldMax => exact locking h .writeHoldMax
  | writeSettingHatchZone => exact locking h (.writeHatchZone rfl)
  | writeSettingHatchTiming => exact locking h .writeHatchTiming
  | writeSettingBankZone => exact locking h .writeBankZone
  | writeSettingBankCarriages => exact locking h .writeBankCarriages
  | writeSettingBankPark => exact locking h .writeBankPark
  | writeSettingBankStep => exact locking h .writeBankStep
  | writeSettingDetector => exact locking h .writeDetector
  | writeSettingDetPrealarm => exact locking h .writePrealarm
  | writeSettingDetAlarm => exact locking h .writeAlarm
  | writeSettingFireCoincidence => exact locking h (.writeCoincidence rfl)
  | writeSettingFireTimes => exact locking h .writeFireTime
  | writeSettingLineRate => exact locking h .writeLineRate
  | writeSettingStationAddress => exact locking h .writeStationAddress
  | writeSettingUnknownName => exact locking h .answer
  | _ => cases h

/-! ### Commands -/

theorem Moves.takeLine {r : Request} (h : Moves m s t) (hr : RequestMoves m r) : Moves m s (Machine.takeLine r t) := by
  rcases takeLine_cases r t with ⟨-, e⟩ | ⟨-, -, e⟩ | ⟨-, e⟩ <;> rw [e]
  · exact (h.setLine.trans (hr t.heard)).setLine
  · exact h.setLine
  · exact h

theorem Moves.takeBroadcast {r : Request} (h : Moves m s t) (hr : RequestMoves m r) :
    Moves m s (Machine.takeBroadcast r t) := by
  unfold Machine.takeBroadcast
  split
  · split
    · exact h.setLine.trans (hr _)
    · exact h.setLine
    · exact h
  · exact h

/-- A command that carries a request is taken as a completed line of it, but for a broadcast. -/
theorem exec_of_requestOf (c : Instr) (r : Request) (h : requestOf c = some r) (s : State) :
    exec c s = .next (takeLine r s) ∨
      (∃ mode zone, c = .setClimateMode true mode zone) ∧ exec c s = .next (takeBroadcast r s) := by
  cases c with
  | setClimateMode b mode zone =>
    obtain rfl := Option.some.inj h
    cases b with
    | false => exact .inl rfl
    | true => exact .inr ⟨⟨_, _, rfl⟩, rfl⟩
  | _ => first
    | (obtain rfl := Option.some.inj h; exact .inl rfl)
    | cases h

/-- What a parsed line asks for is a course of changes. -/
theorem parsedRequest_moves (p : Parsed) : ∃ m : Course, m.agent = none ∧ RequestMoves m (parsedRequest p) := by
  cases p with
  | badRequest f => exact ⟨{}, rfl, .answer⟩
  | unknown => exact ⟨{}, rfl, .answer⟩
  | instr i =>
    cases e : requestOf i with
    | none => exact ⟨{}, rfl, by rw [parsedRequest, e]; exact .answer⟩
    | some r =>
      obtain ⟨m, agent, moves⟩ := requestOf_moves i r e
      exact ⟨m, agent, by rw [parsedRequest, e]; exact moves⟩

theorem characterArrives_moves (b : Byte) (e : Bool) (s : State) :
    ∃ m : Course, m.agent = none ∧ Moves m s (characterArrives b e s) := by
  have lines : ∀ x, Moves {} s (s.setLine x) := fun _ => (Moves.refl s).setLine
  unfold characterArrives
  dsimp only
  split
  · exact ⟨{}, rfl, .refl s⟩
  · split
    · exact ⟨{}, rfl, .ite (fun _ => (lines _).setLine) fun _ => lines _⟩
    · exact ⟨{}, rfl, (lines _).setLine⟩
    · split
      · exact ⟨{}, rfl, (lines _).setLine⟩
      · unfold collectChar
        dsimp only
        split
        · exact ⟨{}, rfl, (lines _).setLine⟩
        · split
          · exact ⟨{}, rfl, (lines _).setLine⟩
          · split
            · unfold lineComplete
              split
              · exact ⟨{}, rfl, (lines _).setLine.setLine⟩
              · next checked _ =>
                split
                · obtain ⟨m, agent, moves⟩ := parsedRequest_moves (lineParsed checked)
                  exact ⟨m, agent, (Moves.refl s).setLine.setLine.takeLine moves⟩
                · unfold broadcastTaken
                  split
                  · exact ⟨{}, rfl, (lines _).setLine.takeBroadcast RequestMoves.setClimateMode⟩
                  · exact ⟨{}, rfl, (lines _).setLine.setLine⟩
            · split
              · exact ⟨{}, rfl, (lines _).setLine⟩
              · exact ⟨{}, rfl, (lines _).setLine⟩

/-- An event of the powered part. -/
theorem event_moves {c : Instr} {f : State → State} (e : exec c s = event f s) (h : exec c s = .next t)
    (moves : Moves m s (f s)) : Moves m s t := by
  obtain rfl := Host.Outcome.next.inj (e.symm.trans h)
  exact .ite (fun _ => moves) fun _ => .refl s

theorem fieldEvent_moves {c : Instr} {i f : State → State} (e : exec c s = fieldEvent i f s) (h : exec c s = .next t)
    (input : Moves m s (i s)) (moves : Moves m s (f s)) : Moves m s t := by
  obtain rfl := Host.Outcome.next.inj (e.symm.trans h)
  exact .ite (fun _ => moves) fun _ => input

/-- The countdown of a zone, running in PREDISCHARGE on a powered part, has just expired (R168). -/
def CountdownEnds (c : Instr) (s : State) (z : Zone) : Prop :=
  c = .countdownExpiry z ∧ s.powered = true ∧ s.fire[z].state = .predischarge ∧ ∃ n, s.fire[z].countdown = .running n

/-- Every command is a course of changes, and none but the end of a zone's countdown releases that zone's agent. -/
theorem exec_moves {c : Instr} (h : exec c s = .next t) :
    ∃ m : Course, (∀ z, m.agent = some z → CountdownEnds c s z) ∧ Moves m s t := by
  have releasing : Moves { releases :=
    true } s t → ∃ m : Course, (∀ z, m.agent = some z → CountdownEnds c s z) ∧ Moves m s t :=
    fun h => ⟨_, (fun _ e => by cases e), h⟩
  have locking : Moves {} s t → ∃ m : Course, (∀ z, m.agent = some z → CountdownEnds c s z) ∧ Moves m s t :=
    fun h => ⟨_, (fun _ e => by cases e), h⟩
  have start := fun m => Moves.refl (m := m) s
  cases request : requestOf c with
  | some r =>
    obtain ⟨m, agent, moves⟩ := requestOf_moves c r request
    refine ⟨m, by simp [agent], ?_⟩
    rcases exec_of_requestOf c r request s with e | ⟨-, e⟩ <;> rw [e] at h <;> obtain rfl := Host.Outcome.next.inj h
    · exact (Moves.refl s).takeLine moves
    · exact (Moves.refl s).takeBroadcast moves
  | none => cases c with
    | powerUp =>
      obtain rfl := Host.Outcome.next.inj h
      exact locking (.ite (fun _ => .refl s) fun _ => (start _).startUp rfl)
    | powerOff =>
      obtain rfl := Host.Outcome.next.inj h
      exact locking ((start _).powerDown rfl)
    | replyComplete => exact locking (event_moves (by rfl) h ((start _).replyEnds rfl))
    | lineGapTimeout =>
      refine locking (event_moves (by rfl) h ?_)
      split
      · exact start _
      · exact .ite (fun _ => start _) fun _ => (start _).setLine
    | lineBreak =>
      refine locking (event_moves (by rfl) h ?_)
      unfold lineInterrupted
      split
      · exact start _
      · exact .ite (fun _ => start _) fun _ => (start _).setLine
    | lineDiscarded =>
      refine locking (event_moves (f := fun s => if s.line.driving then s else hunt s) (by rfl) h ?_)
      exact .ite (fun _ => start _) fun _ => (start _).setLine
    | badRequest f =>
      obtain rfl := Host.Outcome.next.inj h
      exact locking ((start _).takeLine .answer)
    | unknownRequest =>
      obtain rfl := Host.Outcome.next.inj h
      exact locking ((start _).takeLine .answer)
    | minuteIncrease => exact locking (event_moves (by rfl) h (start _).minuteIncreases)
    | holdEnded => exact locking (event_moves (by rfl) h (start _).endHold)
    | manifestExpired => exact locking (event_moves (by rfl) h (start _).endValidity)
    | conditionTimeout => exact locking (event_moves (by rfl) h (start _).limitReached)
    | scanTimerExpiry => exact releasing (event_moves (by rfl) h ((start _).timerExpires rfl))
    | scanComplete => exact releasing (event_moves (by rfl) h ((start _).scanDone rfl))
    | calibrationComplete => exact locking (event_moves (by rfl) h (start _).calibrationDone)
    | periodStart => exact locking (event_moves (by rfl) h (.ite (fun _ => (start _).beginPeriod) fun _ => start _))
    | dutyOff z d =>
      refine locking (event_moves (by rfl) h ((start _).modClimate fun law => ?_))
      cases d <;> dsimp only <;> split <;> [exact law; split; exact law; split] <;> exact law
    | burstTimerExpiry z =>
      exact locking (event_moves (by rfl) h (.ite (fun _ => (start _).toSelected (sel := .economy)) fun _ => start _))
    | stagingLabelRecord => exact locking (event_moves (by rfl) h (start _).stagingRead)
    | stagingIndicatorTimeout => exact locking (event_moves (by rfl) h (start _).modStaging)
    | repeatWindowEnd => exact locking (event_moves (by rfl) h (start _).modStaging)
    | badgeRead => exact releasing (event_moves (by rfl) h ((start _).badgeTaken rfl))
    | hatchIndicatorTimeout => exact locking (event_moves (by rfl) h (.ite (fun _ => (start _).light) fun _ => start _))
    | queryWaitExpiry => exact locking (event_moves (by rfl) h (.ite (fun _ => (start _).closeQuery) fun _ => start _))
    | shutterOpened => exact locking (fieldEvent_moves (by rfl) h ((start _).sensorReads rfl) (start _).shutterOpens)
    | shutterClosed => exact releasing (fieldEvent_moves (by rfl) h (start _).sensorCloses ((start _).shutterCloses rfl))
    | shutterForced => exact locking (fieldEvent_moves (by rfl) h ((start _).sensorReads rfl) ((start _).shutterForced rfl))
    | shutterCaught => exact releasing (fieldEvent_moves (by rfl) h (start _).sensorCloses ((start _).shutterCaught rfl))
    | unlockTimerExpiry => exact releasing (event_moves (by rfl) h ((start _).unlockExpires rfl))
    | openAlarmExpiry => exact locking (event_moves (by rfl) h (start _).openTooLong)
    | closerClosed => exact locking (event_moves (by rfl) h ((start _).modShutter (fun e => e) fun _ e => e))
    | shutterNotSecured => exact locking (event_moves (by rfl) h (start _).notSecured)
    | innerRequestButton => exact releasing (event_moves (by rfl) h ((start _).buttonPressed rfl))
    | trayPresenceChange => exact locking (fieldEvent_moves (by rfl) h (start _).presenceReads (start _).presenceChanges)
    | trayScanEnd => exact releasing (event_moves (by rfl) h ((start _).scanEnds rfl))
    | rejectClearTimerExpiry => exact locking (event_moves (by rfl) h (start _).rejectExpires)
    | idleTimerExpiry => exact locking (event_moves (by rfl) h (start _).idleExpires)
    | blockTimerExpiry => exact locking (event_moves (by rfl) h (start _).blockExpires)
    | curtainClear => exact locking (fieldEvent_moves (by rfl) h (start _).curtainInput (start _).curtainClears)
    | curtainBroken => exact locking (fieldEvent_moves (by rfl) h (start _).curtainInput (start _).curtainBreaks)
    | homeSensorActive => exact locking (fieldEvent_moves (by rfl) h (start _).sensorInput (start _).sensorActive)
    | aisleSensorActive => exact locking (fieldEvent_moves (by rfl) h (start _).sensorInput (start _).sensorActive)
    | homingTimerExpiry => exact locking (event_moves (by rfl) h (start _).homingExpires)
    | travelTimerExpiry => exact locking (event_moves (by rfl) h (start _).travelExpires)
    | pollAnswered => exact locking (event_moves (by rfl) h ((start _).pollEnds rfl fun _ u => (Moves.refl u).changeDetector rfl))
    | pollUnanswered => exact locking (event_moves (by rfl) h ((start _).pollEnds rfl fun _ u => (Moves.refl u).changeDetector rfl))
    | alert => exact locking (event_moves (by rfl) h (start _).alertTaken)
    | roundEnd => exact locking (event_moves (by rfl) h (start _).roundEnds)
    | itemAbandoned => exact locking (event_moves (by rfl) h (start _).itemAbandoned)
    | abortStationChange => exact locking (fieldEvent_moves (by rfl) h (start _).abortReads (start _).abortStation)
    | isolateKeyChange => exact locking (fieldEvent_moves (by rfl) h (start _).isolateReads ((start _).isolateKey rfl))
    | dischargeConfirmChange =>
      exact locking (fieldEvent_moves (by rfl) h (start _).confirmReads (start _).confirmReads.confirmSeen)
    | countdownExpiry z =>
      obtain rfl := Host.Outcome.next.inj h
      split
      · next powered =>
        unfold countdownExpires State.fireState
        split
        · next state running =>
          refine ⟨{ agent := some z }, ?_, (start _).release rfl rfl state⟩
          rintro y e
          obtain rfl := Option.some.inj e
          exact ⟨rfl, powered, state, _, running⟩
        · exact ⟨{}, (fun _ e => by cases e), .refl s⟩
      · exact ⟨{}, (fun _ e => by cases e), .refl s⟩
    | releasePulseExpiry => exact locking (event_moves (by rfl) h (.ite (fun _ => (start _).pulseExpires) fun _ =>
      start _))
    | confirmWaitExpiry => exact locking (event_moves (by rfl) h (start _).confirmWaitExpires)
    | soakExpiry => exact locking (event_moves (by rfl) h (start _).soakExpires)
    | ventExpiry => exact locking (event_moves (by rfl) h ((start _).ventExpires rfl))
    | characterReceived b e =>
      obtain ⟨m, agent, moves⟩ := characterArrives_moves b e s
      exact ⟨m, by simp [agent], event_moves (by rfl) h moves⟩
    | replyStart => exact locking (event_moves (by rfl) h (start _).replyStarts)
    | _ => cases request

end Sys2Proof.Machine
end

