-- ==== Sys2Proof/Proofs/Steps.lean ====
section
/-!
PROOFS. Every step keeps the laws of a safe state; every command answers a next state; and an unpowered part takes none.
-/

namespace Sys2Proof.Machine

variable {s t : State}

/-! ### A step -/

/-- A step is a second on an empty queue, or the command at its front with the queue's rest. -/
theorem step_cases (h : step s = .next t) :
    (s.pending = [] ∧ t = tick s) ∨
      ∃ c rest, s.pending = c :: rest ∧ exec c { s with pending := rest } = .next t := by
  unfold step at h
  split at h
  · next c rest e => exact .inr ⟨c, rest, e, h⟩
  · next e => exact .inl ⟨e, (Host.Outcome.next.inj h).symm⟩

/-- A law that every course of changes keeps, and a second of powered time, every step keeps. -/
theorem step_keeps {P : State → Prop} (h : step s = .next t) (law : P s)
    (queue : ∀ rest, P s → P { s with pending := rest })
    (moves : ∀ m a b, Moves m a b → P a → P b) (second : s.powered = true → P s → P (tick s)) : P t := by
  rcases step_cases h with ⟨-, rfl⟩ | ⟨c, rest, -, run⟩
  · cases powered : s.powered
    · simpa [tick, powered] using law
    · exact second powered law
  · obtain ⟨m, -, course⟩ := exec_moves run
    exact moves m _ _ course (queue rest law)

/-! ### A second of powered time -/

section Second

variable (powered : s.powered = true)
include powered

theorem tick_reports : (tick s).reports = s.reports := by simp [tick, powered]

theorem tick_store : (tick s).store = s.store := by simp [tick, powered]

theorem tick_hatch (h : HatchId) : (tick s).hatch[h] = tickHatch s.hatch[h] := by simp [tick, powered]

theorem tick_climate (z : Zone) : (tick s).climate[z] = tickClimate s.climate[z] := by simp [tick, powered]

theorem tick_fire (z : Zone) : (tick s).fire[z] = tickFire s.fire[z] := by simp [tick, powered]

theorem tick_bank (b : BankId) : (tick s).bank[b] = tickBank s.bank[b] := by simp [tick, powered]

end Second

theorem tickHatch_locked (x : Hatch) (sd : Side) : ((tickHatch x).shutter sd).locked = (x.shutter sd).locked := by
  cases sd <;> rfl

theorem countDown_isSome (n : Option Nat) : (countDown n).isSome = n.isSome := by simp [countDown]

theorem tickCountdown_stopped (c : Countdown) : tickCountdown c = .stopped ↔ c = .stopped := by
  cases c <;> simp [tickCountdown]

/-- A second leaves a fire zone's outputs and timers tied to its state. -/
theorem FireLaw.second {x : FireZone} (law : FireLaw x) : FireLaw (tickFire x) where
  countdown := (tickCountdown_stopped _).trans law.countdown
  ventOut := law.ventOut
  vent := by simpa only [tickFire, countDown_isSome] using law.vent
  pulse := by simpa only [tickFire, countDown_isSome] using law.pulse
  soak := by simpa only [tickFire, countDown_isSome] using law.soak
  complete := law.complete

/-- No lock is released by a second. -/
theorem tick_locked (h : HatchId) (sd : Side) :
    ((tick s).hatch[h].shutter sd).locked = (s.hatch[h].shutter sd).locked := by
  cases powered : s.powered
  · simp [tick, powered]
  · rw [tick_hatch powered, tickHatch_locked]

/-! ### The laws of a safe state -/

/-- Settles O7: no change of the state takes the report queue out of its law. -/
theorem stepKeepsTheQueueLaw : Obligations.StepKeepsTheQueueLaw := fun _ _ law h =>
  step_keeps (P := fun s => QueueLaw s.reports) h law (fun _ law => law) (fun _ _ _ c => c.queue)
    fun powered law => by rw [tick_reports powered]; exact law

/-- Settles O8: a lock is released only where the other shutter is LOCKED, and a second releases none. -/
theorem stepKeepsOneShutterLocked : Obligations.StepKeepsOneShutterLocked := fun _ _ law h =>
  step_keeps (P := fun s => ∀ h : HatchId, s.hatch[h].oneLocked) h law (fun _ law => law) (fun _ _ _ c => c.oneLocked)
    fun _ law h => by
      obtain ⟨sd, locked⟩ := Hatch.oneLocked_iff.1 (law h)
      exact Hatch.oneLocked_iff.2 ⟨sd, by rw [tick_locked]; exact locked⟩

/-- Settles O9: in a course of changes that releases locks no fire state moves, so that what R88 asks at a release
stands at the step's end. -/
theorem lockReleasedOnlyWhenSafe : Obligations.LockReleasedOnlyWhenSafe := by
  intro s t i sd h locked released
  rcases step_cases h with ⟨-, rfl⟩ | ⟨c, rest, -, run⟩
  · rw [tick_locked, locked] at released
    cases released
  · obtain ⟨m, -, course⟩ := exec_moves run
    exact course.safe_of_released (s := { s with pending := rest }) locked released

/-- Settles O10: every duty set in ECONOMY is cut to the cap, and a lowered cap cuts the duties with it. -/
theorem stepKeepsTheEconomyCap : Obligations.StepKeepsTheEconomyCap := fun s _ law h =>
  step_keeps (P := CapLaw) h law (fun _ law => law) (fun _ _ _ c => c.cap) fun powered law z => by
    rw [tick_climate powered, tick_store powered]
    exact law z

/-- Settles O11: every change of a fire zone keeps its law, and so does a second. -/
theorem stepKeepsTheFireLaw : Obligations.StepKeepsTheFireLaw := fun _ _ law h =>
  step_keeps (P := fun s => ∀ z : Zone, FireLaw s.fire[z]) h law (fun _ law => law) (fun _ _ _ c => c.fireLaw)
    fun powered law z => by rw [tick_fire powered]; exact (law z).second

/-- Settles O12: the course of every command but the expiry of a zone's countdown leaves that zone's release output
off. -/
theorem onlyTheCountdownReleasesAgent : Obligations.OnlyTheCountdownReleasesAgent := by
  intro c s t z run off on
  obtain ⟨m, agent, course⟩ := exec_moves run
  by_cases e : m.agent = some z
  · exact agent z e
  · rw [course.releaseOut z e off] at on
    cases on

/-- Settles O13: every change of a bank keeps its law, and a second moves its timers alone. -/
theorem stepKeepsTheBankLaw : Obligations.StepKeepsTheBankLaw := fun _ _ law h =>
  step_keeps (P := fun s => ∀ b : BankId, BankLaw s.bank[b]) h law (fun _ law => law) (fun _ _ _ c => c.bankLaw)
    fun powered law b => by
      rw [tick_bank powered]
      exact ⟨(law b).drive, (law b).position, (law b).size, (law b).distinct⟩

/-- Settles O14: every write of the store keeps the table's law. -/
theorem stepKeepsTheCustodyTable : Obligations.StepKeepsTheCustodyTable := fun _ _ law h =>
  step_keeps (P := fun s => TableLaw s.store.cartridges) h law (fun _ law => law) (fun _ _ _ c => c.table)
    fun powered law => by rw [tick_store powered]; exact law

/-! ### Every command answers, and an unpowered part takes none -/

theorem takeLine_unpowered {r : Request} (off : s.powered = false) : takeLine r s = s := by
  rcases takeLine_cases r s with ⟨⟨on, -⟩, -⟩ | ⟨on, -, -⟩ | ⟨-, e⟩
  · rw [off] at on; cases on
  · rw [off] at on; cases on
  · exact e

theorem takeBroadcast_unpowered {r : Request} (off : s.powered = false) : takeBroadcast r s = s := by
  simp [takeBroadcast, off]

/-- Every command answers a next state, and the field's reading where the part is unpowered, but for the two commands
of the supply. -/
theorem exec_next (c : Instr) (s : State) : ∃ t, exec c s = .next t ∧
    (s.powered = false → c ≠ .powerUp → c ≠ .powerOff → t = fieldReading c s) := by
  have unpowered : s.powered = false → ¬s.powered = true := fun off on => by rw [off] at on; cases on
  cases e : requestOf c with
  | some r =>
    have quiet : fieldReading c s = s := by cases c <;> first | rfl | cases e
    rcases exec_of_requestOf c r e s with run | ⟨-, run⟩
    · exact ⟨_, run, fun off _ _ => (takeLine_unpowered off).trans quiet.symm⟩
    · exact ⟨_, run, fun off _ _ => (takeBroadcast_unpowered off).trans quiet.symm⟩
  | none =>
    cases c with
    | powerUp => exact ⟨_, rfl, fun _ n => absurd rfl n⟩
    | powerOff => exact ⟨_, rfl, fun _ _ n => absurd rfl n⟩
    | badRequest f => exact ⟨_, rfl, fun off _ _ => takeLine_unpowered off⟩
    | unknownRequest => exact ⟨_, rfl, fun off _ _ => takeLine_unpowered off⟩
    | _ => first
      | exact ⟨_, rfl, fun off _ _ => if_neg (unpowered off)⟩
      | cases e

/-- Settles O2. -/
theorem everyCommandLeavesTheQueue : Obligations.EveryCommandLeavesTheQueue := by
  intro c s
  obtain ⟨t, run, -⟩ := exec_next c s
  obtain ⟨m, -, course⟩ := exec_moves run
  exact ⟨t, run, course.pending⟩

/-- Settles O3. -/
theorem unpoweredPartTakesNothing : Obligations.UnpoweredPartTakesNothing := by
  intro c s off up down
  obtain ⟨t, run, reading⟩ := exec_next c s
  rw [run, reading off up down]

end Sys2Proof.Machine
end

