-- ==== Sys2Proof/Proofs/Receiver.lean ====
section
/-!
PROOFS. The receiver of the host line, the answers to a fault of form, and the settings of the line itself.
-/

namespace Sys2Proof.Machine

variable {s : State} {b : Byte}

/-! ### A character taken -/

/-- A character of the powered part is taken by the receiver. -/
theorem exec_characterReceived (on : s.powered = true) (e : Bool) :
    exec (.characterReceived b e) s = .next (characterArrives b e s) := event_powered on

theorem heard_of_hunt (h : s.line.receiver = .hunt) : s.heard = s := by
  unfold State.heard
  rw [← h]

/-- A line in time is as it was; a late one is abandoned. -/
theorem setLine_inTime (s : State) : s.setLine s.line.inTime = if 1 ≤ s.line.gap then s.heard else s := by
  unfold HostLine.inTime
  split <;> rfl

section

variable (quiet : s.line.driving = false)
include quiet

/-- HUNT takes an opening mark alone. -/
theorem characterArrives_hunt (h : s.line.receiver = .hunt) (e : Bool) :
    characterArrives b e s = if !e ∧ b = openMark then s.setLine (beginLine s.line) else s := by
  have same : s.setLine s.line.inTime = s := by rw [setLine_inTime, heard_of_hunt h, ite_self]
  simp only [characterArrives, quiet, same, h, if_false, Bool.false_eq_true]

theorem characterArrives_address (h : s.line.receiver = .address) (gap : s.line.gap = 0) (e : Bool) :
    characterArrives b e s = s.setLine (if e then abandonLine s.line else addressChar b s.line) := by
  have same : s.setLine s.line.inTime = s := by rw [setLine_inTime, gap]; rfl
  simp only [characterArrives, quiet, same, h, if_false, Bool.false_eq_true]

theorem characterArrives_collect {g : Target} (h : s.line.receiver = .collect g) (gap : s.line.gap = 0) (e : Bool) :
    characterArrives b e s = if e then s.heard else collectChar g b s := by
  have same : s.setLine s.line.inTime = s := by rw [setLine_inTime, gap]; rfl
  simp only [characterArrives, quiet, same, h, if_false, Bool.false_eq_true]
  rfl

/-- A late character is taken in HUNT (R180). -/
theorem characterArrives_late (gap : 1 ≤ s.line.gap) (e : Bool) :
    characterArrives b e s = if !e ∧ b = openMark then s.setLine (beginLine s.line) else s.heard := by
  have same : s.setLine s.line.inTime = s.heard := by rw [setLine_inTime, if_pos gap]
  simp only [characterArrives, quiet, same, if_false, Bool.false_eq_true]
  rfl

/-- An opening mark begins a line in every receiver state. -/
theorem characterArrives_openMark : characterArrives openMark false s = s.setLine (beginLine s.line) := by
  rcases Nat.eq_zero_or_pos s.line.gap with gap | gap
  · cases h : s.line.receiver with
    | hunt => rw [characterArrives_hunt quiet h, if_pos ⟨rfl, rfl⟩]
    | address => rw [characterArrives_address quiet h gap, if_neg (by simp), addressChar, if_pos rfl]
    | collect g => rw [characterArrives_collect quiet h gap, if_neg (by simp), collectChar, if_pos rfl]
  · rw [characterArrives_late quiet gap, if_pos ⟨rfl, rfl⟩]

/-- A character in error sends the receiver to HUNT. -/
theorem characterArrives_error : characterArrives b true s = s.heard := by
  rcases Nat.eq_zero_or_pos s.line.gap with gap | gap
  · cases h : s.line.receiver with
    | hunt => rw [characterArrives_hunt quiet h, if_neg (by simp), heard_of_hunt h]
    | address => rw [characterArrives_address quiet h gap, if_pos rfl]; rfl
    | collect g => rw [characterArrives_collect quiet h gap, if_pos rfl]
  · rw [characterArrives_late quiet gap, if_neg (by simp)]

/-- A character in ADDRESS that is no digit and no opening mark sends the receiver to HUNT. -/
theorem characterArrives_noDigit (h : s.line.receiver = .address) (mark : b ≠ openMark) (digit : isDigitByte b = false) :
    characterArrives b false s = s.heard := by
  rcases Nat.eq_zero_or_pos s.line.gap with gap | gap
  · rw [characterArrives_address quiet h gap, if_neg (by simp), addressChar, if_neg mark, if_neg (by simp [digit])]; rfl
  · rw [characterArrives_late quiet gap, if_neg (by simp [mark])]

end

/-! ### The address -/

theorem isDigitByte_iff : isDigitByte b = true ↔ 48 ≤ b.toNat ∧ b.toNat ≤ 57 := by simp [isDigitByte]

@[simp] theorem charOf_toNat (b : Byte) : (charOf b).toNat = b.toNat := by
  have h : b.toNat < 256 := b.isLt
  have valid : b.toNat.isValidChar := .inl (by omega)
  rw [charOf, Char.toNat_ofNat, if_pos valid]

/-- Two address digits give their number. -/
theorem matchAddress_two {x : HostLine} {c d b : Byte} (buffer : x.buffer = [c, d, b]) :
    matchAddress x = { x with
      receiver :=
        if 10 * (d.toNat - 48) + (b.toNat - 48) = x.station then .collect .station
        else if 10 * (d.toNat - 48) + (b.toNat - 48) = 0 then .collect .broadcast
        else .hunt } := by
  have value : digitsValue ((x.buffer.drop 1).map charOf) = 10 * (d.toNat - 48) + (b.toNat - 48) := by
    simp [buffer, digitsValue]
  unfold matchAddress
  rw [value]
  dsimp only
  split
  · rfl
  · split <;> rfl

/-- Settles O15: the receiver's moves of HUNT and ADDRESS, one after another. -/
theorem receiverTakesTheAddress : Obligations.ReceiverTakesTheAddress := by
  intro s b on quiet
  simp only [exec_characterReceived on]
  refine ⟨fun h mark e => ?_, fun h => ?_, ?_, fun h => ?_, fun h mark out => ?_, fun h gap mark e => ?_,
    fun h gap buffer lo hi => ?_, fun d h gap buffer dlo dhi lo hi => ?_⟩
  · rw [characterArrives_hunt quiet h, if_neg fun c => mark c.2]
  · rw [characterArrives_error quiet, heard_of_hunt h]
  · exact congrArg _ (characterArrives_openMark quiet)
  · rw [characterArrives_error quiet]
  · rw [characterArrives_noDigit quiet h mark]
    rw [← Bool.not_eq_true, isDigitByte_iff]
    omega
  · rw [characterArrives_late quiet gap, if_neg fun c => mark c.2]
  · have mark : b ≠ openMark := by rintro rfl; revert hi; decide
    rw [characterArrives_address quiet h gap, if_neg (by simp), addressChar, if_neg mark,
      if_pos (isDigitByte_iff.2 ⟨lo, hi⟩)]
    simp [storeChar, buffer, State.setLine]
  · have mark : b ≠ openMark := by rintro rfl; revert hi; decide
    rw [characterArrives_address quiet h gap, if_neg (by simp), addressChar, if_neg mark,
      if_pos (isDigitByte_iff.2 ⟨lo, hi⟩)]
    dsimp only
    rw [if_pos (by simp [storeChar, buffer]), matchAddress_two (c := 0x40) (d := d) (b := b) (by simp [storeChar, buffer])]
    simp [storeChar, buffer, State.setLine]

/-! ### The line -/

/-- A character in COLLECT, in time and none of those with a part of their own. -/
theorem isPrintable_iff : isPrintable b = true ↔ 0x20 ≤ b.toNat ∧ b.toNat ≤ 0x7E := by simp [isPrintable]

/-- Settles O16: the receiver's moves of COLLECT, one after another. -/
theorem receiverCollectsTheLine : Obligations.ReceiverCollectsTheLine := by
  intro s b g on quiet h
  simp only [exec_characterReceived on]
  refine ⟨fun gap room lo hi (mark : b ≠ openMark) => ?_, congrArg _ (characterArrives_openMark quiet), ?_,
    fun out (cr : b ≠ carriageReturn) => ?_, fun full (mark : b ≠ openMark) => ?_⟩
  · have cr : b ≠ carriageReturn := by rintro rfl; revert lo; decide
    rw [characterArrives_collect quiet h gap, if_neg (by simp), collectChar]
    rw [if_neg mark, if_neg (by omega), if_neg cr, if_pos (isPrintable_iff.2 ⟨lo, hi⟩)]
    rfl
  · rw [characterArrives_error quiet]
  · have mark : b ≠ openMark := by rintro rfl; revert out; decide
    have odd : ¬isPrintable b = true := by rw [isPrintable_iff]; omega
    rcases Nat.eq_zero_or_pos s.line.gap with gap | gap
    · rw [characterArrives_collect quiet h gap, if_neg (by simp), collectChar]
      rw [if_neg mark, if_neg cr, if_neg odd, ite_self]
      rfl
    · rw [characterArrives_late quiet gap, if_neg (by simp [mark])]
  · rcases Nat.eq_zero_or_pos s.line.gap with gap | gap
    · rw [characterArrives_collect quiet h gap, if_neg (by simp), collectChar]
      rw [if_neg mark, if_pos full]
      rfl
    · rw [characterArrives_late quiet gap, if_neg fun c => mark c.2]

/-- Settles O17: a break, a gap and a discard do nothing but send a receiver that is not driven to HUNT. -/
theorem lineAbandonedSilently : Obligations.LineAbandonedSilently := by
  intro s on
  refine ⟨fun quiet => ?_, fun quiet h => ?_, fun quiet h => ?_, fun quiet => ?_, fun drives => ⟨?_, ?_, ?_, fun b e => ?_⟩⟩
  · refine congrArg Host.Outcome.next ((if_pos on).trans ?_)
    unfold lineInterrupted
    split
    · next h => rw [heard_of_hunt h]
    · rw [if_neg (by simp [quiet])]; rfl
  · refine congrArg Host.Outcome.next ((if_pos on).trans ?_)
    dsimp only
    split
    · next e => exact absurd e h
    · rw [if_neg (by simp [quiet])]; rfl
  · refine congrArg Host.Outcome.next ((if_pos on).trans ?_)
    dsimp only
    rw [h]
  · refine congrArg Host.Outcome.next ((if_pos on).trans ?_)
    dsimp only
    rw [if_neg (by simp [quiet]), State.hunt_eq]
  · refine congrArg Host.Outcome.next ((if_pos on).trans ?_)
    unfold lineInterrupted
    split
    · rfl
    · rw [if_pos drives]
  · refine congrArg Host.Outcome.next ((if_pos on).trans ?_)
    dsimp only
    split
    · rfl
    · rw [if_pos drives]
  · exact congrArg Host.Outcome.next ((if_pos on).trans (if_pos drives))
  · rw [exec_characterReceived on, characterArrives, if_pos drives]

/-! ### Requests that are not taken, and faults of form -/

theorem takeLine_owed {r : Request} {q : Reply} (on : s.powered = true) (h : s.line.reply = .owed q) :
    takeLine r s = s.heard := by
  simp only [takeLine, on, h, if_true, State.hunt_eq]

theorem takeLine_sending {r : Request} {q : Reply} (h : s.line.reply = .sending q) : takeLine r s = s := by
  simp only [takeLine, h, ite_self]

theorem takeBroadcast_owed {r : Request} {q : Reply} (on : s.powered = true) (h : s.line.reply = .owed q) :
    takeBroadcast r s = s.heard := by
  simp only [takeBroadcast, on, h, if_true, State.hunt_eq]

theorem takeBroadcast_sending {r : Request} {q : Reply} (h : s.line.reply = .sending q) : takeBroadcast r s = s := by
  simp only [takeBroadcast, h, ite_self]

/-- Settles O19: a request is a line taken, or a broadcast. -/
theorem requestFindsAReplyStanding : Obligations.RequestFindsAReplyStanding := by
  intro c r q s on h
  rcases exec_of_requestOf c r h s with e | ⟨-, e⟩ <;> rw [e]
  · exact ⟨fun owed => by rw [takeLine_owed on owed], fun sending => by rw [takeLine_sending sending]⟩
  · exact ⟨fun owed => by rw [takeBroadcast_owed on owed], fun sending => by rw [takeBroadcast_sending sending]⟩

/-- Settles O20. -/
theorem faultOfFormIsAnswered : Obligations.FaultOfFormIsAnswered := fun _ ready =>
  ⟨fun _ => request_same ready rfl, request_same ready rfl, request_word ready rfl, fun _ => request_word ready rfl⟩

/-! ### The settings of the line -/

theorem writeLineRate_some {w : Text} {n : Nat} (h : wordOf rateWords w = some n) :
    writeLineRate none (some w) s = (s.setStore { s.store with rate := n }, { word := .ok }) := by
  simp only [writeLineRate, plainSetting_some, h]

theorem writeLineRate_none {w : Text} (h : wordOf rateWords w = none) :
    writeLineRate none (some w) s = answer .badValue .empty s := by
  simp only [writeLineRate, plainSetting_some, h]

/-- A word that none of a table's is names nothing. -/
theorem wordOf_eq_none {α : Type} {table : List (String × α)} {w : Text} :
    wordOf table w = none ↔ w ∉ table.map fun p => p.1.toList := by
  induction table with
  | nil => simp [wordOf]
  | cons p ps ih =>
    rw [wordOf, List.map_cons, List.mem_cons, not_or]
    by_cases h : w = p.1.toList
    · simp [h]
    · rw [if_neg h, ih]
      exact (and_iff_right h).symm

theorem usedAnswer_same (v : Int) : usedAnswer v v = { word := .ok } := if_pos rfl

theorem usedAnswer_other {v u : Int} (h : v ≠ u) :
    usedAnswer v u = { word := .clamped, body := .used [("value".toList, u)] } := if_neg h

/-- A value above a range is brought to its end. -/
theorem clamp_of_gt {lo hi v : Int} (h : lo ≤ hi) (above : hi < v) : clamp lo hi v = hi := by unfold clamp; omega

/-- A value below a range is brought to its start. -/
theorem clamp_of_lt {lo hi v : Int} (below : v < lo) : clamp lo hi v = lo := by unfold clamp; omega

/-- Settles O23: a rate is a word of the table, an address a number brought into 1 to 31. -/
theorem lineSettingsAreStored : Obligations.LineSettingsAreStored := by
  rintro s v rates ready rfl
  have address : ∀ u : Int, clamp 1 31 v = u → exec (.writeSettingStationAddress none (some v)) s =
      .next ({ s.heard with store := { s.store with station := u.toNat } }.answered (usedAnswer v u)) := by
    rintro u rfl
    exact request_next ready rfl
  refine ⟨fun w n h => ?_, fun w h => ?_, fun lo hi => ?_, fun lo => ?_, fun hi => ?_⟩
  · refine request_next ready (writeLineRate_some ?_)
    simp only [List.mem_cons, Prod.mk.injEq, List.not_mem_nil, or_false] at h
    rcases h with ⟨rfl, rfl⟩ | ⟨rfl, rfl⟩ | ⟨rfl, rfl⟩ | ⟨rfl, rfl⟩ <;> decide
  · exact request_word ready (writeLineRate_none (wordOf_eq_none.2 h))
  · rw [address v (clamp_of_mem lo hi), usedAnswer_same]
  · rw [address 1 (clamp_of_lt lo), usedAnswer_other (by omega)]; rfl
  · rw [address 31 (clamp_of_gt (by decide) hi), usedAnswer_other (by omega)]; rfl

end Sys2Proof.Machine
end

