-- ==== Sys2Proof/Proofs/Parsing.lean ====
section
/-!
PROOFS. The check of a line, its head and its fields.
-/

namespace Sys2Proof.Machine

/-! ### The check of a line (R182) -/

/-- The value of a run of digits is that of their values one after another. -/
theorem foldl_hexValue (bs : List Byte) (a n : Nat) :
    bs.foldl (fun acc b => match acc, hexValue b with
      | some n, some d => some (16 * n + d)
      | _, _ => none) (some a) = some n ↔
    ∃ vs : List Nat, bs.map hexValue = vs.map some ∧ n = vs.foldl (fun n v => 16 * n + v) a := by
  have stuck : ∀ bs : List Byte, bs.foldl (fun acc b => match acc, hexValue b with
      | some n, some d => some (16 * n + d)
      | _, _ => none) (none : Option Nat) = none := fun bs => by
    induction bs with
    | nil => rfl
    | cons b bs ih => exact ih
  induction bs generalizing a with
  | nil =>
    refine ⟨fun h => ⟨[], rfl, (Option.some.inj h).symm⟩, ?_⟩
    rintro ⟨vs, h, rfl⟩
    rw [List.map_nil, eq_comm, List.map_eq_nil_iff] at h
    rw [h]
    rfl
  | cons b bs ih =>
    rw [List.foldl_cons]
    cases e : hexValue b with
    | none =>
      refine ⟨fun h => ?_, ?_⟩
      · rw [stuck] at h
        cases h
      · rintro ⟨vs, h, -⟩
        cases vs <;> simp [e] at h
    | some d =>
      refine (ih _).trans ⟨?_, ?_⟩
      · rintro ⟨vs, h, rfl⟩
        exact ⟨d :: vs, by simp [e, h], rfl⟩
      · rintro ⟨_ | ⟨v, vs⟩, h, rfl⟩
        · simp at h
        · simp only [List.map_cons, e, List.cons.injEq, Option.some.injEq] at h
          obtain ⟨rfl, h⟩ := h
          exact ⟨vs, h, rfl⟩

theorem hexWord_eq_some {bs : List Byte} {n : Nat} : hexWord bs = some n ↔
    ∃ vs : List Nat, bs.map hexValue = vs.map some ∧ n = vs.foldl (fun n v => 16 * n + v) 0 := by
  exact foldl_hexValue bs 0 n

/-- A line is good where a star and the four digits of its check close it. -/
theorem goodLine_eq_some {line checked : List Byte} : goodLine line = some checked ↔
    ∃ (first last : Byte) (digits : List Byte) (vs : List Nat),
      line = first :: (checked ++ 0x2A :: digits) ++ [last] ∧ digits.length = 4 ∧
      digits.map hexValue = vs.map some ∧ (crc16 checked).toNat = vs.foldl (fun n v => 16 * n + v) 0 := by
  constructor
  · intro h
    unfold goodLine at h
    dsimp only at h
    split at h
    · next mark digits e =>
      split at h
      · next n hex =>
        split at h
        · next good =>
          obtain ⟨rfl, four, crc⟩ := good
          obtain ⟨vs, values, rfl⟩ := hexWord_eq_some.1 hex
          obtain rfl := Option.some.inj h
          set body := (line.drop 1).dropLast with hbody
          have whole : body = body.take (body.length - 5) ++ 0x2A :: digits := by
            rw [← e, List.take_append_drop]
          have ne : line.drop 1 ≠ [] := by
            intro nil
            rw [hbody, nil] at e
            simp at e
          obtain ⟨first, rest, rfl⟩ : ∃ a l, line = a :: l := by
            cases line with
            | nil => simp at ne
            | cons a l => exact ⟨a, l, rfl⟩
          refine ⟨first, rest.getLast ne, digits, vs, ?_, four, values, crc⟩
          rw [← whole, hbody]
          exact congrArg (first :: ·) (List.dropLast_append_getLast ne).symm
        · cases h
      · cases h
    · cases h
  · rintro ⟨first, last, digits, vs, rfl, four, values, crc⟩
    have body : ((first :: (checked ++ 0x2A :: digits) ++ [last]).drop 1).dropLast = checked ++ 0x2A :: digits := by
      rw [List.cons_append, List.drop_one, List.tail_cons, List.dropLast_concat]
    have size : (checked ++ (0x2A : Byte) :: digits).length - 5 = checked.length := by simp [four]
    unfold goodLine
    simp only [body, size, List.drop_left, List.take_left, hexWord_eq_some.2 ⟨vs, values, rfl⟩]
    rw [if_pos ⟨trivial, four, crc⟩]

theorem hexValue_eq_some {b : Byte} {v : Nat} : hexValue b = some v ↔
    48 ≤ b.toNat ∧ b.toNat ≤ 57 ∧ v + 48 = b.toNat ∨ 65 ≤ b.toNat ∧ b.toNat ≤ 70 ∧ v + 55 = b.toNat ∨
      97 ≤ b.toNat ∧ b.toNat ≤ 102 ∧ v + 87 = b.toNat := by
  unfold hexValue
  dsimp only
  split
  · rw [Option.some.injEq]; omega
  · split
    · rw [Option.some.injEq]; omega
    · split
      · rw [Option.some.injEq]; omega
      · simp only [reduceCtorEq, false_iff]; omega

/-! ### The head and the fields (R183) -/

theorem isHeadChar_iff {c : Char} : isHeadChar c = true ↔
    (65 ≤ c.toNat ∧ c.toNat ≤ 90) ∨ (48 ≤ c.toNat ∧ c.toNat ≤ 57) ∨ c = '-' := by
  simp [isHeadChar, isCapital, isDigit, or_assoc]

theorem isNameChar_iff {c : Char} : isNameChar c = true ↔
    (97 ≤ c.toNat ∧ c.toNat ≤ 122) ∨ (48 ≤ c.toNat ∧ c.toNat ≤ 57) := by
  simp [isNameChar, isDigit]

theorem isValueChar_iff {c : Char} : isValueChar c = true ↔
    (65 ≤ c.toNat ∧ c.toNat ≤ 90) ∨ (48 ≤ c.toNat ∧ c.toNat ≤ 57) ∨ c = '-' ∨ c = ',' := by
  simp [isValueChar, isCapital, isDigit, or_assoc]

/-- The head of a line ends where its tail begins with no character of a head. -/
theorem takeWhile_head {head tail : Text} (h : ∀ c ∈ head, isHeadChar c = true)
    (stop : ∀ c, tail.head? = some c → isHeadChar c = false) : (head ++ tail).takeWhile isHeadChar = head := by
  rw [List.takeWhile_append_of_pos h]
  cases tail with
  | nil => simp
  | cons c t => simp [stop c rfl]

/-- A line that holds no space after its address is at fault. -/
theorem parse_noSpace {content : Text} (h : content.head? ≠ some ' ') : parse content = .badRequest "LINE".toList := by
  unfold parse
  split
  · exact absurd rfl h
  · rfl

/-- A head that ends neither at the line's end nor at a space is at fault. -/
theorem parse_headStops {head tail : Text} {c : Char} (h : ∀ q ∈ head, isHeadChar q = true) (space : c ≠ ' ')
    (odd : isHeadChar c = false) : parse (' ' :: head ++ c :: tail) = .badRequest "LINE".toList := by
  have taken : (head ++ c :: tail).takeWhile isHeadChar = head := takeWhile_head h fun q e => Option.some.inj e ▸ odd
  simp only [parse, List.cons_append, taken, List.drop_left]
  rw [if_neg]
  rintro ⟨-, -, e | e⟩
  · cases e
  · exact space (Option.some.inj e)

section

variable {head tail : Text} {raw : List Text} (h : ∀ c ∈ head, isHeadChar c = true)
  (fields : tail = [] ∧ raw = [] ∨ ∃ t : Text, tail = ' ' :: t ∧ raw = splitText ' ' t)
include h fields

/-- A line's head and tail, as it is cut. -/
theorem head_cut : (head ++ tail).takeWhile isHeadChar = head ∧ (tail = [] ∨ tail.head? = some ' ') := by
  rcases fields with ⟨rfl, -⟩ | ⟨t, rfl, -⟩
  · exact ⟨takeWhile_head h nofun, .inl rfl⟩
  · exact ⟨takeWhile_head h fun q e => Option.some.inj e ▸ by decide, .inr rfl⟩

theorem parse_headLength (length : head = [] ∨ 24 < head.length) :
    parse (' ' :: head ++ tail) = .badRequest "LINE".toList := by
  obtain ⟨taken, -⟩ := head_cut h fields
  simp only [parse, List.cons_append, taken, List.drop_left]
  rw [if_neg]
  rintro ⟨lo, hi, -⟩
  rcases length with rfl | long
  · simp at lo
  · omega

variable (ne : head ≠ []) (length : head.length ≤ 24)
include ne length

theorem parse_unknown (unknown : specOf head raw = none) : parse (' ' :: head ++ tail) = .unknown := by
  obtain ⟨taken, ends⟩ := head_cut h fields
  simp only [parse, List.cons_append, taken, List.drop_left]
  rw [if_pos ⟨List.length_pos_iff.2 ne, length, ends⟩]
  rcases fields with ⟨rfl, rfl⟩ | ⟨t, rfl, rfl⟩ <;> simp only [unknown]

variable {spec : RequestSpec} (known : specOf head raw = some spec)
include known

theorem parse_fault {f : Text} (fault : readFields spec.fields [] raw = .error f) :
    parse (' ' :: head ++ tail) = .badRequest f := by
  obtain ⟨taken, ends⟩ := head_cut h fields
  simp only [parse, List.cons_append, taken, List.drop_left]
  rw [if_pos ⟨List.length_pos_iff.2 ne, length, ends⟩]
  rcases fields with ⟨rfl, rfl⟩ | ⟨t, rfl, rfl⟩ <;> simp only [known, fault]

variable {fs : Fields} (read : readFields spec.fields [] raw = .ok fs)
include read

theorem parse_missing {f : Text} (missing : missingField spec.fields fs = some f) :
    parse (' ' :: head ++ tail) = .badRequest f := by
  obtain ⟨taken, ends⟩ := head_cut h fields
  simp only [parse, List.cons_append, taken, List.drop_left]
  rw [if_pos ⟨List.length_pos_iff.2 ne, length, ends⟩]
  rcases fields with ⟨rfl, rfl⟩ | ⟨t, rfl, rfl⟩ <;> simp only [known, read, missing]

theorem parse_instr (complete : missingField spec.fields fs = none) :
    parse (' ' :: head ++ tail) = .instr (spec.build fs) := by
  obtain ⟨taken, ends⟩ := head_cut h fields
  simp only [parse, List.cons_append, taken, List.drop_left]
  rw [if_pos ⟨List.length_pos_iff.2 ne, length, ends⟩]
  rcases fields with ⟨rfl, rfl⟩ | ⟨t, rfl, rfl⟩ <;> simp only [known, read, complete]

end

/-- A field's token is its name, an equals sign and its value. -/
theorem rawField_eq_some {t name v : Text} : rawField t = some (name, v) ↔
    t = name ++ '=' :: v ∧ name ≠ [] ∧ name.length ≤ 12 ∧
      ∀ c ∈ name, (97 ≤ c.toNat ∧ c.toNat ≤ 122) ∨ (48 ≤ c.toNat ∧ c.toNat ≤ 57) := by
  have chars : ∀ n : Text, n.all isNameChar = true ↔
      ∀ c ∈ n, (97 ≤ c.toNat ∧ c.toNat ≤ 122) ∨ (48 ≤ c.toNat ∧ c.toNat ≤ 57) := fun n => by
    simp only [List.all_eq_true, isNameChar_iff]
  unfold rawField
  dsimp only
  constructor
  · intro h
    split at h
    · next good =>
      obtain ⟨lo, hi, names, short⟩ := good
      obtain ⟨rfl, rfl⟩ : t.takeWhile (· != '=') = name ∧ t.drop ((t.takeWhile (· != '=')).length + 1) = v := by
        simpa using h
      refine ⟨?_, List.ne_nil_of_length_pos lo, hi, (chars _).1 names⟩
      have rest := List.takeWhile_append_dropWhile (p := (· != '=')) (l := t)
      cases e : t.dropWhile (· != '=') with
      | nil =>
        rw [e, List.append_nil] at rest
        rw [rest] at short
        omega
      | cons c cs =>
        have eq : c = '=' := by
          have := List.head?_dropWhile_not (· != '=') t
          rw [e] at this
          simpa using this
        rw [e, eq] at rest
        generalize t.takeWhile (· != '=') = name at rest
        rw [← rest]
        simp [List.drop_append]
    · cases h
  · rintro ⟨rfl, ne, hi, names⟩
    have stop : ∀ c ∈ name, (c != '=') = true := fun c hc => by
      have := names c hc
      simp only [bne_iff_ne, ne_eq]
      rintro rfl
      revert this
      decide
    have taken : (name ++ '=' :: v).takeWhile (· != '=') = name := by
      rw [List.takeWhile_append_of_pos stop]
      simp
    rw [taken, if_pos ⟨List.length_pos_iff.2 ne, hi, (chars _).2 names, by simp⟩]
    simp [List.drop_append]

end Sys2Proof.Machine
end

