-- ==== Sys2Proof/Proofs/Lines.lean ====
section
/-!
PROOFS. The fields of a request read in order, the table of requests, and the carriage return of a line.
-/

namespace Sys2Proof.Machine

variable {raw : List Text}

/-! ### The fields of a line, one after another (R183 step 3) -/

section

variable {specs : List FieldSpec} {seen : List Text} {t name v : Text} {ts : List Text} {q : FieldSpec} {x : FieldValue}

theorem readFields_malformed (h : rawField t = none) : readFields specs seen (t :: ts) = .error "LINE".toList := by
  simp only [readFields, h]

theorem readFields_untaken (h : rawField t = some (name, v)) (none : ∀ q ∈ specs, q.name.toList ≠ name) :
    readFields specs seen (t :: ts) = .error name := by
  have find : (specs.find? fun q => q.name.toList == name) = Option.none :=
    List.find?_eq_none.2 fun q hq => by simpa using none q hq
  simp only [readFields, h, find]

variable (h : rawField t = some (name, v)) (find : (specs.find? fun q => q.name.toList == name) = some q)
include h find

theorem readFields_repeated (again : name ∈ seen) : readFields specs seen (t :: ts) = .error name := by
  simp only [readFields, h, find]
  rw [if_pos (List.contains_iff_mem.2 again)]

theorem readFields_badValue (bad : readValue q.type v = none) : readFields specs seen (t :: ts) = .error name := by
  simp only [readFields, h, find, bad, ite_self]

variable (new : name ∉ seen) (value : readValue q.type v = some x)
include new value

theorem readFields_error {f : Text} (rest : readFields specs (name :: seen) ts = .error f) :
    readFields specs seen (t :: ts) = .error f := by
  simp only [readFields, h, find, value, rest]
  rw [if_neg fun e => new (List.contains_iff_mem.1 e)]

theorem readFields_ok {fs : Fields} (rest : readFields specs (name :: seen) ts = .ok fs) :
    readFields specs seen (t :: ts) = .ok ((name, x) :: fs) := by
  simp only [readFields, h, find, value, rest]
  rw [if_neg fun e => new (List.contains_iff_mem.1 e)]

end

theorem readValue_none {k : FieldType} {v : Text} (bad : v = [] ∨ ∃ c ∈ v, isValueChar c = false) :
    readValue k v = none := by
  refine if_pos ?_
  rcases bad with rfl | ⟨c, hc, odd⟩
  · rfl
  · have : v.all isValueChar = false := List.all_eq_false.2 ⟨c, hc, by simp [odd]⟩
    rw [this]
    simp

theorem readValue_some {v : Text} (ne : v ≠ []) (good : ∀ c ∈ v, isValueChar c = true) :
    readValue .num v = (numberOf v).map FieldValue.num ∧ readValue .word v = some (.word v) ∧
      readValue .list v = if [] ∈ splitText ',' v then none else some (.list (splitText ',' v)) := by
  have form : ¬(v.isEmpty || !v.all isValueChar) = true := by
    simp only [Bool.or_eq_true, List.isEmpty_iff, Bool.not_eq_true', not_or, Bool.not_eq_false]
    exact ⟨ne, List.all_eq_true.2 good⟩
  have empty : ((splitText ',' v).any List.isEmpty = true) = ([] ∈ splitText ',' v) := by simp
  refine ⟨if_neg form, if_neg form, (if_neg form).trans ?_⟩
  simp only [empty]

theorem fieldOf_cons (fs : Fields) (name : String) (t : Text) (v : FieldValue) :
    fieldOf ((t, v) :: fs) name = if t = name.toList then some v else fieldOf fs name := by
  by_cases h : t = name.toList <;> simp [fieldOf, h]

theorem settingNamed_none {t : Text} (h : rawField t = none) : settingNamed (t :: raw) = settingNamed raw := by
  simp only [settingNamed, List.filterMap_cons, h]

theorem settingNamed_some {t n v : Text} (h : rawField t = some (n, v)) :
    settingNamed (t :: raw) = if n = "name".toList then v else settingNamed raw := by
  simp only [settingNamed, List.filterMap_cons, h]
  by_cases e : n = "name".toList
  · rw [List.find?_cons_of_pos (by simpa using e), if_pos e]
  · rw [List.find?_cons_of_neg (by simpa using e), if_neg e]

/-! ### The requests by name (section 9.5) -/

theorem wordOf_mem {α : Type} {table : List (String × α)} {w : Text} {a : α} (h : wordOf table w = some a) :
    ∃ p ∈ table, p.1.toList = w ∧ p.2 = a := by
  induction table with
  | nil => cases h
  | cons p ps ih =>
    rw [wordOf] at h
    split at h
    · next e => exact ⟨p, List.mem_cons_self, e.symm, Option.some.inj h⟩
    · obtain ⟨q, hq, e⟩ := ih h
      exact ⟨q, List.mem_cons_of_mem _ hq, e⟩

/-- A command that a line of the station runs: one with a request, and no broadcast. -/
def lineCommand : Instr → Bool
  | .setClimateMode true _ _ => false
  | i => (requestOf i).isSome

theorem requestTable_lineCommand (fs : Fields) : (requestTable.all fun p => lineCommand (p.2.build fs)) = true := by rfl

theorem writeTable_lineCommand (fs : Fields) : (writeTable.all fun p => lineCommand (p.2.build fs)) = true := by rfl

theorem readSpec_lineCommand (name : Text) (fs : Fields) : lineCommand ((readSpec name).build fs) = true := by
  unfold readSpec
  split <;> rfl

theorem writeSpec_lineCommand (name : Text) (fs : Fields) : lineCommand ((writeSpec name).build fs) = true := by
  unfold writeSpec
  split
  · rfl
  · split
    · rfl
    · split
      · next spec h =>
        obtain ⟨p, hp, -, rfl⟩ := wordOf_mem h
        exact List.all_eq_true.1 (writeTable_lineCommand fs) p hp
      · rfl

theorem specOf_lineCommand {head : Text} {spec : RequestSpec} (h : specOf head raw = some spec) (fs : Fields) :
    lineCommand (spec.build fs) = true := by
  unfold specOf at h
  split at h
  · obtain rfl := Option.some.inj h
    exact writeSpec_lineCommand _ fs
  · split at h
    · obtain rfl := Option.some.inj h
      exact readSpec_lineCommand _ fs
    · obtain ⟨p, hp, -, rfl⟩ := wordOf_mem h
      exact List.all_eq_true.1 (requestTable_lineCommand fs) p hp

/-- A line spells none but the commands of a station line. -/
theorem parse_lineCommand {content : Text} {i : Instr} (h : parse content = .instr i) : lineCommand i = true := by
  unfold parse at h
  split at h
  · dsimp only at h
    split at h
    · split at h
      · cases h
      · next spec known =>
        split at h
        · cases h
        · split at h
          · cases h
          · obtain rfl := Parsed.instr.inj h
            exact specOf_lineCommand known _
    · cases h
  · cases h

/-- The command of a station line is its request taken. -/
theorem exec_of_lineCommand {i : Instr} (h : lineCommand i = true) :
    (requestOf i).isSome = true ∧ ∀ u, exec i u = .next (takeLine (parsedRequest (.instr i)) u) := by
  have some : (requestOf i).isSome = true := by
    unfold lineCommand at h
    split at h
    · cases h
    · exact h
  refine ⟨some, fun u => ?_⟩
  obtain ⟨r, hr⟩ := Option.isSome_iff_exists.1 some
  rw [parsedRequest, hr, Option.getD_some]
  rcases exec_of_requestOf i r hr u with e | ⟨⟨mode, zone, rfl⟩, -⟩
  · exact e
  · cases h

/-- The names of the requests, in the order of section 9.5. -/
theorem specOf_none_iff {head : Text} : specOf head raw = none ↔
    head ≠ "WRITE-SETTING".toList ∧ head ≠ "READ-SETTING".toList ∧ wordOf requestTable head = none := by
  unfold specOf
  split
  · next h => exact ⟨nofun, fun e => absurd h e.1⟩
  · next h =>
    split
    · next h' => exact ⟨nofun, fun e => absurd h' e.2.1⟩
    · next h' => exact ⟨fun e => ⟨h, h', e⟩, fun e => e.2.2⟩

/-- The names a head is looked for among. -/
theorem specOf_none_iff_names {head : Text} : specOf head raw = none ↔ head ∉ [
    "CALIBRATE", "READ-CHANNEL", "SET-SETPOINTS", "SET-CLIMATE-MODE", "BURST", "READ-ZONE", "ADD-CARTRIDGE",
    "REMOVE-CARTRIDGE", "READ-CARTRIDGE", "LIST-CARTRIDGES", "SET-HOME", "MARK-MISSING", "MARK-FOUND",
    "RELEASE-HOLD", "READ-STAGING", "SUBMIT-OUTBOUND", "SUBMIT-INBOUND", "GUIDE-PICKS", "CANCEL-MANIFEST",
    "READ-MANIFEST", "LIST-MANIFESTS", "LOAD-HATCH", "ANSWER-QUERY", "ABORT-HANDOVER", "RELEASE-HATCH",
    "CLEAR-STUCK", "FETCH-RECEIPT", "CLEAR-RECEIPT", "READ-HATCH", "OPEN-AISLE", "CLEAR-AISLE-QUEUE",
    "RESET-BANK", "READ-BANK", "SET-DETECTOR", "READ-DETECTOR", "READ-LOOP", "START-VENT", "RESET-FIRE-ZONE",
    "RESTORE-AGENT", "READ-FIRE-ZONE", "IDENTIFY", "STATUS", "READ-SETTING", "WRITE-SETTING", "FETCH-REPORTS",
    "RESTART"].map String.toList := by
  have cut : ∀ names : List Text, names = requestTable.map (fun p => p.1.toList) →
      (specOf head raw = none ↔
        head ∉ names.take 42 ++ ["READ-SETTING".toList, "WRITE-SETTING".toList] ++ names.drop 42) := by
    rintro names rfl
    rw [specOf_none_iff, wordOf_eq_none]
    conv_lhs => rw [← List.take_append_drop 42 (requestTable.map fun p => p.1.toList)]
    simp only [List.mem_append, List.mem_cons, List.not_mem_nil, or_false, not_or]
    tauto
  exact cut _ rfl

theorem specOf_write : specOf "WRITE-SETTING".toList raw = some (writeSpec (settingNamed raw)) := if_pos rfl

theorem specOf_read : specOf "READ-SETTING".toList raw = some (readSpec (settingNamed raw)) := by rfl

/-- A READ-SETTING of a name that takes a word for its index, or none. -/
def readWorded (name : Text) : RequestSpec :=
  { fields := [reqWord "name", optWordS "index"], build := fun f => .readSetting name (optWord f "index") none none }

/-- A READ-SETTING of a name that takes a number for its index. -/
def readNumbered (name : Text) : RequestSpec :=
  { fields := [reqWord "name", optNumS "index"]
    build := fun f => .readSetting name ((optNum f "index").map intText) none none }

/-- Every name that is written is one of the catalogue's. -/
theorem writeTable_subset_catalogue :
    ∀ w ∈ "CHANNEL".toList :: "DETECTOR".toList :: writeTable.map fun p => p.1.toList,
      w ∈ catalogue.map fun p => p.1.toList := by decide

theorem writeSpec_unknown {name : Text} (h : wordOf catalogue name = none) : writeSpec name =
    { fields := [reqWord "name", optWordS "index", optWordS "value", optWordS "kind", optWordS "owner",
        optNumS "group", optNumS "loop", optNumS "address", optNumS "zone", optWordS "type"]
      build := fun _ => .writeSettingUnknownName name } := by
  have other : ∀ w ∈ "CHANNEL".toList :: "DETECTOR".toList :: writeTable.map fun p => p.1.toList, name ≠ w := by
    rintro w hw rfl
    exact wordOf_eq_none.1 h (writeTable_subset_catalogue _ hw)
  have table : wordOf writeTable name = none := wordOf_eq_none.2 fun hw =>
    other _ (List.mem_cons_of_mem _ (List.mem_cons_of_mem _ hw)) rfl
  unfold writeSpec
  rw [if_neg (other _ (by simp)), if_neg (other _ (by simp)), table]


/-! ### The carriage return -/

variable {s : State}

/-- The carriage return of a line in time completes it. -/
theorem characterArrives_carriageReturn {g : Target} (quiet : s.line.driving = false) (h : s.line.receiver = .collect g)
    (gap : s.line.gap = 0) (room : s.line.buffer.length < 512) : characterArrives carriageReturn false s =
      lineComplete g (s.line.buffer ++ [carriageReturn]) (s.setLine (storeChar carriageReturn s.line)) := by
  have mark : carriageReturn ≠ openMark := by decide
  rw [characterArrives_collect quiet h gap, if_neg (by simp), collectChar]
  rw [if_neg mark, if_neg (by omega), if_pos rfl]

theorem lineComplete_none {g : Target} {line : List Byte} (h : goodLine line = none) : lineComplete g line s = s.heard := by
  simp only [lineComplete, h, State.hunt_eq]

theorem lineComplete_station {line checked : List Byte} (h : goodLine line = some checked) :
    lineComplete .station line s = takeLine (parsedRequest (lineParsed checked)) s := by
  simp only [lineComplete, h]

theorem lineComplete_broadcast {line checked : List Byte} (h : goodLine line = some checked) :
    lineComplete .broadcast line s = broadcastTaken (lineParsed checked) s := by
  simp only [lineComplete, h]

/-- A broadcast line that spells no SET-CLIMATE-MODE is discarded. -/
theorem broadcastTaken_other {p : Parsed}
    (h : ∀ (b : Bool) (mode : Text) (zone : Option Int), p ≠ .instr (.setClimateMode b mode zone)) :
    broadcastTaken p s = s.heard := by
  unfold broadcastTaken
  split
  · exact absurd rfl (h _ _ _)
  · rfl

/-- Settles O18. The clauses stand in the order of the line: its check, its address, its head, its fields, and the
requests and settings by name. -/
theorem completedLineRunsItsCommand : Obligations.CompletedLineRunsItsCommand := by
  rintro s u on quiet gap room rfl
  have completes : ∀ g, s.line.receiver = .collect g → exec (.characterReceived 0x0D false) s =
      .next (lineComplete g (s.line.buffer ++ [0x0D]) (s.setLine (storeChar 0x0D s.line))) := fun g h =>
    (exec_characterReceived on false).trans (congrArg _ (characterArrives_carriageReturn quiet h gap room))
  refine ⟨fun h => ?_, fun h => ⟨fun bad => ?_, fun checked good => ⟨fun b mode zone spells => ?_, fun other => ?_⟩⟩,
    fun line checked => goodLine_eq_some, fun b v => hexValue_eq_some, fun d e rest h => parse_noSpace h,
    fun d e rest head tail c content heads space odd => ?_, fun d e rest head tail raw content heads fields => ?_,
    fun specs seen t ts => ?_, fun t name v => rawField_eq_some, fun k v => ⟨fun bad => ?_, fun ne good => ?_⟩,
    fun fs name => ?_, ?_, fun raw t => ?_, ?_⟩
  · rw [completes _ h]
    split
    · next bad => rw [lineComplete_none bad]; rfl
    · next checked good =>
      rw [lineComplete_station good]
      split
      · next i spells =>
        obtain ⟨some, runs⟩ := exec_of_lineCommand (parse_lineCommand spells)
        rw [spells]
        exact ⟨some, (runs _).symm⟩
      · next f spells => rw [spells]; rfl
      · next spells => rw [spells]; rfl
  · rw [completes _ h, lineComplete_none bad]; rfl
  · rw [completes _ h, lineComplete_broadcast good, spells]; rfl
  · rw [completes _ h, lineComplete_broadcast good, broadcastTaken_other other]; rfl
  · have heads : ∀ q ∈ head, isHeadChar q = true := fun q hq => isHeadChar_iff.2 (heads q hq)
    have odd : isHeadChar c = false := by rw [← Bool.not_eq_true, isHeadChar_iff]; exact odd
    show parse (rest.map charOf) = _
    rw [content]
    exact parse_headStops heads space odd
  · have heads : ∀ c ∈ head, isHeadChar c = true := fun c hc => isHeadChar_iff.2 (heads c hc)
    have parsed : lineParsed (d :: e :: rest) = parse (' ' :: head ++ tail) := congrArg parse content
    rw [parsed]
    refine ⟨fun length => parse_headLength heads fields length, fun ne length => ⟨specOf_none_iff_names, fun unknown =>
      parse_unknown heads fields ne length unknown, fun spec known => ⟨fun f fault =>
      parse_fault heads fields ne length known fault, fun fs read => ⟨fun q missing => ?_, fun complete => ?_⟩⟩⟩⟩
    · exact parse_missing heads fields ne length known read (by rw [missingField, missing]; rfl)
    · refine parse_instr heads fields ne length known read ?_
      rw [missingField, Option.map_eq_none_iff, List.find?_eq_none]
      intro q hq absent
      simp only [Bool.and_eq_true, Option.isNone_iff_eq_none] at absent
      have := complete q hq absent.1
      rw [absent.2] at this
      cases this
  · refine ⟨rfl, readFields_malformed, fun name v h => ⟨readFields_untaken h, fun q find => ⟨fun bad => ?_,
      fun x new value => ⟨fun f rest => ?_, fun fs rest => ?_⟩⟩⟩⟩
    · rcases bad with again | bad
      · exact readFields_repeated h find again
      · exact readFields_badValue h find bad
    · exact readFields_error h find new value rest
    · exact readFields_ok h find new value rest
  · refine readValue_none (bad.imp_right ?_)
    rintro ⟨c, hc, odd⟩
    exact ⟨c, hc, by rw [← Bool.not_eq_true, isValueChar_iff]; exact odd⟩
  · exact readValue_some ne fun c hc => isValueChar_iff.2 (good c hc)
  · refine ⟨rfl, fieldOf_cons fs name, fun h => ?_, fun k h => ?_, fun w h => ?_, fun l h => ?_⟩
    · simp [optNum, optWord, optList, h]
    · simp [numF, optNum, h]
    · simp [wordF, optWord, h]
    · simp [listF, optList, h]
  · rintro raw exposure home given place rfl rfl rfl rfl
    refine ⟨?_, ?_, ?_, ?_, ?_, ?_, by rfl, by rfl, by rfl, by rfl, by rfl, by rfl, by rfl, by rfl, by rfl, by rfl⟩
    all_goals
      repeat refine List.forall_mem_cons.2 ⟨by rfl, ?_⟩
      exact List.forall_mem_nil _
  · refine ⟨rfl, ?_⟩
    cases h : rawField t with
    | none => exact settingNamed_none h
    | some f => exact settingNamed_some h
  · rintro raw sets num word rfl rfl rfl
    have written : ∀ {n : String} {spec : RequestSpec}, writeSpec n.toList = spec → settingNamed raw = n.toList →
        specOf "WRITE-SETTING".toList raw = some spec := by
      rintro n _ rfl h
      rw [specOf_write, h]
    refine ⟨?_, ?_, ?_, written (by rfl), written (by rfl), written (by rfl), fun unknown => ?_, ?_⟩
    · repeat refine List.forall_mem_cons.2 ⟨written (by rfl), ?_⟩
      exact List.forall_mem_nil _
    · repeat refine List.forall_mem_cons.2 ⟨written (by rfl), ?_⟩
      exact List.forall_mem_nil _
    · repeat refine List.forall_mem_cons.2 ⟨written (by rfl), ?_⟩
      exact List.forall_mem_nil _
    · rw [specOf_write, writeSpec_unknown unknown]; rfl
    · rintro name reads rfl rfl
      refine ⟨fun h => ?_, fun h => ?_, fun h => ?_, fun unknown => ?_⟩
      · rw [specOf_read, h]; rfl
      · have worded : ∀ w ∈ ["SCAN-PERIOD", "HOLD-KT", "HOLD-KH", "HOLD-MIN", "HOLD-MAX", "DET-PREALARM", "DET-ALARM",
            "LINE-RATE", "STATION-ADDRESS"].map String.toList, readSpec w = readWorded w := by
          repeat refine List.forall_mem_cons.2 ⟨by rfl, ?_⟩
          exact List.forall_mem_nil _
        rw [specOf_read, worded _ h]; rfl
      · have numbered : ∀ w ∈ ["CHANNEL", "CH-OFFSET", "CH-GAIN", "GROUP-TIMER", "DISAGREE-LIMIT", "ZONE-TSET",
            "ZONE-HSET", "ZONE-BAND", "ZONE-STEP", "ZONE-CAP", "ZONE-RHBAND", "ZONE-TBAND", "ZONE-PERIOD", "ZONE-BURST",
            "CLIMATE-MODE", "HATCH-ZONE", "UNLOCK-TIMEOUT", "OPEN-ALARM", "QUERY-WAIT", "REJECT-TIMEOUT", "COND-LIMIT",
            "STANDBY-TIME", "PURGE-BAND", "COND-MARGIN", "BANK-ZONE", "BANK-CARRIAGES", "BANK-PARK", "BANK-STEP",
            "FIRE-COINCIDENCE", "FIRE-COUNTDOWN", "FIRE-SOAK", "FIRE-VENT"].map String.toList,
            readSpec w = readNumbered w := by
          repeat refine List.forall_mem_cons.2 ⟨by rfl, ?_⟩
          exact List.forall_mem_nil _
        rw [specOf_read, numbered _ h]; rfl
      · rw [specOf_read, readSpec, unknown]; rfl

end Sys2Proof.Machine
end

