-- ==== Sys2Proof/Proofs/Power.lean ====
section
/-!
PROOFS. A second of powered time, the state after reset, and POWER-OFF.
-/

namespace Sys2Proof.Machine

variable {s : State}

/-! ### A step (R205 aside) -/

/-- Settles O1: a second moves what the tick functions of the blocks move. -/
theorem stepRunsTheFrontCommand : Obligations.StepRunsTheFrontCommand := by
  refine ⟨fun c rest s h => by rw [step, h], fun s h => ?_⟩
  have second : step s = .next (tick s) := by rw [step, h]
  refine ⟨fun off => ?_, fun on => ⟨_, second, ?_⟩⟩
  · rw [second, tick, if_neg (by simp [off])]
  · rw [tick, if_pos on]
    refine ⟨h, rfl, on, rfl, rfl, rfl, rfl, rfl, rfl, fun z => ?_, fun r => ?_, ?_, fun b => ?_, ?_, rfl⟩
    · simp [tickClimate, countDown]
    · simp [tickStaging, countDown]
    · rintro i x rfl
      simp [tickHatch, tickShutter, Hatch.bothShutters, countDown]
    · simp [tickBank, countDown]
    · rintro z x rfl
      simp only [Fin.getElem_fin, Vector.getElem_map, tickFire, countDown]
      cases s.fire[z].countdown <;> rfl

/-! ### What is not stored -/

/-- Settles O6: the factory table is empty, every zone in NORMAL, every bank at rest and every lock engaged. -/
theorem resetIsSafe : Obligations.ResetIsSafe := by
  refine ⟨⟨by decide, by decide, ?_, ?_⟩, fun h => ?_, fun z => ?_, fun z => ?_, fun b => ?_, ?_⟩
  · rintro r h -
    exact Nat.le_of_ble_eq_true rfl
  · intro t n h
    simp [State.reset] at h
  · simp [State.reset, Hatch.oneLocked]
  · simp [State.reset]
  · constructor <;> simp [State.reset]
  · have e : State.reset.bank[b] = {} := by simp [State.reset]
    rw [e]
    exact BankLaw.start {}
  · exact ⟨.nil, .nil, Nat.zero_le _⟩

/-- An owner's value at a start (R20): with no reading taken, NOT-READY where it has a channel of the kind. -/
theorem startReading_eq (s : State) (o : Owner) (k : ChanKind) : startReading s.store o k = unread s o k := by
  have values : ∀ c : Channel, chanValue s.store (FrontEnd.start s.store) c = .notReady := fun c => by
    simp [chanValue, FrontEnd.start]
  have calm : ∀ c : Channel, isCal s.store (FrontEnd.start s.store) c = false := fun c => by
    simp [isCal, FrontEnd.start, GroupState.calibrates]
  have uncal : ∀ cs : List Channel, cs.any (isCal s.store (FrontEnd.start s.store)) = false := fun cs => by
    simp [calm]
  have none : ∀ cs : List Channel, (cs.map (chanValue s.store (FrontEnd.start s.store))).filterMap Value.toInt? = [] := by
    intro cs
    simp [values, Value.toInt?]
  have used : ((channelsOf s.store o k).map (chanValue s.store (FrontEnd.start s.store))).contains .notReady = true ↔
      ∃ c : Channel, s.store.channels[c].owner = o ∧ s.store.channels[c].kind = k := by
    simp [values, channelsOf]
  unfold startReading formReading unread
  simp only [combine, none, uncal, used]

/-- Settles O4: power-off leaves the cold state, in which nothing but the field inputs and the store is of the part. -/
theorem powerOffLosesWhatIsNotStored : Obligations.PowerOffLosesWhatIsNotStored := by
  intro s
  refine ⟨powerDown s, rfl, rfl, rfl, rfl, rfl, rfl, rfl, rfl, rfl, rfl, rfl, fun z => ?_, fun h => ?_, fun b => ?_, rfl,
    fun z => ?_⟩
  · simp [powerDown, coldState, startClimate, Climate.start, startReading_eq, unread]
  · simp [powerDown, coldState, coldHatch, trayFromSensors]
  · simp [powerDown, coldState, Bank.start]
  · simp [powerDown, coldState, FireZone.start]

end Sys2Proof.Machine
end

