-- ==== Sys2Proof/Proofs/Readings.lean ====
section
/-!
PROOFS. The report queue and the readings of the part.
-/

namespace Sys2Proof.Machine

variable {s : State}

/-! ### The report queue -/

/-- Settles O24: the three cases of the queue. -/
theorem postedReportIsPlaced : Obligations.PostedReportIsPlaced := by
  intro e s
  have plain : (∀ r ∈ s.reports, r.isLost = false) → ∀ t n, s.reports.getLast? ≠ some { stamp := t, event := .lost n } := by
    intro none t n last
    have := none _ (List.mem_of_getLast? last)
    cases this
  refine ⟨fun none short => ?_, fun none full => ?_, fun q m n h => ?_⟩
  · rcases enqueue_cases s.reports { stamp := s.minute, event := e } with ⟨t, n, last, -⟩ | ⟨-, -, e⟩ | ⟨-, long, -⟩
    · exact absurd last (plain none t n)
    · rw [post_eq, e]
    · omega
  · rcases enqueue_cases s.reports { stamp := s.minute, event := e } with ⟨t, n, last, -⟩ | ⟨-, short, -⟩ | ⟨-, -, e⟩
    · exact absurd last (plain none t n)
    · omega
    · rw [post_eq, e]
  · rw [post_eq, h]
    simp [enqueue]

/-- What the count of reports taken is: as many as may be, up to the number asked for, the queue's end, or the first that
would make the reply too long. -/
theorem fetchCount_spec (station : Nat) (max : Option Int) (q : List Report) (fuel k : Nat) (hq : k ≤ q.length)
    (hmax : (k : Int) ≤ clamp 1 8 (max.getD 8)) :
    ∃ r, fetchCount station max q fuel k = r ∧ k ≤ r ∧ r ≤ q.length ∧ (r : Int) ≤ clamp 1 8 (max.getD 8) ∧
      (r = k + fuel ∨ r = q.length ∨ (r : Int) = clamp 1 8 (max.getD 8) ∨
        1024 < replyLength 0 { station := station, answer := fetchAnswer max q (r + 1) }) ∧
      (k < r → replyLength 0 { station := station, answer := fetchAnswer max q r } ≤ 1024) := by
  induction fuel generalizing k with
  | zero => exact ⟨k, rfl, le_refl k, hq, hmax, .inl rfl, fun h => absurd h (lt_irrefl k)⟩
  | succ fuel ih =>
    unfold fetchCount
    split
    · next more =>
      obtain ⟨room, fewer, fits⟩ := more
      obtain ⟨r, e, le, rq, rmax, stop, last⟩ := ih (k + 1) room (by push_cast; omega)
      refine ⟨r, e, by omega, rq, rmax, stop.imp_left (by omega), fun _ => ?_⟩
      rcases Nat.lt_or_eq_of_le le with more | rfl
      · exact last more
      · exact fits
    · next stop =>
      refine ⟨k, rfl, le_refl k, hq, hmax, .inr ?_, fun h => absurd h (lt_irrefl k)⟩
      by_cases room : k < q.length
      · by_cases fewer : (k : Int) < clamp 1 8 (max.getD 8)
        · exact .inr (.inr (Nat.lt_of_not_le fun fits => stop ⟨room, fewer, fits⟩))
        · exact .inr (.inl (by omega))
      · exact .inl (by omega)

/-- Settles O25: eight steps reach every number that may be asked for. -/
theorem fetchTakesTheOldestReports : Obligations.FetchTakesTheOldestReports := by
  intro s max ready
  have range := clamp_mem (lo := 1) (hi := 8) (v := max.getD 8) (by decide)
  obtain ⟨k, e, -, kq, kmax, stop, fits⟩ := fetchCount_spec s.line.station max s.reports 8 0 (Nat.zero_le _) (by omega)
  refine ⟨k, request_next ready ?_, kq, kmax, ?_, fits⟩
  · subst e
    rfl
  · rcases stop with eight | all | asked | long
    · exact .inr (.inl (by omega))
    · exact .inl all
    · exact .inr (.inl asked)
    · exact .inr (.inr long)

/-! ### Readings -/

/-- Settles O34. -/
theorem channelAndZoneAreRead : Obligations.ChannelAndZoneAreRead := by
  intro s k ready
  refine ⟨fun c h => ?_, fun h => request_word ready (naming_none h), fun z h => request_same ready (naming_some h),
    fun h => request_word ready (naming_none h), ?_⟩
  · refine request_same ready ((naming_some h).trans ?_)
    have used : ∀ x : ChanKind, (x != .unused) = !decide (x = .unused) := by rintro (_ | _ | _ | _) <;> rfl
    simp [State.heard, isCal, used]
  · rintro st f c x g rfl rfl
    refine ⟨fun fault => ?_, fun n good state => ?_, fun good state some => ?_, fun good state none => ?_,
      fun kept good state none => ?_⟩
    · simp only [chanValue, fault, if_true]
    · simp only [chanValue, good, state, Bool.false_eq_true, if_false]
    · have mean : windowMean f.chans[c].window = _ := if_neg (by simpa using some)
      rcases state with state | ⟨kept, state⟩ <;>
        simp only [chanValue, good, state, mean, Bool.false_eq_true, if_false]
    · simp only [chanValue, good, state, none, windowMean, List.isEmpty_nil, Bool.false_eq_true, if_false, if_true]
    · simp only [chanValue, good, state, none, windowMean, List.isEmpty_nil, Bool.false_eq_true, if_false, if_true]

/-! ### READ-SETTING (R201) -/

section

variable (ready : Ready s) {name w : Text} {v : SettingView}
include ready

theorem exec_readPlain {read : State → SettingView} (h : wordOf catalogue name = some (.plain read))
    (e : read s.heard = v) :
    exec (.readSetting name none none none) s = .next (s.replied { word := .ok, body := .setting v }) := by
  refine request_same ready ?_
  simp only [readSetting, h, readIndexed, viewAnswer, answer, e]

theorem exec_readNumbered {n : Nat} {k : Int} {i : Fin n} {read : Fin n → State → SettingView}
    (h : wordOf catalogue name = some (byNumber n read)) (number : numberOf w = some k) (index : indexOf n k = some i)
    (e : read i s.heard = v) :
    exec (.readSetting name (some w) none none) s = .next (s.replied { word := .ok, body := .setting v }) := by
  refine request_same ready ?_
  simp only [readSetting, h, byNumber, readIndexed, number, index, Option.map_some, viewAnswer, answer, e]

theorem exec_readNumbered_none {n : Nat} {k : Int} {read : Fin n → State → SettingView}
    (h : wordOf catalogue name = some (byNumber n read)) (number : numberOf w = some k) (index : indexOf n k = none) :
    exec (.readSetting name (some w) none none) s = .next (s.repliedWord .badValue) := by
  refine request_word ready ?_
  simp only [readSetting, h, byNumber, readIndexed, number, index, Option.map_none, viewAnswer, answer]

theorem exec_readWorded {read : Text → State → Option SettingView} (h : wordOf catalogue name = some (.worded read))
    (e : read w s.heard = some v) :
    exec (.readSetting name (some w) none none) s = .next (s.replied { word := .ok, body := .setting v }) := by
  refine request_same ready ?_
  simp only [readSetting, h, readIndexed, viewAnswer, answer, e]

theorem exec_readWorded_none {read : Text → State → Option SettingView}
    (h : wordOf catalogue name = some (.worded read)) (e : read w s.heard = none) :
    exec (.readSetting name (some w) none none) s = .next (s.repliedWord .badValue) := by
  refine request_word ready ?_
  simp only [readSetting, h, readIndexed, viewAnswer, answer, e]

theorem exec_readNoNumber {read : Int → State → Option SettingView} (h : wordOf catalogue name = some (.numbered read))
    (number : numberOf w = none) :
    exec (.readSetting name (some w) none none) s =
      .next (s.replied { word := .badRequest, body := .badField "index".toList }) := by
  refine request_same ready ?_
  simp only [readSetting, h, readIndexed, number, badRequest, answer]

theorem exec_readLoop {read : Int → State → Option SettingView} {i : Option Text} {j : Int}
    (h : wordOf catalogue name = some (.numbered read)) :
    exec (.readSetting name i (some j) none) s =
      .next (s.replied { word := .badRequest, body := .badField "loop".toList }) := by
  refine request_same ready ?_
  simp only [readSetting, h, badRequest, answer]

end

theorem fireState_eq (z : Zone) : s.fireState z = s.fire[z].state := rfl

/-- Settles O26: each setting by the kind of index its reader takes. -/
theorem partIsRead : Obligations.PartIsRead := by
  intro s ready
  refine ⟨request_same ready rfl, ⟨statusView s, request_same ready rfl, rfl, rfl, rfl, ?_, rfl, rfl, rfl⟩, ?_,
    fun w k z c f number index => ?_, fun w k h x number index => ?_, fun w k b x number index => ?_,
    fun w k g number index => ?_, ?_, fun k j l a loop address => ?_, fun w k c number index => ?_,
    fun name i l a h => ?_, fun w k four two channels number => ?_, fun w a b => ?_, fun w smoke heat => ?_,
    fun k j none => ?_⟩
  · simp [statusView, State.attn, ready.1, State.receiptHeld, State.querying, or_assoc, Fin.exists_fin_two]
  · repeat refine List.forall_mem_cons.2 ⟨by dsimp only; exact exec_readPlain ready rfl rfl, ?_⟩
    exact List.forall_mem_nil _
  · rintro rfl rfl
    repeat refine List.forall_mem_cons.2 ⟨by dsimp only; exact exec_readNumbered ready rfl number index rfl, ?_⟩
    refine List.forall_mem_cons.2 ⟨?_, ?_⟩
    · dsimp only
      refine exec_readNumbered ready rfl number index ?_
      simp only [State.heard]
      cases s.store.selection[z] <;> rfl
    · repeat refine List.forall_mem_cons.2 ⟨by dsimp only; exact exec_readNumbered ready rfl number index rfl, ?_⟩
      exact List.forall_mem_nil _
  · rintro rfl
    repeat refine List.forall_mem_cons.2 ⟨by dsimp only; exact exec_readNumbered ready rfl number index rfl, ?_⟩
    exact List.forall_mem_nil _
  · rintro rfl
    repeat refine List.forall_mem_cons.2 ⟨by dsimp only; exact exec_readNumbered ready rfl number index rfl, ?_⟩
    exact List.forall_mem_nil _
  · refine exec_readNumbered ready rfl number index ?_
    simp only [State.heard]
    cases s.store.groupTimer[g] <;> rfl
  · repeat refine List.forall_mem_cons.2 ⟨by dsimp only; exact exec_readWorded ready rfl rfl, ?_⟩
    exact List.forall_mem_nil _
  · refine request_same ready ?_
    have byAddress : wordOf catalogue "DETECTOR".toList = some (.byAddress fun l a s => .detector (s.detEntry l a)) := rfl
    simp only [readSetting, byAddress, onDetector, naming, loop, address, viewAnswer, answer]
    rfl
  · repeat refine List.forall_mem_cons.2 ⟨by dsimp only; exact exec_readNumbered ready rfl number index rfl, ?_⟩
    exact List.forall_mem_nil _
  · refine request_word ready ?_
    simp only [readSetting, h]
  · rintro rfl rfl rfl
    refine ⟨?_, ?_, ?_, ?_, ?_⟩
    · repeat refine List.forall_mem_cons.2 ⟨fun none => exec_readNumbered_none ready rfl number none, ?_⟩
      exact List.forall_mem_nil _
    · repeat refine List.forall_mem_cons.2 ⟨fun none => exec_readNumbered_none ready rfl number none, ?_⟩
      exact List.forall_mem_nil _
    · repeat refine List.forall_mem_cons.2 ⟨fun none => exec_readNumbered_none ready rfl number none, ?_⟩
      exact List.forall_mem_nil _
    · repeat refine List.forall_mem_cons.2 ⟨fun v bad => exec_readNoNumber ready rfl bad, ?_⟩
      exact List.forall_mem_nil _
    · repeat refine List.forall_mem_cons.2 ⟨fun i j => exec_readLoop ready rfl, ?_⟩
      exact List.forall_mem_nil _
  · refine exec_readWorded_none ready rfl ?_
    have timer : wordOf timerIndexWords w = none := wordOf_eq_none.2 (by
      simp only [timerIndexWords, List.map_cons, List.map_nil, List.mem_cons, List.not_mem_nil, or_false, not_or]
      exact ⟨a, b⟩)
    rw [timer]
    rfl
  · have threshold : thresholdIndex w = none := by
      unfold thresholdIndex
      split
      · next h =>
        obtain ⟨p, hp, e, type⟩ := wordOf_mem h
        simp only [typeWords, List.mem_cons, List.not_mem_nil, or_false] at hp
        rcases hp with rfl | rfl | rfl
        · exact absurd e.symm smoke
        · cases type
        · cases type
      · next h =>
        obtain ⟨p, hp, e, type⟩ := wordOf_mem h
        simp only [typeWords, List.mem_cons, List.not_mem_nil, or_false] at hp
        rcases hp with rfl | rfl | rfl
        · cases type
        · exact absurd e.symm heat
        · cases type
      · rfl
    repeat refine List.forall_mem_cons.2 ⟨exec_readWorded_none ready rfl (by rw [threshold]; rfl), ?_⟩
    exact List.forall_mem_nil _
  · refine request_word ready ?_
    have byAddress : wordOf catalogue "DETECTOR".toList = some (.byAddress fun l a s => .detector (s.detEntry l a)) := rfl
    simp only [readSetting, byAddress]
    cases loop : indexOf 2 k with
    | none => exact naming_none loop
    | some l => exact (naming_some loop).trans (naming_none (none.resolve_left (by simp [loop])))

end Sys2Proof.Machine
end

