-- ==== Sys2Proof/Proofs/ClimateSettings.lean ====
section
/-!
PROOFS. Climate settings and the mode selected.
-/

namespace Sys2Proof.Machine

variable {s : State} {z : Zone} {k : Int}

/-! ### Settings written -/

/-- One setting of a request written, where it is given. -/
def ClimateSettings.writeGiven (st : ClimateSettings) (n : ClimateName) (v : Option Int) : ClimateSettings :=
  (v.map fun x => st.write n (usedClimate n x)).getD st

/-- The settings of one field of a request, where it is given. -/
theorem foldl_write_given (st : ClimateSettings) (n : ClimateName) (v : Option Int) :
    ((v.map fun x => (n, x)).toList.foldl (fun st g => st.write g.1 (usedClimate g.1 g.2)) st) = st.writeGiven n v := by
  cases v <;> rfl

theorem any_given (n : ClimateName) (v : Option Int) :
    ((v.map fun x => (n, x)).toList.any fun g => g.1 == .cap) = (v.isSome && decide (n = .cap)) := by
  cases v <;> simp [beq_eq_decide]

/-- Each field given is brought into its range and written. -/
theorem foldl_write_givenFields (f : SetpointFields) (st : ClimateSettings) :
    (givenFields f).foldl (fun st g => st.write g.1 (usedClimate g.1 g.2)) st = {
      tset := (f.tset.map (clamp 100 300)).getD st.tset, hset := (f.hset.map (clamp 200 600)).getD st.hset
      band := (f.band.map (clamp 0 100)).getD st.band, step := (f.step.map (clamp 1 100)).getD st.step
      cap := (f.cap.map fun v => (clamp 0 8 v).toNat).getD st.cap
      rhband := (f.rhband.map (clamp 10 300)).getD st.rhband
      tband := (f.tband.map (clamp 10 200)).getD st.tband
      period := (f.period.map fun v => (clamp 64 960 v / 8 * 8).toNat).getD st.period
      burst := (f.burst.map fun v => (clamp 60 3600 v).toNat).getD st.burst } := by
  have tset : ∀ (st : ClimateSettings) v, st.writeGiven .tset v = { st with tset := (v.map (clamp 100 300)).getD st.tset } :=
    fun _ v => by cases v <;> rfl
  have hset : ∀ (st : ClimateSettings) v, st.writeGiven .hset v = { st with hset := (v.map (clamp 200 600)).getD st.hset } :=
    fun _ v => by cases v <;> rfl
  have band : ∀ (st : ClimateSettings) v, st.writeGiven .band v = { st with band := (v.map (clamp 0 100)).getD st.band } :=
    fun _ v => by cases v <;> rfl
  have step : ∀ (st : ClimateSettings) v, st.writeGiven .step v = { st with step := (v.map (clamp 1 100)).getD st.step } :=
    fun _ v => by cases v <;> rfl
  have cap : ∀ (st : ClimateSettings) v,
      st.writeGiven .cap v = { st with cap := (v.map fun v => (clamp 0 8 v).toNat).getD st.cap } :=
    fun _ v => by cases v <;> rfl
  have rhband : ∀ (st : ClimateSettings) v,
      st.writeGiven .rhband v = { st with rhband := (v.map (clamp 10 300)).getD st.rhband } :=
    fun _ v => by cases v <;> rfl
  have tband : ∀ (st : ClimateSettings) v,
      st.writeGiven .tband v = { st with tband := (v.map (clamp 10 200)).getD st.tband } :=
    fun _ v => by cases v <;> rfl
  have period : ∀ (st : ClimateSettings) v,
      st.writeGiven .period v = { st with period := (v.map fun v => (clamp 64 960 v / 8 * 8).toNat).getD st.period } :=
    fun _ v => by cases v <;> rfl
  have burst : ∀ (st : ClimateSettings) v,
      st.writeGiven .burst v = { st with burst := (v.map fun v => (clamp 60 3600 v).toNat).getD st.burst } :=
    fun _ v => by cases v <;> rfl
  simp only [givenFields, List.foldl_append, foldl_write_given, tset, hset, band, step, cap, rhband, tband, period, burst]

/-- A request gives the cap exactly where it has the field. -/
theorem any_cap_givenFields (f : SetpointFields) : ((givenFields f).any fun g => g.1 == .cap) = f.cap.isSome := by
  simp only [givenFields, List.any_append, any_given]
  simp

/-- The settings are written whole, and a written cap lowers the duties of a zone in ECONOMY. -/
theorem writeClimate_eq {given : List (ClimateName × Int)} {new : ClimateSettings}
    (written : given.foldl (fun st g => st.write g.1 (usedClimate g.1 g.2)) s.store.climate[z] = new) :
    writeClimate z given s = { s with
      store := { s.store with climate := s.store.climate.set z new }
      climate := if (given.any fun g => g.1 == .cap) = true ∧ s.climate[z].mode = .economy
        then s.climate.set z (capDuties new.cap s.climate[z]) else s.climate } := by
  subst written
  unfold writeClimate applyCap
  dsimp only
  by_cases cap : (given.any fun g => g.1 == .cap) = true
  · rw [if_pos cap]
    by_cases economy : s.climate[z].mode = .economy
    · refine (if_pos economy).trans ?_
      rw [if_pos ⟨cap, economy⟩]
      simp [State.modClimate, State.setClimate, State.climateSettings, State.setStore]
    · refine (if_neg economy).trans ?_
      rw [if_neg fun h => economy h.2]
      rfl
  · rw [if_neg cap, if_neg (fun h => cap h.1)]
    rfl

theorem lowerDuty_fst (c : Climate) (cap duty : Nat) (on : Bool) : (lowerDuty c cap duty on).1 = min duty cap := by
  unfold lowerDuty
  split <;> dsimp only <;> omega

/-- Settles O36: the settings as `writeClimate_eq` has them written. -/
theorem setpointsAreWritten : Obligations.SetpointsAreWritten := by
  intro s k z ready named
  refine ⟨fun f old new hold hnew => ?_, fun n v new hnew => ?_, fun cap c => ⟨lowerDuty_fst .., lowerDuty_fst ..⟩⟩
  · subst hold
    refine request_next ready ((naming_some named).trans (Prod.ext ?_ rfl))
    refine (writeClimate_eq (s := s.heard) (new := new) ((foldl_write_givenFields f _).trans hnew.symm)).trans ?_
    rw [any_cap_givenFields]
    rfl
  · subst hnew
    refine request_next ready ((indexedSetting_some named).trans (Prod.ext ?_ rfl))
    refine (writeClimate_eq (s := s.heard) rfl).trans ?_
    simp only [List.any_cons, List.any_nil, Bool.or_false, beq_iff_eq]
    rfl

/-! ### The mode selected -/

/-- A zone's state once its selection is written (R32). -/
def selectedClimate (st : ClimateSettings) (sel : Selection) (c : Climate) : Climate :=
  if c.mode = .hold ∨ c.mode = .shed ∨ (c.mode = .run ∧ sel = .run) ∨ (c.mode = .economy ∧ sel = .economy) then c
  else toSelected st sel c

theorem selectMode_eq (sel : Selection) (z : Zone) (s : State) : selectMode sel z s = { s with
    store := { s.store with selection := s.store.selection.set z sel }
    climate := s.climate.set z (selectedClimate s.store.climate[z] sel s.climate[z]) } := by
  unfold selectMode selectedClimate
  simp only [State.setStore_climate]
  obtain ⟨m, mode⟩ : ∃ m, s.climate[z].mode = m := ⟨_, rfl⟩
  rw [Fin.getElem_fin] at mode
  cases m <;> cases sel <;>
    simp [mode, ClimateMode.computes, State.modClimate, State.setClimate, State.setStore, State.climateSettings]

/-- A selection written for every zone. -/
theorem selectMode_all (sel : Selection) (s : State) : actAll (selectMode sel) (List.finRange 4) s = { s with
    store := { s.store with selection := Vector.replicate 4 sel }
    climate := Vector.ofFn fun z : Zone => selectedClimate s.store.climate[z] sel s.climate[z] } := by
  have zones : List.finRange 4 = [0, 1, 2, 3] := by decide
  have four : ∀ {α : Type} (v : Vector α 4) (a b c d : α),
      ((((v.set 0 a).set 1 b).set 2 c).set 3 d) = #v[a, b, c, d] := by
    intro α v a b c d
    ext i hi
    match i with
    | 0 | 1 | 2 | 3 => simp
  rw [zones]
  simp only [actAll, List.foldl_cons, List.foldl_nil, selectMode_eq]
  refine congrArg₂ (fun a b => ({ s with store := { s.store with selection := a }, climate := b } : State)) ?_ ?_
  · exact four ..
  · refine (four ..).trans ?_
    ext i hi
    match i with
    | 0 | 1 | 2 | 3 => simp

/-- Settles O37: each zone named moves as `selectedClimate` has it. -/
theorem climateModeIsSelected : Obligations.ClimateModeIsSelected := by
  intro s w sel ready word moved hm
  obtain rfl : moved = fun z => selectedClimate s.store.climate[z] sel s.climate[z] := by
    funext z
    rw [hm]
    unfold selectedClimate
    split <;> simp_all [toSelected, toRun, toEconomy]
  have one : ∀ z : Zone, actAll (selectMode sel) [z] s.heard = { s.heard with
      store := { s.store with selection := s.store.selection.set z sel }
      climate := s.climate.set z (selectedClimate s.store.climate[z] sel s.climate[z]) } := fun z =>
    selectMode_eq sel z s.heard
  have answered : ∀ {k : Option Int} {zs : List Zone}, zonesNamed k = some zs →
      setClimateMode w k s.heard = (actAll (selectMode sel) zs s.heard, { word := .ok }) := by
    intro k zs named
    simp only [setClimateMode, word, named]
  have run : ∀ {k : Option Int} {zs : List Zone} {t : State} (b : Bool), zonesNamed k = some zs →
      actAll (selectMode sel) zs s.heard = t → exec (.setClimateMode b w k) s =
        .next ((fun t : State => if b then t else t.answered { word := .ok }) t) := by
    rintro k zs _ b named rfl
    cases b with
    | true =>
      refine congrArg Host.Outcome.next ?_
      dsimp only
      rw [takeBroadcast, if_pos ready.1, ready.2]
      exact congrArg Prod.fst (answered named)
    | false => exact request_next ready (answered named)
  refine ⟨fun k z b named => ⟨?_, ?_⟩, fun b => ?_⟩
  · exact run b (by rw [zonesNamed, named]; rfl) (one z)
  · refine request_next ready ((indexedSetting_some named).trans ?_)
    simp only [word]
    exact Prod.ext (selectMode_eq sel z s.heard) rfl
  · exact run b rfl (selectMode_all sel s.heard)

end Sys2Proof.Machine
end

