-- ==== Sys2Proof/Proofs/ClimateModes.lean ====
section
/-!
PROOFS. Bursts, excursions and the mode step of a zone climate controller.
-/

namespace Sys2Proof.Machine

variable {s : State} {z : Zone} {c : Climate} {v : Int}

/-! ### A zone climate controller's state written -/

theorem State.setClimate_get (z : Zone) (c : Climate) : (s.setClimate z c).climate[z] = c := by simp

theorem State.setClimate_same (z : Zone) : s.setClimate z s.climate[z] = s := by simp [State.setClimate]

theorem State.setClimate_setClimate (z : Zone) (c d : Climate) :
    (s.setClimate z c).setClimate z d = s.setClimate z d := by simp [State.setClimate]

/-- A report posted and a controller written, in either order. -/
theorem setClimate_post (e : Event) : (post e s).setClimate z c = post e (s.setClimate z c) := rfl

theorem State.modClimate_of (at_ : s.climate[z] = c) (f : Climate → Climate) : s.modClimate z f = s.setClimate z (f c) := by
  rw [State.modClimate, at_]

/-! ### Bursts and breaks (R33, R34) -/

/-- A zone's state after a burst event. -/
def burstClimate (st : ClimateSettings) (c : Climate) : Climate :=
  if c.mode = .economy then { c with mode := .economyBurst, burst := some st.burst }
  else if c.mode = .economyBurst then { c with burst := some st.burst }
  else if c.mode = .shed then { c with deferredBurst := true }
  else c

theorem burstEvent_eq (z : Zone) (s : State) :
    burstEvent z s = s.setClimate z (burstClimate s.store.climate[z] s.climate[z]) := by
  obtain ⟨c, at_⟩ : ∃ c, s.climate[z] = c := ⟨_, rfl⟩
  have stands : s = s.setClimate z c := by rw [← at_, State.setClimate_same]
  simp only [burstEvent, burstClimate, State.modClimate, at_]
  cases h : c.mode <;> first | exact stands | rfl

theorem breakEvent_run {q : Quantity} (at_ : s.climate[z] = c) (mode : c.mode = .run) : breakEvent z q s = s := by
  rw [← at_] at mode
  simp only [breakEvent, mode]

theorem breakEvent_economy {q : Quantity} (at_ : s.climate[z] = c) (mode : c.mode = .economy ∨ c.mode = .economyBurst) :
    breakEvent z q s = post (.climateBreak z (some q)) (s.setClimate z (toRun c)) := by
  subst at_
  rcases mode with mode | mode <;> (simp only [breakEvent, mode]; rfl)

theorem breakEvent_deferred {q : Quantity} (at_ : s.climate[z] = c) (mode : c.mode = .hold ∨ c.mode = .shed) :
    breakEvent z q s = s.setClimate z { c with deferredBreak := true } := by
  rcases mode with mode | mode <;> simp only [breakEvent, State.modClimate, at_, mode]

/-! ### The mode step (R36, R37) -/

/-- The departure from HOLD, its two writes of the controller put together. -/
theorem leaveHold_eq (at_ : s.climate[z] = c) {d : Climate}
    (hd : d = toSelected s.store.climate[z] s.store.selection[z] c) : leaveHold z s =
      if c.deferredBreak = true ∧ d.mode = .economy then
        post (.climateBreak z none) (s.setClimate z { toRun d with deferredBreak := false, deferredBurst := false })
      else s.setClimate z { d with deferredBreak := false, deferredBurst := false } := by
  have selected : s.modClimate z (toSelected (s.climateSettings z) s.store.selection[z]) = s.setClimate z d := by
    rw [State.modClimate_of at_, hd]
    rfl
  unfold leaveHold
  dsimp only
  rw [selected, at_, State.setClimate_get]
  split
  · rw [State.modClimate_of (State.setClimate_get ..),
      State.modClimate_of (c := toRun d) (by rw [post_climate, State.setClimate_get]), setClimate_post,
      State.setClimate_setClimate, State.setClimate_setClimate]
  · rw [State.modClimate_of (State.setClimate_get ..), State.setClimate_setClimate]

theorem leaveHold_run (at_ : s.climate[z] = c) (sel : s.store.selection[z] = .run) :
    leaveHold z s = s.setClimate z { toRun c with deferredBreak := false, deferredBurst := false } := by
  rw [leaveHold_eq at_ (d := toRun c) (by rw [sel]; rfl), if_neg (by rintro ⟨-, h⟩; cases h)]

theorem leaveHold_economy (at_ : s.climate[z] = c) (sel : s.store.selection[z] = .economy)
    (held : c.deferredBreak = false) : leaveHold z s =
      s.setClimate z { toEconomy s.store.climate[z] c with deferredBreak := false, deferredBurst := false } := by
  rw [leaveHold_eq at_ (d := toEconomy s.store.climate[z] c) (by rw [sel]; rfl), if_neg (by rw [held]; rintro ⟨h, -⟩; cases h)]

theorem leaveHold_break (at_ : s.climate[z] = c) (sel : s.store.selection[z] = .economy)
    (held : c.deferredBreak = true) : leaveHold z s = post (.climateBreak z none) (s.setClimate z
      { toRun (toEconomy s.store.climate[z] c) with deferredBreak := false, deferredBurst := false }) := by
  rw [leaveHold_eq at_ (d := toEconomy s.store.climate[z] c) (by rw [sel]; rfl), if_pos ⟨held, rfl⟩]

theorem modeStep_stays (at_ : s.climate[z] = c) (valid : c.rh.value = .valid v) (mode : c.mode ≠ .hold) :
    modeStep z s = s := by
  subst at_
  simp only [modeStep, valid]
  exact if_neg mode

theorem modeStep_leavesHold (at_ : s.climate[z] = c) (valid : c.rh.value = .valid v) (mode : c.mode = .hold) :
    modeStep z s = leaveHold z s := by
  subst at_
  simp only [modeStep, valid]
  exact if_pos mode

/-- With no VALID humidity a zone that computes duties goes to HOLD. -/
theorem modeStep_invalid (at_ : s.climate[z] = c) (invalid : ∀ v, c.rh.value ≠ .valid v) :
    modeStep z s = if c.mode.computes then s.setClimate z (toHold c) else s := by
  subst at_
  unfold modeStep
  dsimp only
  split
  · next v h => exact absurd h (invalid v)
  · rfl

/-! ### Excursions (R25) -/

/-- The excursion state of a quantity. -/
def Climate.outOf (c : Climate) : Quantity → Bool
  | .rh => c.outRh
  | .temp => c.outTemp

/-- The excursion state of a quantity written. -/
def Climate.setOut (c : Climate) (out : Bool) : Quantity → Climate
  | .rh => { c with outRh := out }
  | .temp => { c with outTemp := out }

/-- The setpoint of a quantity. -/
def ClimateSettings.setpoint (st : ClimateSettings) : Quantity → Int
  | .rh => st.hset
  | .temp => st.tset

/-- The excursion band of a quantity. -/
def ClimateSettings.excursion (st : ClimateSettings) : Quantity → Int
  | .rh => st.rhband
  | .temp => st.tband

/-- The test of a value in the band and beyond it. -/
theorem nextOut_eq {old out : Bool} {sp band : Int}
    (h : out = true ↔ if old = true then band - 10 < |v - sp| else band < |v - sp|) : nextOut old v sp band = out := by
  have diff : absDiff v sp = |v - sp| := by rw [abs_eq_max_neg, neg_sub]; rfl
  unfold nextOut
  rw [diff]
  cases old <;> cases out <;> simp_all

theorem Climate.setOut_same (c : Climate) (q : Quantity) : c.setOut (c.outOf q) q = c := by cases q <;> rfl

theorem Climate.setOut_mode (c : Climate) (out : Bool) (q : Quantity) : (c.setOut out q).mode = c.mode := by
  cases q <;> rfl

section
variable {q : Quantity} {r : Reading} {sp band : Int} {out : Bool}

theorem testExcursion_invalid (invalid : ∀ v, r.value ≠ .valid v) : testExcursion z q r s = s := by
  unfold testExcursion
  split
  · next v h => exact absurd h (invalid v)
  · rfl

/-- A test of a VALID value, its outcome named. -/
theorem testExcursion_valid (at_ : s.climate[z] = c) (valid : r.value = .valid v) (hsp : s.store.climate[z].setpoint q = sp)
    (hband : s.store.climate[z].excursion q = band) (test : nextOut (c.outOf q) v sp band = out) :
    testExcursion z q r s = if out = c.outOf q then s else
      if out then breakEvent z q (post (.excursion z q out v sp band) (s.setClimate z (c.setOut out q)))
      else post (.excursion z q out v sp band) (s.setClimate z (c.setOut out q)) := by
  subst at_ hsp hband test
  unfold testExcursion
  rw [valid]
  cases q <;> rfl

theorem testExcursion_same (at_ : s.climate[z] = c) (valid : r.value = .valid v)
    (hsp : s.store.climate[z].setpoint q = sp) (hband : s.store.climate[z].excursion q = band)
    (test : nextOut (c.outOf q) v sp band = out) (same : out = c.outOf q) : testExcursion z q r s = s :=
  (testExcursion_valid at_ valid hsp hband test).trans (if_pos same)

/-- A return, or an entry in RUN, is reported. -/
theorem testExcursion_reported (at_ : s.climate[z] = c) (valid : r.value = .valid v)
    (hsp : s.store.climate[z].setpoint q = sp) (hband : s.store.climate[z].excursion q = band)
    (test : nextOut (c.outOf q) v sp band = out) (other : out ≠ c.outOf q) (run : out = false ∨ c.mode = .run) :
    testExcursion z q r s = post (.excursion z q out v sp band) (s.setClimate z (c.setOut out q)) := by
  rw [testExcursion_valid at_ valid hsp hband test, if_neg other]
  split
  · next h =>
    have mode : c.mode = .run := run.resolve_left (by rw [h]; decide)
    exact breakEvent_run (c := c.setOut out q) (State.setClimate_get ..) ((c.setOut_mode ..).trans mode)
  · rfl

/-- An entry breaks ECONOMY. -/
theorem testExcursion_breaks (at_ : s.climate[z] = c) (valid : r.value = .valid v)
    (hsp : s.store.climate[z].setpoint q = sp) (hband : s.store.climate[z].excursion q = band)
    (test : nextOut (c.outOf q) v sp band = true) (old : c.outOf q = false)
    (mode : c.mode = .economy ∨ c.mode = .economyBurst) :
    testExcursion z q r s = post (.climateBreak z (some q)) (post (.excursion z q true v sp band)
      (s.setClimate z (toRun (c.setOut true q)))) := by
  rw [testExcursion_valid at_ valid hsp hband test, if_neg (by rw [old]; decide), if_pos rfl,
    breakEvent_economy (c := c.setOut true q) (by rw [post_climate, State.setClimate_get])
      (by rwa [Climate.setOut_mode]), setClimate_post,
    State.setClimate_setClimate]

/-- An entry in HOLD and in SHED is deferred. -/
theorem testExcursion_deferred (at_ : s.climate[z] = c) (valid : r.value = .valid v)
    (hsp : s.store.climate[z].setpoint q = sp) (hband : s.store.climate[z].excursion q = band)
    (test : nextOut (c.outOf q) v sp band = true) (old : c.outOf q = false) (mode : c.mode = .hold ∨ c.mode = .shed) :
    testExcursion z q r s = post (.excursion z q true v sp band)
      (s.setClimate z { c.setOut true q with deferredBreak := true }) := by
  rw [testExcursion_valid at_ valid hsp hband test, if_neg (by rw [old]; decide), if_pos rfl,
    breakEvent_deferred (c := c.setOut true q) (by rw [post_climate, State.setClimate_get])
      (by rwa [Climate.setOut_mode]), setClimate_post,
    State.setClimate_setClimate]

end

/-! ### Zone values handed on -/

theorem handZone_rh {r : Reading} {c0 : Climate} (at_ : s.climate[z] = c)
    (hc0 : c0 = { c with rh := r, dew := nextDew c.dew r c.temp }) :
    handZone z (some r) none s = testExcursion z .rh r (modeStep z (s.setClimate z c0)) := by
  subst hc0 at_
  rfl

theorem handZone_temp {r : Reading} {c0 : Climate} (at_ : s.climate[z] = c)
    (hc0 : c0 = { c with temp := r, dew := nextDew c.dew c.rh r }) :
    handZone z none (some r) s = testExcursion z .temp r (s.setClimate z c0) := by
  subst hc0 at_
  rfl

theorem nextDew_invalid {d : DewPoint} {r t : Reading} (invalid : ∀ v, r.value ≠ .valid v) : nextDew d r t = .invalid := by
  unfold nextDew
  split
  · next v w h _ => exact absurd h (invalid v)
  · rfl

theorem exec_burstTimerExpiry (on : s.powered = true) (economy : s.climate[z].mode = .economyBurst)
    (due : s.climate[z].burst = some 0) : exec (.burstTimerExpiry z) s =
      .next (s.setClimate z (toEconomy s.store.climate[z] s.climate[z])) :=
  (event_powered on).trans (congrArg _ (if_pos ⟨economy, due⟩))

theorem exec_burstTimerExpiry_idle (h : s.climate[z].burst ≠ some 0) : exec (.burstTimerExpiry z) s = .next s := by
  refine congrArg Host.Outcome.next ?_
  split
  · exact if_neg fun e => h e.2
  · rfl

section
variable {st : ClimateSettings} {out : Bool}

/-- A humidity handed on in a zone whose mode it leaves. -/
theorem handZone_rh_stays {r : Reading} {c0 : Climate} (at_ : s.climate[z] = c) (valid : r.value = .valid v)
    (mode : c.mode ≠ .hold) (hc0 : c0 = { c with rh := r, dew := nextDew c.dew r c.temp }) :
    handZone z (some r) none s = testExcursion z .rh r (s.setClimate z c0) := by
  rw [handZone_rh at_ hc0, modeStep_stays (State.setClimate_get ..) (by rwa [hc0]) (by rwa [hc0])]

/-- A humidity handed on in a zone that leaves HOLD. -/
theorem handZone_rh_leaves {r : Reading} {c0 : Climate} (at_ : s.climate[z] = c) (valid : r.value = .valid v)
    (mode : c.mode = .hold) (hc0 : c0 = { c with rh := r, dew := nextDew c.dew r c.temp }) :
    handZone z (some r) none s = testExcursion z .rh r (leaveHold z (s.setClimate z c0)) := by
  rw [handZone_rh at_ hc0, modeStep_leavesHold (State.setClimate_get ..) (by rwa [hc0]) (by rwa [hc0])]

end

/-- Settles O38: each stage of a handing in turn, and the stages put together. -/
theorem burstStartsAndEnds : Obligations.BurstStartsAndEnds := by
  intro s z
  obtain ⟨x, at_⟩ : ∃ x, s.climate[z] = x := ⟨_, rfl⟩
  refine ⟨?_, ?_, ?_, ?_, ?_, ?_, ?_, ?_, ?_⟩
  · rintro k c ready named hc
    obtain rfl : c = burstClimate s.store.climate[z] s.climate[z] := by
      rw [hc]
      unfold burstClimate
      rw [at_]
      cases h : x.mode <;> simp [h]
    refine request_next ready ((naming_some named).trans ?_)
    dsimp only
    have burst : burstEvent z s.heard = s.heard.setClimate z (burstClimate s.store.climate[z] s.climate[z]) := burstEvent_eq ..
    rw [burst, State.setClimate_get]
    rfl
  · exact fun k ready none => request_word ready (naming_none none)
  · rintro c on economy due rfl
    exact exec_burstTimerExpiry on economy due
  · exact exec_burstTimerExpiry_idle
  · rintro rh temp c rfl
    rfl
  · rw [at_]
    rintro st rfl
    refine ⟨fun invalid => ⟨?_, fun mode => ?_⟩, fun v valid mode => modeStep_stays at_ valid mode, ?_,
      fun q r => testExcursion_invalid, ?_⟩
    · rintro y mode rfl
      rw [modeStep_invalid at_ invalid, if_pos (by rcases mode with h | h | h <;> rw [h] <;> rfl)]
      rfl
    · rw [modeStep_invalid at_ invalid, if_neg (by rcases mode with h | h <;> rw [h] <;> decide)]
    · intro v valid mode
      rw [modeStep_leavesHold at_ valid mode]
      refine ⟨?_, ?_, ?_⟩
      · rintro y sel rfl
        exact leaveHold_run at_ sel
      · rintro y sel held rfl
        exact leaveHold_economy at_ sel held
      · rintro y sel held rfl
        exact leaveHold_break at_ sel held
    · intro q r v sp band old out c valid hold hsp hband test hc
      replace hold : old = x.outOf q := by cases q <;> exact hold
      replace hsp : s.store.climate[z].setpoint q = sp := by cases q <;> exact hsp.symm
      replace hband : s.store.climate[z].excursion q = band := by cases q <;> exact hband.symm
      replace hc : c = x.setOut out q := by cases q <;> exact hc
      have tested : nextOut (x.outOf q) v sp band = out := hold ▸ nextOut_eq test
      subst hc
      refine ⟨fun same => ?_, fun other mode => ?_, ?_, ?_⟩
      · exact testExcursion_same at_ valid hsp hband tested (same.trans hold)
      · exact testExcursion_reported at_ valid hsp hband tested (hold ▸ other) mode
      · rintro y rfl was mode rfl
        exact testExcursion_breaks at_ valid hsp hband tested (hold ▸ was) mode
      · rintro y rfl was mode rfl
        exact testExcursion_deferred at_ valid hsp hband tested (hold ▸ was) mode
  · rw [at_]
    rintro r v st out c valid rfl test hc
    obtain ⟨c0, hc0⟩ : ∃ c0 : Climate, c0 = { x with rh := r, dew := nextDew x.dew r x.temp } := ⟨_, rfl⟩
    obtain rfl : c = c0.setOut out .rh := by rw [hc, hc0]; rfl
    have tested : nextOut (c0.outOf .rh) v s.store.climate[z].hset s.store.climate[z].rhband = out := by
      rw [hc0]
      exact nextOut_eq test
    have same : out = x.outRh → c0.setOut out .rh = c0 := by
      rintro rfl
      rw [hc0]
      rfl
    have c0_out : c0.outOf .rh = x.outRh := by rw [hc0]; rfl
    have c0_mode : c0.mode = x.mode := by rw [hc0]
    have c0_break : c0.deferredBreak = x.deferredBreak := by rw [hc0]
    rw [← c0_mode, ← c0_out, ← c0_break]
    rw [← c0_out] at same
    have c0_at : (s.setClimate z c0).climate[z] = c0 := State.setClimate_get ..
    refine ⟨fun mode h => ?_, fun mode h run => ?_, ?_, ?_, fun mode h => ?_⟩
    · rw [handZone_rh_stays at_ valid (c0_mode ▸ mode) hc0, testExcursion_same c0_at valid rfl rfl tested h, same h]
      rfl
    · rw [handZone_rh_stays at_ valid (c0_mode ▸ mode) hc0, testExcursion_reported c0_at valid rfl rfl tested h run.symm,
        State.setClimate_setClimate]
      rfl
    · rintro y mode rfl was rfl
      have stays : c0.mode ≠ .hold := by rcases mode with h | h <;> rw [h] <;> decide
      rw [handZone_rh_stays at_ valid (c0_mode ▸ stays) hc0, testExcursion_breaks c0_at valid rfl rfl tested was mode,
        State.setClimate_setClimate]
      rfl
    · rintro y mode rfl was rfl
      have stays : c0.mode ≠ .hold := by rw [mode]; decide
      rw [handZone_rh_stays at_ valid (c0_mode ▸ stays) hc0, testExcursion_deferred c0_at valid rfl rfl tested was (.inr mode),
        State.setClimate_setClimate]
      rfl
    · rw [same h, handZone_rh_leaves at_ valid (c0_mode ▸ mode) hc0]
      have unchanged : ∀ {t : State}, t.climate[z].outRh = c0.outRh →
          t.store.climate[z] = s.store.climate[z] → testExcursion z .rh r t = t := by
        rintro t outRh store
        refine testExcursion_same (c := t.climate[z]) rfl valid (by rw [store]) (by rw [store]) ?_ (h.trans outRh.symm)
        exact (congrArg (nextOut · v _ _) outRh).trans tested
      refine ⟨?_, ?_, ?_⟩
      · rintro y sel rfl
        rw [leaveHold_run c0_at sel]
        refine (unchanged (by rw [State.setClimate_get]; rfl) (by rfl)).trans ?_
        rw [State.setClimate_setClimate]
        rfl
      · rintro y sel held rfl
        rw [leaveHold_economy c0_at sel held]
        refine (unchanged (by rw [State.setClimate_get]; rfl) (by rfl)).trans ?_
        rw [State.setClimate_setClimate]
        rfl
      · rintro y sel held rfl
        rw [leaveHold_break c0_at sel held]
        refine (unchanged (by rw [post_climate, State.setClimate_get]; rfl) (by rfl)).trans ?_
        rw [State.setClimate_setClimate]
        rfl
  · rintro r c invalid rfl
    obtain ⟨c0, hc0⟩ : ∃ c0 : Climate, c0 = { x with rh := r, dew := nextDew x.dew r x.temp } := ⟨_, rfl⟩
    have handed : handZone z (some r) none s =
        if x.mode.computes then s.setClimate z (toHold c0) else s.setClimate z c0 := by
      rw [handZone_rh at_ hc0, testExcursion_invalid invalid,
        modeStep_invalid (State.setClimate_get ..) (by rwa [hc0]), State.setClimate_setClimate, hc0]
    rw [nextDew_invalid invalid] at hc0
    rw [handed, at_, ← hc0]
    refine ⟨?_, fun mode => if_neg (by rcases mode with h | h <;> rw [h] <;> decide)⟩
    rintro y mode rfl
    exact if_pos (by rcases mode with h | h | h <;> rw [h] <;> rfl)
  · rw [at_]
    rintro r v st c valid rfl out beyond hc
    obtain ⟨c0, hc0⟩ : ∃ c0 : Climate, c0 = { x with temp := r, dew := nextDew x.dew x.rh r } := ⟨_, rfl⟩
    obtain rfl : c = c0.setOut true .temp := by rw [hc, hc0]; rfl
    have c0_at : (s.setClimate z c0).climate[z] = c0 := State.setClimate_get ..
    have c0_mode : c0.mode = x.mode := by rw [hc0]
    have c0_out : c0.outOf .temp = false := by rw [hc0]; exact out
    have tested : nextOut (c0.outOf .temp) v s.store.climate[z].tset s.store.climate[z].tband = true := by
      rw [c0_out]
      exact nextOut_eq (by simpa using beyond)
    rw [handZone_temp at_ hc0, ← c0_mode]
    refine ⟨fun mode => ?_, ?_, ?_⟩
    · rw [testExcursion_reported c0_at valid rfl rfl tested (by rw [c0_out]; decide) (.inr mode), State.setClimate_setClimate]
      rfl
    · rintro y mode rfl
      rw [testExcursion_deferred c0_at valid rfl rfl tested c0_out (.inl mode), State.setClimate_setClimate]
      rfl
    · rintro y mode rfl
      rw [testExcursion_breaks c0_at valid rfl rfl tested c0_out mode, State.setClimate_setClimate]
      rfl

end Sys2Proof.Machine
end

