-- ==== Sys2Proof/Proofs/ClimatePeriods.lean ====
section
/-!
PROOFS. Duty periods, and a zone in SHED and back.
-/

namespace Sys2Proof.Machine

variable {s : State} {z : Zone} {c : Climate} {v : Int}

/-! ### Duties (R28) -/

/-- The duty of an excess over the band, in whole eighths. -/
theorem ceilDiv_toNat {x y : Int} {n : Nat} (pos : 0 < y) (lo : (n - 1 : Int) * y < x) (hi : x ≤ n * y) :
    (ceilDiv x y).toNat = n := by
  have eq : ceilDiv x y = n := by
    unfold ceilDiv
    refine Int.le_antisymm ?_ ?_
    · exact Int.lt_add_one_iff.1 ((Int.ediv_lt_iff_lt_mul pos).2 (by linarith))
    · exact (Int.le_ediv_iff_mul_le pos).2 (by linarith)
  omega

/-! ### Periods -/

/-- The start of a period in a mode that computes duties, from a VALID humidity. -/
theorem beginPeriod_computes {st : ClimateSettings} {dh hu : Nat} (mode : c.mode.computes = true)
    (valid : c.rh.value = .valid v) (computed : (dh, hu) =
      if c.mode = .economy then (min (duties st v).1 st.cap, min (duties st v).2 st.cap) else duties st v) :
    beginPeriod st c = { c with
      period := st.period, elapsed := some 0, dh := dh, hu := hu, dhOn := decide (0 < dh), huOn := decide (0 < hu) } := by
  unfold beginPeriod
  simp only [mode, valid, ← computed]

/-- The start of a period with the duties carried. -/
theorem beginPeriod_hold {st : ClimateSettings} (mode : c.mode = .hold) :
    beginPeriod st c = { c with
      period := st.period, elapsed := some 0, dhOn := decide (0 < c.dh), huOn := decide (0 < c.hu) } := by
  unfold beginPeriod
  simp only [mode]
  rfl

theorem exec_periodStart (on : s.powered = true) (running : s.climate[z].elapsed.isSome = true) :
    exec (.periodStart z) s = .next (s.setClimate z (beginPeriod s.store.climate[z] s.climate[z])) :=
  (event_powered on).trans (congrArg _ (if_pos running))

/-! ### Shedding (R38, R39) -/

theorem climateTakesFire_stands {l e : FireState} (h : l.sheds = e.sheds) : climateTakesFire z l e s = s := by
  unfold climateTakesFire
  rw [h]
  cases e.sheds <;> rfl

theorem climateTakesFire_sheds {l e : FireState} (h : l.sheds = false) (h' : e.sheds = true) :
    climateTakesFire z l e s = s.setClimate z (toShed s.climate[z]) := by
  unfold climateTakesFire
  rw [h, h']
  rfl

theorem climateTakesFire_returns {l e : FireState} (h : l.sheds = true) (h' : e.sheds = false) :
    climateTakesFire z l e s = leaveShed z s := by
  unfold climateTakesFire
  rw [h, h']
  rfl

theorem leaveShed_of {x : Climate} {t : State} (h : shedReturn z s = t) (at_ : t.climate[z] = x) :
    leaveShed z s = t.setClimate z (beginPeriod t.store.climate[z] x) := by
  rw [← h] at at_ ⊢
  exact State.modClimate_of at_ _

/-- The mode a zone leaves SHED for, its writes put together, with no VALID humidity. -/
theorem shedReturn_invalid (at_ : s.climate[z] = c) (invalid : ∀ v, c.rh.value ≠ .valid v) :
    shedReturn z s = s.setClimate z { c with mode := .hold, burst := none, deferredBurst := false } := by
  subst at_
  unfold shedReturn
  dsimp only
  split
  · next v h => exact absurd h (invalid v)
  · rfl

/-- With a VALID humidity the zone goes to its selection, or a break or a burst deferred in SHED is made up for. -/
theorem shedReturn_valid (at_ : s.climate[z] = c) (valid : c.rh.value = .valid v) {d : Climate}
    (hd : d = toSelected s.store.climate[z] s.store.selection[z] c) : shedReturn z s =
      if c.deferredBreak = true ∧ d.mode = .economy then
        post (.climateBreak z none) (s.setClimate z { toRun d with deferredBreak := false, deferredBurst := false })
      else if c.deferredBreak = false ∧ c.deferredBurst = true ∧ d.mode = .economy then
        s.setClimate z { d with
          mode := .economyBurst, burst := some s.store.climate[z].burst, deferredBreak := false, deferredBurst := false }
      else s.setClimate z { d with deferredBreak := false, deferredBurst := false } := by
  have selected : s.modClimate z (toSelected (s.climateSettings z) s.store.selection[z]) = s.setClimate z d := by
    rw [State.modClimate_of at_, hd]
    rfl
  unfold shedReturn
  rw [at_]
  simp only [valid]
  rw [selected, State.setClimate_get]
  have write : ∀ (x : Climate) f, (s.setClimate z x).modClimate z f = s.setClimate z (f x) := fun x f => by
    rw [State.modClimate_of (State.setClimate_get ..), State.setClimate_setClimate]
  by_cases economy : d.mode = .economy
  · cases hb : c.deferredBreak with
    | true =>
      rw [if_pos rfl, if_pos economy, if_pos ⟨rfl, economy⟩,
        State.modClimate_of (c := toRun d) (by rw [post_climate, write, State.setClimate_get]), write, setClimate_post,
        State.setClimate_setClimate]
    | false =>
      cases hu : c.deferredBurst with
      | true =>
        rw [if_neg (by decide), if_pos ⟨rfl, economy⟩, if_neg (by rintro ⟨h, -⟩; cases h), if_pos ⟨rfl, rfl, economy⟩, write, write]
        rfl
      | false =>
        rw [if_neg (by decide), if_neg (by rintro ⟨h, -⟩; cases h), if_neg (by rintro ⟨h, -⟩; cases h),
          if_neg (by rintro ⟨-, h, -⟩; cases h), write]
  · cases hb : c.deferredBreak <;> simp [economy, write]

/-- The new period of a zone that returns from SHED in a mode that computes duties. -/
theorem beginPeriod_returned {st : ClimateSettings} {x y : Climate} {dh hu : Nat} (mode : x.mode.computes = true)
    (valid : x.rh.value = .valid v) (computed : (dh, hu) =
      if x.mode = .economy then (min (duties st v).1 st.cap, min (duties st v).2 st.cap) else duties st v)
    (hy : y = { x with
      period := st.period, elapsed := some 0, dh := dh, hu := hu, dhOn := decide (0 < dh), huOn := decide (0 < hu) }) :
    (s.setClimate z x).setClimate z (beginPeriod st x) = { s with climate := s.climate.set z y } := by
  rw [State.setClimate_setClimate, beginPeriod_computes mode valid computed, hy]
  rfl

/-- Settles O39: a period, a duty's end, the way into SHED and the ways out of it. -/
theorem periodStartsAndDutiesEnd : Obligations.PeriodStartsAndDutiesEnd := by
  rintro s z st on rfl
  obtain ⟨x, at_⟩ : ∃ x, s.climate[z] = x := ⟨_, rfl⟩
  refine ⟨?_, ?_, ?_, fun l e => ⟨climateTakesFire_stands, ?_, fun shed safe => ⟨?_, ?_⟩⟩, ?_⟩
  · rintro h dh hu c running mode valid computed rfl
    rw [exec_periodStart on running, beginPeriod_computes mode valid computed]
    rfl
  · rintro c running mode rfl
    rw [exec_periodStart on running, beginPeriod_hold mode]
    rfl
  · rw [at_]
    intro t c elapsed
    have writes : ∀ f, s.modClimate z f = s.setClimate z (f x) := State.modClimate_of at_
    refine ⟨?_, ?_⟩
    · rintro short rfl
      show execDutyOff z .dehumidifier s = _
      rw [execDutyOff, event_powered on]
      simp only [writes, elapsed, if_neg (Nat.not_le.2 short)]
      rfl
    · rintro short rfl
      show execDutyOff z .humidifier s = _
      rw [execDutyOff, event_powered on]
      simp only [writes, elapsed, if_neg (Nat.not_le.2 short)]
      rfl
  · rintro c safe shed rfl
    exact climateTakesFire_sheds safe shed
  · rw [at_]
    rintro h c valid rfl
    have leaves : react z l e .climate s = leaveShed z s := climateTakesFire_returns shed safe
    rw [leaves]
    have returns := @shedReturn_valid s z x h at_ valid _ rfl
    refine ⟨fun sel => ?_, fun sel brk => ?_, ?_, ?_⟩
    · rw [sel, if_neg (by rintro ⟨-, h⟩; cases h), if_neg (by rintro ⟨-, -, h⟩; cases h)] at returns
      rw [leaveShed_of returns (State.setClimate_get ..)]
      exact beginPeriod_returned (by rfl) valid (by rfl) (by rfl)
    · rw [sel, if_pos ⟨brk, rfl⟩] at returns
      rw [leaveShed_of returns (by rw [post_climate, State.setClimate_get]), setClimate_post]
      refine congrArg (post _) ?_
      exact beginPeriod_returned (by rfl) valid (by rfl) (by rfl)
    · rintro y sel brk burst rfl
      rw [sel, if_neg (by rw [brk]; rintro ⟨h, -⟩; cases h), if_pos ⟨brk, burst, rfl⟩] at returns
      rw [leaveShed_of returns (State.setClimate_get ..)]
      exact beginPeriod_returned (by rfl) valid (by rfl) (by rfl)
    · rintro y dh hu sel brk burst rfl rfl rfl
      rw [sel, if_neg (by rw [brk]; rintro ⟨h, -⟩; cases h), if_neg (by rw [burst]; rintro ⟨-, h, -⟩; cases h)] at returns
      rw [leaveShed_of returns (State.setClimate_get ..)]
      exact beginPeriod_returned (by rfl) valid (by rfl) (by rfl)
  · rw [at_]
    rintro c invalid rfl
    have leaves : react z l e .climate s = leaveShed z s := climateTakesFire_returns shed safe
    rw [leaves, leaveShed_of (shedReturn_invalid at_ invalid) (State.setClimate_get ..), beginPeriod_hold (by rfl),
      State.setClimate_setClimate]
    rfl
  · generalize s.store.climate[z] = st
    intro h n pos
    refine ⟨fun lo hi => ?_, fun above lo hi => ?_, fun band below lo hi => ?_⟩
    · exact (if_neg (by omega)).trans (if_neg (by omega))
    · exact (if_pos above).trans (by rw [ceilDiv_toNat pos lo hi])
    · exact (if_neg (by omega)).trans ((if_pos below).trans (by rw [ceilDiv_toNat pos lo hi]))

end Sys2Proof.Machine
end

