-- ==== Sys2Proof/Proofs/CustodyTable.lean ====
section
/-!
PROOFS. The custody table's requests, and its homes and holds.
-/

namespace Sys2Proof.Machine

variable {s : State} {label media : Text} {f : HomeFields} {m : Char} {home : Home} {c : Cartridge}

/-! ### Records looked up -/

theorem onCartridge_some {g : Cartridge → Request} (ok : labelOk label = true) (found : s.cartridge? label = some c) :
    onCartridge label g s = g c s := by
  simp only [onCartridge, ok, found, if_true]

theorem onCartridge_none {g : Cartridge → Request} (ok : labelOk label = true) (found : s.cartridge? label = none) :
    onCartridge label g s = answer .notFound .empty s := by
  simp only [onCartridge, ok, found, if_true]

theorem unheld_free {z : Zone} {g : Request} (free : s.held z = false) : unheld z g s = g s := by
  simp [unheld, free]

theorem unheld_held {z : Zone} {g : Request} (held : s.held z = true) : unheld z g s = answer .fireHold .empty s := by
  simp [unheld, held]

theorem cartridge?_isSome : (s.cartridge? label).isSome ↔ ∃ c ∈ s.store.cartridges, c.label = label := by
  simp [State.cartridge?]

theorem holderOf_isSome : (s.holderOf home).isSome ↔ ∃ c ∈ s.store.cartridges, c.home = home := by
  simp [State.holderOf]

/-! ### ADD-CARTRIDGE -/

theorem addCartridge_badValue (h : labelOk label = false ∨ mediaOf media = none ∨ s.homeNamed f = none) :
    addCartridge label media f s = answer .badValue .empty s := by
  unfold addCartridge
  split
  · next ok med hom =>
    rw [ok, med, hom] at h
    rcases h with h | h | h <;> cases h
  · rfl

/-- The checks of a request whose fields name something, in their order. -/
theorem addCartridge_named (ok : labelOk label = true) (med : mediaOf media = some m) (hom : s.homeNamed f = some home) :
    addCartridge label media f s =
      if s.held (s.bankZone home.bank) then answer .fireHold .empty s
      else if 2048 ≤ s.store.cartridges.length then answer .full .empty s
      else if (s.cartridge? label).isSome ∨ (s.holderOf home).isSome then
        answer .refused (.duplicate (s.cartridge? label).isSome (s.holderOf home)) s
      else (s.withTable (insertCartridge (newCartridge label m home) s.store.cartridges),
        ⟨.ok, .index ((insertCartridge (newCartridge label m home) s.store.cartridges).findIdx (·.label == label))⟩) := by
  unfold addCartridge
  rw [ok, med, hom]
  rfl

/-! ### Pages of the table -/

/-- A page with no filter: its rows, and the place of the next page. -/
theorem cartridgePage_all {ok : Cartridge → Bool} (all : ∀ c, ok c = true) (room i : Nat) (cs : List Cartridge) :
    cartridgePage s ok room i cs = ((cs.take room).zipIdx.map fun x => cartridgeRow s (i + x.2) x.1,
      if room < cs.length then some (i + room) else none) := by
  induction cs generalizing room i with
  | nil => cases room <;> rfl
  | cons c cs ih =>
    cases room with
    | zero => rfl
    | succ room =>
      have step : cartridgePage s ok (room + 1) i (c :: cs) =
          (cartridgeRow s i c :: (cartridgePage s ok room (i + 1) cs).1, (cartridgePage s ok room (i + 1) cs).2) := by
        rw [cartridgePage, if_pos (all c)]
      rw [step, ih]
      simp only [List.take_succ_cons, List.zipIdx_cons', List.map_cons, List.map_map, List.length_cons,
        Nat.add_lt_add_iff_right]
      refine Prod.ext (congrArg₂ _ rfl (List.map_congr_left fun x _ => ?_)) ?_
      · simp only [Function.comp, Prod.map_fst, Prod.map_snd, id]
        congr 1
        omega
      · dsimp only
        congr 2
        omega

/-- Settles O40: the checks of an ADD-CARTRIDGE in their order, and the readings of a record and of a page. -/
theorem cartridgeIsAddedAndRead : Obligations.CartridgeIsAddedAndRead := by
  intro s label media f ready
  refine ⟨fun h => request_word ready (addCartridge_badValue h), fun m home ok med hom => ?_, ?_, ?_, ?_⟩
  · have named := addCartridge_named (s := s.heard) ok med hom
    refine ⟨fun held => ?_, fun free full => ?_, fun free short => ⟨fun taken => ?_, fun fresh => ?_⟩⟩
    · exact request_word ready (named.trans (if_pos held))
    · refine request_word ready (named.trans ((if_neg ?_).trans (if_pos full)))
      exact fun h => absurd (h.symm.trans free) (by decide)
    · have held : ¬s.held (s.bankZone home.bank) = true := fun h => absurd (h.symm.trans free) (by decide)
      refine request_same ready (named.trans ((if_neg held).trans ((if_neg (Nat.not_le.2 short)).trans (if_pos ?_))))
      obtain ⟨c, mem, label | hc⟩ := taken
      · exact .inl (cartridge?_isSome.2 ⟨c, mem, label⟩)
      · exact .inr (holderOf_isSome.2 ⟨c, mem, hc⟩)
    · have held : ¬s.held (s.bankZone home.bank) = true := fun h => absurd (h.symm.trans free) (by decide)
      refine ⟨insertCartridge (newCartridge label m home) s.store.cartridges, ?_, insertCartridge_perm _ _, fun law =>
        law.insert (fun d mem => (fresh d mem).1) (fun d mem => (fresh d mem).2) short⟩
      refine request_next ready (named.trans ((if_neg held).trans ((if_neg (Nat.not_le.2 short)).trans (if_neg ?_))))
      rintro (h | h)
      · obtain ⟨c, mem, e⟩ := cartridge?_isSome.1 h
        exact (fresh c mem).1 e
      · obtain ⟨c, mem, e⟩ := holderOf_isSome.1 h
        exact (fresh c mem).2 e
  · rintro c z aisle i ok found rfl rfl rfl
    refine request_same ready ((onCartridge_some (s := s.heard) ok found).trans ?_)
    refine congrArg (fun a => (s.heard, ({ word := .ok, body := .cartridge c _ a _ } : Answer))) ?_
    unfold Home.aisle
    cases c.home.face <;> rfl
  · exact fun ok found => request_word ready (onCartridge_none (s := s.heard) ok found)
  · rintro start rows rfl
    refine request_same ready ?_
    have page := cartridgePage_all (s := s.heard) (ok := fun _ => true && true) (fun _ => rfl) 8 start
      (s.store.cartridges.drop start)
    have listed : listCartridges start none none s.heard = (s.heard, ⟨.ok, .cartridges
        (cartridgePage s.heard (fun _ => true && true) 8 start (s.store.cartridges.drop start)).1
        (cartridgePage s.heard (fun _ => true && true) 8 start (s.store.cartridges.drop start)).2⟩) :=
      if_pos (e := (s.heard, ⟨.ok, .cartridges [] none⟩)) (Int.natCast_nonneg start)
    rw [listed, page]
    have room : 8 < (s.store.cartridges.drop start).length ↔ start + 8 < s.store.cartridges.length := by
      rw [List.length_drop]
      omega
    simp only [room]
    rfl

/-! ### Homes and holds -/

/-- The home of a SHELVED record, once both fire hold tests have passed. -/
theorem setHome_cases (ok : labelOk label = true) (found : s.cartridge? label = some c)
    (named : s.homeNamed f = some home) (free : s.held (s.zoneOf c) = false) (free' : s.held (s.bankZone home.bank) = false)
    (shelved : c.custody = .shelved) :
    (c.home = home ∧ setHome label f s = (s, { word := .ok })) ∨
    (c.home ≠ home ∧ s.holderOf home = none ∧
      setHome label f s = (s.modCartridge label fun c => { c with home := home }, { word := .ok })) ∨
    (c.home ≠ home ∧ ∃ other, s.holderOf home = some other ∧
      setHome label f s = answer .refused (.slotTaken other) s) := by
  simp only [setHome, named]
  rw [onCartridge_some ok found, unheld_free free, unheld_free free', if_neg (not_not.2 shelved)]
  by_cases same : c.home = home
  · exact .inl ⟨same, if_pos same⟩
  · rw [if_neg same]
    cases holder : s.holderOf home with
    | none => exact .inr (.inl ⟨same, rfl, rfl⟩)
    | some other => exact .inr (.inr ⟨same, other, rfl, rfl⟩)

/-- A hold lowered to a maximum. -/
theorem lowerHold_quarantine {n k : Nat} (h : c.custody = .quarantine k) :
    lowerHold n c = { c with custody := .quarantine (min k n) } := by
  simp only [lowerHold, h]
  split
  · rw [Nat.min_eq_right (by omega)]
    rfl
  · rw [Nat.min_eq_left (by omega), ← h]

theorem lowerHold_other {n : Nat} (h : ∀ k, c.custody ≠ .quarantine k) : lowerHold n c = c := by
  unfold lowerHold
  split
  · next k e => exact absurd e (h k)
  · rfl

theorem countHold_ends {n : Nat} (h : c.custody = .quarantine n) (last : n ≤ 1) :
    countHold c = { c with custody := .reshelve } := by
  simp only [countHold, h, if_pos last]
  rfl

theorem cartridge?_label (found : s.cartridge? label = some c) : c.label = label := by
  simpa using List.find?_some found

/-- Settles O43: homes by `setHome_cases`, holds ended and lowered record by record. -/
theorem homesAndHoldsAreChanged : Obligations.HomesAndHoldsAreChanged := by
  intro s label
  refine ⟨fun c f home ready ok found named free free' shelved => ?_, fun c n ready ok found held free => ?_,
    fun c n on found held => ⟨fun last unique => ?_, fun more => ?_⟩, fun v ready => ⟨?_, ?_, ?_, ?_⟩⟩
  · rcases setHome_cases (s := s.heard) ok found named free free' shelved with
      ⟨same, e⟩ | ⟨other, holder, e⟩ | ⟨other, o, holder, e⟩
    · exact ⟨fun _ => request_word ready e, fun h => absurd same h, fun _ h => absurd same h⟩
    · refine ⟨fun h => absurd h other, fun _ _ => request_next ready e, fun o _ h => ?_⟩
      cases holder.symm.trans h
    · refine ⟨fun h => absurd h other, fun _ h => ?_, fun o' _ h => ?_⟩
      · cases holder.symm.trans h
      · cases holder.symm.trans h
        exact request_same ready e
  · refine request_next ready ((onCartridge_some (s := s.heard) ok found).trans ((unheld_free (s := s.heard) free).trans ?_))
    simp only [held]
    rfl
  · refine (event_powered on).trans (congrArg _ ?_)
    have ends : holdEnds c = true := by simp [holdEnds, held, last]
    have report : holdEndedReport s c = .holdEnded c.label (s.store.bank[c.home.bank].zone) c.home none := rfl
    have changed : s.modCartridge label countHold = s.changing label fun d => { d with custody := .reshelve } := by
      refine congrArg s.withTable (List.map_congr_left fun d mem => ?_)
      split
      · next h => rw [unique d mem h, countHold_ends held last]
      · rfl
    simp only [endHold, found, ends, if_true, report, changed]
  · refine (event_powered on).trans (congrArg _ ?_)
    have stays : holdEnds c = false := by simp [holdEnds, held]; omega
    simp only [endHold, found, stays]
    rfl
  · exact request_next ready rfl
  · exact request_next ready rfl
  · rintro u rfl
    exact request_next ready rfl
  · rintro u rfl
    refine request_next ready ?_
    refine Prod.ext (congrArg (fun cs => ({ s.heard with store := { s.store with
      hold := { s.store.hold with holdMax := (max (clamp 60 10080 v) s.store.hold.holdMin).toNat }
      cartridges := cs } } : State)) (List.map_congr_left fun c _ => ?_)) rfl
    split
    · next k h => exact lowerHold_quarantine h
    · next h => exact lowerHold_other h

end Sys2Proof.Machine
end

