-- ==== Sys2Proof/Proofs/Minutes.lean ====
section
/-!
PROOFS. A minute handed on to every block that takes one.
-/

namespace Sys2Proof.Machine

variable {s : State}

/-! ### Manifests that expire together (R79, R80) -/

/-- What the manifests that expire one after another make of the cartridge of a label. -/
def freedBy (ms : List Manifest) (l : Text) : Option Custody :=
  ms.foldl (fun k m =>
    if m.direction = .out ∧ l ∈ m.labelsIn .picked then some .reshelve
    else if m.direction = .out ∧ l ∈ m.labelsIn .reserved then some .shelved
    else k) none

/-- A record put into a custody state where there is one for it. -/
def Cartridge.takes (c : Cartridge) (k : Option Custody) : Cartridge :=
  (k.map fun k => { c with custody := k }).getD c

theorem freedBy_concat (ms : List Manifest) (m : Manifest) (l : Text) : freedBy (ms ++ [m]) l =
    if m.direction = .out ∧ l ∈ m.labelsIn .picked then some .reshelve
    else if m.direction = .out ∧ l ∈ m.labelsIn .reserved then some .shelved
    else freedBy ms l := by
  unfold freedBy
  rw [List.foldl_append]
  rfl

/-- A cartridge freed is SHELVED or to be reshelved. -/
theorem freedBy_cases (ms : List Manifest) (l : Text) :
    freedBy ms l = none ∨ freedBy ms l = some .reshelve ∨ freedBy ms l = some .shelved := by
  induction ms using List.reverseRecOn with
  | nil => exact .inl rfl
  | append_singleton ms m ih =>
    rw [freedBy_concat]
    split
    · exact .inr (.inl rfl)
    · split
      · exact .inr (.inr rfl)
      · exact ih

@[simp] theorem Cartridge.takes_label (c : Cartridge) (k : Option Custody) : (c.takes k).label = c.label := by
  cases k <;> rfl

/-- The store after manifests are released one after another. -/
theorem foldl_releaseManifest (ms : List Manifest) (st : Store) :
    ms.foldl (fun st m => releaseManifest m st) st = { st with
      cartridges := st.cartridges.map fun c => c.takes (freedBy ms c.label)
      manifests := st.manifests.filter fun m => decide (m.id ∉ ms.map Manifest.id) } := by
  induction ms using List.reverseRecOn with
  | nil =>
    have records : (fun c : Cartridge => c.takes (freedBy [] c.label)) = id := rfl
    simp [records]
  | append_singleton ms m ih =>
    rw [List.foldl_append, ih, List.foldl_cons, List.foldl_nil, releaseManifest_eq]
    simp only [List.map_map, List.filter_filter]
    congr 1
    · refine List.map_congr_left fun c _ => ?_
      simp only [Function.comp, Cartridge.takes_label, freedBy_concat]
      split
      · cases freedBy ms c.label <;> rfl
      · split
        · cases freedBy ms c.label <;> rfl
        · rfl
    · refine List.filter_congr fun x _ => ?_
      by_cases h : x.id = m.id <;> simp [h]

theorem actAll_expireManifest (ms : List Manifest) (s : State) : actAll (expireManifest false) ms s = { s with
    store := ms.foldl (fun st m => releaseManifest m st) s.store
    reports := (ms.map fun m => expiredReport m false).foldl
      (fun q e => enqueue q { stamp := s.minute, event := e }) s.reports } := by
  unfold actAll
  induction ms generalizing s with
  | nil => rfl
  | cons m ms ih => rw [List.foldl_cons, ih]; rfl

/-! ### A minute handed to each block -/

/-- The records of a minute's ended manifests freed, the ended ones gone, and the others counted. -/
def Store.manifestMinute (st : Store) : Store :=
  { st with
    cartridges := st.cartridges.map fun c => c.takes (freedBy (st.manifests.filter validityEnds) c.label)
    manifests := (st.manifests.filter fun m => decide (m.id ∉ (st.manifests.filter validityEnds).map Manifest.id)).map
      countValidity }

/-- Every hold of the custody table counted. -/
def Store.custodyMinute (st : Store) : Store := { st with cartridges := st.cartridges.map countHold }

/-- A hatch's minute, the report left out. -/
def Hatch.minute (st : HatchSettings) (x : Hatch) : Hatch :=
  if x.phase = .conditioning then
    { x with
      limitCount := x.limitCount + 1, limitPosted := x.limitPosted || decide (st.condLimit ≤ x.limitCount + 1) }
  else x

theorem custodyMinute_eq (s : State) : custodyMinute s = { s with
    store := s.store.custodyMinute
    reports := ((s.store.cartridges.filter holdEnds).map (holdEndedReport s)).foldl
      (fun q e => enqueue q { stamp := s.minute, event := e }) s.reports } :=
  postAll_eq _ _

theorem countValidity_id (m : Manifest) : (countValidity m).id = m.id := by
  unfold countValidity
  split <;> rfl

theorem manifestMinute_eq (s : State) : manifestMinute s = { s with
    store := s.store.manifestMinute
    reports := ((s.store.manifests.filter validityEnds).map fun m => expiredReport m false).foldl
      (fun q e => enqueue q { stamp := s.minute, event := e }) s.reports } := by
  unfold manifestMinute
  rw [actAll_expireManifest, foldl_releaseManifest]
  simp only [State.setStore_store, List.filter_map, Function.comp_def, countValidity_id]
  rfl

theorem hatchMinute_other {h : HatchId} (phase : s.hatch[h].phase ≠ .conditioning) : hatchMinute h s = s := if_neg phase

theorem hatchMinute_conditioning {h : HatchId} {x : Hatch} (at_ : s.hatch[h] = x) (phase : x.phase = .conditioning) :
    hatchMinute h s = if s.store.hatch[h].condLimit ≤ x.limitCount + 1 ∧ x.limitPosted = false then
        post (.conditionTimeout h x.manifest x.purge x.condensation)
          (s.setHatch h { x with limitCount := x.limitCount + 1, limitPosted := true })
      else s.setHatch h { x with limitCount := x.limitCount + 1 } := by
  subst at_
  have twice : ∀ y z : Hatch, (s.setHatch h y).setHatch h z = s.setHatch h z := fun y z => by simp [State.setHatch]
  have get : ∀ y : Hatch, (s.setHatch h y).hatch[h] = y := fun y => by simp
  unfold hatchMinute
  dsimp only
  rw [if_pos phase]
  simp only [State.modHatch, get, twice, Bool.not_eq_true']
  rfl

/-- What a minute handed to a block makes of the store and the hatches. -/
def minuteEffect (x : Store × Vector Hatch 2) : MinuteTaker → Store × Vector Hatch 2
  | .custody => (x.1.custodyMinute, x.2)
  | .manifests => (x.1.manifestMinute, x.2)
  | .hatch h => (x.1, x.2.set h (x.2[h].minute x.1.hatch[h]))

theorem takeMinute_only (a : MinuteTaker) (s : State) : ∃ q, takeMinute a s = { s with
    store := (minuteEffect (s.store, s.hatch) a).1, hatch := (minuteEffect (s.store, s.hatch) a).2, reports := q } := by
  cases a with
  | custody => exact ⟨_, custodyMinute_eq s⟩
  | manifests => exact ⟨_, manifestMinute_eq s⟩
  | hatch h =>
    show ∃ q, hatchMinute h s = _
    obtain ⟨x, at_⟩ : ∃ x, s.hatch[h] = x := ⟨_, rfl⟩
    by_cases phase : x.phase = .conditioning
    · rw [hatchMinute_conditioning at_ phase]
      split
      · next reached =>
        refine ⟨(post (.conditionTimeout h x.manifest x.purge x.condensation) s).reports, ?_⟩
        simp only [minuteEffect, at_, Hatch.minute, if_pos phase, reached, Bool.false_or, decide_true]
        rfl
      · next short =>
        refine ⟨s.reports, ?_⟩
        have posted : (x.limitPosted || decide (s.store.hatch[h].condLimit ≤ x.limitCount + 1)) = x.limitPosted := by
          cases p : x.limitPosted
          · simpa using fun reached => short ⟨reached, p⟩
          · rfl
        simp only [minuteEffect, at_, Hatch.minute, if_pos phase, posted]
        rfl
    · rw [hatchMinute_other (by rwa [at_])]
      refine ⟨s.reports, ?_⟩
      simp only [minuteEffect, Hatch.minute, at_, if_neg phase]
      rw [← at_]
      simp

/-! ### The order of the minute does not show in the store or the hatches -/

theorem countHold_label (c : Cartridge) : (countHold c).label = c.label := congrArg Prod.fst (congrFun countHold_place c)

/-- A count changes nothing of a record but the custody state. -/
theorem countHold_takes_some (c : Cartridge) (k : Custody) : (countHold c).takes (some k) = { c with custody := k } := by
  unfold countHold Cartridge.takes
  split
  · split <;> rfl
  · rfl

/-- A hold counted and a cartridge freed, in either order: a cartridge freed is in no hold. -/
theorem countHold_takes (ms : List Manifest) (c : Cartridge) :
    countHold (c.takes (freedBy ms c.label)) = (countHold c).takes (freedBy ms (countHold c).label) := by
  rw [countHold_label]
  rcases freedBy_cases ms c.label with h | h | h <;> rw [h]
  · rfl
  · rw [countHold_takes_some]; rfl
  · rw [countHold_takes_some]; rfl

theorem custodyMinute_manifestMinute (st : Store) :
    st.custodyMinute.manifestMinute = st.manifestMinute.custodyMinute := by
  simp only [Store.custodyMinute, Store.manifestMinute, List.map_map]
  congr 1
  exact List.map_congr_left fun c _ => (countHold_takes _ c).symm

theorem minuteEffect_comm (a b : MinuteTaker) (x : Store × Vector Hatch 2) :
    minuteEffect (minuteEffect x a) b = minuteEffect (minuteEffect x b) a := by
  have hatches : ∀ h i : HatchId, minuteEffect (minuteEffect x (.hatch h)) (.hatch i) =
      minuteEffect (minuteEffect x (.hatch i)) (.hatch h) := by
    intro h i
    by_cases same : h = i
    · rw [same]
    · have apart : h.val ≠ i.val := fun e => same (Fin.ext e)
      refine Prod.ext rfl ?_
      simp only [minuteEffect, Fin.getElem_fin, Vector.getElem_set_ne _ _ apart, Vector.getElem_set_ne _ _ apart.symm]
      exact Vector.set_comm _ _ apart
  cases a with
  | custody =>
    cases b with
    | custody => rfl
    | manifests => exact Prod.ext (custodyMinute_manifestMinute x.1) rfl
    | hatch h => rfl
  | manifests =>
    cases b with
    | custody => exact Prod.ext (custodyMinute_manifestMinute x.1).symm rfl
    | manifests => rfl
    | hatch h => rfl
  | hatch h =>
    cases b with
    | custody => rfl
    | manifests => rfl
    | hatch i => exact hatches h i

/-- A minute handed on changes the store, the hatches and the queue, and of these the queue alone depends on the order. -/
theorem actAll_takeMinute (l : List MinuteTaker) (s : State) : ∃ q, actAll takeMinute l s = { s with
    store := (l.foldl minuteEffect (s.store, s.hatch)).1, hatch := (l.foldl minuteEffect (s.store, s.hatch)).2
    reports := q } := by
  unfold actAll
  induction l generalizing s with
  | nil => exact ⟨s.reports, rfl⟩
  | cons a l ih =>
    obtain ⟨q, e⟩ := takeMinute_only a s
    obtain ⟨q', e'⟩ := ih (takeMinute a s)
    refine ⟨q', ?_⟩
    rw [List.foldl_cons, e', e]
    rfl

theorem actAll_takeMinute_any {l : List MinuteTaker} (order : l.Perm minuteTakers) (s : State) :
    ∃ q, actAll takeMinute l s = { s with
      store := s.store.custodyMinute.manifestMinute
      hatch := Vector.ofFn fun h : HatchId => s.hatch[h].minute s.store.hatch[h], reports := q } := by
  obtain ⟨q, e⟩ := actAll_takeMinute l s
  refine ⟨q, ?_⟩
  rw [e, order.foldl_eq' (fun a _ b _ x => minuteEffect_comm a b x)]
  refine congrArg (fun v => ({ s with
    store := s.store.custodyMinute.manifestMinute, hatch := v, reports := q } : State)) ?_
  ext i hi
  match i with
  | 0 | 1 => simp [minuteTakers, minuteEffect, Store.custodyMinute, Store.manifestMinute]

/-- Settles O27: each block's share of a minute, and what the shares come to in any order. -/
theorem minuteIsHandedOn : Obligations.MinuteIsHandedOn := by
  rintro s ended freed counted rfl hfreed hcounted
  obtain rfl : freed = freedBy (s.store.manifests.filter validityEnds) := hfreed
  obtain rfl : counted = countHold := by
    rw [hcounted]
    funext ⟨_, _, _, custody, _, _, _, _, _⟩
    cases custody <;> rfl
  refine ⟨fun on => ?_, ?_, ?_, ?_⟩
  · obtain ⟨order, perm, e⟩ := inFreeOrder_spec takeMinute minuteTakers { s with minute := s.minute + 1, seconds := 0 }
    refine ⟨order, _, (event_powered on).trans (congrArg _ e), perm, rfl, ?_⟩
    obtain ⟨q, e'⟩ := actAll_takeMinute_any perm
      { s with minute := s.minute + 1, seconds := 0, choice := s.choice + 1 }
    rw [e']
    refine ⟨rfl, rfl, ?_, fun h => ?_, rfl, rfl, rfl, rfl, rfl, rfl, rfl, on⟩
    · simp only [Store.custodyMinute, Store.manifestMinute, List.map_map]
      congr 1
      · refine List.map_congr_left fun c _ => ?_
        rw [Function.comp, countHold_label]
        cases freedBy (s.store.manifests.filter validityEnds) c.label with
        | none => rfl
        | some k => exact countHold_takes_some c k
    · simp [Hatch.minute]
  · rw [show takeMinute .custody s = custodyMinute s from rfl, custodyMinute_eq]
    rfl
  · rw [show takeMinute .manifests s = manifestMinute s from rfl, manifestMinute_eq]
    refine congrArg (fun es : List Event => ({ s with
      store := s.store.manifestMinute
      reports := es.foldl (fun q e => enqueue q { stamp := s.minute, event := e }) s.reports } : State))
      (List.map_congr_left fun m _ => ?_)
    unfold expiredReport
    cases h : m.direction <;> rfl
  · rintro h x y at_ rfl
    refine ⟨fun phase => hatchMinute_other (by rwa [← at_]), fun phase quiet => ?_, fun phase fresh reached => ?_⟩
    · refine (hatchMinute_conditioning at_.symm phase).trans (if_neg ?_)
      rintro ⟨reached, fresh⟩
      rcases quiet with posted | short
      · rw [posted] at fresh
        cases fresh
      · omega
    · exact (hatchMinute_conditioning at_.symm phase).trans (if_pos ⟨reached, fresh⟩)

end Sys2Proof.Machine
end

