-- ==== Sys2Proof/Proofs/BankQueue.lean ====
section
/-!
PROOFS. The queue of a rack bank served, and an aisle request decided.
-/

namespace Sys2Proof.Machine

variable {s : State} {b : BankId} {x y : Bank} {k p : Nat} {rest : List Nat}

/-! ### A bank controller's state written -/

theorem State.setBank_get (b : BankId) (x : Bank) : (s.setBank b x).bank[b] = x := by simp

theorem State.setBank_same (at_ : s.bank[b] = x) : s.setBank b x = s := by
  subst at_
  simp [State.setBank]

theorem State.setBank_setBank (b : BankId) (x y : Bank) : (s.setBank b x).setBank b y = s.setBank b y := by
  simp [State.setBank]

theorem setBank_post (e : Event) : (post e s).setBank b x = post e (s.setBank b x) := rfl

theorem State.modBank_of (at_ : s.bank[b] = x) (f : Bank → Bank) : s.modBank b f = s.setBank b (f x) := by
  rw [State.modBank, at_]

theorem broken_of (at_ : s.bank[b] = x) : s.broken b = brokenCurtains s.store.bank[b].carriages x := by
  rw [State.broken, at_]
  rfl

theorem post_setBank_get (e : Event) : (post e (s.setBank b x)).bank[b] = x := by
  rw [post_bank, State.setBank_get]

/-! ### Positions -/

theorem locate_known (h : x.position = some p) : locate x = x := by simp [locate, h]

theorem locate_unknown (h : x.position = none) (home : x.sensors[(0 : Aisle)] = false) : locate x = x := by
  unfold locate
  rw [h]
  exact if_neg fun e => absurd (home.symm.trans e) (by decide)

theorem locate_home (h : x.position = none) (home : x.sensors[(0 : Aisle)] = true) :
    locate x = { x with position := some 0 } := by
  unfold locate
  rw [h]
  exact if_pos home

section
variable {q : List Nat}

theorem located_known (h : x.position = some p) : { locate x with queue := q } = { x with queue := q } := by
  rw [locate_known h]

theorem located_unknown (h : x.position = none) (home : x.sensors[(0 : Aisle)] = false) :
    { locate x with queue := q } = { x with queue := q } := by
  rw [locate_unknown h home]

theorem located_home (h : x.position = none) (home : x.sensors[(0 : Aisle)] = true) :
    { locate x with queue := q } = { x with position := some 0, queue := q } := by
  rw [locate_home h home]

theorem located_eq (x : Bank) : { locate x with queue := q } = { x with
    position := if x.position = none ∧ x.sensors[(0 : Aisle)] = true then some 0 else x.position, queue := q } := by
  cases h : x.position with
  | some p => rw [located_known h, if_neg (by rintro ⟨⟨⟩, -⟩), ← h]
  | none =>
    cases home : x.sensors[(0 : Aisle)] with
    | false => rw [located_unknown h home, if_neg (by rintro ⟨-, ⟨⟩⟩), ← h]
    | true => rw [located_home h home, if_pos ⟨rfl, rfl⟩]

end

theorem driveToward_eq (a k : Nat) : driveToward a k = if a < k then .up else .down := rfl

theorem travelTime_eq (step a k : Nat) : travelTime step a k = 2 * (max (a - k) (k - a)) * step + 5 := by
  have distance : (absDiff a k).toNat = max (a - k) (k - a) := by unfold absDiff; omega
  rw [travelTime, distance]

theorem readsActive_false {c : Nat} (h : ∀ q : Aisle, q.val = k → x.sensors[q] = false) : readsActive c k x = false := by
  rw [Bool.eq_false_iff]
  intro active
  obtain ⟨-, a, val, on⟩ := readsActive_iff.1 active
  exact absurd ((h a val).symm.trans on) (by decide)

theorem standAt_aisle (a : Aisle) :
    standAt a.val x = { x with position := some a.val, sensors := (Vector.replicate 13 false).set a true } := by
  refine congrArg (fun v => { x with position := some a.val, sensors := v }) ?_
  ext i hi
  simp [Vector.getElem_set, beq_eq_decide, eq_comm]

/-! ### The queue served (R128 to R131) -/

theorem serve_nil (at_ : s.bank[b] = x) : serve b [] s = s.setBank b { x with motion := .idle, queue := [] } :=
  State.modBank_of at_ _

section
variable (at_ : s.bank[b] = x) (located : { locate x with queue := k :: rest } = y)
include at_ located

/-- The head of the queue taken, the bank located first. -/
theorem serve_cons : serve b (k :: rest) s =
    if y.position = some k then serve b rest (post (.aisleOpen b k) (s.setBank b y))
    else if (brokenCurtains s.store.bank[b].carriages y).isEmpty && y.position.isSome &&
        readsActive s.store.bank[b].carriages k y then
      serve b rest (post (.aisleOpen b k) (s.setBank b (standAt k y)))
    else waitClear b k (s.setBank b y) := by
  have written : s.modBank b (fun x => { locate x with queue := k :: rest }) = s.setBank b y := by
    rw [State.modBank_of at_, located]
  have stood : (s.setBank b y).modBank b (standAt k) = s.setBank b (standAt k y) := by
    rw [State.modBank_of (State.setBank_get ..), State.setBank_setBank]
  conv_lhs => unfold serve
  simp only [written, stood, State.setBank_get, broken_of (State.setBank_get b y)]
  rfl

theorem serve_here (there : y.position = some k) :
    serve b (k :: rest) s = serve b rest (post (.aisleOpen b k) (s.setBank b y)) := by
  rw [serve_cons at_ located, if_pos there]

theorem serve_sensor (known : y.position = some p) (other : p ≠ k)
    (clear : brokenCurtains s.store.bank[b].carriages y = []) (active : readsActive s.store.bank[b].carriages k y = true) :
    serve b (k :: rest) s = serve b rest (post (.aisleOpen b k) (s.setBank b (standAt k y))) := by
  rw [serve_cons at_ located, known, clear, active, if_neg (by simpa using other), if_pos (by rfl)]

theorem serve_waits (other : y.position ≠ some k) (blocked : brokenCurtains s.store.bank[b].carriages y ≠ []) :
    serve b (k :: rest) s = s.setBank b { y with motion := .waitClear, block := some 120 } := by
  have wait : waitClear b k (s.setBank b y) = s.setBank b { y with motion := .waitClear, block := some 120 } := by
    unfold waitClear
    rw [broken_of (State.setBank_get ..), if_neg (by simpa using blocked), State.modBank_of (State.setBank_get ..),
      State.setBank_setBank]
  rw [serve_cons at_ located, if_neg other, if_neg (by rw [List.isEmpty_eq_false_iff.2 blocked]; simp), wait]

theorem serve_homes (unknown : y.position = none) (clear : brokenCurtains s.store.bank[b].carriages y = []) :
    serve b (k :: rest) s = s.setBank b (startHoming .homing s.store.bank[b] y) := by
  have wait : waitClear b k (s.setBank b y) = s.setBank b (startHoming .homing s.store.bank[b] y) := by
    unfold waitClear
    rw [broken_of (State.setBank_get ..), if_pos (by simpa using clear), State.modBank_of (State.setBank_get ..),
      State.setBank_setBank, unknown]
    rfl
  rw [serve_cons at_ located, unknown, if_neg (by rintro ⟨⟩), if_neg (by simp), wait]

theorem serve_travels (known : y.position = some p) (other : p ≠ k)
    (clear : brokenCurtains s.store.bank[b].carriages y = []) (quiet : readsActive s.store.bank[b].carriages k y = false) :
    serve b (k :: rest) s = s.setBank b (startTravel .moving s.store.bank[b] p k y) := by
  have wait : waitClear b k (s.setBank b y) = s.setBank b (startTravel .moving s.store.bank[b] p k y) := by
    unfold waitClear
    rw [broken_of (State.setBank_get ..), if_pos (by simpa using clear), State.modBank_of (State.setBank_get ..),
      State.setBank_setBank, known]
    rfl
  rw [serve_cons at_ located, known, quiet, if_neg (by simpa using other), if_neg (by simp), wait]

end

theorem takeHead_served (at_ : s.bank[b] = x) (safe : s.shed s.store.bank[b].zone = false) (queue : x.queue = k :: rest) :
    takeHead b s = serve b (k :: rest) s := by
  unfold takeHead
  rw [at_, queue, State.bankZone, safe]
  rfl

theorem takeHead_empty (at_ : s.bank[b] = x) (queue : x.queue = []) : takeHead b s = s := by
  unfold takeHead
  rw [at_, queue]
  exact if_pos (by simp)

/-! ### An aisle request decided (R125) -/

theorem aisleRequest_held (held : s.held s.store.bank[b].zone = true) : aisleRequest b k s = (s, .fireHold) := if_pos held

section
variable (at_ : s.bank[b] = x) (free : s.held s.store.bank[b].zone = false)
include at_ free

theorem aisleRequest_satisfied (idle : x.motion = .idle) (there : x.position = some k) :
    aisleRequest b k s = (s, .satisfied) := by
  unfold aisleRequest
  rw [at_, State.bankZone, free]
  simp only [if_pos (And.intro idle there)]
  rfl

variable (elsewhere : ¬(x.motion = .idle ∧ x.position = some k))
include elsewhere

theorem aisleRequest_merged {i : Nat} (place : x.queue.findIdx? (fun q => q == k) = some i) :
    aisleRequest b k s = (s, .merged (i + 1)) := by
  have placed : placeOf k x.queue = some (i + 1) := by rw [placeOf, place]; rfl
  unfold aisleRequest
  rw [at_, State.bankZone, free]
  simp only [if_neg elsewhere, placed]
  rfl

variable (new : k ∉ x.queue)
include new

omit at_ free elsewhere in
theorem placeOf_none : placeOf k x.queue = none := by
  have none : x.queue.findIdx? (· == k) = none := List.findIdx?_eq_none_iff.2 fun q mem => by
    simpa using fun e : q = k => new (e ▸ mem)
  rw [placeOf, none]
  rfl

theorem aisleRequest_full (full : 8 ≤ x.queue.length) : aisleRequest b k s = (s, .full) := by
  unfold aisleRequest
  rw [at_, State.bankZone, free]
  simp only [if_neg elsewhere, placeOf_none new, if_pos full]
  rfl

/-- A request put at the end of the queue, which a bank at rest takes up. -/
theorem aisleRequest_queued (room : x.queue.length < 8) : aisleRequest b k s =
    (if x.motion = .idle ∨ x.motion = .stopped then takeHead b (s.setBank b { x with queue := x.queue ++ [k] })
      else s.setBank b { x with queue := x.queue ++ [k] }, .queued (x.queue.length + 1)) := by
  unfold aisleRequest
  rw [State.modBank_of at_, at_, State.bankZone, free]
  simp only [if_neg elsewhere, placeOf_none new, if_neg (Nat.not_le.2 room)]
  rfl

end

/-- A bank at rest outside the shed set with an empty queue takes its new head. -/
theorem aisleRequest_taken (at_ : s.bank[b] = x) (free : s.held s.store.bank[b].zone = false)
    (elsewhere : ¬(x.motion = .idle ∧ x.position = some k)) (empty : x.queue = [])
    (rest : x.motion = .idle ∨ x.motion = .stopped) :
    aisleRequest b k s = (serve b [k] (s.setBank b { x with queue := [k] }), .queued 1) := by
  have safe : s.shed s.store.bank[b].zone = false := by
    rw [Bool.eq_false_iff]
    exact fun h => absurd ((FireState.holds_of_sheds h).symm.trans free) (by decide)
  rw [aisleRequest_queued at_ free elsewhere (by rw [empty]; simp) (by rw [empty]; simp), if_pos rest, empty, List.nil_append,
    takeHead_served (State.setBank_get ..) safe rfl]
  rfl

end Sys2Proof.Machine
end

