-- ==== Sys2Proof/Proofs/BankRequests.lean ====
section
/-!
PROOFS. The requests of a rack bank.
-/

namespace Sys2Proof.Machine

variable {s : State} {b : BankId} {x y : Bank}

/-! ### OPEN-AISLE -/

theorem openAisle_some {k : Int} {a : Nat} (named : indexOf 4 k = some b) (low : a ≤ s.store.bank[b].carriages) :
    openAisle k a s = ((aisleRequest b a s).1, aisleAnswer (aisleRequest b a s).2) :=
  (naming_some named).trans (if_pos ⟨Int.natCast_nonneg a, Int.ofNat_le.2 low⟩)

theorem openAisle_badValue {k a : Int} (named : indexOf 4 k = some b) (out : a < 0 ∨ s.store.bank[b].carriages < a) :
    openAisle k a s = answer .badValue .empty s := by
  refine (naming_some named).trans (if_neg fun h => ?_)
  have bound : a ≤ s.store.bank[b].carriages := h.2
  omega

theorem clearQueue_eq (x : Bank) : clearQueue x =
    if x.motion = .waitClear then { x with queue := [], motion := .idle, block := none } else { x with queue := [] } := by
  unfold clearQueue
  split
  · next h => rw [if_pos h]
  · next h => rw [if_neg h]

theorem inService_eq (x : Bank) : inService x =
    if x.motion = .waitClear ∨ x.motion = .homing ∨ x.motion = .moving then x.queue.head? else none := by
  unfold inService
  cases h : x.motion <;> rfl

/-- A bank in FAULT with nothing queued and no park demand comes to rest in IDLE. -/
theorem comeToRest_idle (at_ : s.bank[b] = x) (demand : x.parkDemand = false) (empty : x.queue = []) :
    comeToRest b s = s.setBank b { x with motion := .idle } := by
  unfold comeToRest
  rw [at_, demand]
  refine (if_neg (by decide)).trans ?_
  unfold toIdle
  rw [State.modBank_of at_, takeHead_empty (State.setBank_get ..) (by exact empty), ← demand]

/-- Settles O54: the first case of the table that applies, and the start or the wait of a bank at rest. -/
theorem aisleRequestsAreDecided : Obligations.AisleRequestsAreDecided := by
  rintro s b x st k ready at_ rfl named
  have at_ : s.heard.bank[b] = x := at_.symm
  refine ⟨fun a out => request_word ready (openAisle_badValue (s := s.heard) named out), fun a low => ?_, ?_, ?_, ?_, ?_⟩
  · have opened := openAisle_some (s := s.heard) named low
    have answers : ∀ {t : State} {o : AisleOutcome}, aisleRequest b a s.heard = (t, o) →
        exec (.openAisle k a) s = .next (t.answered (aisleAnswer o)) := fun e =>
      request_next ready (by rw [opened, e])
    have taken : ∀ {u : State}, s.held s.store.bank[b].zone = false → x.queue = [] →
        (x.motion = .idle ∨ x.motion = .stopped) → ¬(x.motion = .idle ∧ x.position = some a) →
        serve b [a] (s.heard.setBank b { x with queue := [a] }) = u →
        exec (.openAisle k a) s = .next (u.answered { word := .ok, body := .aisle (.queued 1) }) := fun free empty rest other e =>
      answers ((aisleRequest_taken at_ free other empty rest).trans (Prod.ext e rfl))
    have head : (s.heard.setBank b { x with queue := [a] }).bank[b] = { x with queue := [a] } := State.setBank_get ..
    have curtains : ∀ {y : Bank}, s.broken b = [] → y.curtains = x.curtains →
        brokenCurtains s.store.bank[b].carriages y = [] := fun {y} clear same =>
      calc brokenCurtains s.store.bank[b].carriages y = brokenCurtains s.store.bank[b].carriages x := by
            unfold brokenCurtains
            rw [same]
        _ = s.broken b := (broken_of at_).symm
        _ = [] := clear
    refine ⟨answers rfl, fun held => ?_, fun free idle there => ?_, fun i free other place => ?_,
      fun free other new full => ?_, ?_, ?_, ?_, fun free empty rest => ⟨?_, ?_, ?_⟩⟩
    · exact answers (aisleRequest_held (s := s.heard) held)
    · exact answers (aisleRequest_satisfied at_ free idle there)
    · exact answers (aisleRequest_merged at_ free other place)
    · exact answers (aisleRequest_full at_ free other new full)
    · rintro y free new room idle stopped rfl
      refine answers (o := .queued (x.queue.length + 1)) ?_
      rw [aisleRequest_queued at_ free (fun h => idle h.1) new room, if_neg (by rintro (h | h); exacts [idle h, stopped h])]
      rfl
    · rintro p q y free empty idle known other clear rfl active rfl
      refine taken free empty (.inl idle) (by rw [known]; rintro ⟨-, ⟨⟩⟩; exact other rfl) ?_
      have there : readsActive s.store.bank[b].carriages q.val x = true := readsActive_iff.2 ⟨low, q, rfl, active⟩
      rw [serve_sensor (y := { x with queue := [q.val] }) (p := p) head (by exact located_known known) known (by exact other)
        (by exact curtains clear rfl) (by exact there), serve_nil (post_setBank_get _), setBank_post, State.setBank_setBank,
        State.setBank_setBank, standAt_aisle, idle.symm, ← empty]
      rfl
    · rintro p y free empty idle known other clear quiet rfl
      refine taken free empty (.inl idle) (by rw [known]; rintro ⟨-, ⟨⟩⟩; exact other rfl) ?_
      rw [serve_travels (y := { x with queue := [a] }) (p := p) head (by exact located_known known) known (by exact other)
        (by exact curtains clear rfl) (by exact readsActive_false quiet), State.setBank_setBank, startTravel,
        travelTime_eq]
      rfl
    · rintro y unknown home clear rfl
      refine taken free empty rest (by rw [unknown]; rintro ⟨-, ⟨⟩⟩) ?_
      rw [serve_homes (y := { x with queue := [a] }) head (by exact located_unknown unknown home) unknown
        (by exact curtains clear rfl), State.setBank_setBank]
      rfl
    · rintro located y blocked rfl other rfl
      have elsewhere : x.position ≠ some a := by
        rintro there
        rw [there] at other
        exact other (if_neg (by rintro ⟨⟨⟩, -⟩))
      refine taken free empty rest (fun h => elsewhere h.2) ?_
      rw [serve_waits head (located_eq _) (by exact other) (by exact fun clear => blocked ((broken_of at_).trans clear)),
        State.setBank_setBank]
      rfl
    · intro unknown home
      refine ⟨?_, ?_⟩
      · rintro y rfl rfl
        refine taken free empty rest (by rw [unknown]; rintro ⟨-, ⟨⟩⟩) ?_
        rw [serve_here (y := { x with position := some 0, queue := [0] }) head (by exact located_home unknown home) rfl,
          serve_nil (post_setBank_get _), setBank_post, State.setBank_setBank, State.setBank_setBank, ← empty]
        rfl
      · rintro y away clear quiet rfl
        refine taken free empty rest (by rw [unknown]; rintro ⟨-, ⟨⟩⟩) ?_
        rw [serve_travels (y := { x with position := some 0, queue := [a] }) head (by exact located_home unknown home) rfl
          (Ne.symm away) (by exact curtains clear rfl) (by exact readsActive_false quiet), State.setBank_setBank, startTravel,
          travelTime_eq, driveToward_eq, if_pos (Nat.pos_of_ne_zero away), Nat.zero_sub, Nat.sub_zero, Nat.zero_max]
        rfl
  · rintro y rfl
    refine request_next ready ((naming_some named).trans (Prod.ext ?_ ?_))
    · exact (State.modBank_of at_ _).trans (by rw [clearQueue_eq]; rfl)
    · dsimp only
      rw [at_]
  · rintro y fault demand empty rfl
    refine request_next ready ((naming_some named).trans ?_)
    dsimp only
    rw [at_, if_pos fault, State.modBank_of at_, comeToRest_idle (State.setBank_get ..) (by exact demand) (by exact empty),
      State.setBank_setBank]
    rfl
  · intro fault
    refine request_word ready ((naming_some named).trans ?_)
    rw [at_, if_neg fault]
  · rintro v bank settings live fire curtains sensors service
    refine request_same ready ((naming_some named).trans ?_)
    refine congrArg (fun v => (s.heard, ({ word := .ok, body := .bank v } : Answer))) ?_
    obtain ⟨vb, vs, vl, vi, vf, vc, vn⟩ := v
    simp only at bank settings live fire curtains sensors service
    subst bank settings live fire curtains sensors service
    rw [at_, inService_eq]
    rfl

end Sys2Proof.Machine
end

