-- ==== Sys2Proof/Proofs/BankSettingsWritten.lean ====
section
/-!
PROOFS. The settings of a rack bank.
-/

namespace Sys2Proof.Machine

variable {s : State} {b : BankId} {x : Bank} {f : Request} {k v : Int}

/-! ### Bank settings (R122) -/

theorem atRest_busy (at_ : s.bank[b] = x) (idle : x.motion ≠ .idle) (stopped : x.motion ≠ .stopped) :
    atRest b f s = answer .busy .empty s := by
  subst at_
  exact if_neg (by rintro (h | h); exacts [idle h, stopped h])

theorem atRest_rest (at_ : s.bank[b] = x) (rest : x.motion = .idle ∨ x.motion = .stopped) : atRest b f s = f s := by
  subst at_
  exact if_pos rest

theorem bankTakesFire_stands {l e : FireState} (h : l.sheds = e.sheds) : bankTakesFire b l e s = s := by
  unfold bankTakesFire
  rw [h]
  cases e.sheds <;> rfl

theorem writeBankZone_some {z : Zone} (named : indexOf 4 k = some b) (zone : indexOf 4 v = some z) :
    writeBankZone (some k) (some v) s =
      atRest b (fun s => (if z = s.bankZone b then s else moveBank b z s, { word := .ok })) s := by
  refine (indexedSetting_some named).trans ?_
  simp only [zone]

theorem writeBankCarriages_change (named : indexOf 4 k = some b) (at_ : s.bank[b] = x)
    (rest : x.motion = .idle ∨ x.motion = .stopped) (lo : 1 ≤ v) (hi : v ≤ 12)
    (other : v.toNat ≠ s.store.bank[b].carriages) : writeBankCarriages (some k) (some v) s =
      (changeCarriages b v.toNat s,
        ⟨.ok, .carriages none (if v.toNat < s.store.bank[b].park then some v.toNat else none)⟩) := by
  have used : clamp 1 12 v = v := clamp_of_mem lo hi
  refine (indexedSetting_some named).trans ((atRest_rest at_ rest).trans ?_)
  dsimp only
  rw [used, if_pos rfl, if_pos rfl]
  refine if_neg fun same => other ?_
  rw [same]
  rfl

/-- Settles O56: each setting at rest, and BUSY before anything else. -/
theorem bankSettingsAreWritten : Obligations.BankSettingsAreWritten := by
  rintro s b x st k v ready at_ rfl named
  have at_ : s.heard.bank[b] = x := at_.symm
  refine ⟨fun idle stopped => ⟨?_, ?_, ?_, fun z zone => ?_⟩, fun rest => ⟨?_, ?_, ?_, ?_⟩⟩
  · exact request_word ready ((indexedSetting_some named).trans (atRest_busy at_ idle stopped))
  · exact request_word ready ((indexedSetting_some named).trans (atRest_busy at_ idle stopped))
  · exact request_word ready ((indexedSetting_some named).trans (atRest_busy at_ idle stopped))
  · exact request_word ready ((writeBankZone_some named zone).trans (atRest_busy at_ idle stopped))
  · rintro u rfl
    exact request_next ready ((indexedSetting_some named).trans (atRest_rest at_ rest))
  · rintro u rfl
    exact request_next ready ((indexedSetting_some named).trans (atRest_rest at_ rest))
  · rintro u y c lo hi rfl other rfl rfl
    refine request_next ready ((writeBankCarriages_change named at_ rest lo hi other).trans ?_)
    refine Prod.ext ?_ rfl
    subst at_
    rfl
  · rintro z u zone other sheds rfl
    refine request_next ready ((writeBankZone_some named zone).trans ((atRest_rest at_ rest).trans ?_))
    refine Prod.ext ((if_neg other).trans ?_) rfl
    exact bankTakesFire_stands sheds.symm

end Sys2Proof.Machine
end

