-- ==== Sys2Proof/Proofs/StagingReads.lean ====
section
/-!
PROOFS. A read at a staging port.
-/

namespace Sys2Proof.Machine

variable {s : State} {r : ReaderId} {run : LabelRun} {l : Text} {m : Char} {c : Cartridge}

/-! ### A staging port's state written -/

theorem State.setStaging_get (r : ReaderId) (p : Staging) : (s.setStaging r p).staging[r] = p := by simp

/-! ### A read decided (R57) -/

theorem lookup_none (none : s.cartridge? l = none) : s.lookup l m = .notInTable := by simp only [State.lookup, none]

theorem lookup_found (found : s.cartridge? l = some c) : s.lookup l c.media = .found c := by
  simp only [State.lookup, found, if_true]

theorem lookup_mismatch (found : s.cartridge? l = some c) (other : m ≠ c.media) : s.lookup l m = .mediaMismatch c := by
  simp only [State.lookup, found, if_neg other.symm]

theorem decideRead_held (held : s.held s.store.bank[r].zone = true) :
    decideRead r l m s = (post (.stagingFireHold r l s.store.bank[r].zone) s, .red, .readerFireHold) := if_pos held


section
variable (free : s.held s.store.bank[r].zone = false)
include free

theorem decideRead_unknown (none : s.cartridge? l = none) :
    decideRead r l m s = (post (.unknownLabel r l) s, .red, .unknownLabel) := by
  refine (if_neg fun h => absurd (h.symm.trans free) (by decide)).trans ?_
  simp only [lookup_none none]

theorem decideRead_mismatch (found : s.cartridge? l = some c) (other : m ≠ c.media) :
    decideRead r l m s = (post (.mediaMismatch r l m c.media) s, .red, .mediaMismatch) := by
  refine (if_neg fun h => absurd (h.symm.trans free) (by decide)).trans ?_
  simp only [lookup_mismatch found other]

theorem decideRead_found (found : s.cartridge? l = some c) : decideRead r l c.media s =
    if s.held (s.zoneOf c) then (post (.stagingFireHold r l (s.zoneOf c)) s, .red, .cartridgeFireHold)
    else ((custodyRead r c s).1, (custodyRead r c s).2, .custody c.custody.name) := by
  refine (if_neg fun h => absurd (h.symm.trans free) (by decide)).trans ?_
  simp only [lookup_found found]

end

/-! ### The aisle request of a RESHELVE scan (R59) -/

section
variable {b : BankId} {k : Nat} (hb : b = c.home.bank) (hk : k = c.home.aisle)
include hb hk

theorem requestShelf_above (above : s.store.bank[b].carriages < k) :
    requestShelf c s = post (.aisleRefused b k c.label .noSuchAisle) s := by
  subst hb hk
  exact if_pos above

theorem requestShelf_sent {t : State} {o : AisleOutcome} (sent : k ≤ s.store.bank[b].carriages)
    (decided : aisleRequest b k s = (t, o)) :
    requestShelf c s = if o = .full then post (.aisleRefused b k c.label .full) t else t := by
  subst hb hk
  refine (if_neg (Nat.not_lt.2 sent)).trans ?_
  rw [decided]
  cases o <;> rfl

end

/-! ### A run of bytes taken -/

theorem stagingRead_error {e : UnreadReason} (read : readLabel run = .error e) : stagingRead r run s =
    s.setStaging r { s.staging[r] with lastRead := some (.unreadable e), since := 0, colour := .red, left := some 3 } := by
  unfold stagingRead
  rw [read]
  rfl

theorem repeatColour_eq : repeatColour r l s =
    if s.held s.store.bank[r].zone = true ∨ (∃ c, s.cartridge? l = some c ∧ s.held s.store.bank[c.home.bank].zone = true)
    then .red else s.staging[r].shown := by
  unfold repeatColour
  cases h : s.cartridge? l with
  | none => simp [State.readerZone, State.bankZone]
  | some c => simp [State.readerZone, State.bankZone, State.zoneOf]

theorem stagingRead_repeat (read : readLabel run = .ok (l, m)) (last : s.staging[r].lastGood = some (l, m))
    (window : s.staging[r].window.isSome = true) : stagingRead r run s = s.setStaging r { s.staging[r] with
      lastRead := some (.again l m), since := 0, window := some 3, colour := repeatColour r l s, left := some 3
      shown := repeatColour r l s } := by
  unfold stagingRead
  rw [read]
  refine (if_pos ?_).trans rfl
  rw [isRepeat, last, window]
  simp

theorem stagingRead_fresh (read : readLabel run = .ok (l, m))
    (fresh : s.staging[r].lastGood ≠ some (l, m) ∨ s.staging[r].window = none) : stagingRead r run s =
      (decideRead r l m s).1.modStaging r fun p => { p with
        lastRead := some (.good l m (decideRead r l m s).2.2), since := 0, lastGood := some (l, m), window := some 3
        colour := (decideRead r l m s).2.1, left := some 3, shown := (decideRead r l m s).2.1 } := by
  unfold stagingRead
  rw [read]
  refine (if_neg fun again => ?_).trans rfl
  simp only [isRepeat, Bool.and_eq_true, beq_iff_eq] at again
  obtain ⟨last, window⟩ := again
  rcases fresh with h | h
  · exact h last
  · rw [h] at window
    cases window

/-- Settles O45: what a run of bytes is, the steps of a read, and the aisle request of a RESHELVE. -/
theorem stagingReadIsDecided : Obligations.StagingReadIsDecided := by
  intro s r run on
  refine ⟨?_, fun l m read => ⟨?_, fun fresh => ?_⟩, fun c free freeHome found => ?_, fun l m held => decideRead_held held,
    fun l m free none => decideRead_unknown free none, fun c m free found other => decideRead_mismatch free found other,
    fun c free found held => ?_, ?_, ?_, ?_, ?_⟩
  · rintro e p read rfl
    exact (event_powered on).trans (congrArg _ (stagingRead_error read))
  · rintro col p last window hcol rfl
    obtain rfl : col = repeatColour r l s := hcol.trans repeatColour_eq.symm
    exact (event_powered on).trans (congrArg _ (stagingRead_repeat read last window))
  · exact ⟨_, _, _, rfl, (event_powered on).trans (congrArg _ (stagingRead_fresh read fresh))⟩
  · rw [decideRead_found free found, if_neg fun h => absurd (h.symm.trans freeHome) (by decide)]
    unfold custodyRead
    cases c.custody <;> rfl
  · rw [decideRead_found free found]
    exact if_pos held
  · rintro c b k hb hk
    replace hk : k = c.home.aisle := by
      rw [hk]
      unfold Home.aisle
      cases c.home.face <;> rfl
    refine ⟨requestShelf_above hb hk, fun sent free => ⟨fun known => ?_, fun elsewhere new => ⟨fun full => ?_, fun room => ?_⟩⟩⟩
    · by_cases satisfied : s.bank[b].motion = .idle ∧ s.bank[b].position = some k
      · rw [requestShelf_sent hb hk sent (aisleRequest_satisfied rfl free satisfied.1 satisfied.2)]
        rfl
      · have mem : k ∈ s.bank[b].queue := known.resolve_left satisfied
        obtain ⟨i, place⟩ := Option.isSome_iff_exists.1 ((List.findIdx?_isSome (p := fun q => q == k)).trans
          (List.any_eq_true.2 ⟨k, mem, beq_self_eq_true k⟩))
        rw [requestShelf_sent hb hk sent (aisleRequest_merged rfl free satisfied place)]
        rfl
    · rw [requestShelf_sent hb hk sent (aisleRequest_full rfl free elsewhere new full)]
      rfl
    · have queued := aisleRequest_queued rfl free elsewhere new room
      rw [requestShelf_sent hb hk sent queued, queued]
      exact ⟨rfl, rfl⟩
  · rintro p running rfl
    show execStagingIndicatorTimeout r s = _
    rw [execStagingIndicatorTimeout, event_powered on, State.modStaging, if_pos running]
    rfl
  · rintro p rfl
    show execRepeatWindowEnd r s = _
    rw [execRepeatWindowEnd, event_powered on]
    rfl
  · exact fun k ready named => request_same ready (naming_some named)

end Sys2Proof.Machine
end

