-- ==== Sys2Proof/Proofs/BankMotion.lean ====
section
/-!
PROOFS. A rack bank's motion, its curtains and sensors, and fire park, one rule per event.
-/

namespace Sys2Proof.Machine

variable {s : State} {b : BankId} {x y : Bank} {k p : Nat} {rest : List Nat}

/-! ### Fire park (R134 to R136) -/

theorem parkMove_here (at_ : s.bank[b] = x) : parkMove b s.store.bank[b].park s =
    post (.bankParked b s.store.bank[b].park) (s.setBank b { x with motion := .parked }) := by
  refine (if_pos rfl).trans ?_
  rw [State.modBank_of at_]

theorem parkMove_travels (at_ : s.bank[b] = x) (other : p ≠ s.store.bank[b].park)
    (quiet : readsActive s.store.bank[b].carriages s.store.bank[b].park x = false) : parkMove b p s =
      s.setBank b (startTravel .parkTravel s.store.bank[b] p s.store.bank[b].park x) := by
  subst at_
  refine (if_neg other).trans ((if_neg ?_).trans rfl)
  exact fun h => absurd (h.symm.trans quiet) (by decide)

section
variable (at_ : s.bank[b] = x) (waits : y = { x with motion := .parkWait })
include at_ waits

theorem parkStart_blocked (blocked : brokenCurtains s.store.bank[b].carriages y ≠ []) : parkStart b s =
    if y.blockedPosted then s.setBank b y
    else post (.bankBlocked b (brokenCurtains s.store.bank[b].carriages y)) (s.setBank b { y with blockedPosted := true }) := by
  have written : s.modBank b (fun x => { x with motion := .parkWait }) = s.setBank b y := by
    rw [State.modBank_of at_, waits]
  unfold parkStart
  simp only [written, broken_of (State.setBank_get b y), State.setBank_get]
  refine (if_neg ?_).trans ?_
  · exact fun h => blocked (List.isEmpty_iff.1 h)
  · rw [State.modBank_of (State.setBank_get ..), State.setBank_setBank]
    rfl

variable (clear : brokenCurtains s.store.bank[b].carriages y = [])
include clear

theorem parkStart_homes (located : locate y = y) (unknown : y.position = none) :
    parkStart b s = s.setBank b (startHoming .parkHoming s.store.bank[b] y) := by
  have written : s.modBank b (fun x => { x with motion := .parkWait }) = s.setBank b y := by
    rw [State.modBank_of at_, waits]
  unfold parkStart
  simp only [written, broken_of (State.setBank_get b y), State.setBank_get, located, unknown]
  refine (if_pos (List.isEmpty_iff.2 clear)).trans ?_
  rw [State.modBank_of (State.setBank_get ..), State.setBank_setBank]
  rfl

variable (known : y.position = some p)
include known

theorem parkStart_known : parkStart b s = parkMove b p (s.setBank b y) := by
  have written : s.modBank b (fun x => { x with motion := .parkWait }) = s.setBank b y := by
    rw [State.modBank_of at_, waits]
  unfold parkStart
  simp only [written, broken_of (State.setBank_get b y), State.setBank_get, locate_known known, known]
  refine (if_pos (List.isEmpty_iff.2 clear)).trans ?_
  rw [State.modBank_of (State.setBank_get ..), State.setBank_setBank, locate_known known]

theorem parkStart_here (here : p = s.store.bank[b].park) : parkStart b s =
    post (.bankParked b p) (s.setBank b { y with motion := .parked }) := by
  rw [parkStart_known at_ waits clear known, here]
  exact (parkMove_here (State.setBank_get b y)).trans (by rw [State.setBank_setBank]; rfl)

theorem parkStart_travels (other : p ≠ s.store.bank[b].park)
    (quiet : ∀ q : Aisle, q.val = s.store.bank[b].park → y.sensors[q] = false) : parkStart b s =
      s.setBank b (startTravel .parkTravel s.store.bank[b] p s.store.bank[b].park y) := by
  rw [parkStart_known at_ waits clear known]
  exact (parkMove_travels (State.setBank_get b y) other (readsActive_false quiet)).trans (by rw [State.setBank_setBank]; rfl)

end

theorem bankTakesFire_begins {l e : FireState} (h : l.sheds = false) (h' : e.sheds = true) :
    bankTakesFire b l e s = parkBegins b s := by
  unfold bankTakesFire
  rw [h, h']
  rfl

theorem bankTakesFire_ends {l e : FireState} (h : l.sheds = true) (h' : e.sheds = false) :
    bankTakesFire b l e s = parkEnds b s := by
  unfold bankTakesFire
  rw [h, h']
  rfl

section
variable (at_ : s.bank[b] = x)
include at_

theorem parkBegins_rest (rest : x.motion = .idle ∨ x.motion = .stopped ∨ x.motion = .waitClear) : parkBegins b s =
    parkStart b (s.setBank b { x with
      parkDemand := true, blockedPosted := false, block := if x.motion = .waitClear then none else x.block }) := by
  unfold parkBegins
  simp only [State.modBank_of at_, State.setBank_get]
  rcases rest with h | h | h
  · rw [h]; rfl
  · rw [h]; rfl
  · rw [h]
    dsimp only
    rw [State.modBank_of (State.setBank_get ..), State.setBank_setBank]
    rfl

theorem parkBegins_moves (idle : x.motion ≠ .idle) (stopped : x.motion ≠ .stopped) (waits : x.motion ≠ .waitClear) :
    parkBegins b s = s.setBank b { x with parkDemand := true, blockedPosted := false } := by
  unfold parkBegins
  simp only [State.modBank_of at_, State.setBank_get]

theorem toIdle_of : toIdle b s = takeHead b (s.setBank b { x with motion := .idle }) := by
  rw [toIdle, State.modBank_of at_]

theorem parkEnds_parked (parked : x.motion = .parked ∨ x.motion = .parkWait) :
    parkEnds b s = takeHead b (s.setBank b { x with parkDemand := false, motion := .idle }) := by
  unfold parkEnds
  simp only [State.modBank_of at_, State.setBank_get]
  rcases parked with h | h <;>
    (rw [h]; dsimp only; rw [toIdle_of (State.setBank_get ..), State.setBank_setBank])

theorem parkEnds_other (parked : x.motion ≠ .parked) (waits : x.motion ≠ .parkWait)
    (empty : x.motion = .stopped → x.queue = []) : parkEnds b s = s.setBank b { x with parkDemand := false } := by
  unfold parkEnds
  simp only [State.modBank_of at_, State.setBank_get]
  cases h : x.motion with
  | stopped => exact takeHead_empty (State.setBank_get ..) (by exact empty h)
  | parked => exact absurd h parked
  | parkWait => exact absurd h waits
  | _ => rfl

/-! ### A bank that takes its head -/

section
variable (safe : s.shed s.store.bank[b].zone = false) (queue : x.queue = k :: rest)
include safe queue

theorem takeHead_travels (known : x.position = some p) (other : p ≠ k)
    (clear : brokenCurtains s.store.bank[b].carriages x = []) (quiet : ∀ q : Aisle, q.val = k → x.sensors[q] = false) :
    takeHead b s = s.setBank b (startTravel .moving s.store.bank[b] p k x) := by
  rw [takeHead_served at_ safe queue]
  exact serve_travels at_ (by rw [located_known known, ← queue]) known other clear (readsActive_false quiet)

theorem takeHead_homes (unknown : x.position = none) (home : x.sensors[(0 : Aisle)] = false)
    (clear : brokenCurtains s.store.bank[b].carriages x = []) :
    takeHead b s = s.setBank b (startHoming .homing s.store.bank[b] x) := by
  rw [takeHead_served at_ safe queue]
  exact serve_homes at_ (by rw [located_unknown unknown home, ← queue]) unknown clear

theorem takeHead_waits (located : locate x = x) (other : x.position ≠ some k)
    (blocked : brokenCurtains s.store.bank[b].carriages x ≠ []) :
    takeHead b s = s.setBank b { x with motion := .waitClear, block := some 120 } := by
  rw [takeHead_served at_ safe queue]
  exact serve_waits at_ (by rw [located, ← queue]) other blocked

end

/-! ### Motion events -/

theorem comeToRest_idles (demand : x.parkDemand = false) : comeToRest b s = toIdle b s := by
  unfold comeToRest
  rw [at_, demand]
  exact if_neg (by decide)

theorem comeToRest_parks (demand : x.parkDemand = true) : comeToRest b s = parkStart b s := by
  unfold comeToRest
  rw [at_, demand]
  exact if_pos rfl

theorem markArrival_of : markArrival b s = s.setBank b { x with justArrived := x.drive.runs } := by
  rw [markArrival, State.modBank_of at_]

theorem homed_of : homed b s =
    if (!x.parkDemand && x.queue.head? == some 0) = true then
      markArrival b (comeToRest b (s.setBank b { x with drive := .off, homing := none, position := some 0 }))
    else comeToRest b (s.setBank b { x with drive := .off, homing := none, position := some 0 }) := by
  unfold homed
  rw [State.modBank_of at_, at_]

theorem arrived_of : arrived b k s = markArrival b (comeToRest b (post (.aisleOpen b k) (s.setBank b { x with
    drive := .off, moving := none, travel := none, position := some k
    queue := if x.queue.head? = some k then x.queue.tail else x.queue }))) := by
  unfold arrived
  rw [State.modBank_of at_]

theorem parkArrived_demand (demand : x.parkDemand = true) : parkArrived b k s = post (.bankParked b k) (s.setBank b { x with
    drive := .off, moving := none, travel := none, position := some k, motion := .parked }) := by
  unfold parkArrived
  simp only [State.modBank_of at_, State.setBank_get, demand, if_true]
  rw [State.modBank_of (State.setBank_get ..), State.setBank_setBank]

theorem parkArrived_free (demand : x.parkDemand = false) : parkArrived b k s = markArrival b (toIdle b (s.setBank b { x with
    drive := .off, moving := none, travel := none, position := some k })) := by
  unfold parkArrived
  simp only [State.modBank_of at_, State.setBank_get, demand]
  rfl

/-! ### Position sensors -/

section
variable {a : Aisle} (read : a.val ≤ s.store.bank[b].carriages)
    (seen : y = { x with sensors := (Vector.replicate 13 false).set a true })
include read seen

theorem sensorInput_of : sensorInput b a s = s.setBank b y := by
  have all : (if decide (a.val ≤ (s.bankSettings b).carriages) = true then Vector.replicate 13 false else x.sensors) =
      Vector.replicate 13 false := if_pos (decide_eq_true read)
  rw [sensorInput, State.modBank_of at_, seen, all]

theorem sensorActive_home (home : a.val = 0) (motion : x.motion = .homing ∨ x.motion = .parkHoming) :
    sensorActive b a s = homed b (s.setBank b y) := by
  unfold sensorActive
  rw [sensorInput_of at_ read seen]
  refine (if_neg (Nat.not_lt.2 read)).trans ?_
  dsimp only
  rw [State.setBank_get, seen]
  rcases motion with h | h <;> (rw [h]; exact if_pos home)

variable (sought : x.travel.map Prod.snd = some a.val)
include sought

theorem sensorActive_arrives (motion : x.motion = .moving) : sensorActive b a s = arrived b a.val (s.setBank b y) := by
  unfold sensorActive
  rw [sensorInput_of at_ read seen]
  refine (if_neg (Nat.not_lt.2 read)).trans ?_
  dsimp only
  rw [State.setBank_get, seen]
  rw [motion]
  exact if_pos sought

theorem sensorActive_parks (motion : x.motion = .parkTravel) : sensorActive b a s = parkArrived b a.val (s.setBank b y) := by
  unfold sensorActive
  rw [sensorInput_of at_ read seen]
  refine (if_neg (Nat.not_lt.2 read)).trans ?_
  dsimp only
  rw [State.setBank_get, seen]
  rw [motion]
  exact if_pos sought

end

/-! ### Curtains -/

theorem curtainInput_of (a : Aisle) (v : Bool) :
    curtainInput b a v s = s.setBank b { x with curtains := x.curtains.set a v } := by
  rw [curtainInput, State.modBank_of at_]

section
variable {a : Aisle} (hy : y = { x with curtains := x.curtains.set a true })
include hy

theorem curtainBreaks_idle (off : x.drive = .off) : curtainBreaks b a s = s.setBank b y := by
  unfold curtainBreaks
  simp only [curtainInput_of at_, State.setBank_get, ← hy]
  refine if_neg fun h => ?_
  rw [hy, off] at h
  cases h.1

variable (runs : x.drive ≠ .off) (read : a.val ≤ s.store.bank[b].carriages)
include runs read

omit at_ hy read in
theorem drive_runs : x.drive.runs = true := by
  cases h : x.drive with
  | off => exact absurd h runs
  | _ => rfl

theorem curtainBreaks_stops (fresh : x.justArrived = false) : curtainBreaks b a s = bankStops b a (s.setBank b y) := by
  unfold curtainBreaks
  simp only [curtainInput_of at_, State.setBank_get, ← hy]
  rw [if_pos ⟨by rw [hy]; exact drive_runs runs, read⟩, hy, fresh]

theorem curtainBreaks_atArrival {q : Nat} (fresh : x.justArrived = true) (travel : x.travel = some (k, q)) :
    curtainBreaks b a s = breakAtArrival b k (s.setBank b y) := by
  unfold curtainBreaks
  simp only [curtainInput_of at_, State.setBank_get, ← hy]
  rw [if_pos ⟨by rw [hy]; exact drive_runs runs, read⟩, hy, fresh]
  dsimp only
  rw [travel]

end

theorem breakAtArrival_of (a : Aisle) : breakAtArrival b a.val s = comeToRest b (s.setBank b { x with
    position := some a.val, sensors := (Vector.replicate 13 false).set a true, drive := .off, moving := none
    travel := none, justArrived := false }) := by
  rw [breakAtArrival, State.modBank_of at_, standAt_aisle]

/-- A stop, its report, and what the bank does then. -/
theorem bankStops_of (a : Aisle) (hy : y = { x with
    motion := .stopped, drive := .off, homing := none, moving := none, travel := none, position := none
    lastStop := some (a.val, x.motion) }) : bankStops b a s =
      if x.parkDemand then parkStart b (post (.bankStopped b a x.motion (soughtAisle x)) (s.setBank b y))
      else takeHead b (post (.bankStopped b a x.motion (soughtAisle x)) (s.setBank b y)) := by
  unfold bankStops
  dsimp only
  rw [State.modBank_of at_, at_, ← hy, post_setBank_get, hy]

theorem blockExpires_gives (motion : x.motion = .waitClear) (running : x.block.isSome = true) (queue : x.queue = k :: rest)
    (blocked : s.broken b ≠ []) : blockExpires b s = takeHead b (post (.aisleBlocked b k (s.broken b))
      (s.setBank b { x with motion := .idle, block := none, queue := rest })) := by
  obtain ⟨n, block⟩ := Option.isSome_iff_exists.1 running
  unfold blockExpires
  dsimp only
  rw [at_, motion, block, queue]
  refine (if_neg fun h => blocked (List.isEmpty_iff.1 h)).trans ?_
  rw [State.modBank_of at_, broken_of (State.setBank_get ..), broken_of at_]
  rfl

section
variable {a : Aisle} (hy : y = { x with curtains := x.curtains.set a false })
include hy

theorem curtainClears_serves (clear : brokenCurtains s.store.bank[b].carriages y = []) (waits : x.motion = .waitClear) :
    curtainClears b a s = serve b x.queue (s.setBank b { y with block := none }) := by
  unfold curtainClears
  simp only [curtainInput_of at_, State.setBank_get, ← hy, broken_of (State.setBank_get b y)]
  refine (if_pos (List.isEmpty_iff.2 clear)).trans ?_
  rw [hy, waits]
  dsimp only
  rw [State.modBank_of (State.setBank_get ..), State.setBank_setBank]

theorem curtainClears_other (waits : x.motion ≠ .waitClear) (parks : x.motion ≠ .parkWait) :
    curtainClears b a s = s.setBank b y := by
  unfold curtainClears
  simp only [curtainInput_of at_, State.setBank_get, ← hy]
  split
  · rw [hy]
    cases h : x.motion with
    | waitClear => exact absurd h waits
    | parkWait => exact absurd h parks
    | _ => rfl
  · rfl

end

/-- What is BROKEN depends on the curtains alone. -/
theorem broken_same (same : y.curtains = x.curtains) : brokenCurtains s.store.bank[b].carriages y = s.broken b := by
  rw [broken_of at_, brokenCurtains, same]
  rfl

end

theorem broken_ne_nil {c : Nat} {a : Aisle} (read : a.val ≤ c) (broken : x.curtains[a] = true) :
    brokenCurtains c x ≠ [] :=
  List.ne_nil_of_mem (a := a) (List.mem_filter.2 ⟨List.mem_finRange a, by rw [broken, decide_eq_true read]; rfl⟩)

theorem broken_eq_nil {c : Nat} (clear : ∀ q : Aisle, q.val ≤ c → x.curtains[q] = false) : brokenCurtains c x = [] := by
  refine List.filter_eq_nil_iff.2 fun q _ h => ?_
  obtain ⟨read, broken⟩ := (Bool.and_eq_true _ _).mp h
  exact absurd ((clear q (of_decide_eq_true read)).symm.trans broken) (by decide)

/-- The sensor of the aisle reached alone reads ACTIVE. -/
theorem sensors_away {a : Aisle} (other : k ≠ a.val) (q : Aisle) (h : q.val = k) :
    ((Vector.replicate 13 false).set a true)[q] = false := by
  subst h
  rw [Fin.getElem_fin, Vector.getElem_set_ne _ _ (Ne.symm other)]
  simp

end Sys2Proof.Machine
end

