-- ==== Sys2Proof/Proofs/BankMoves.lean ====
section
/-!
PROOFS. A rack bank moves, stops and parks.
-/

namespace Sys2Proof.Machine

variable {s : State} {b : BankId} {x y : Bank} {k p : Nat} {rest : List Nat}

section
variable (on : s.powered = true)
include on

theorem exec_homeSensorActive : exec (.homeSensorActive b) s = .next (sensorActive b 0 s) := by
  show execHomeSensorActive b s = _
  rw [execHomeSensorActive, fieldEvent_powered on]

theorem exec_aisleSensorActive (a : Aisle) : exec (.aisleSensorActive b a) s = .next (sensorActive b a s) := by
  show execAisleSensorActive b a s = _
  rw [execAisleSensorActive, fieldEvent_powered on]

theorem exec_curtainBroken (a : Aisle) : exec (.curtainBroken b a) s = .next (curtainBreaks b a s) := by
  show execCurtainBroken b a s = _
  rw [execCurtainBroken, fieldEvent_powered on]

theorem exec_curtainClear (a : Aisle) : exec (.curtainClear b a) s = .next (curtainClears b a s) := by
  show execCurtainClear b a s = _
  rw [execCurtainClear, fieldEvent_powered on]

theorem exec_blockTimerExpiry : exec (.blockTimerExpiry b) s = .next (blockExpires b s) := by
  show execBlockTimerExpiry b s = _
  rw [execBlockTimerExpiry, event_powered on]

theorem exec_homingTimerExpiry : exec (.homingTimerExpiry b) s = .next (homingExpires b s) := by
  show execHomingTimerExpiry b s = _
  rw [execHomingTimerExpiry, event_powered on]

theorem exec_travelTimerExpiry : exec (.travelTimerExpiry b) s = .next (travelExpires b s) := by
  show execTravelTimerExpiry b s = _
  rw [execTravelTimerExpiry, event_powered on]

end

theorem startHoming_unknown {m : Motion} {st : BankSettings} (unknown : x.position = none) : startHoming m st x = { x with
    motion := m, drive := .down, block := none, homing := some (2 * st.carriages * st.step)
    sensors := Vector.replicate 13 false } := by
  obtain ⟨⟩ := x
  subst unknown
  rfl

theorem driveToward_runs (a k : Nat) : (driveToward a k).runs = true := by
  unfold driveToward
  split <;> rfl

theorem broken_written {c : Nat} {a : Aisle} (read : a.val ≤ c) (same : y.curtains = x.curtains.set a true) :
    brokenCurtains c y ≠ [] :=
  broken_ne_nil (a := a) read (by rw [same]; simp)

theorem soughtAisle_parks (motion : x.motion = .parkHoming ∨ x.motion = .parkTravel) :
    soughtAisle x = if x.motion = .parkHoming then none else x.travel.map Prod.snd := by
  unfold soughtAisle
  rcases motion with h | h <;> rw [h] <;> rfl

theorem soughtAisle_homing (motion : x.motion = .homing) (demand : x.parkDemand = false) :
    soughtAisle x = x.queue.head? := by
  unfold soughtAisle
  rw [motion, demand]
  rfl

theorem soughtAisle_moving (motion : x.motion = .moving) : soughtAisle x = x.travel.map Prod.snd := by
  unfold soughtAisle
  rw [motion]

theorem cleared {a q : Aisle} (other : q ≠ a → x.curtains[q] = false) : (x.curtains.set a false)[q] = false := by
  by_cases same : q = a
  · subst same
    simp
  · rw [Fin.getElem_fin, Vector.getElem_set_ne _ _ fun e => same (Fin.ext e.symm)]
    exact other same

/-! ### The stages of a bank's motion under the park demand -/

section
variable (at_ : s.bank[b] = x)
include at_

/-- A bank at rest parks: what a motion start under the demand makes of it. -/
theorem react_parks {z : Zone} {l e : FireState} (safe : l.sheds = false) (shed : e.sheds = true)
    (rest : x.motion = .idle ∨ x.motion = .stopped ∨ x.motion = .waitClear) : react z l e (.bank b) s =
    parkStart b (s.setBank b { x with
      parkDemand := true, blockedPosted := false, block := if x.motion = .waitClear then none else x.block }) :=
  (bankTakesFire_begins safe shed).trans (parkBegins_rest at_ rest)

end

/-- A motion start under the demand that a curtain holds up: BANK-BLOCKED the first time. -/
theorem parkStart_posts (at_ : s.bank[b] = x) (waits : y = { x with motion := .parkWait, blockedPosted := true })
    (blocked : brokenCurtains s.store.bank[b].carriages y ≠ []) : parkStart b s =
      if x.blockedPosted then s.setBank b y else post (.bankBlocked b ((s.setBank b y).broken b)) (s.setBank b y) := by
  rw [parkStart_blocked at_ rfl (by rw [waits] at blocked; exact blocked), broken_of (State.setBank_get b y), waits]
  cases posted : x.blockedPosted with
  | true => rfl
  | false => rfl

/-! ### The home sensor at the end of a homing, with aisles to be opened -/

theorem head_ne_zero (other : k ≠ 0) : ((k :: rest).head? == some 0) = false := by simpa using other

section
variable (at_ : s.bank[b] = x) (demand : x.parkDemand = false) (safe : s.shed s.store.bank[b].zone = false) (other : k ≠ 0)
    (clear : brokenCurtains s.store.bank[b].carriages x = []) (away : ∀ q : Aisle, q.val = k → x.sensors[q] = false)
include at_ demand safe other clear away

theorem homed_travels (queue : x.queue = k :: rest) : homed b s = s.setBank b { x with
    motion := .moving, drive := .up, block := none, homing := none, position := none, queue := k :: rest
    moving := some (2 * k * s.store.bank[b].step + 5), travel := some (0, k), sensors := Vector.replicate 13 false
    justArrived := false } := by
  rw [homed_of at_, if_neg (by rw [demand, queue]; simpa using other), comeToRest_idles (State.setBank_get ..)
    (by exact demand), toIdle_of (State.setBank_get ..), takeHead_travels (State.setBank_get ..) (by exact safe)
    (by exact queue) (by rfl) (Ne.symm other) (by exact clear) (by exact away), startTravel, travelTime_eq,
    driveToward_eq, if_pos (Nat.pos_of_ne_zero other), Nat.zero_sub, Nat.sub_zero, Nat.zero_max]
  simp only [State.setBank_setBank, ← queue]
  rfl

theorem homed_reaches (queue : x.queue = 0 :: k :: rest) : homed b s = post (.aisleOpen b 0) (s.setBank b { x with
    motion := .moving, drive := .up, block := none, homing := none, position := none, queue := k :: rest
    moving := some (2 * k * s.store.bank[b].step + 5), travel := some (0, k), sensors := Vector.replicate 13 false
    justArrived := true }) := by
  obtain ⟨y, hy⟩ : ∃ y : Bank, y = { x with drive := .off, homing := none, position := some 0, motion := .idle } :=
    ⟨_, rfl⟩
  have rests : comeToRest b (s.setBank b { x with drive := .off, homing := none, position := some 0 }) =
      takeHead b (s.setBank b y) := by
    rw [comeToRest_idles (State.setBank_get ..) (by exact demand), toIdle_of (State.setBank_get ..),
      State.setBank_setBank, hy]
  have known : y.position = some 0 := by rw [hy]
  have served : takeHead b (s.setBank b y) = post (.aisleOpen b 0)
      (s.setBank b (startTravel .moving s.store.bank[b] 0 k { y with queue := k :: rest })) := by
    rw [takeHead_served (State.setBank_get b y) safe (by rw [hy]; exact queue),
      serve_here (State.setBank_get b y) (located_known known) known,
      serve_travels (post_setBank_get _) (located_known (by exact known)) (by exact known) (Ne.symm other)
        (by rw [hy]; exact clear) (readsActive_false (by rw [hy]; exact away)), setBank_post, State.setBank_setBank,
      State.setBank_setBank]
    rfl
  rw [homed_of at_, if_pos (by rw [demand, queue]; rfl), rests, served, markArrival_of (post_setBank_get _), setBank_post,
    State.setBank_setBank, startTravel, travelTime_eq, driveToward_eq, if_pos (Nat.pos_of_ne_zero other), Nat.zero_sub,
    Nat.sub_zero, Nat.zero_max, hy]
  rfl

end

/-- Settles O55: each event of a bank through the rule of its motion. -/
theorem bankMovesAndStops : Obligations.BankMovesAndStops := by
  rintro s b x st on at_ rfl
  replace at_ : s.bank[b] = x := at_.symm
  refine ⟨?_, ?_, ?_, ?_, ?_, ?_, fun demand safe => ⟨?_, ?_, ?_, ?_, ?_, ?_, ?_, ?_, ?_, ?_, ?_, ?_, ?_, ?_, ?_, ?_⟩⟩
  · rintro z l e x0 x1 rfl hx1
    refine ⟨bankTakesFire_stands, fun l_safe e_shed => ⟨fun idle stopped waits => ?_, fun rest => ⟨?_, ?_, ?_, ?_⟩⟩,
      fun l_shed e_safe s_safe => ⟨?_, ?_, ?_⟩⟩
    · exact (bankTakesFire_begins l_safe e_shed).trans (parkBegins_moves at_ idle stopped waits)
    · rintro y blocked rfl
      rw [react_parks at_ l_safe e_shed rest, parkStart_blocked (y := x1) (State.setBank_get ..) (by exact hx1)
        (by exact fun clear => blocked ((broken_same at_ (by rw [hx1])).symm.trans clear)), State.setBank_setBank,
        State.setBank_setBank]
      refine (if_neg (by rw [hx1]; exact Bool.false_ne_true)).trans ?_
      exact congrArg (fun l => post (.bankBlocked b l) _) (broken_same at_ (by rw [hx1]))
    · rintro y clear unknown home rfl
      rw [react_parks at_ l_safe e_shed rest, parkStart_homes (y := x1) (State.setBank_get ..) (by exact hx1)
        (by exact (broken_same at_ (by rw [hx1])).trans clear)
        (locate_unknown (by rw [hx1]; exact unknown) (by rw [hx1]; exact home)) (by rw [hx1]; exact unknown),
        State.setBank_setBank, startHoming_unknown (x := x1) (by rw [hx1]; exact unknown)]
      rfl
    · rintro y clear known rfl
      rw [react_parks at_ l_safe e_shed rest, parkStart_here (y := x1) (State.setBank_get ..) (by exact hx1)
        (by exact (broken_same at_ (by rw [hx1])).trans clear) (by rw [hx1]; exact known) (by rfl), State.setBank_setBank]
      rfl
    · rintro p y clear known other quiet rfl
      rw [react_parks at_ l_safe e_shed rest, parkStart_travels (y := x1) (State.setBank_get ..) (by exact hx1)
        (by exact (broken_same at_ (by rw [hx1])).trans clear) (by rw [hx1]; exact known) (by exact other)
        (by rw [hx1]; exact quiet), State.setBank_setBank, startTravel, travelTime_eq]
      rfl
    · rintro y parked empty rfl
      refine (bankTakesFire_ends l_shed e_safe).trans ((parkEnds_parked at_ parked).trans ?_)
      exact takeHead_empty (State.setBank_get ..) (by exact empty)
    · rintro p k rest y parked queue known other clear quiet rfl
      refine (bankTakesFire_ends l_shed e_safe).trans ((parkEnds_parked at_ parked).trans ?_)
      rw [takeHead_travels (State.setBank_get ..) (by exact s_safe) (by exact queue) (by exact known) other
        (by exact (broken_same at_ (by rfl)).trans clear) (by exact quiet), State.setBank_setBank, startTravel, travelTime_eq]
      rfl
    · rintro y parked waits empty rfl
      exact (bankTakesFire_ends l_shed e_safe).trans (parkEnds_other at_ parked waits empty)
  · rintro a p y motion demand read travel rfl
    rw [exec_aisleSensorActive on, sensorActive_parks at_ read rfl (by rw [travel]; rfl) motion,
      parkArrived_demand (State.setBank_get ..) (by exact demand), State.setBank_setBank]
    rfl
  · rintro y motion demand clear park rfl
    rw [exec_homeSensorActive on, sensorActive_home at_ (Nat.zero_le _) rfl rfl motion, homed_of (State.setBank_get ..)]
    rw [if_neg (by rw [demand]; exact Bool.false_ne_true), comeToRest_parks (State.setBank_get ..) (by exact demand)]
    rw [parkStart_travels (State.setBank_get ..) (by rfl) (by exact (broken_same at_ (by rfl)).trans clear) (by rfl)
      (by exact Nat.ne_of_lt park) (by exact sensors_away (a := 0) (Nat.ne_of_gt park)), State.setBank_setBank,
      State.setBank_setBank, startTravel, travelTime_eq, driveToward_eq]
    rw [if_pos (by exact park), Nat.zero_sub, Nat.sub_zero, Nat.zero_max]
    rfl
  · rintro a p y motion demand read travel clear other rfl
    rw [exec_aisleSensorActive on, sensorActive_arrives at_ read rfl (by rw [travel]; rfl) motion,
      arrived_of (State.setBank_get ..), comeToRest_parks (post_setBank_get _) (by exact demand),
      parkStart_travels (post_setBank_get _) (by rfl) (by exact (broken_same at_ (by rfl)).trans clear) (by rfl)
        (by exact other) (by exact sensors_away (Ne.symm other)), setBank_post, markArrival_of (post_setBank_get _),
      setBank_post, startTravel, travelTime_eq]
    simp only [State.setBank_setBank, driveToward_runs]
    rfl
  · rintro a y t u motion demand fresh runs read rfl rfl rfl
    rw [exec_curtainBroken on, curtainBreaks_stops at_ rfl runs read fresh, bankStops_of (State.setBank_get ..) a rfl]
    rw [if_pos (by exact demand), parkStart_posts (post_setBank_get _) (by rfl)
      (by exact broken_written (x := x) read rfl), setBank_post, State.setBank_setBank, State.setBank_setBank]
    have sought : soughtAisle { x with curtains := x.curtains.set a true } =
        if x.motion = .parkHoming then none else x.travel.map Prod.snd :=
      soughtAisle_parks (x := { x with curtains := x.curtains.set a true }) motion
    rw [sought]
    rfl
  · rintro a p q y t fresh runs read travel demand rfl rfl
    rw [exec_curtainBroken on, curtainBreaks_atArrival at_ rfl runs read fresh travel,
      breakAtArrival_of (State.setBank_get ..), comeToRest_parks (State.setBank_get ..) (by exact demand),
      parkStart_posts (State.setBank_get ..) (by rfl) (by exact broken_written (x := x) read rfl), State.setBank_setBank,
      State.setBank_setBank]
    rfl
  · rintro a y off rfl
    rw [exec_curtainBroken on, curtainBreaks_idle at_ rfl off]
    rfl
  · rintro a k rest y motion fresh runs read queue home rfl
    rw [exec_curtainBroken on, curtainBreaks_stops at_ rfl runs read fresh, bankStops_of (State.setBank_get ..) a rfl,
      if_neg (by rw [demand]; exact Bool.false_ne_true), takeHead_waits (post_setBank_get _) (by exact safe) (by exact queue)
        (by exact locate_unknown rfl home) (by rintro ⟨⟩) (by exact broken_written (x := x) read rfl),
      setBank_post, State.setBank_setBank, State.setBank_setBank]
    have sought : soughtAisle { x with curtains := x.curtains.set a true } =
        if x.motion = .homing then some k else x.travel.map Prod.snd := by
      rcases motion with h | h
      · rw [soughtAisle_moving (by exact h), h]
        rfl
      · rw [soughtAisle_homing (by exact h) (by exact demand), queue, h]
        rfl
    rw [sought]
    rfl
  · rintro a y motion fresh runs read empty rfl
    rw [exec_curtainBroken on, curtainBreaks_stops at_ rfl runs read fresh, bankStops_of (State.setBank_get ..) a rfl,
      if_neg (by rw [demand]; exact Bool.false_ne_true), takeHead_empty (post_setBank_get _) (by exact empty),
      State.setBank_setBank, soughtAisle_homing (by exact motion) (by exact demand)]
    simp only [motion, empty]
    rfl
  · rintro a p q k rest y fresh runs read travel queue other rfl
    rw [exec_curtainBroken on, curtainBreaks_atArrival at_ rfl runs read fresh travel,
      breakAtArrival_of (State.setBank_get ..), comeToRest_idles (State.setBank_get ..) (by exact demand),
      toIdle_of (State.setBank_get ..), takeHead_waits (State.setBank_get ..) (by exact safe) (by exact queue)
        (by exact locate_known rfl) (by rintro ⟨⟩; exact other rfl) (by exact broken_written (x := x) read rfl)]
    simp only [State.setBank_setBank]
    rfl
  · rintro a k p rest y waits queue known other clear quiet rfl
    have all : ∀ q : Aisle, q.val ≤ s.store.bank[b].carriages → (x.curtains.set a false)[q] = false := fun q read =>
      cleared (clear q read)
    rw [exec_curtainClear on, curtainClears_serves at_ rfl (broken_eq_nil all) waits, queue]
    rw [serve_travels (State.setBank_get ..) (by exact located_known known) (by exact known) other
      (by exact broken_eq_nil all) (by exact readsActive_false quiet), State.setBank_setBank, startTravel, travelTime_eq]
    rw [← queue]
    rfl
  · rintro a k rest y waits queue unknown home clear rfl
    have all : ∀ q : Aisle, q.val ≤ s.store.bank[b].carriages → (x.curtains.set a false)[q] = false := fun q read =>
      cleared (clear q read)
    rw [exec_curtainClear on, curtainClears_serves at_ rfl (broken_eq_nil all) waits, queue]
    rw [serve_homes (State.setBank_get ..) (by exact located_unknown unknown home) (by exact unknown)
      (by exact broken_eq_nil all), State.setBank_setBank, startHoming]
    rw [← queue]
    rfl
  · rintro a y waits parks rfl
    rw [exec_curtainClear on, curtainClears_other at_ rfl waits parks]
    rfl
  · rintro y motion empty rfl
    rw [exec_homeSensorActive on, sensorActive_home at_ (Nat.zero_le _) rfl rfl (.inl motion), homed_of (State.setBank_get ..),
      if_neg (by rw [empty]; simp), comeToRest_idles (State.setBank_get ..) (by exact demand), toIdle_of (State.setBank_get ..),
      takeHead_empty (State.setBank_get ..) (by exact empty)]
    simp only [State.setBank_setBank]
    rfl
  · rintro y motion queue rfl
    rw [exec_homeSensorActive on, sensorActive_home at_ (Nat.zero_le _) rfl rfl (.inl motion), homed_of (State.setBank_get ..),
      if_pos (by rw [queue, demand]; rfl), comeToRest_idles (State.setBank_get ..) (by exact demand),
      toIdle_of (State.setBank_get ..), takeHead_served (State.setBank_get ..) (by exact safe) (by exact queue),
      serve_here (State.setBank_get ..) (by exact located_known rfl) (by rfl), serve_nil (post_setBank_get _), setBank_post,
      markArrival_of (post_setBank_get _), setBank_post]
    simp only [State.setBank_setBank]
    rfl
  · rintro k rest y motion queue other clear rfl
    have clear' : brokenCurtains s.store.bank[b].carriages x = [] := (broken_same at_ rfl).trans clear
    rw [exec_homeSensorActive on, sensorActive_home at_ (Nat.zero_le _) rfl rfl (.inl motion)]
    have away := sensors_away (a := 0) other
    rcases queue with queue | queue
    · rw [homed_travels (State.setBank_get ..) (by exact demand) (by exact safe) other (by exact clear') (by exact away)
        (by exact queue), queue, State.setBank_setBank]
      exact congrArg Host.Outcome.next ((if_neg (by simpa using other)).trans (by rw [head_ne_zero other]; rfl)).symm
    · rw [homed_reaches (State.setBank_get ..) (by exact demand) (by exact safe) other (by exact clear') (by exact away)
        (by exact queue), queue, State.setBank_setBank]
      rfl
  · rintro k rest y motion queue other blocked rfl
    rw [exec_homeSensorActive on, sensorActive_home at_ (Nat.zero_le _) rfl rfl (.inl motion), homed_of (State.setBank_get ..),
      if_neg (by rw [queue, demand]; simpa using other), comeToRest_idles (State.setBank_get ..) (by exact demand),
      toIdle_of (State.setBank_get ..), takeHead_waits (State.setBank_get ..) (by exact safe) (by exact queue)
        (by exact locate_known rfl) (by rintro ⟨⟩; exact other rfl)
        (by exact fun none => blocked ((broken_same at_ (by rfl)).symm.trans none))]
    simp only [State.setBank_setBank]
    rfl
  · rintro a p k rest y motion read travel queue other clear rfl
    have popped : (if x.queue.head? = some a.val then x.queue.tail else x.queue) = k :: rest := by
      rw [queue]
      exact if_pos rfl
    rw [exec_aisleSensorActive on, sensorActive_arrives at_ read rfl (by rw [travel]; rfl) motion,
      arrived_of (State.setBank_get ..), comeToRest_idles (post_setBank_get _) (by exact demand),
      toIdle_of (post_setBank_get _), setBank_post, takeHead_travels (post_setBank_get _) (by exact safe)
        (by exact popped) (by rfl) (Ne.symm other) (by exact (broken_same at_ (by rfl)).trans clear)
        (by exact sensors_away other), setBank_post, markArrival_of (post_setBank_get _), setBank_post, startTravel,
      travelTime_eq]
    simp only [State.setBank_setBank, driveToward_runs, popped, motion]
    rfl
  · rintro a p y motion read travel empty rfl
    rw [exec_aisleSensorActive on, sensorActive_parks at_ read rfl (by rw [travel]; rfl) motion,
      parkArrived_free (State.setBank_get ..) (by exact demand), toIdle_of (State.setBank_get ..),
      takeHead_empty (State.setBank_get ..) (by exact empty), markArrival_of (State.setBank_get ..)]
    simp only [State.setBank_setBank]
    rfl
  · rintro a p y motion read travel queue rfl
    have popped : (if x.queue.head? = some a.val then x.queue.tail else x.queue) = [] := by
      rw [queue]
      exact if_pos rfl
    rw [exec_aisleSensorActive on, sensorActive_arrives at_ read rfl (by rw [travel]; rfl) motion,
      arrived_of (State.setBank_get ..), comeToRest_idles (post_setBank_get _) (by exact demand),
      toIdle_of (post_setBank_get _), setBank_post, takeHead_empty (post_setBank_get _) (by exact popped),
      markArrival_of (post_setBank_get _), setBank_post]
    simp only [State.setBank_setBank, popped]
    rfl
  · rintro k y motion running queue blocked rfl
    rw [exec_blockTimerExpiry on, blockExpires_gives at_ motion running queue blocked,
      takeHead_empty (post_setBank_get _) (by rfl)]
    rfl
  · rintro y rfl
    refine ⟨fun running => ?_, fun p k running travel => ?_⟩
    · obtain ⟨n, timer⟩ := Option.isSome_iff_exists.1 running
      rw [exec_homingTimerExpiry on, homingExpires, at_, timer]
      dsimp only
      rw [State.modBank_of at_]
      rfl
    · obtain ⟨n, timer⟩ := Option.isSome_iff_exists.1 running
      rw [exec_travelTimerExpiry on, travelExpires, at_, timer, travel]
      dsimp only
      rw [State.modBank_of at_]
      rfl

end Sys2Proof.Machine
end

