-- ==== Sys2Proof/Proofs/Submissions.lean ====
section
/-!
PROOFS. A submission checked and accepted.
-/

namespace Sys2Proof.Machine

variable {s : State} {d : Direction} {earlier ls : List Text} {l : Text} {c : Cartridge} {h : HatchId}

/-! ### The items of a submission (R74, R76) -/

/-- The custody state a submission asks of a cartridge. -/
def Direction.asks (d : Direction) (k : Custody) : Prop :=
  match d with
  | .out => k = .shelved
  | .in_ => ∃ n, k = .out n

theorem itemFault_notFound (none : s.cartridge? l = none) : itemFault d s earlier l = some .notFound := by
  simp only [itemFault, none]

/-- The tests of an item that has a record, in their order. -/
theorem itemFault_found (found : s.cartridge? l = some c) :
    (¬d.asks c.custody → itemFault d s earlier l = some (.wrongState c.custody.name)) ∧
    (d.asks c.custody → l ∈ earlier → itemFault d s earlier l = some .duplicate) ∧
    (d.asks c.custody → l ∉ earlier → d = .out → s.held (s.zoneOf c) = true → itemFault d s earlier l = some .fireHold) ∧
    (d.asks c.custody → l ∉ earlier → (d = .in_ ∨ s.held (s.zoneOf c) = false) → itemFault d s earlier l = none) := by
  unfold itemFault
  simp only [found, List.contains_iff_mem]
  cases d <;> cases k : c.custody <;> simp +contextual [Direction.asks]

/-- An item passes every test. -/
theorem itemFault_none : itemFault d s earlier l = none ↔
    ∃ c, s.cartridge? l = some c ∧ d.asks c.custody ∧ l ∉ earlier ∧ (d = .in_ ∨ s.held (s.zoneOf c) = false) := by
  cases found : s.cartridge? l with
  | none => simp [itemFault_notFound found]
  | some c =>
    obtain ⟨wrong, again, held, passes⟩ := itemFault_found (d := d) (earlier := earlier) found
    by_cases asks : d.asks c.custody
    · by_cases mem : l ∈ earlier
      · simp [again asks mem, mem]
      · by_cases free : d = .in_ ∨ s.held (s.zoneOf c) = false
        · simp [passes asks mem free, asks, mem, free]
        · rw [not_or] at free
          have out : d = .out := by cases d with
            | out => rfl
            | in_ => exact absurd rfl free.1
          simp [held asks mem out (by simpa using free.2), free]
    · simp [wrong asks, asks]

theorem itemFault_notFound_iff : itemFault d s earlier l = some .notFound ↔ s.cartridge? l = none := by
  cases found : s.cartridge? l with
  | none => simp [itemFault_notFound found]
  | some c =>
    obtain ⟨wrong, again, held, passes⟩ := itemFault_found (d := d) (earlier := earlier) found
    by_cases asks : d.asks c.custody
    · by_cases mem : l ∈ earlier
      · simp [again asks mem]
      · by_cases free : d = .in_ ∨ s.held (s.zoneOf c) = false
        · simp [passes asks mem free]
        · rw [not_or] at free
          have out : d = .out := by cases d with
            | out => rfl
            | in_ => exact absurd rfl free.1
          simp [held asks mem out (by simpa using free.2)]
    · simp [wrong asks]

theorem itemFailures_passes {pos : Nat} (passes : itemFault d s earlier l = none) :
    itemFailures d s earlier pos (l :: ls) = itemFailures d s (earlier ++ [l]) (pos + 1) ls := by
  rw [itemFailures]
  simp only [passes]

theorem itemFailures_fails {pos : Nat} {f : ItemFault} (fails : itemFault d s earlier l = some f) :
    itemFailures d s earlier pos (l :: ls) =
      { pos := pos, label := l, fault := f } :: itemFailures d s (earlier ++ [l]) (pos + 1) ls := by
  rw [itemFailures]
  simp only [fails]

/-- The failing items: each with its position and the first test it fails. -/
theorem mem_itemFailures {x : ItemFailure} {pos : Nat} : x ∈ itemFailures d s earlier pos ls ↔
    ∃ i, x.pos = pos + i ∧ ls[i]? = some x.label ∧ itemFault d s (earlier ++ ls.take i) x.label = some x.fault := by
  induction ls generalizing earlier pos with
  | nil => simp [itemFailures]
  | cons l ls ih =>
    have later : (∃ i, x.pos = pos + i ∧ (l :: ls)[i]? = some x.label ∧
        itemFault d s (earlier ++ (l :: ls).take i) x.label = some x.fault) ↔
        (x.pos = pos ∧ l = x.label ∧ itemFault d s earlier x.label = some x.fault) ∨
        x ∈ itemFailures d s (earlier ++ [l]) (pos + 1) ls := by
      rw [ih]
      constructor
      · rintro ⟨i, hpos, label, fault⟩
        cases i with
        | zero => exact .inl ⟨hpos, by simpa using label, by simpa using fault⟩
        | succ i => exact .inr ⟨i, by omega, by simpa using label, by simpa using fault⟩
      · rintro (⟨hpos, label, fault⟩ | ⟨i, hpos, label, fault⟩)
        · exact ⟨0, hpos, by simpa using label, by simpa using fault⟩
        · exact ⟨i + 1, by omega, by simpa using label, by simpa using fault⟩
    rw [later]
    cases fault : itemFault d s earlier l with
    | none =>
      rw [itemFailures_passes fault]
      refine ⟨.inr, fun h => h.resolve_left ?_⟩
      rintro ⟨-, rfl, e⟩
      cases fault.symm.trans e
    | some f =>
      rw [itemFailures_fails fault, List.mem_cons]
      refine or_congr_left ⟨?_, ?_⟩
      · rintro rfl
        exact ⟨rfl, rfl, fault⟩
      · rintro ⟨hpos, rfl, e⟩
        obtain ⟨p, lb, ft⟩ := x
        simp only at hpos e fault
        cases fault.symm.trans e
        rw [hpos]

theorem itemFailures_pairwise (d : Direction) (s : State) (earlier : List Text) (pos : Nat) (ls : List Text) :
    (itemFailures d s earlier pos ls).Pairwise fun a b => a.pos < b.pos := by
  induction ls generalizing earlier pos with
  | nil => exact List.Pairwise.nil
  | cons l ls ih =>
    cases fault : itemFault d s earlier l with
    | none =>
      rw [itemFailures_passes fault]
      exact ih _ _
    | some f =>
      rw [itemFailures_fails fault]
      refine List.pairwise_cons.2 ⟨fun x mem => ?_, ih _ _⟩
      obtain ⟨i, hpos, -⟩ := mem_itemFailures.1 mem
      dsimp only
      omega

/-- Two states that test every item alike find the same failures. -/
theorem itemFailures_congr {t : State} (same : ∀ earlier l, itemFault d t earlier l = itemFault d s earlier l)
    (earlier : List Text) (pos : Nat) (ls : List Text) :
    itemFailures d t earlier pos ls = itemFailures d s earlier pos ls := by
  induction ls generalizing earlier pos with
  | nil => rfl
  | cons l ls ih =>
    cases fault : itemFault d s earlier l with
    | none => rw [itemFailures_passes fault, itemFailures_passes ((same ..).trans fault), ih]
    | some f => rw [itemFailures_fails fault, itemFailures_fails ((same ..).trans fault), ih]

/-! ### Fresh IDs (R72) -/

/-- The search ends at the first candidate not taken, or all of them are. -/
theorem freshId_cases (taken : List Nat) (fuel n : Nat) :
    (∃ i < fuel, freshId taken fuel n = (n + i) % 65535 + 1 ∧ (n + i) % 65535 + 1 ∉ taken) ∨
    ∀ i < fuel, (n + i) % 65535 + 1 ∈ taken := by
  induction fuel generalizing n with
  | zero => exact .inr fun i h => absurd h (Nat.not_lt_zero i)
  | succ fuel ih =>
    have next : ∀ i, (n % 65535 + 1 + i) % 65535 + 1 = (n + (i + 1)) % 65535 + 1 := fun i => by omega
    unfold freshId
    dsimp only
    split
    · next h =>
      rw [List.contains_iff_mem] at h
      rcases ih (n % 65535 + 1) with ⟨i, hi, e, free⟩ | all
      · exact .inl ⟨i + 1, by omega, by rw [e, next], by rwa [← next]⟩
      · refine .inr fun i hi => ?_
        cases i with
        | zero => exact h
        | succ i => rw [← next]; exact all i (by omega)
    · next h =>
      rw [List.contains_iff_mem] at h
      exact .inl ⟨0, by omega, rfl, h⟩

/-- With fewer than 16 manifests in the table the next ID is free, and in range. -/
theorem nextManifestId_fresh (short : s.store.manifests.length < 16) :
    1 ≤ s.nextManifestId ∧ s.nextManifestId ≤ 65535 ∧ ∀ n ∈ s.store.manifests, n.id ≠ s.nextManifestId := by
  unfold State.nextManifestId
  rcases freshId_cases (s.store.manifests.map (·.id)) 17 s.store.lastManifest with ⟨i, -, e, free⟩ | all
  · rw [e]
    exact ⟨by omega, by omega, fun n mem same => free (same ▸ List.mem_map_of_mem mem)⟩
  · have distinct : ((List.range 17).map fun i => (s.store.lastManifest + i) % 65535 + 1).Nodup := by
      refine List.Nodup.map_on (fun i hi j hj e => ?_) List.nodup_range
      rw [List.mem_range] at hi hj
      omega
    have fits := (distinct.subperm fun x mem => by
      obtain ⟨i, hi, rfl⟩ := List.mem_map.1 mem
      exact all i (List.mem_range.1 hi) : List.Subperm _ (s.store.manifests.map (·.id))).length_le
    simp only [List.length_map, List.length_range] at fits
    omega

/-! ### A submission checked and accepted (R73, R75, R76) -/

/-- Records changed one label after another, by a change that keeps the label and that made again does nothing more. -/
theorem foldl_modCartridge {f : Cartridge → Cartridge} (label : ∀ c, (f c).label = c.label) (twice : ∀ c, f (f c) = f c)
    (ls : List Text) (st : Store) : ls.foldl (fun st l => st.modCartridge l f) st =
      { st with cartridges := st.cartridges.map fun c => if c.label ∈ ls then f c else c } := by
  induction ls generalizing st with
  | nil => simp
  | cons l ls ih =>
    rw [List.foldl_cons, ih]
    simp only [Store.modCartridge, List.map_map]
    congr 1
    refine List.map_congr_left fun c _ => ?_
    simp only [Function.comp, List.mem_cons]
    by_cases h : c.label = l <;> by_cases h' : c.label ∈ ls <;> simp [h, h', label, twice]

theorem createManifest_out {m : Manifest} (out : m.direction = .out) : createManifest m s = s.setStore { s.store with
    manifests := s.store.manifests ++ [m], lastManifest := m.id
    cartridges := s.store.cartridges.map fun c => if c.label ∈ m.items.map (·.label) then c.reserve m.id else c } := by
  have reserved := foldl_modCartridge (f := Cartridge.reserve m.id) (fun _ => rfl) (fun _ => rfl) (m.items.map (·.label))
    { s.store with manifests := s.store.manifests ++ [m], lastManifest := m.id }
  rw [List.foldl_map] at reserved
  unfold createManifest
  rw [out]
  exact congrArg s.setStore reserved

theorem createManifest_in {m : Manifest} (in_ : m.direction = .in_) : createManifest m s =
    s.setStore { s.store with manifests := s.store.manifests ++ [m], lastManifest := m.id } := by
  unfold createManifest
  rw [in_]

section
variable {courier validity : Int} {items : List Text} {active : Bool} {f : SummaryFields}

theorem submitChecked_full (full : 16 ≤ s.store.manifests.length) :
    submitChecked d h courier validity items active f s = (answer .full .empty s, none) := if_pos full

variable (short : s.store.manifests.length < 16)
include short

theorem submitChecked_refused (fails : itemFailures d s [] 1 items ≠ []) :
    submitChecked d h courier validity items active f s =
      (answer .refused (.items (itemFailures d s [] 1 items)) s, none) := by
  refine (if_neg (Nat.not_le.2 short)).trans ?_
  cases e : itemFailures d s [] 1 items with
  | nil => exact absurd e fails
  | cons x xs => rfl

theorem submitChecked_accepted (passes : itemFailures d s [] 1 items = []) :
    submitChecked d h courier validity items active f s =
      ((createManifest (submittedManifest s d h courier validity items active f) s,
        { word := if clamp 1 1440 validity = validity ∧ clampedSummary f = [] then .ok else .clamped
          body := .submitted s.nextManifestId (clamp 1 1440 validity).toNat (clampedSummary f) }),
        some (submittedManifest s d h courier validity items active f)) := by
  refine (if_neg (Nat.not_le.2 short)).trans ?_
  rw [passes]
  rfl

end

/-! ### Summaries (R76) -/

/-- A summary is given with all five of its fields or with none. -/
theorem partialSummary_none {f : SummaryFields} : partialSummary f = none ↔
    (f.tmax = none ∧ f.tmin = none ∧ f.hmax = none ∧ f.hmin = none ∧ f.minutes = none) ∨
    (f.tmax ≠ none ∧ f.tmin ≠ none ∧ f.hmax ≠ none ∧ f.hmin ≠ none ∧ f.minutes ≠ none) := by
  unfold partialSummary
  dsimp only
  split
  · next h => simpa using .inl (by simpa using h)
  · next h =>
    simp only [Option.map_eq_none_iff, List.find?_eq_none]
    refine ⟨fun all => .inr (by simpa [Option.isSome_iff_ne_none] using all), ?_⟩
    rintro (none | all)
    · exact absurd (by simpa using none) h
    · simpa [Option.isSome_iff_ne_none] using all

theorem submitOutbound_named {k courier validity : Int} {items : List Text} (named : indexOf 2 k = some h)
    (ok : submissionOk courier items = true) :
    submitOutbound k courier validity items s = (submitChecked .out h courier validity items false {} (wake h s)).1 := by
  unfold submitOutbound onHatch
  simp only [named]
  exact if_pos ok

theorem submitInbound_named {k courier validity : Int} {items : List Text} {f : SummaryFields}
    (named : indexOf 2 k = some h) (ok : submissionOk courier items = true) (whole : partialSummary f = none) :
    submitInbound k courier validity items f s = (submitChecked .in_ h courier validity items false f (wake h s)).1 := by
  unfold submitInbound onHatch
  simp only [whole, named]
  exact if_pos ok

/-- Settles O46: the checks of a submission in their order, and what an accepted one makes of the store. -/
theorem submissionIsAccepted : Obligations.SubmissionIsAccepted := by
  rintro s u k courier validity h items ready named rfl ok
  obtain ⟨x, woken⟩ := wake_only h s.heard
  have failures : ∀ d, itemFailures d (wake h s.heard) [] 1 items = itemFailures d s [] 1 items := fun d => by
    rw [woken]
    exact itemFailures_congr (s := s) (t := s.heard.setHatch h x) (fun _ _ => rfl) [] 1 items
  have store : (wake h s.heard).store = s.store := by rw [woken]; rfl
  have fresh : (wake h s.heard).nextManifestId = s.nextManifestId := by rw [State.nextManifestId, store]; rfl
  have outbound := submitOutbound_named (s := s.heard) (validity := validity) named ok
  have inbound := fun {f} whole => submitInbound_named (s := s.heard) (validity := validity) (f := f) named ok whole
  refine ⟨fun full => ?_, fun f => ⟨partialSummary_none, fun missing part => ?_⟩, fun short => ?_, fun earlier l => ?_,
    fun d ls => ⟨itemFailures_pairwise d s [] 1 ls, fun x => ?_⟩⟩
  · rw [← store] at full
    exact ⟨request_next ready (outbound.trans (congrArg Prod.fst (submitChecked_full full))), fun f whole =>
      request_next ready ((inbound whole).trans (congrArg Prod.fst (submitChecked_full full)))⟩
  · refine request_same ready ?_
    unfold submitInbound
    simp only [part]
    rfl
  · rw [← store] at short
    refine ⟨fun fails => ?_, fun f fails whole => ?_, fun m passes hm hid => ⟨?_, ?_⟩, fun m f passes whole hm hid => ?_⟩
    · rw [← failures] at fails ⊢
      exact request_next ready (outbound.trans (congrArg Prod.fst (submitChecked_refused short fails)))
    · rw [← failures] at fails ⊢
      exact request_next ready ((inbound whole).trans (congrArg Prod.fst (submitChecked_refused short fails)))
    · rw [← failures] at passes
      refine request_next ready (outbound.trans ((congrArg Prod.fst (submitChecked_accepted short passes)).trans ?_))
      have submitted : submittedManifest (wake h s.heard) .out h courier validity items false {} = m := by
        rw [hm, hid, ← fresh]
        rfl
      have labels : m.items.map (·.label) = items := by rw [hm]; simp [Function.comp_def]
      have out : m.direction = .out := by rw [hm]
      have word : (if clamp 1 1440 validity = validity ∧ clampedSummary {} = [] then StatusWord.ok else .clamped) =
          if clamp 1 1440 validity = validity then .ok else .clamped := by
        rw [show clampedSummary {} = [] from rfl]
        simp only [and_true]
      rw [submitted, createManifest_out out, labels, store, word, fresh, ← hid,
        show m.validity = (clamp 1 1440 validity).toNat by rw [hm]]
      rfl
    · rw [hid]
      exact nextManifestId_fresh (store ▸ short)
    · rw [← failures] at passes
      refine request_next ready ((inbound whole).trans ((congrArg Prod.fst (submitChecked_accepted short passes)).trans ?_))
      have submitted : submittedManifest (wake h s.heard) .in_ h courier validity items false f = m := by
        rw [hm, hid, ← fresh]
        rfl
      have in_ : m.direction = .in_ := by rw [hm]
      rw [submitted, createManifest_in in_, store, fresh, ← hid,
        show m.validity = (clamp 1 1440 validity).toNat by rw [hm]]
      rfl
  · refine ⟨?_, ?_, fun d => itemFault_notFound_iff, fun d c right found hright => ?_, fun c found shelved new held => ?_⟩
    · rw [itemFault_none]
      simp [Direction.asks, State.zoneOf, State.bankZone]
    · rw [itemFault_none]
      simp [Direction.asks]
    · obtain ⟨wrong, again, -, -⟩ := itemFault_found (d := d) (earlier := earlier) found
      obtain rfl : right = d.asks c.custody := by cases d <;> exact hright
      exact ⟨wrong, again⟩
    · obtain ⟨-, -, burning, -⟩ := itemFault_found (d := .out) (earlier := earlier) found
      exact burning shelved new rfl held
  · rw [mem_itemFailures]
    simp only [List.nil_append, Nat.add_comm 1]

end Sys2Proof.Machine
end

