-- ==== Sys2Proof/Proofs/ManifestEnds.lean ====
section
/-!
PROOFS. Manifests that end, their picks and their readings.
-/

namespace Sys2Proof.Machine

variable {s : State} {m : Manifest}

/-! ### The manifests of the table -/

/-- A manifest named by its ID as a request writes it. -/
theorem manifestNamed_natCast (s : State) (id : Nat) : s.manifestNamed id = s.manifest? id := by
  unfold State.manifestNamed State.manifest?
  refine congrArg (s.store.manifests.find? ·) (funext fun n => ?_)
  rw [Bool.eq_iff_iff, beq_iff_eq, beq_iff_eq, Int.natCast_inj]

/-- The report of a manifest that ends: the labels of an outbound one alone. -/
theorem expiredReport_eq (m : Manifest) (cancelled : Bool) : expiredReport m cancelled =
    .manifestExpired m.id m.direction m.hatch m.courier cancelled
      (if m.direction = .out then m.labelsIn .reserved else []) (if m.direction = .out then m.labelsIn .picked else []) := by
  unfold expiredReport
  cases h : m.direction <;> rfl

theorem expireManifest_eq (m : Manifest) (cancelled : Bool) (s : State) : expireManifest cancelled m s =
    post (.manifestExpired m.id m.direction m.hatch m.courier cancelled
      (if m.direction = .out then m.labelsIn .reserved else []) (if m.direction = .out then m.labelsIn .picked else []))
      { s with store := { s.store with
        manifests := s.store.manifests.filter fun n : Manifest => n.id != m.id
        cartridges := s.store.cartridges.map fun c =>
          if m.direction = .out ∧ c.label ∈ m.labelsIn .picked then { c with custody := .reshelve }
          else if m.direction = .out ∧ c.label ∈ m.labelsIn .reserved then { c with custody := .shelved }
          else c } } := by
  rw [expireManifest, expiredReport_eq, releaseManifest_eq]
  rfl

section
variable {id : Int} (named : s.manifestNamed id = some m)
include named

theorem cancelManifest_named : cancelManifest id s =
    if m.active then answer .busy .empty s
    else if m.touchesFire s then answer .fireHold .empty s
    else (expireManifest true m s, { word := .ok }) := by
  simp only [cancelManifest, named]

theorem guidePicks_in (in_ : m.direction = .in_) : guidePicks id s = answer .refused (.refusedFor .wrongDirection) s := by
  simp only [guidePicks, named, in_]

theorem guidePicks_out (out : m.direction = .out) : guidePicks id s =
    ((guide (m.labelsIn .reserved) s noPicks).1,
      ⟨.ok, .picks ((guide (m.labelsIn .reserved) s noPicks).2.toList.filter fun r => decide (0 < r.items))⟩) := by
  simp only [guidePicks, named, out]

end

theorem request_notNamed {id : Int} (none : s.manifestNamed id = none) :
    readManifest id .none s = answer .notFound .empty s ∧ cancelManifest id s = answer .notFound .empty s ∧
    guidePicks id s = answer .notFound .empty s := by
  simp only [readManifest, cancelManifest, guidePicks, none, and_self]

/-! ### Picks (R78) -/

section
variable {t u : State} {rows : Vector PickRow 4} {l : Text} {ls : List Text} {c : Cartridge} (found : t.cartridge? l = some c)
include found

theorem guide_found : guide (l :: ls) t rows =
    guide ls (pickAisle c t).1 (rows.set c.home.bank (rows[c.home.bank].count (pickAisle c t).2)) := by
  rw [guide]
  simp only [found]

theorem guide_above (above : t.store.bank[c.home.bank].carriages < c.home.aisle) : guide (l :: ls) t rows =
    guide ls t (rows.set c.home.bank (rows[c.home.bank].count none)) := by
  have picked : pickAisle c t = (t, none) := if_pos above
  rw [guide_found found, picked]

theorem guide_sent {o : AisleOutcome} (sent : c.home.aisle ≤ t.store.bank[c.home.bank].carriages)
    (decided : aisleRequest c.home.bank c.home.aisle t = (u, o)) : guide (l :: ls) t rows =
      guide ls u (rows.set c.home.bank (rows[c.home.bank].count (some o))) := by
  have picked : pickAisle c t = (u, some o) := (if_neg (Nat.not_lt.2 sent)).trans (by rw [decided])
  rw [guide_found found, picked]

end

/-! ### Pages (R85) -/

/-- The first page of a list. -/
theorem pageOf_first {α : Type} (base room : Nat) (l : List α) : pageOf base room base l =
    ((l.take room).zipIdx.map fun x => (base + x.2, x.1), if room < l.length then some (base + room) else none) := by
  unfold pageOf
  cases l with
  | nil => simp
  | cons a l =>
    refine (if_pos ⟨Int.le_refl _, by simp⟩).trans ?_
    simp only [Int.sub_self, Int.toNat_zero, List.drop_zero, Nat.add_zero, Nat.zero_add, List.length_take]
    refine Prod.ext rfl ?_
    dsimp only
    by_cases more : room < (a :: l).length
    · rw [if_pos (by omega), if_pos more, Nat.min_eq_left (by omega)]
    · rw [if_neg (by omega), if_neg more]

/-- Settles O47: how a manifest ends, how its picks are asked for, and its readings. -/
theorem manifestsEndAndAreRead : Obligations.ManifestsEndAndAreRead := by
  rintro s released m found rfl
  have named : s.heard.manifestNamed m.id = some m := (manifestNamed_natCast s m.id).trans found
  refine ⟨fun on opened last => ?_, fun on stays => ?_, fun ready => ⟨fun active => ?_, fun opened fire => ?_,
    fun opened free => ?_, fun in_ => ?_, fun out => ?_, ?_, ?_, ?_, ?_, fun k none => ?_⟩⟩
  · refine (event_powered on).trans (congrArg _ ?_)
    have ends : validityEnds m = true := by simp [validityEnds, opened, last]
    simp only [endValidity, found, ends, if_true]
    exact expireManifest_eq m false s
  · refine (event_powered on).trans (congrArg _ ?_)
    have lasts : validityEnds m = false := by
      rcases stays with active | more
      · simp [validityEnds, active]
      · simp [validityEnds]
        omega
    simp only [endValidity, found, lasts]
    rfl
  · exact request_word ready ((cancelManifest_named named).trans (if_pos active))
  · exact request_word ready ((cancelManifest_named named).trans
      ((if_neg (by rw [opened]; exact Bool.false_ne_true)).trans (if_pos fire)))
  · refine request_next ready ((cancelManifest_named named).trans
      ((if_neg (by rw [opened]; exact Bool.false_ne_true)).trans ((if_neg ?_).trans ?_)))
    · exact fun fire => absurd (free.symm.trans fire) (by decide)
    · rw [expireManifest_eq]
      rfl
  · exact request_same ready (guidePicks_in named in_)
  · exact ⟨_, _, rfl, request_next ready (guidePicks_out named out)⟩
  · intro b
    simp [noPicks]
  · rintro t rows l ls c b k r found rfl hk rfl
    obtain rfl : k = c.home.aisle := by
      rw [hk]
      unfold Home.aisle
      cases c.home.face <;> rfl
    refine ⟨rfl, fun above => guide_above found above, fun u o sent decided => ⟨?_, ?_, fun full held => ?_⟩⟩
    · rintro rfl
      exact guide_sent found sent decided
    · rintro rfl
      exact guide_sent found sent decided
    · refine (guide_sent found sent decided).trans ?_
      cases o with
      | full => exact absurd rfl full
      | fireHold => exact absurd rfl held
      | _ => rfl
  · rintro page rfl
    refine request_same ready ?_
    have first := pageOf_first 1 12 m.items
    simp only [readManifest, named, Option.getD_none]
    rw [show (1 : Int) = ((1 : Nat) : Int) from rfl, first]
  · rintro rows rfl
    refine request_same ready ?_
    have first := pageOf_first 0 8 s.store.manifests
    simp only [listManifests, Option.getD_none, State.heard_store]
    rw [show (0 : Int) = ((0 : Nat) : Int) from rfl, first]
    simp only [Nat.zero_add]
  · obtain ⟨read, cancel, picks⟩ := request_notNamed (s := s.heard) none
    exact ⟨request_word ready read, request_word ready cancel, request_word ready picks⟩

end Sys2Proof.Machine
end

