-- ==== Sys2Proof/Proofs/Codes.lean ====
section
/-!
PROOFS. One raw code of a used scan, by its channel's runs and its FAULT.
-/

namespace Sys2Proof.Machine

/-! ### One raw code of a used scan -/

section
variable {code : Code} {x : ChanLive} {ch : Channel} {kind : ChanKind} {k : Coef}

theorem isRail_iff : isRail code = true ↔ code.toNat ≤ 16 ∨ 65519 ≤ code.toNat := by simp [isRail]

/-- A rail reading that is not the third in a row, or comes in FAULT, is counted. -/
theorem takeCode_railCounted (rail : isRail code = true) (h : x.fault = true ∨ x.railRun ≤ 1) :
    takeCode ch kind k code x = ({ x with lastRaw := some code, railRun := min 3 (x.railRun + 1), goodRun := 0 }, []) := by
  unfold takeCode
  rw [if_pos rail, if_neg]
  rintro ⟨third, clear⟩
  obtain fault | few := h
  · simp [fault] at clear
  · dsimp only at third
    omega

/-- The third rail reading in a row is FAULT. -/
theorem takeCode_railThird (rail : isRail code = true) (clear : x.fault = false) (run : x.railRun = 2) :
    takeCode ch kind k code x = ({ x with lastRaw := none, railRun := 3, goodRun := 0, fault := true, window := [] },
      [.channelFaultEntered ch code]) := by
  simp [takeCode, rail, clear, run]

/-- A good reading of a channel not in FAULT enters the window. -/
theorem takeCode_good (good : isRail code = false) (clear : x.fault = false) : takeCode ch kind k code x =
    ({ x with lastRaw := some code, railRun := 0, goodRun := x.goodRun + 1
              window := pushWindow x.window (engineering kind (corrected k code)) }, []) := by
  simp [takeCode, good, clear]

/-- A good reading of a channel in FAULT that is not the third in a row is set aside. -/
theorem takeCode_goodAside (good : isRail code = false) (fault : x.fault = true) (few : x.goodRun ≤ 1) :
    takeCode ch kind k code x =
      ({ x with lastRaw := some code, railRun := 0, goodRun := x.goodRun + 1 }, []) := by
  have third : ¬3 ≤ x.goodRun + 1 := by omega
  simp [takeCode, good, fault, third]

/-- The third good reading in a row clears FAULT. -/
theorem takeCode_goodThird (good : isRail code = false) (fault : x.fault = true) (run : x.goodRun = 2) :
    takeCode ch kind k code x = ({ x with lastRaw := some code, railRun := 0, goodRun := 3, fault := false
                                          window := [engineering kind (corrected k code)] },
      [.channelFaultCleared ch false]) := by
  simp [takeCode, good, fault, run]

/-- A window of at most 4 keeps its newest values. -/
theorem pushWindow_eq {w : List Int} (few : w.length ≤ 4) (v : Int) :
    pushWindow w v = (w ++ [v]).drop (w.length + 1 - 4) := by
  unfold pushWindow
  split
  next full =>
    have four : w.length = 4 := by omega
    rw [four, List.drop_append_of_le_length (by omega)]
  next room =>
    have none : w.length + 1 - 4 = 0 := by omega
    rw [none, List.drop_zero]

end

/-- Settles O29. -/
theorem codeEntersTheWindow : Obligations.CodeEntersTheWindow := by
  intro ch kind k code x v rail
  have rail := isRail_iff.mpr rail
  refine ⟨fun clear few => ?_, takeCode_railThird rail, fun fault => takeCode_railCounted rail (.inl fault), ?_⟩
  · have run : min 3 (x.railRun + 1) = x.railRun + 1 := by omega
    rw [takeCode_railCounted rail (.inr few), run]
  · intro good above below
    have good' : isRail good = false := by
      rw [← Bool.not_eq_true, isRail_iff]
      omega
    refine ⟨fun value => ⟨fun clear few => ?_, takeCode_goodAside good', fun fault run => ?_⟩, fun n num => ?_⟩
    · rw [takeCode_good good' clear, pushWindow_eq few, value]
    · rw [takeCode_goodThird good' fault run, value]
    · unfold corrected
      rw [← num]
      exact ⟨fun neg => clamp_of_lt (by omega), fun above => by unfold clamp; omega, fun low high => by unfold clamp; omega⟩

end Sys2Proof.Machine
end

