-- ==== Sys2Proof/Proofs/Calibrations.lean ====
section
/-!
PROOFS. Groups restarted, and a calibration begun and ended.
-/

namespace Sys2Proof.Machine

variable {s : State} {z : Zone} {g : Group} {st : Store} {f : FrontEnd} {o : Owner} {k : ChanKind}

/-! ### What the front end hands on leaves the store and the front end's groups alone -/

@[simp] theorem breakEvent_store (q : Quantity) : (breakEvent z q s).store = s.store := by
  unfold breakEvent
  split <;> rfl

@[simp] theorem leaveHold_store : (leaveHold z s).store = s.store := by
  simp only [leaveHold, State.modClimate_store]
  split <;> rfl

@[simp] theorem modeStep_store : (modeStep z s).store = s.store := by
  simp only [modeStep]
  split
  · split
    · exact leaveHold_store
    · rfl
  · split <;> rfl

@[simp] theorem testExcursion_store (q : Quantity) (r : Reading) : (testExcursion z q r s).store = s.store := by
  by_cases valid : ∃ v, r.value = .valid v
  · obtain ⟨v, valid⟩ := valid
    rw [testExcursion_valid rfl valid rfl rfl rfl]
    split
    · rfl
    · split
      · exact breakEvent_store q
      · rfl
  · rw [testExcursion_invalid fun v h => valid ⟨v, h⟩]

@[simp] theorem handZone_store (rh temp : Option Reading) : (handZone z rh temp s).store = s.store := by
  cases rh <;> cases temp <;> simp [handZone]

@[simp] theorem formZone_store (gs : List Group) (force : Bool) : (formZone gs force z s).store = s.store := by
  simp only [formZone, setDisagree, handZone_store]
  split
  · split <;> rfl
  · rfl

@[simp] theorem formOwners_store (gs : List Group) (extra : List Owner) (force : Bool) (s : State) :
    (formOwners gs extra force s).store = s.store := by
  unfold formOwners
  refine actAll_induction (P := fun t => t.store = s.store) ?_ fun h t same => same
  exact actAll_induction (P := fun t => t.store = s.store) rfl fun z t same => (formZone_store gs force).trans same

/-! ### A group restarted -/

/-- A group restarted is NOT-READY with 2 discards, its windows emptied (R5). -/
theorem restartGroup_eq (st : Store) (g : Group) (f : FrontEnd) : restartGroup st g f = { f with
    groups := f.groups.set g { state := .notReady 2, scanning := false }
    chans := Vector.ofFn fun c : Channel =>
      if c ∈ groupChannels st g then { f.chans[c] with window := [], lastRaw := none } else f.chans[c] } := by
  simp [restartGroup]

/-! ### A calibration begun and ended -/

/-- The group's state as a calibration begins, its owners formed (R12). -/
theorem beginCalibration_channels (some_ : groupChannels s.store g ≠ []) :
    beginCalibration g s = formOwners [g] [] true (setGroup g
      { state := .calibrating (decide ((s.front.groups[g]).state = .ready)), scanning := false } s) := by
  unfold beginCalibration
  rw [if_neg]
  · rfl
  · rw [formOwners_store]
    simpa [setGroup] using some_

theorem finishCalibration_none (none : groupChannels s.store g = []) (codes : Vector CalCodes 24) :
    finishCalibration g codes s = restartGroups [g] [] (post (.calDone g []) s) := by
  unfold finishCalibration
  rw [none]
  rfl

/-- A group with no channels is done with its calibration at once (R12, R15). -/
theorem beginCalibration_none (none : groupChannels s.store g = []) :
    beginCalibration g s = restartGroups [g] [] (post (.calDone g []) (formOwners [g] [] true (setGroup g
      { state := .calibrating (decide ((s.front.groups[g]).state = .ready)), scanning := false } s))) := by
  have channels : groupChannels (formOwners [g] [] true (setGroup g
      { state := .calibrating (decide ((s.front.groups[g]).state = .ready)), scanning := false } s)).store g = [] := by
    rw [formOwners_store]
    exact none
  exact (if_pos (List.isEmpty_iff.2 channels)).trans (finishCalibration_none channels _)

/-- The rows written one after another give each channel of the group its row's pair. -/
theorem foldl_setCoef (rows : List CalRow) (v : Vector Coef 24) (c : Channel) {k : Coef}
    (same : ∀ r ∈ rows, r.channel = c → r.coef = k) :
    (rows.foldl (fun v r => v.set r.channel r.coef) v)[c] = if c ∈ rows.map CalRow.channel then k else v[c] := by
  induction rows generalizing v with
  | nil => rfl
  | cons r rows ih =>
    rw [List.foldl_cons, ih _ fun q hq => same q (List.mem_cons_of_mem _ hq)]
    by_cases h : r.channel = c
    · subst h
      simp [same r List.mem_cons_self rfl]
    · have h' : (r.channel : Nat) ≠ c := fun e => h (Fin.ext e)
      have h'' : c ≠ r.channel := fun e => h e.symm
      simp [h', h'', Vector.getElem_set_ne]

/-- Settles O31. -/
theorem calibrationRunsAndEnds : Obligations.CalibrationRunsAndEnds := by
  refine fun s => ⟨fun k ready unknown => request_word ready (naming_none unknown), fun k g ready named => ?_, ?_,
    restartGroup_eq⟩
  · have run : ∀ {t : State} {a : Answer}, (if (s.front.groups[g]).state.calibrates then answer .busy .empty s.heard
        else if s.store.groupTimer[g] = .off then answer .refused .empty s.heard
        else (beginCalibration g s.heard, { word := .ok })) = (t, a) →
        exec (.calibrate k) s = .next (t.answered a) :=
      fun h => request_next ready ((naming_some named).trans h)
    refine ⟨fun busy => run (if_pos busy), fun calm off => ?_, fun calm on channels => ?_, fun t calm on none h => ?_⟩
    · exact run ((if_neg (by rw [calm]; exact Bool.false_ne_true)).trans (if_pos off))
    · refine run ((if_neg (by rw [calm]; exact Bool.false_ne_true)).trans ((if_neg on).trans (Prod.ext ?_ rfl)))
      exact beginCalibration_channels (s := s.heard) channels
    · refine run ((if_neg (by rw [calm]; exact Bool.false_ne_true)).trans ((if_neg on).trans (Prod.ext ?_ rfl)))
      exact h ▸ beginCalibration_none (s := s.heard) none
  · intro g codes on calibrating
    refine ⟨((groupChannels s.store g).map (calRow s.store codes)).foldl (fun v r => v.set r.channel r.coef) s.store.coefs,
      fun c => ?_, ?_⟩
    · rw [foldl_setCoef _ _ c (k := (calRow s.store codes c).coef)]
      · simp [calRow, Function.comp_def]
      · rintro r hr rfl
        obtain ⟨d, -, rfl⟩ := List.mem_map.1 hr
        rfl
    · show execCalibrationComplete g codes s = _
      rw [execCalibrationComplete, event_powered on, calibrationDone, if_pos calibrating]
      rfl

end Sys2Proof.Machine
end

