-- ==== Sys2Proof/Proofs/Scans.lean ====
section
/-!
PROOFS. Owner values formed, and scans begun, completed and handed on.
-/

namespace Sys2Proof.Machine

/-! ### Owner values (R17, R18) -/

section
variable {st : Store} {f : FrontEnd} {o : Owner} {k : ChanKind} {limit : Option Int} {c d : Channel} {a b : Int}

theorem toInt?_valid {v : Value} (h : v = .valid a) : v.toInt? = some a := by rw [h]; rfl

theorem toInt?_other {v : Value} (h : ∀ a, v ≠ .valid a) : v.toInt? = none := by
  cases v with
  | valid a => exact absurd rfl (h a)
  | _ => rfl

/-- A value formed of two VALID channels derives from both. -/
theorem formReading_two (channels : channelsOf st o k = [c, d]) (hc : chanValue st f c = .valid a)
    (hd : chanValue st f d = .valid b) : formReading st f o k limit =
      ({ value := (combine limit [.valid a, .valid b]).1, cal := isCal st f c || isCal st f d },
        (combine limit [.valid a, .valid b]).2) := by
  simp [formReading, derivedFrom, validChannels, channels, hc, hd, Value.toInt?]

/-- A value formed of the one VALID channel of two derives from it alone. -/
theorem formReading_first (channels : channelsOf st o k = [c, d]) (hc : chanValue st f c = .valid a)
    (hd : ∀ v, chanValue st f d ≠ .valid v) :
    formReading st f o k limit = ({ value := .valid a, cal := isCal st f c }, none) := by
  simp [formReading, derivedFrom, validChannels, channels, combine, toInt?_valid hc, toInt?_other hd]

theorem formReading_second (channels : channelsOf st o k = [c, d]) (hc : ∀ v, chanValue st f c ≠ .valid v)
    (hd : chanValue st f d = .valid b) :
    formReading st f o k limit = ({ value := .valid b, cal := isCal st f d }, none) := by
  simp [formReading, derivedFrom, validChannels, channels, combine, toInt?_valid hd, toInt?_other hc]

theorem formReading_one (channels : channelsOf st o k = [c]) (hc : chanValue st f c = .valid a) :
    formReading st f o k limit = ({ value := .valid a, cal := isCal st f c }, none) := by
  simp [formReading, derivedFrom, validChannels, channels, combine, toInt?_valid hc]

/-- With no VALID channel a value takes the status of the channels in use. -/
theorem formReading_none (none_ : ∀ c ∈ channelsOf st o k, ∀ v, chanValue st f c ≠ .valid v) : formReading st f o k limit =
    ({ value := if ∃ c ∈ channelsOf st o k, chanValue st f c = .notReady then .notReady else .invalid
       cal := (channelsOf st o k).any (isCal st f) }, none) := by
  have valid : validChannels st f o k = [] := by
    refine List.filter_eq_nil_iff.2 fun c hc => ?_
    rw [toInt?_other (none_ c hc)]
    exact Bool.false_ne_true
  have numbers : ((channelsOf st o k).map (chanValue st f)).filterMap Value.toInt? = [] := by
    rw [List.filterMap_map]
    exact List.filterMap_eq_nil_iff.2 fun c hc => toInt?_other (none_ c hc)
  simp [formReading, derivedFrom, valid, combine, numbers]

theorem absDiff_eq (a b : Int) : absDiff a b = |a - b| := by
  unfold absDiff
  rw [abs_eq_max_neg, neg_sub]

/-- A value derived from no calibrating channel is formed anew (R18). -/
theorem forms_calm {gs : List Group} {force : Bool} (calm : ∀ c ∈ channelsOf st o k, isCal st f c = false) :
    forms st f gs force o k = true := by
  have none : (validChannels st f o k).any (isCal st f) = false :=
    List.any_eq_false.2 fun c hc => by simp [calm c (List.mem_filter.1 hc).1]
  simp [forms, none]

/-- A value formed from a VALID channel that is calibrating is held (R18). -/
theorem forms_held {gs : List Group} (mem : c ∈ channelsOf st o k) (valid : chanValue st f c = .valid a)
    (cal : isCal st f c = true) : forms st f gs false o k = false := by
  have some_ : (validChannels st f o k).any (isCal st f) = true :=
    List.any_eq_true.2 ⟨c, List.mem_filter.2 ⟨mem, by rw [toInt?_valid valid]; rfl⟩, cal⟩
  simp [forms, some_]

end

/-! ### Owners formed and handed on -/

section
variable {s : State} {g : Group}

theorem formOwners_eq (g : Group) (force : Bool) (s : State) : formOwners [g] [] force s =
    ((List.finRange 2).filter fun h => decide (∃ c ∈ groupChannels s.store g, s.store.channels[c].owner = .hatch h)).foldl
      (fun t h => formHatch [g] force h t)
      (((List.finRange 4).filter fun z => decide (∃ c ∈ groupChannels s.store g, s.store.channels[c].owner = .zone z)).foldl
        (fun t z => formZone [g] force z t) s) := by
  have concerns : ∀ o : Owner, (holdsChannel s.store [g] o || ([] : List Owner).contains o) =
      decide (∃ c ∈ groupChannels s.store g, s.store.channels[c].owner = o) := fun o => by
    rw [Bool.eq_iff_iff]
    simp [holdsChannel]
  unfold formOwners actAll
  simp only [concerns]

theorem setDisagree_eq (z : Zone) (pair : Option (Int × Int)) (s : State) : setDisagree z pair s =
    if s.front.disagree[z] = pair.isSome then s
    else post (.sensorDisagree z pair)
      { s with front := { s.front with disagree := s.front.disagree.set z pair.isSome } } := rfl

/-! ### Scans -/

/-- What a channel of the scanned group takes of a scan. -/
def scanTaken (codes : Vector Code 24) (st : Store) (chans : Vector ChanLive 24) (c : Channel) : ChanLive × List Event :=
  takeCode c st.channels[c].kind st.coefs[c] codes[c] chans[c]

/-- One channel takes its code. -/
def scanStep (codes : Vector Code 24) (s : State) (c : Channel) : State :=
  postAll (scanTaken codes s.store s.front.chans c).2
    (s.setFront { s.front with chans := s.front.chans.set c (scanTaken codes s.store s.front.chans c).1 })

theorem takeScan_steps (codes : Vector Code 24) : takeScan g codes s = (groupChannels s.store g).foldl (scanStep codes) s := rfl

/-- The front end's channels as the codes of `cs` leave them. -/
def scannedChans (codes : Vector Code 24) (st : Store) (chans : Vector ChanLive 24) (cs : List Channel) : Vector ChanLive 24 :=
  Vector.ofFn fun c : Channel => if c ∈ cs then (scanTaken codes st chans c).1 else chans[c]

theorem scanStep_postAll {codes : Vector Code 24} {es : List Event} {v : Vector ChanLive 24} {c : Channel}
    (untaken : v[c] = s.front.chans[c]) :
    scanStep codes (postAll es (s.setFront { s.front with chans := v })) c =
      postAll (es ++ (scanTaken codes s.store s.front.chans c).2)
        (s.setFront { s.front with chans := v.set c (scanTaken codes s.store s.front.chans c).1 }) := by
  have taken : scanTaken codes s.store v c = scanTaken codes s.store s.front.chans c := by rw [scanTaken, untaken]; rfl
  simp only [scanStep, postAll_eq, State.setFront, taken, List.foldl_append]

/-- The codes are taken channel by channel, and no channel's code touches another's (R4). -/
theorem foldl_scanStep (codes : Vector Code 24) {cs : List Channel} (nodup : cs.Nodup) (s : State) :
    cs.foldl (scanStep codes) s = postAll (cs.flatMap fun c => (scanTaken codes s.store s.front.chans c).2)
      (s.setFront { s.front with chans := scannedChans codes s.store s.front.chans cs }) := by
  induction cs using List.reverseRecOn with
  | nil => simp [postAll, State.setFront, scannedChans]
  | append_singleton cs c ih =>
    obtain ⟨nodup, -, apart⟩ := List.nodup_append.1 nodup
    have fresh : c ∉ cs := fun h => apart c h c List.mem_cons_self rfl
    rw [List.foldl_append, ih nodup, List.foldl_cons, List.foldl_nil, scanStep_postAll (by simp [scannedChans, fresh])]
    have chans : (scannedChans codes s.store s.front.chans cs).set c (scanTaken codes s.store s.front.chans c).1 =
        scannedChans codes s.store s.front.chans (cs ++ [c]) := by
      ext i hi
      by_cases h : (c : Nat) = i
      · subst h
        simp [scannedChans]
      · have h' : (⟨i, hi⟩ : Channel) ≠ c := fun e => h (congrArg Fin.val e).symm
        simp [scannedChans, Vector.getElem_set_ne _ _ h, h']
    rw [chans]
    simp

/-- A group at rest begins its scan at its timer's expiry where it holds a channel (R4). -/
theorem beginScan_channels {t : TimerId} (some_ : groupChannels s.store g ≠ []) : beginScan t g s = setGroup g
    (if assignedTo t s.store.groupTimer[g] = true ∧ (s.front.groups[g]).state.calibrates = false ∧
        (s.front.groups[g]).scanning = false then { s.front.groups[g] with scanning := true }
      else s.front.groups[g]) s := by
  unfold beginScan
  dsimp only
  rw [if_neg (c := (groupChannels s.store g).isEmpty = true) (by simpa using some_)]
  simp only [Bool.and_eq_true, Bool.not_eq_true', and_assoc]
  split
  · rfl
  · simp [setGroup, State.setFront]

theorem assignedTo_iff (t : TimerId) (x : GroupTimer) :
    assignedTo t x = true ↔ x = (if t = 0 then .ta else .tb) := by
  cases x <;> revert t <;> decide

/-- A scan timer's expiry loads it again and begins the scans of its groups at rest (R3, R4). -/
theorem timerExpires_channels {t : TimerId} (some_ : ∀ g : Group, groupChannels s.store g ≠ []) : timerExpires t s =
    { s with front := { s.front with
        timers := s.front.timers.set t s.store.scanPeriod[t]
        groups := Vector.ofFn fun g : Group =>
          if s.store.groupTimer[g] = (if t = 0 then .ta else .tb) ∧ (s.front.groups[g]).state.calibrates = false ∧
              (s.front.groups[g]).scanning = false then
            { s.front.groups[g] with scanning := true }
          else s.front.groups[g] } } := by
  have begins := fun (g : Group) (u : State) (same : u.store = s.store) =>
    beginScan_channels (s := u) (t := t) (by rw [same]; exact some_ g)
  unfold timerExpires actAll
  rw [List.foldl_cons, List.foldl_cons, List.foldl_nil,
    begins 0 _ (by exact rfl), begins 1 _ (by exact rfl)]
  simp only [assignedTo_iff, setGroup, State.setFront]
  congr 2
  ext i hi
  obtain rfl | rfl : i = 0 ∨ i = 1 := by omega
  · simp
  · simp

/-- The completion of a scan (R4). -/
theorem exec_scanComplete (on : s.powered = true) (codes : Vector Code 24) (scanning : (s.front.groups[g]).scanning = true) :
    exec (.scanComplete g codes) s = .next (completeScan g codes s) :=
  (event_powered on).trans (congrArg _ (if_pos scanning))

theorem completeScan_discards {codes : Vector Code 24} {n : Nat} (at_ : (s.front.groups[g]).state = .notReady (n + 1)) :
    completeScan g codes s = evaluateGates g (formOwners [g] [] false (setGroup g { state := .notReady n } s)) := by
  unfold completeScan
  rw [at_]

theorem completeScan_uses {codes : Vector Code 24}
    (at_ : (s.front.groups[g]).state = .notReady 0 ∨ (s.front.groups[g]).state = .ready) :
    completeScan g codes s =
      evaluateGates g (formOwners [g] [] false (takeScan g codes (setGroup g { state := .ready } s))) := by
  unfold completeScan
  obtain at_ | at_ := at_ <;> rw [at_]

end

/-! ### The dew point (R24) -/

section
variable {old : DewPoint} {rh temp : Reading} {h t : Int}

theorem nextDew_stands {d : Int} {cal : Bool} (hr : rh.value = .valid h) (ht : temp.value = .valid t) :
    nextDew (.valid d t h cal) rh temp = .valid d t h cal := by
  simp [nextDew, hr, ht]

theorem nextDew_anew (hr : rh.value = .valid h) (ht : temp.value = .valid t) (differs : ∀ d cal, old ≠ .valid d t h cal) :
    nextDew old rh temp = .valid (dewPoint t h) t h (rh.cal || temp.cal) := by
  cases old with
  | invalid => simp [nextDew, hr, ht]
  | valid d t0 h0 cal =>
    have apart : ¬(t = t0 ∧ h = h0) := by
      rintro ⟨rfl, rfl⟩
      exact differs d cal rfl
    simp [nextDew, hr, ht, apart]

theorem nextDew_noTemp (invalid : ∀ t, temp.value ≠ .valid t) : nextDew old rh temp = .invalid := by
  unfold nextDew
  split
  · next t _ ht => exact absurd ht (invalid _)
  · rfl

end

/-! ### A zone's values formed and handed on -/

section
variable {s : State} {z : Zone} {gs : List Group} {force : Bool} {rh temp : Reading} {pair : Option (Int × Int)}

theorem formZone_calm (ht : temp = (formReading s.store s.front (.zone z) .temp none).1)
    (calmTemp : ∀ c ∈ channelsOf s.store (.zone z) .temp, isCal s.store s.front c = false)
    (hr : (rh, pair) = formReading s.store s.front (.zone z) .rh (some s.store.disagreeLimit[z]))
    (calmRh : ∀ c ∈ channelsOf s.store (.zone z) .rh, isCal s.store s.front c = false) :
    formZone gs force z s = handZone z (some rh) (some temp) (setDisagree z pair s) := by
  simp only [formZone, forms_calm calmTemp, forms_calm calmRh, ← hr, ← ht, if_true]

theorem formZone_held {c : Channel} {v : Int} (ht : temp = (formReading s.store s.front (.zone z) .temp none).1)
    (calmTemp : ∀ c ∈ channelsOf s.store (.zone z) .temp, isCal s.store s.front c = false)
    (mem : c ∈ channelsOf s.store (.zone z) .rh) (valid : chanValue s.store s.front c = .valid v)
    (cal : isCal s.store s.front c = true) : formZone gs false z s = handZone z none (some temp) s := by
  subst ht
  simp [formZone, forms_calm calmTemp, forms_held mem valid cal]

end

/-- Settles O32. -/
theorem scansBeginAndComplete : Obligations.ScansBeginAndComplete := by
  intro s on
  refine ⟨fun st f o k limit c d a b channels hc => ⟨fun hd => ⟨fun m hm apart => ?_, fun within => ?_⟩,
      formReading_first channels hc⟩, fun st f o k limit c d b channels hc hd => formReading_second channels hc hd,
    fun g codes cs taken hcs htaken => ?_, fun st f o k limit cs hcs => ⟨fun c a one hc => ?_, fun none => ?_⟩,
    fun g force zs hs hz hh => ?_, fun gs force z temp ht calm => ⟨fun rh pair hr calmRh => ?_, fun c v => ?_⟩,
    fun gs force h x calm hx => ?_, fun old rh temp => ⟨fun h t hr ht => ⟨?_, nextDew_anew hr ht⟩, nextDew_invalid,
      nextDew_noTemp⟩, fun t channels => ?_, fun g codes scanning => ⟨fun n at_ => ?_, fun at_ => ?_⟩,
    fun g codes rest => ?_⟩
  · subst hm
    have far : ¬absDiff a b ≤ m := by rw [absDiff_eq]; omega
    rw [formReading_two channels hc hd]
    simp [combine, Value.toInt?, far]
  · rw [formReading_two channels hc hd]
    cases limit with
    | none => rfl
    | some m =>
      have near : absDiff a b ≤ m := by rw [absDiff_eq]; exact within m rfl
      simp [combine, Value.toInt?, near]
  · have channels : groupChannels s.store g = cs := by
      rw [hcs]
      exact List.filter_congr fun c _ => by rw [Bool.eq_iff_iff]; simp
    obtain rfl : taken = scanTaken codes s.store s.front.chans := funext htaken
    refine ⟨channels, ?_⟩
    rw [takeScan_steps, channels, foldl_scanStep codes (hcs ▸ (List.nodup_finRange 24).filter _)]
    rfl
  · exact formReading_one (hcs ▸ one) hc
  · subst hcs
    exact formReading_none none
  · rw [formOwners_eq, hz, hh]
  · rw [formZone_calm ht calm hr calmRh, setDisagree_eq]
  · exact fun mem valid cal => formZone_held ht calm mem valid cal
  · simp [formHatch, forms_calm (calm _), hx, State.modHatch, State.setHatch]
  · rintro d cal rfl
    exact nextDew_stands hr ht
  · exact (event_powered on).trans (congrArg _ (timerExpires_channels channels))
  · rw [exec_scanComplete on codes scanning, completeScan_discards at_]
    rfl
  · rw [exec_scanComplete on codes scanning, completeScan_uses at_]
    rfl
  · exact (event_powered on).trans (congrArg _ (if_neg (by rw [rest]; exact Bool.false_ne_true)))

end Sys2Proof.Machine
end

