-- ==== Sys2Proof/Proofs/FrontSettings.lean ====
section
/-!
PROOFS. The settings of the front end.
-/

namespace Sys2Proof.Machine

variable {s : State} {k v : Int} {c : Channel}

/-! ### The limits on a channel entry (R2) -/

theorem ownedCount_eq (chs : Vector ChanEntry 24) (o : Owner) (kind : ChanKind) : ownedCount chs o kind =
    ((List.finRange 24).filter fun d => decide (chs[d].owner = o ∧ chs[d].kind = kind)).length := by
  have entries : chs.toList = (List.finRange 24).map fun d : Channel => chs[d] :=
    List.ext_getElem (by simp) fun i _ _ => by simp
  unfold ownedCount
  rw [entries, List.countP_map, List.countP_eq_length_filter]
  congr 1
  exact List.filter_congr fun d _ => by simp [beq_eq_decide]

/-- An entry past the limits. -/
theorem entryAllowed_false_iff {chs : Vector ChanEntry 24} {e : ChanEntry} : entryAllowed chs e = false ↔
    e.kind ≠ .unused ∧ ((∃ z : Zone, e.owner = .zone z ∧ (e.kind = .probe ∨ 2 < ownedCount chs e.owner e.kind)) ∨
      ∃ h : HatchId, e.owner = .hatch h ∧ 1 < ownedCount chs e.owner e.kind) := by
  obtain ⟨kind, owner, group⟩ := e
  cases owner <;> cases kind <;> simp [entryAllowed]

/-! ### A channel entry written (R2) -/

section
variable {kind owner : Option Text} {j : Option Int} {e : ChanEntry}

/-- The entry a request spells, where its fields name something. -/
theorem writeChannel_named (named : indexOf 24 k = some c)
    (hk : (kind = none ∧ e.kind = s.store.channels[c].kind) ∨ ∃ w, kind = some w ∧ wordOf kindWords w = some e.kind)
    (ho : (owner = none ∧ e.owner = s.store.channels[c].owner) ∨ ∃ w, owner = some w ∧ wordOf ownerWords w = some e.owner)
    (hj : (j = none ∧ e.group = s.store.channels[c].group) ∨ ∃ i, j = some i ∧ indexOf 2 i = some e.group) :
    writeChannel (some k) kind owner j s =
      if entryAllowed (s.store.channels.set c e) e = false then answer .badValue .empty s
      else if (s.front.groups[s.store.channels[c].group]).state.calibrates = true ∨
          (s.front.groups[e.group]).state.calibrates = true then answer .busy .empty s
      else if e = s.store.channels[c] then (s, { word := .ok })
      else (applyEntry c e s, { word := .ok }) := by
  have kinds : fieldOr s.store.channels[c].kind (wordOf kindWords) kind = some e.kind := by
    obtain ⟨rfl, h⟩ | ⟨w, rfl, h⟩ := hk
    · rw [h]; rfl
    · exact h
  have owners : fieldOr s.store.channels[c].owner (wordOf ownerWords) owner = some e.owner := by
    obtain ⟨rfl, h⟩ | ⟨w, rfl, h⟩ := ho
    · rw [h]; rfl
    · exact h
  rw [Fin.getElem_fin] at kinds owners
  obtain ⟨rfl, h⟩ | ⟨i, rfl, h⟩ := hj
  · rw [Fin.getElem_fin] at h
    simp [writeChannel, named, kinds, owners, ← h]
  · simp [writeChannel, named, kinds, owners, h]

/-- An index or a field that names nothing is BAD-VALUE. -/
theorem writeChannel_bad (bad : ∀ c, indexOf 24 k = some c → fieldOr s.store.channels[c].kind (wordOf kindWords) kind = none ∨
      fieldOr s.store.channels[c].owner (wordOf ownerWords) owner = none ∨ ∃ i, j = some i ∧ indexOf 2 i = none) :
    writeChannel (some k) kind owner j s = answer .badValue .empty s := by
  unfold writeChannel
  split
  · cases ‹some k = none›
  next i hi =>
    cases hi
    split
    · rfl
    next c named =>
      dsimp only
      split
      next hk ho hg =>
        obtain none | none | ⟨i, rfl, none⟩ := bad c named
        · cases none.symm.trans hk
        · cases none.symm.trans ho
        · cases none.symm.trans hg
      · rfl

end

section
variable {old new : ChanEntry}

/-- An entry in use before the write and after it restarts the groups that held it and hold it. -/
theorem applyEntry_used (at_ : s.store.channels[c] = old) (was : old.kind ≠ .unused) (is : new.kind ≠ .unused) :
    applyEntry c new s = restartGroups [old.group, new.group].eraseDups [old.owner, new.owner]
      (s.setStore { s.store with channels := s.store.channels.set c new }) := by
  have groups : groupsTouched old new = [old.group, new.group].eraseDups := by simp [groupsTouched, was, is]
  have some_ : ∃ g gs, [old.group, new.group].eraseDups = g :: gs := ⟨_, _, List.eraseDups_cons ..⟩
  obtain ⟨g, gs, some_⟩ := some_
  simp only [applyEntry, at_, is, groups, some_, false_and, if_false]

/-- An entry taken into use restarts the group that holds it. -/
theorem applyEntry_begins (at_ : s.store.channels[c] = old) (was : old.kind = .unused) (is : new.kind ≠ .unused) :
    applyEntry c new s = restartGroups [new.group] [old.owner, new.owner]
      (s.setStore { s.store with channels := s.store.channels.set c new }) := by
  have groups : groupsTouched old new = [new.group] := by simp [groupsTouched, was, is, List.eraseDups_cons]
  simp only [applyEntry, at_, is, groups, false_and, if_false]

/-- An entry taken out of use has its channel retired and restarts the group that held it. -/
theorem applyEntry_ends (at_ : s.store.channels[c] = old) (was : old.kind ≠ .unused) (is : new.kind = .unused) :
    applyEntry c new s = restartGroups [old.group] [old.owner, new.owner]
      (retireChannel c (s.setStore { s.store with channels := s.store.channels.set c new })) := by
  have groups : groupsTouched old new = [old.group] := by simp [groupsTouched, was, is, List.eraseDups_cons]
  simp only [applyEntry, at_, is, groups]
  rw [if_pos ⟨trivial, was⟩]

/-- An entry out of use before the write and after it restarts nothing. -/
theorem applyEntry_unused (at_ : s.store.channels[c] = old) (was : old.kind = .unused) (is : new.kind = .unused) :
    applyEntry c new s = s.setStore { s.store with channels := s.store.channels.set c new } := by
  have groups : groupsTouched old new = [] := by simp [groupsTouched, was, is]
  simp only [applyEntry, at_, groups]
  rw [if_neg fun h => h.2 was]

end

/-! ### Coefficients, periods, timers and limits -/

theorem writeCoef_same {u : Coef} (h : u = s.store.coefs[c]) : writeCoef c u s = s := if_pos h

theorem writeOffset_same {x : Int} (h : x = s.store.coefs[c].offset) :
    writeCoef c { s.store.coefs[c] with offset := x } s = s := by
  subst h
  exact writeCoef_same rfl

theorem writeGain_same {x : Int} (h : x = s.store.coefs[c].gain) :
    writeCoef c { s.store.coefs[c] with gain := x } s = s := by
  subst h
  exact writeCoef_same rfl

theorem writeCoef_other {u : Coef} (h : u ≠ s.store.coefs[c]) : writeCoef c u s =
    restartGroups [s.store.channels[c].group] [] (s.setStore { s.store with coefs := s.store.coefs.set c u }) := if_neg h

theorem writeChOffset_named (named : indexOf 24 k = some c) : writeChOffset (some k) (some v) s =
    if (s.front.groups[s.store.channels[c].group]).state.calibrates = true then answer .busy .empty s
    else (writeCoef c { s.store.coefs[c] with offset := clamp (-3277) 3277 v } s, usedAnswer v (clamp (-3277) 3277 v)) :=
  indexedSetting_some named

theorem writeChGain_named (named : indexOf 24 k = some c) : writeChGain (some k) (some v) s =
    if (s.front.groups[s.store.channels[c].group]).state.calibrates = true then answer .busy .empty s
    else (writeCoef c { s.store.coefs[c] with gain := clamp 29491 36045 v } s, usedAnswer v (clamp 29491 36045 v)) :=
  indexedSetting_some named

theorem writeGroupTimer_named {g : Group} {w : Text} {t : GroupTimer} (named : indexOf 2 k = some g)
    (word : wordOf timerWords w = some t) : writeGroupTimer (some k) (some w) s =
    if (s.front.groups[g]).state.calibrates = true then answer .busy .empty s
    else if t = s.store.groupTimer[g] then (s, { word := .ok })
    else (restartGroups [g] [] (s.setStore { s.store with groupTimer := s.store.groupTimer.set g t }), { word := .ok }) := by
  refine (indexedSetting_some named).trans ?_
  dsimp only
  rw [word]

theorem restartGroups_retired (gs : List Group) (extra : List Owner) {t : State} {x : ChanLive}
    (hx : x = { s.front.chans[c] with window := [], fault := false, lastRaw := none })
    (ht : t = { s with front := { s.front with chans := s.front.chans.set c x } }) :
    restartGroups gs extra (retireChannel c s) =
      restartGroups gs extra (if s.front.chans[c].fault then post (.channelFaultCleared c true) t else t) := by
  subst hx ht
  rfl

/-- Settles O33. -/
theorem frontSettingsAreWritten : Obligations.FrontSettingsAreWritten := by
  intro s v ready
  refine ⟨fun k c u named calm other => ⟨fun hu => ?_, fun hu => ?_⟩, fun k c named busy => ⟨?_, ?_⟩,
    fun k c named calm => ⟨fun same => ?_, fun same => ?_⟩, fun w t word => request_next ready (indexedSetting_some word),
    fun k z named => request_next ready (indexedSetting_some named), fun k g w t named word => ⟨fun calm other => ?_,
      fun calm same => ?_, fun busy => ?_⟩, fun k w bad => ?_,
    fun k c kind owner j old e chs u named hold hk ho hj hchs hu => ?_, fun k kind owner j => ⟨fun unknown => ?_,
      fun w bad => ?_, fun w bad => ?_, fun i bad => ?_, ?_⟩, fun chs e n hn => ?_⟩
  · subst hu
    refine request_next ready ((writeChOffset_named named).trans ?_)
    exact (if_neg (by exact Bool.eq_false_iff.1 calm)).trans (Prod.ext (writeCoef_other (s := s.heard) other) rfl)
  · subst hu
    refine request_next ready ((writeChGain_named named).trans ?_)
    exact (if_neg (by exact Bool.eq_false_iff.1 calm)).trans (Prod.ext (writeCoef_other (s := s.heard) other) rfl)
  · exact request_word ready ((writeChOffset_named named).trans (if_pos busy))
  · exact request_word ready ((writeChGain_named named).trans (if_pos busy))
  · refine request_same ready ((writeChOffset_named named).trans ?_)
    exact (if_neg (by exact Bool.eq_false_iff.1 calm)).trans
      (Prod.ext (writeOffset_same (s := s.heard) same) rfl)
  · refine request_same ready ((writeChGain_named named).trans ?_)
    exact (if_neg (by exact Bool.eq_false_iff.1 calm)).trans
      (Prod.ext (writeGain_same (s := s.heard) same) rfl)
  · refine request_next ready ((writeGroupTimer_named named word).trans ?_)
    exact (if_neg (by exact Bool.eq_false_iff.1 calm)).trans (if_neg other)
  · refine request_word ready ((writeGroupTimer_named named word).trans ?_)
    exact (if_neg (by exact Bool.eq_false_iff.1 calm)).trans (if_pos same)
  · exact request_word ready ((writeGroupTimer_named named word).trans (if_pos busy))
  · refine request_word ready ?_
    cases named : indexOf 2 k with
    | none => exact indexedSetting_none named
    | some g =>
      obtain bad | bad := bad
      · rw [named] at bad
        cases bad
      · refine (indexedSetting_some named).trans ?_
        dsimp only
        rw [bad]
  · have run : writeChannel (some k) kind owner j s.heard =
        if entryAllowed chs e = false then answer .badValue .empty s.heard
        else if (s.front.groups[old.group]).state.calibrates = true ∨ (s.front.groups[e.group]).state.calibrates = true then
          answer .busy .empty s.heard
        else if e = old then (s.heard, { word := .ok })
        else (applyEntry c e s.heard, { word := .ok }) := by
      subst hchs hold
      exact writeChannel_named (s := s.heard) named hk ho hj
    have write : ∀ {t : State}, entryAllowed chs e = true → (s.front.groups[old.group]).state.calibrates = false →
        (s.front.groups[e.group]).state.calibrates = false → e ≠ old → applyEntry c e s.heard = t →
        exec (.writeSettingChannel (some k) kind owner j) s = .next (t.answered { word := .ok }) :=
      fun fits calm calm' other h => request_next ready (run.trans ((if_neg (by rw [fits]; decide)).trans
        ((if_neg (by rw [calm, calm']; decide)).trans ((if_neg other).trans (Prod.ext h rfl)))))
    have at_ : s.heard.store.channels[c] = old := hold.symm
    refine ⟨fun past => request_word ready (run.trans (if_pos past)), fun fits busy =>
      request_word ready (run.trans ((if_neg (by rw [fits]; decide)).trans (if_pos busy))),
      fun fits calm calm' => ⟨fun same => ?_, fun other was is => ?_, fun was is => ?_, fun x t was is hx ht => ?_,
        fun other was is => ?_⟩⟩
    · exact request_word ready (run.trans ((if_neg (by rw [fits]; decide)).trans
        ((if_neg (by rw [calm, calm']; decide)).trans (if_pos same))))
    · subst hu hchs
      exact write fits calm calm' other (applyEntry_used at_ was is)
    · subst hu hchs
      exact write fits calm calm' (fun h => is (h ▸ was)) (applyEntry_begins at_ was is)
    · subst hu hchs
      exact write fits calm calm' (fun h => was (h ▸ is)) ((applyEntry_ends at_ was is).trans
        (restartGroups_retired _ _ hx ht))
    · subst hu hchs
      exact write fits calm calm' other (applyEntry_unused at_ was is)
  · exact request_word ready (writeChannel_bad fun c named => by rw [unknown] at named; cases named)
  · exact request_word ready (writeChannel_bad fun c _ => .inl bad)
  · exact request_word ready (writeChannel_bad fun c _ => .inr (.inl bad))
  · exact request_word ready (writeChannel_bad fun c _ => .inr (.inr ⟨i, rfl, bad⟩))
  · exact request_same ready rfl
  · rw [entryAllowed_false_iff, ownedCount_eq, hn]

end Sys2Proof.Machine
end

