-- ==== Sys2Proof/Proofs/FireInputs.lean ====
section
/-!
PROOFS. A fire zone's inputs and timers, and its latches cleared.
-/

namespace Sys2Proof.Machine

variable {s : State} {z : Zone} {x y w : FireZone}

/-! ### One fire zone written -/

theorem State.setFire_get (z : Zone) (x : FireZone) : (s.setFire z x).fire[z] = x := by simp

theorem State.setFire_setFire (z : Zone) (x y : FireZone) : (s.setFire z x).setFire z y = s.setFire z y := by
  simp [State.setFire]

theorem State.setFire_same (z : Zone) : s.setFire z s.fire[z] = s := by simp [State.setFire]

theorem State.modFire_of (at_ : s.fire[z] = x) (f : FireZone → FireZone) : s.modFire z f = s.setFire z (f x) := by
  rw [← at_]; rfl

theorem State.modFire_setFire (z : Zone) (f : FireZone → FireZone) : (s.setFire z x).modFire z f = s.setFire z (f x) := by
  rw [State.modFire_of (State.setFire_get z x), State.setFire_setFire]

theorem State.modFire_post (e : Event) (f : FireZone → FireZone) : (post e s).modFire z f = post e (s.modFire z f) := rfl

theorem setFire_post (e : Event) : (post e s).setFire z x = post e (s.setFire z x) := rfl

theorem postAll_setFire (es : List Event) : (postAll es s).setFire z x = postAll es (s.setFire z x) := by
  simp [postAll_eq, State.setFire]

/-! ### The isolate key -/

theorem isolateKey_same {on : Bool} (h : s.fire[z].isolateOn = on) : isolateKey z on s = s := if_pos h

section
variable {on : Bool} {u : State}

/-- A change of the key in STARTING is read and not reported. -/
theorem isolateKey_starting (at_ : s.fire[z] = x) (change : x.isolateOn ≠ on) (state : x.state = .starting)
    (hy : y = { x with isolateOn := on }) : isolateKey z on s = s.setFire z y := by
  subst hy
  have entered : (isolateReads z on s).fireState z = .starting := by
    rw [State.fireState, isolateReads, State.modFire_of at_, State.setFire_get]
    exact state
  unfold isolateKey
  rw [at_, if_neg change]
  simp only [entered, if_true]
  rw [isolateReads, State.modFire_of at_]

/-- A change of the key in any other state is reported with the state. -/
theorem isolateKey_reported {e : FireState} (at_ : s.fire[z] = x) (change : x.isolateOn ≠ on) (state : x.state = e)
    (started : e ≠ .starting) (hy : y = { x with isolateOn := on }) (hu : u = post (.isolateKey z on e) (s.setFire z y)) :
    (e = .predischarge → on = true → isolateKey z on s =
      post (.isolated z) (enterFire z .alarm .isolateOn
        { u with fire := s.fire.set z { y with countdown := .stopped } })) ∧
    (e = .alarm → on = false → isolateKey z on s = isolateOffInAlarm z u) ∧
    ((e ≠ .predischarge ∨ on = false) → (e ≠ .alarm ∨ on = true) → isolateKey z on s = u) := by
  have reads : isolateReads z on s = s.setFire z y := by rw [isolateReads, State.modFire_of at_, hy]
  have entered : (s.setFire z y).fireState z = e := by rw [State.fireState, State.setFire_get, hy, ← state]
  have live : u.fire[z] = y := by rw [hu]; exact State.setFire_get z y
  have stands : u.fireState z = e := by rw [State.fireState, live, hy, ← state]
  have run : isolateKey z on s = _ := if_neg (by rw [at_]; exact change)
  rw [run]
  simp only [reads, entered, if_neg started]
  rw [← hu, stands]
  refine ⟨?_, ?_, ?_⟩
  · rintro rfl rfl
    rw [State.modFire_of live, hu, setFire_post, State.setFire_setFire]
    rfl
  · rintro rfl rfl
    rfl
  · intro h h'
    split
    · simp at h
    · simp at h'
    · rfl

end

theorem isolateOffInAlarm_manual (h : 1 ≤ (s.counts z).manual) : isolateOffInAlarm z s = manualPath z s := if_pos h

theorem isolateOffInAlarm_coincident (h : (s.counts z).manual = 0) (h' : s.coincidence z ≤ (s.counts z).auto) :
    isolateOffInAlarm z s = releaseTest z .isolateOff s := by
  unfold isolateOffInAlarm coincident
  rw [if_neg (by omega), if_pos (decide_eq_true h')]

theorem isolateOffInAlarm_stands (h : (s.counts z).manual = 0) (h' : (s.counts z).auto < s.coincidence z) :
    isolateOffInAlarm z s = s := by
  unfold isolateOffInAlarm coincident
  rw [if_neg (by omega), if_neg (by simpa using h')]

/-! ### The abort station and the confirm input -/

theorem abortStation_other {held : Bool} (at_ : s.fire[z] = x) (change : x.abortHeld ≠ held)
    (state : x.state ≠ .predischarge) (hy : y = { x with abortHeld := held }) : abortStation z held s = s.setFire z y := by
  have entered : (s.setFire z y).fireState z ≠ .predischarge := by
    rw [State.fireState, State.setFire_get, hy]
    exact state
  unfold abortStation
  rw [at_, if_neg change, abortReads, State.modFire_of at_, ← hy]
  exact if_neg entered

theorem abortStation_predischarge {held : Bool} {c : Countdown} (at_ : s.fire[z] = x) (change : x.abortHeld ≠ held)
    (state : x.state = .predischarge)
    (hc : abortedCountdown held (s.counts z).manual s.store.fire[z].countdown x.countdown = c)
    (hy : y = { x with abortHeld := held, countdown := c }) :
    abortStation z held s = post (.abort z held c.secs) (s.setFire z y) := by
  obtain ⟨w, hw⟩ : ∃ w : FireZone, w = { x with abortHeld := held } := ⟨_, rfl⟩
  have live : (s.setFire z w).fire[z] = w := State.setFire_get z w
  have entered : (s.setFire z w).fireState z = .predischarge := by rw [State.fireState, live, hw, state]
  unfold abortStation
  rw [at_, if_neg change, abortReads, State.modFire_of at_, ← hw]
  refine (if_pos entered).trans ?_
  have shown : abortedCountdown held ((s.setFire z w).counts z).manual ((s.setFire z w).fireSettings z).countdown
      (s.setFire z w).fire[z].countdown = c := by rw [live, hw]; exact hc
  dsimp only
  rw [shown, State.modFire_setFire, hw, hy]

theorem confirmSeen_none (h : s.fire[z].confirmWait = none) : confirmSeen z s = s := by
  unfold confirmSeen
  rw [h]

theorem confirmSeen_active {left : Nat} (at_ : s.fire[z] = x) (wait : x.confirmWait = some left)
    (active : x.confirmActive = true) : confirmSeen z s =
      post (.dischargeConfirmed z (30 - left)) (s.setFire z { x with confirmSeen := true, confirmWait := none }) := by
  unfold confirmSeen
  rw [at_, wait]
  dsimp only
  rw [if_pos active, State.modFire_of at_]

/-! ### Release, soak and vent -/

theorem countdownExpires_running {n : Nat} (at_ : s.fire[z] = x) (state : x.state = .predischarge)
    (running : x.countdown = .running n)
    (hy : y = { x with countdown := .stopped, releaseOut := true, pulse := some 10, confirmWait := some 30
                       confirmSeen := false, soak := some s.store.fire[z].soak, soakComplete := false }) :
    countdownExpires z s = confirmSeen z (enterFire z .discharged .expiry
      ((s.setStore { s.store with spent := s.store.spent.set z true }).setFire z y)) := by
  unfold countdownExpires
  rw [State.fireState, at_, state, running]
  dsimp only
  rw [release, State.modFire_of (s := s.setStore _) (by exact at_), hy]
  rfl

theorem confirmWaitExpires_unseen (at_ : s.fire[z] = x) (wait : x.confirmWait.isSome = true)
    (unseen : x.confirmSeen = false) :
    confirmWaitExpires z s = post (.dischargeFault z) (s.setFire z { x with confirmWait := none }) := by
  obtain ⟨left, wait⟩ := Option.isSome_iff_exists.1 wait
  unfold confirmWaitExpires
  rw [at_, wait]
  dsimp only
  rw [State.modFire_of at_, State.setFire_get]
  exact if_neg (by rw [unseen]; exact Bool.false_ne_true)

theorem soakExpires_running (at_ : s.fire[z] = x) (state : x.state = .discharged) (soak : x.soak.isSome = true) :
    soakExpires z s = post (.soakComplete z) (s.setFire z { x with soak := none, soakComplete := true }) := by
  obtain ⟨left, soak⟩ := Option.isSome_iff_exists.1 soak
  have run : soakExpires z s =
      post (.soakComplete z) (s.modFire z fun x => { x with soak := none, soakComplete := true }) := by
    unfold soakExpires
    rw [State.fireState, at_, state, soak]
  rw [run, State.modFire_of at_]

/-! ### The latches of a zone cleared (R149) -/

theorem clearLatches_setFire : (clearLatches z s).setFire z x = clearLatches z (s.setFire z x) := by
  unfold clearLatches
  rw [postAll_setFire]
  rfl

theorem clearLatches_fire : (clearLatches z s).fire = s.fire := by
  unfold clearLatches
  rw [postAll_eq]
  rfl

theorem ventExpires_running (at_ : s.fire[z] = x) (state : x.state = .vent) (vent : x.vent.isSome = true)
    (hy : y = { x with ventOut := false, vent := none, soakComplete := false, confirmSeen := false }) : ventExpires z s =
      evaluate z .ventEnd (enterFire z .normal .ventEnd (clearLatches z (s.setFire z y))) := by
  obtain ⟨left, vent⟩ := Option.isSome_iff_exists.1 vent
  have run : ventExpires z s = evaluate z .ventEnd (enterFire z .normal .ventEnd
      ((clearLatches z (s.modFire z fun x => { x with ventOut := false, vent := none })).modFire z fun x =>
        { x with soakComplete := false, confirmSeen := false })) := by
    unfold ventExpires
    rw [State.fireState, at_, state, vent]
  obtain ⟨w, hw⟩ : ∃ w : FireZone, w = { x with ventOut := false, vent := none } := ⟨_, rfl⟩
  have live : (clearLatches z (s.setFire z w)).fire[z] = w := by
    rw [clearLatches_fire]
    exact State.setFire_get z w
  rw [run, State.modFire_of at_, ← hw, State.modFire_of live, clearLatches_setFire, State.setFire_setFire, hy, hw]

theorem clearedState_eq (prealarm : Option Nat) (d : Detector) : clearedState prealarm d = unlatchedState prealarm d := by
  unfold clearedState unlatchedState
  cases hs : d.state <;> cases hl : d.level <;> cases prealarm <;> simp

/-- The detectors of one loop after the latches of a zone are cleared. -/
theorem clearLoop_dets (st : Store) (l : LoopId) (z : Zone) (x : Loop) (a : Address) :
    (clearLoop st l z x).dets[a] = if st.detectors[l][a].enabled = true ∧ st.detectors[l][a].zone = z then
      clearDetector (st.prealarmLevel st.detectors[l][a].type) x.dets[a] else x.dets[a] := by
  simp [clearLoop]

/-- The loops with the latches of a zone cleared. -/
def clearedLoops (z : Zone) (s : State) : Vector Loop 2 :=
  Vector.ofFn fun l : LoopId => clearLoop s.store l z s.loop[l]

theorem clearLatches_eq (z : Zone) (s : State) :
    clearLatches z s = postAll (clearReports s z) { s with loop := clearedLoops z s } := by
  have loops : (s.loop.set 0 (clearLoop s.store 0 z s.loop[0])).set 1 (clearLoop s.store 1 z s.loop[1]) =
      clearedLoops z s := by
    ext i hi
    obtain rfl | rfl : i = 0 ∨ i = 1 := by omega
    · simp [clearedLoops]
    · simp [clearedLoops]
  rw [← loops]
  rfl

theorem clearedLoops_det (z : Zone) (s : State) (l : LoopId) (a : Address) : (clearedLoops z s)[l].dets[a] =
    if s.store.detectors[l][a].enabled = true ∧ s.store.detectors[l][a].zone = z then
      clearDetector (s.store.prealarmLevel s.store.detectors[l][a].type) s.loop[l].dets[a] else s.loop[l].dets[a] := by
  rw [← clearLoop_dets]
  simp [clearedLoops]

/-- The reports of a clear on one loop name the detectors of it whose state changed. -/
theorem filterMap_detectorsOn (z : Zone) (s : State) (l : LoopId) :
    ((s.detectorsOn z l).filterMap fun d =>
      let new := clearedState (s.store.prealarmLevel d.entry.type) d.live
      if new = d.live.state then none else some (.detectorState d.loop d.address z d.entry.type d.live.level new)) =
    ((List.finRange 32).filter fun a => (clearedLoops z s)[l].dets[a].state != s.loop[l].dets[a].state).map fun a =>
      Event.detectorState l a z s.store.detectors[l][a].type (clearedLoops z s)[l].dets[a].level
        (clearedLoops z s)[l].dets[a].state := by
  rw [State.detectorsOn, List.filterMap_filterMap, ← List.filterMap_eq_filter, List.map_filterMap]
  refine List.filterMap_congr fun a _ => ?_
  have cleared := clearedLoops_det z s l a
  simp only [Option.guard, State.detEntry, State.det, apply_ite (Option.map _), Option.map_some, Option.map_none]
  generalize (clearedLoops z s)[l].dets[a] = n at cleared ⊢
  by_cases mine : s.store.detectors[l][a].enabled = true ∧ s.store.detectors[l][a].zone = z
  · rw [if_pos mine] at cleared
    obtain ⟨on, zone⟩ := mine
    rw [cleared]
    by_cases same : clearedState (s.store.prealarmLevel s.store.detectors[l][a].type) s.loop[l].dets[a] = s.loop[l].dets[a].state
    · simp_all [clearDetector]
    · simp_all [clearDetector]
  · rw [if_neg mine] at cleared
    rw [cleared]
    simp_all

theorem flatMap_finRange_two {α : Type} (f : Fin 2 → List α) : (List.finRange 2).flatMap f = f 0 ++ f 1 := by
  rw [show List.finRange 2 = [0, 1] from rfl, List.flatMap_cons, List.flatMap_singleton]

theorem clearLatches_cleared (z : Zone) (s : State) : LatchesCleared z s (clearLatches z s) := by
  refine ⟨clearedLoops z s, fun l => ?_, fun l a e d n he hd hn => ?_, ?_⟩
  · simp [clearedLoops, clearLoop]
  · rw [clearedLoops_det, ← he, ← hd] at hn
    refine ⟨fun other => ?_, fun on mine => ?_⟩
    · rw [hn, if_neg]
      rintro ⟨on, mine⟩
      obtain off | away := other
      · rw [on] at off
        cases off
      · exact away mine
    · rw [hn, if_pos ⟨on, mine⟩, clearDetector, clearedState_eq]
  · rw [clearLatches_eq, clearReports, State.detectorsOf, List.filterMap_append, filterMap_detectorsOn,
      filterMap_detectorsOn, flatMap_finRange_two]

/-- Settles O60. -/
theorem fireInputsAndTimersRun : Obligations.FireInputsAndTimersRun := by
  intro s z x on at_
  have at_ := at_.symm
  have key : ∀ {v t}, isolateKey z v s = t → exec (.isolateKeyChange z v) s = .next t :=
    fun h => (fieldEvent_powered on).trans (congrArg _ h)
  have station : ∀ {v t}, abortStation z v s = t → exec (.abortStationChange z v) s = .next t :=
    fun h => (fieldEvent_powered on).trans (congrArg _ h)
  have confirm : ∀ {v t}, confirmSeen z (confirmReads z v s) = t → exec (.dischargeConfirmChange z v) s = .next t :=
    fun {v _} h => by
      show execDischargeConfirmChange z v s = _
      rw [execDischargeConfirmChange, fieldEvent_powered on, h]
  refine ⟨fun key' same => ?_, fun y w u off state hy hw hu => ?_, fun y u turned state hy hu =>
      ⟨fun manual => ?_, fun manual reach => ?_, fun manual short => ?_⟩, fun y off state hy => ?_,
    fun v y change state hy => ?_, fun held n y change state running manual hy => ?_,
    fun v y change started calm quiet hy => ?_, fun held y change state hy => ?_,
    fun n y free state running manual hy => ?_, fun n y held state frozen hy => ?_, fun active y wait hy => ?_,
    fun left y wait hy => ?_, fun n y state running hy => ?_, fun y pulse hy => ?_, fun y wait unseen hy => ?_,
    fun y state soak hy => ?_, fun y state vent hy => ⟨_, rfl, clearLatches_cleared z _, ?_⟩⟩
  · exact key (isolateKey_same (at_ ▸ same))
  · subst hw
    exact key ((isolateKey_reported at_ (by rw [off]; exact Bool.false_ne_true) state (by decide) hy hu).1 rfl rfl)
  · have run := (isolateKey_reported at_ (by rw [turned]; decide) state (by decide) hy hu).2.1 rfl rfl
    exact key (run.trans (isolateOffInAlarm_manual (by rw [hu]; exact manual)))
  · have run := (isolateKey_reported at_ (by rw [turned]; decide) state (by decide) hy hu).2.1 rfl rfl
    exact key (run.trans (isolateOffInAlarm_coincident (by rw [hu]; exact manual) (by rw [hu]; exact reach)))
  · have run := (isolateKey_reported at_ (by rw [turned]; decide) state (by decide) hy hu).2.1 rfl rfl
    exact key (run.trans (isolateOffInAlarm_stands (by rw [hu]; exact manual) (by rw [hu]; exact short)))
  · exact key ((isolateKey_reported at_ (by rw [off]; exact Bool.false_ne_true) state (by decide) hy rfl).2.2
      (.inl (by decide)) (.inr rfl))
  · exact key (isolateKey_starting at_ change state hy)
  · refine station (abortStation_predischarge (c := .running n) at_ change state ?_ (by rw [hy, ← running]))
    rw [running]
    refine if_neg fun frozen => ?_
    simp only [Bool.and_eq_true, beq_iff_eq] at frozen
    have := manual frozen.1
    omega
  · exact key ((isolateKey_reported at_ change rfl started hy rfl).2.2 (.inl calm) (.inl quiet))
  · exact station (abortStation_other at_ change state hy)
  · refine station (abortStation_predischarge (c := .frozen n) at_ (by rw [free]; decide) state ?_ hy)
    rw [running, manual]
    rfl
  · refine station (abortStation_predischarge (c := .running s.store.fire[z].countdown) at_ (by rw [held]; decide) state ?_ hy)
    rw [frozen]
    rfl
  · subst hy
    refine confirm ?_
    rw [confirmReads, State.modFire_of at_]
    exact confirmSeen_none (by rw [State.setFire_get]; exact wait)
  · subst hy
    refine confirm ?_
    rw [confirmReads, State.modFire_of at_]
    refine (confirmSeen_active (State.setFire_get z _) (by exact wait) (by rfl)).trans ?_
    rw [State.setFire_setFire]
    rfl
  · exact (event_powered on).trans (congrArg _ (countdownExpires_running at_ state running hy))
  · refine (event_powered on).trans (congrArg _ ?_)
    rw [at_, if_pos pulse, State.modFire_of at_, hy]
    rfl
  · exact (event_powered on).trans (congrArg _ (hy ▸ confirmWaitExpires_unseen at_ wait unseen))
  · exact (event_powered on).trans (congrArg _ (hy ▸ soakExpires_running at_ state soak))
  · exact (event_powered on).trans (congrArg _ (ventExpires_running at_ state vent hy))

end Sys2Proof.Machine
end

