-- ==== Sys2Proof/Proofs/FireRequests.lean ====
section
/-!
PROOFS. The evaluation of a fire zone, its requests, settings and reading.
-/

namespace Sys2Proof.Machine

variable {s : State} {z : Zone} {x y : FireZone} {c : FireCause} {k v : Int}

/-! ### The evaluation and what it leads to (R163 to R165) -/

theorem enterFire_order (at_ : s.fire[z] = x) (e : FireState) (c : FireCause) (hy : y = { x with state := e }) :
    ∃ order : List FireTaker, order.Perm (receivers s z) ∧
      enterFire z e c s = actAll (react z x.state e) order
        { post (.fireState z x.state e c) { s with fire := s.fire.set z y } with choice := s.choice + 1 } := by
  subst at_ hy
  exact enterFire_spec z e c s

theorem moveFire_same {e : FireState} (h : s.fire[z].state = e) : moveFire z e c s = s := if_pos h

theorem moveFire_other {e : FireState} (h : s.fire[z].state ≠ e) : moveFire z e c s = enterFire z e c s := if_neg h

theorem evaluate_manual (h : 1 ≤ (s.counts z).manual) : evaluate z c s = manualPath z s := if_pos h

theorem evaluate_coincident (h : (s.counts z).manual = 0) (h' : s.coincidence z ≤ (s.counts z).auto) :
    evaluate z c s = releaseTest z c (enterFire z .alarm c s) := by
  unfold evaluate coincident
  rw [if_neg (by omega), if_pos (decide_eq_true h')]

theorem evaluate_short (h : (s.counts z).manual = 0) (h' : (s.counts z).auto < s.coincidence z) : evaluate z c s =
    if 1 ≤ (s.counts z).auto ∨ 1 ≤ (s.counts z).prealarm then moveFire z .prealarm c s else moveFire z .normal c s := by
  unfold evaluate coincident
  rw [if_neg (by omega), if_neg (by simpa using h')]

/-- PREDISCHARGE is entered with the countdown loaded, frozen where the station is held and no manual alarm is latched
(R167). -/
theorem toPredischarge_eq (at_ : s.fire[z] = x)
    (hy : y = { x with countdown := if x.abortHeld = true ∧ (s.counts z).manual = 0 then .frozen s.store.fire[z].countdown
                                    else .running s.store.fire[z].countdown }) :
    toPredischarge z c s = enterFire z .predischarge c (s.setFire z y) := by
  have loaded : loadedCountdown x.abortHeld (s.counts z).manual s.store.fire[z].countdown = y.countdown := by
    rw [hy, loadedCountdown]
    simp only [Bool.and_eq_true, beq_iff_eq]
  unfold toPredischarge
  rw [State.modFire_of at_]
  dsimp only [State.fireSettings]
  rw [loaded, hy]

theorem releaseTest_free (h : heldOff z s = false) : releaseTest z c s = toPredischarge z c s :=
  if_neg (by rw [h]; exact Bool.false_ne_true)

theorem manualPath_free (h : heldOff z s = false) : manualPath z s = toPredischarge z .manual s :=
  if_neg (by rw [h]; exact Bool.false_ne_true)

theorem releaseTest_heldOff (h : heldOff z s = true) : releaseTest z c s = postAll (heldOffReports z s) s := if_pos h

/-! ### What takes a fire state -/

/-- `t` is `s` but for what the blocks that take a fire state change: climate, hatches, banks, reports and the free order. -/
def FireTaken (s t : State) : Prop :=
  t = { s with climate := t.climate, hatch := t.hatch, bank := t.bank, reports := t.reports, choice := t.choice }

namespace FireTaken

variable {t u : State}

theorem trans (h : FireTaken s t) (h' : FireTaken t u) : FireTaken s u := by
  unfold FireTaken at h h'
  rw [h', h]
  rfl

theorem store (h : FireTaken s t) : t.store = s.store := by
  unfold FireTaken at h
  rw [h]

theorem loop (h : FireTaken s t) : t.loop = s.loop := by
  unfold FireTaken at h
  rw [h]

theorem banks (h : t = { s with bank := t.bank, reports := t.reports }) : FireTaken s t := by
  unfold FireTaken
  rw [h]

theorem ite {c : Prop} [Decidable c] (h : FireTaken s t) (h' : FireTaken s u) : FireTaken s (if c then t else u) := by
  split
  · exact h
  · exact h'

end FireTaken

theorem shedReturn_taken : FireTaken s (shedReturn z s) := by
  unfold shedReturn
  dsimp only
  split
  · split
    · split <;> rfl
    · split <;> rfl
  · rfl

theorem climateTakesFire_taken (l e : FireState) : FireTaken s (climateTakesFire z l e s) := by
  unfold climateTakesFire
  refine .ite rfl (.ite ?_ rfl)
  exact shedReturn_taken.trans rfl

theorem holdHatch_taken (h : HatchId) : FireTaken s (holdHatch h s) := by
  unfold holdHatch endQuery
  dsimp only
  refine .ite rfl ?_
  split
  · split <;> rfl
  · rfl

theorem hatchTakesFire_taken (h : HatchId) (l e : FireState) : FireTaken s (hatchTakesFire h l e s) := by
  have held : FireTaken s (if !l.holds && e.holds then holdHatch h s else s) := .ite (holdHatch_taken h) rfl
  have driven : ∀ u, FireTaken u
      (if e = .predischarge ∧ l ≠ .predischarge then u.modHatch h (·.bothShutters driveCloser) else u) :=
    fun _ => .ite rfl rfl
  have left : ∀ u, FireTaken u (if l.holds && !e.holds then
      if ((u.modHatch h (·.bothShutters stopCloser)).hatch[h]).phase = .heldFire then
        startScan h .resume (u.modHatch h (·.bothShutters stopCloser))
      else u.modHatch h (·.bothShutters stopCloser)
    else u) := fun _ => .ite (.ite rfl rfl) rfl
  exact (held.trans (driven _)).trans (left _)

theorem takeHead_taken (b : BankId) : FireTaken s (takeHead b s) := .banks (takeHead_only b s)

theorem parkStart_taken (b : BankId) : FireTaken s (parkStart b s) := .banks (parkStart_only b s)

theorem parkBegins_taken (b : BankId) : FireTaken s (parkBegins b s) := by
  have demand : FireTaken s (s.modBank b fun x => { x with parkDemand := true, blockedPosted := false }) := rfl
  unfold parkBegins
  dsimp only
  split
  · exact demand.trans (parkStart_taken b)
  · exact demand.trans (parkStart_taken b)
  · exact (demand.trans (t := _) (u := State.modBank _ b _) rfl).trans (parkStart_taken b)
  · exact demand

theorem parkEnds_taken (b : BankId) : FireTaken s (parkEnds b s) := by
  have demand : FireTaken s (s.modBank b fun x => { x with parkDemand := false }) := rfl
  unfold parkEnds toIdle
  dsimp only
  split
  · exact (demand.trans (u := State.modBank _ b _) rfl).trans (takeHead_taken b)
  · exact (demand.trans (u := State.modBank _ b _) rfl).trans (takeHead_taken b)
  · exact demand.trans (takeHead_taken b)
  · exact demand

theorem bankTakesFire_taken (b : BankId) (l e : FireState) : FireTaken s (bankTakesFire b l e s) :=
  .ite (parkBegins_taken b) (.ite (parkEnds_taken b) rfl)

theorem react_taken (l e : FireState) (r : FireTaker) : FireTaken s (react z l e r s) := by
  cases r with
  | climate => exact climateTakesFire_taken l e
  | hatch h => exact hatchTakesFire_taken h l e
  | bank b => exact bankTakesFire_taken b l e

/-- A state entered changes nothing but the zone's state and what the blocks that take it change. -/
theorem enterFire_taken (z : Zone) (e : FireState) (c : FireCause) (s : State) :
    FireTaken (s.modFire z fun x => { x with state := e }) (enterFire z e c s) :=
  inFreeOrder_induction (P := FireTaken (s.modFire z fun x => { x with state := e })) rfl
    fun r _ h => h.trans (react_taken _ e r)

theorem enterFire_store (z : Zone) (e : FireState) (c : FireCause) (s : State) : (enterFire z e c s).store = s.store :=
  (enterFire_taken z e c s).store

theorem enterFire_loop (z : Zone) (e : FireState) (c : FireCause) (s : State) : (enterFire z e c s).loop = s.loop :=
  (enterFire_taken z e c s).loop

theorem moveFire_store (z : Zone) (e : FireState) (c : FireCause) (s : State) : (moveFire z e c s).store = s.store := by
  unfold moveFire
  split
  · rfl
  · exact enterFire_store z e c s

theorem moveFire_isolateOn (z : Zone) (e : FireState) (c : FireCause) (s : State) :
    (moveFire z e c s).fire[z].isolateOn = s.fire[z].isolateOn := by
  unfold moveFire
  split
  · rfl
  · simp [enterFire_fire]

/-- What holds a release off is no part of a fire state. -/
theorem manualPath_heldOff (h : heldOff z s = true) :
    manualPath z s = postAll (heldOffReports z s) (moveFire z .alarm .manual s) := by
  unfold manualPath
  rw [if_pos h]
  dsimp only
  rw [heldOffReports, moveFire_isolateOn, moveFire_store]
  rfl

/-! ### Leaving STARTING (R162) -/

theorem firstPassesDone_iff : firstPassesDone z s = true ↔
    ∀ l : LoopId, s.carries l z = true → s.loop[l].firstPass = true := by
  have both : (∀ l : LoopId, s.carries l z = true → s.loop[l].firstPass = true) ↔
      (s.carries 0 z = true → s.loop[0].firstPass = true) ∧ (s.carries 1 z = true → s.loop[1].firstPass = true) :=
    Fin.forall_fin_two
  rw [both]
  simp only [firstPassesDone, Bool.and_eq_true, Bool.or_eq_true, Bool.not_eq_true', ← Bool.not_eq_true,
    ← imp_iff_not_or]

theorem tryLeaveStarting_leaves (state : s.fire[z].state = .starting)
    (done : ∀ l : LoopId, s.carries l z = true → s.loop[l].firstPass = true) :
    tryLeaveStarting z c s = evaluate z c (enterFire z .normal c s) := if_pos ⟨state, firstPassesDone_iff.2 done⟩

theorem tryLeaveStarting_waits {l : LoopId} (carried : s.carries l z = true) (undone : s.loop[l].firstPass = false) :
    tryLeaveStarting z c s = s :=
  if_neg fun h => by
    rw [firstPassesDone_iff.1 h.2 l carried] at undone
    cases undone

theorem tryLeaveStarting_other (state : s.fire[z].state ≠ .starting) : tryLeaveStarting z c s = s :=
  if_neg fun h => state h.1

/-! ### A detector change handed on -/

section
variable {m : Nat}

theorem takeDetectorChange_evaluates (at_ : s.fire[z] = x) (state : x.state = .normal ∨ x.state = .prealarm) :
    takeDetectorChange z m s = evaluate z .detectors s := by
  unfold takeDetectorChange
  rw [State.fireState, at_]
  obtain state | state := state <;> rw [state]

theorem takeDetectorChange_alarm (at_ : s.fire[z] = x) (state : x.state = .alarm) :
    takeDetectorChange z m s = if m < (s.counts z).manual then manualPath z s else s := by
  unfold takeDetectorChange
  rw [State.fireState, at_, state]

theorem takeDetectorChange_thaws {n : Nat} (at_ : s.fire[z] = x) (state : x.state = .predischarge)
    (frozen : x.countdown = .frozen n) (manual : 1 ≤ (s.counts z).manual) (hy : y = { x with countdown := .running n }) :
    takeDetectorChange z m s = s.setFire z y := by
  unfold takeDetectorChange
  rw [State.fireState, at_, state]
  dsimp only
  rw [State.modFire_of at_, frozen]
  dsimp only
  rw [if_pos manual, hy]

theorem takeDetectorChange_counts (at_ : s.fire[z] = x) (state : x.state = .predischarge)
    (runs : (∀ n, x.countdown ≠ .frozen n) ∨ (s.counts z).manual = 0) : takeDetectorChange z m s = s := by
  unfold takeDetectorChange
  rw [State.fireState, at_, state]
  dsimp only
  rw [State.modFire_of at_]
  split
  · next n frozen =>
    obtain runs | none := runs
    · exact absurd frozen (runs n)
    · rw [if_neg (by omega), ← at_, State.setFire_same]
  · rw [← at_, State.setFire_same]

theorem takeDetectorChange_other (at_ : s.fire[z] = x)
    (state : x.state = .starting ∨ x.state = .discharged ∨ x.state = .vent) : takeDetectorChange z m s = s := by
  unfold takeDetectorChange
  rw [State.fireState, at_]
  obtain state | state | state := state <;> rw [state]

end

/-! ### Pages of detectors (R176) -/

/-- The page that begins at a place of the list. -/
theorem pageOf_at {α : Type} (room j : Nat) (l : List α) (low : 1 ≤ j) (high : j ≤ l.length) :
    (pageOf 1 room j l).1.map Prod.snd = (l.drop (j - 1)).take room ∧
      (pageOf 1 room j l).2 = if j + room ≤ l.length then some (j + room) else none := by
  have start : ((j : Int) - (1 : Nat)).toNat = j - 1 := by omega
  unfold pageOf
  rw [if_pos (by omega), start]
  refine ⟨?_, ?_⟩
  · simp [Function.comp_def]
  · simp only [List.length_take, List.length_drop]
    by_cases more : j + room ≤ l.length
    · have full : min room (l.length - (j - 1)) = room := by omega
      rw [full, if_pos more, if_pos (by omega)]
      congr 1
      omega
    · rw [if_neg more, if_neg (by omega)]

theorem pageOf_start {α : Type} (room : Nat) (l : List α) :
    (pageOf 1 room ((1 : Nat) : Int) l).1.map Prod.snd = l.take room := by
  rw [pageOf_first]
  simp [Function.comp_def]

/-- A place that the list does not have gives an empty page. -/
theorem pageOf_outside {α : Type} (room : Nat) {j : Int} {l : List α} (h : j < 1 ∨ l.length < j) :
    pageOf 1 room j l = ([], none) := if_neg (by omega)

theorem detectorsOn_eq (s : State) (z : Zone) (l : LoopId) : s.detectorsOn z l = (List.finRange 32).filterMap fun a =>
    if (s.store.detectors[l][a].enabled && s.store.detectors[l][a].zone == z) = true then
      some { loop := l, address := a, entry := s.store.detectors[l][a], live := s.loop[l].dets[a] } else none := rfl

theorem detectorRows_eq (s : State) (z : Zone) : (s.detectorsOf z).map detectorRow =
    (List.finRange 2).flatMap fun l : LoopId => ((List.finRange 32).filter fun a : Address =>
      s.store.detectors[l][a].enabled && s.store.detectors[l][a].zone == z).map fun a : Address =>
        { loop := l, address := a, zone := z, type := s.store.detectors[l][a].type
          state := s.loop[l].dets[a].state, latch := s.loop[l].dets[a].latch } := by
  have rows : ∀ l : LoopId, (s.detectorsOn z l).map detectorRow = ((List.finRange 32).filter fun a : Address =>
      s.store.detectors[l][a].enabled && s.store.detectors[l][a].zone == z).map fun a : Address =>
        { loop := l, address := a, zone := z, type := s.store.detectors[l][a].type
          state := s.loop[l].dets[a].state, latch := s.loop[l].dets[a].latch } := fun l => by
    rw [detectorsOn_eq, List.map_filterMap, ← List.filterMap_eq_filter, List.map_filterMap]
    refine List.filterMap_congr fun a _ => ?_
    simp only [Option.guard]
    by_cases mine : (s.store.detectors[l][a].enabled && s.store.detectors[l][a].zone == z) = true
    · have zone : s.store.detectors[l][a].zone = z := eq_of_beq (Bool.and_eq_true_iff.1 mine).2
      rw [if_pos mine, if_pos mine]
      simp only [Option.map_some, detectorRow, zone]
    · rw [if_neg mine, if_neg mine]
      rfl
  rw [State.detectorsOf, List.map_append, flatMap_finRange_two, rows, rows]

/-! ### The requests (R171, R173, R174) -/

section
variable (named : indexOf 4 k = some z)
include named

theorem startVent_begins (at_ : s.fire[z] = x) (state : x.state = .discharged) (done : x.soakComplete = true)
    (hy : y = { x with ventOut := true, vent := some s.store.fire[z].vent }) :
    startVent k s = (enterFire z .vent .startVent (s.setFire z y), { word := .ok }) := by
  have begins : s.fireState z = .discharged ∧ s.fire[z].soakComplete = true := by
    rw [State.fireState, at_]
    exact ⟨state, done⟩
  refine (naming_some named).trans ((if_pos begins).trans ?_)
  rw [State.modFire_of at_, hy]
  rfl

theorem startVent_refused (at_ : s.fire[z] = x) (h : x.state ≠ .discharged ∨ x.soakComplete = false) : startVent k s =
    (s, { word := .refused, body := .fireRefused x.state (if x.state = .discharged then x.soak else none) }) := by
  refine (naming_some named).trans ((if_neg fun both => ?_).trans ?_)
  · rw [State.fireState, at_] at both
    obtain other | soaking := h
    · exact other both.1
    · rw [soaking] at both
      cases both.2
  · rw [refuseVent, State.fireState, at_]
    rfl

theorem resetFireZone_alarmed (h : s.fire[z].state = .alarm ∨ s.fire[z].state = .prealarm) : resetFireZone k s =
    (evaluate z .reset (enterFire z .normal .reset (clearLatches z s)), { word := .ok }) := by
  refine (naming_some named).trans ?_
  dsimp only [State.fireState]
  obtain h | h := h <;> rw [h]

theorem resetFireZone_normal (h : s.fire[z].state = .normal) : resetFireZone k s = (clearLatches z s, { word := .ok }) := by
  refine (naming_some named).trans ?_
  dsimp only [State.fireState]
  rw [h]

theorem resetFireZone_refused (at_ : s.fire[z] = x)
    (h : x.state = .starting ∨ x.state = .predischarge ∨ x.state = .discharged ∨ x.state = .vent) :
    resetFireZone k s = (s, { word := .refused, body := .fireRefused x.state none }) := by
  have other : resetFireZone k s = refuseReset z s := by
    refine (naming_some named).trans ?_
    dsimp only [State.fireState]
    rw [at_]
    obtain h | h | h | h := h <;> rw [h]
  rw [other, refuseReset, State.fireState, at_]
  rfl

theorem restoreAgent_predischarge (h : s.fire[z].state = .predischarge) :
    restoreAgent k s = answer .refused .empty s := (naming_some named).trans (if_pos h)

theorem restoreAgent_unspent (h : s.fire[z].state ≠ .predischarge) (unspent : s.store.spent[z] = false) :
    restoreAgent k s = (s, { word := .ok }) :=
  (naming_some named).trans ((if_neg h).trans (if_neg (by rw [unspent]; exact Bool.false_ne_true)))

theorem restoreAgent_spent {u : State} (h : s.fire[z].state ≠ .predischarge) (spent : s.store.spent[z] = true)
    (hu : u = post (.agentRestored z) (s.setStore { s.store with spent := s.store.spent.set z false })) :
    restoreAgent k s = (afterRestore z u, { word := .ok }) := by
  subst hu
  exact (naming_some named).trans ((if_neg h).trans (if_pos spent))

end

theorem afterRestore_tests (state : s.fire[z].state = .alarm) (free : s.fire[z].isolateOn = false)
    (called : 1 ≤ (s.counts z).manual ∨ s.coincidence z ≤ (s.counts z).auto) :
    afterRestore z s = releaseTest z .agentRestored s := by
  refine if_pos ⟨state, by rw [free]; rfl, ?_⟩
  exact called.imp_right decide_eq_true

theorem afterRestore_stands (h : s.fire[z].state ≠ .alarm ∨ s.fire[z].isolateOn = true ∨
    (s.counts z).manual = 0 ∧ (s.counts z).auto < s.coincidence z) : afterRestore z s = s := by
  refine if_neg fun ⟨state, free, called⟩ => ?_
  obtain h | h | ⟨manual, short⟩ := h
  · exact h state
  · rw [h] at free
    cases free
  · obtain called | called := called
    · omega
    · have := of_decide_eq_true called
      omega

theorem reevaluate_eq (z : Zone) (s : State) : reevaluate z s =
    if s.fire[z].state = .normal ∨ s.fire[z].state = .prealarm then evaluate z .coincidence s else s := by
  unfold reevaluate
  rw [State.fireState]
  cases s.fire[z].state <;> simp

theorem held_eq (s : State) (z : Zone) :
    s.held z = decide (s.fire[z].state ≠ .normal ∧ s.fire[z].state ≠ .prealarm) := by
  unfold State.held State.fireState
  cases s.fire[z].state <;> rfl

theorem shed_eq (s : State) (z : Zone) :
    s.shed z = decide (s.fire[z].state ∈ ([.alarm, .predischarge, .discharged, .vent] : List FireState)) := by
  unfold State.shed State.fireState
  cases s.fire[z].state <;> rfl

/-- A reading of a fire zone, its page of detectors given. -/
theorem readFireZone_page {start : Option Int} {f : FireView} {rows : List DetectorRow} (named : indexOf 4 k = some z) (at_ : s.fire[z] = x)
    (view : f = { live := x, inHoldSet := decide (x.state ≠ .normal ∧ x.state ≠ .prealarm)
                  inShedSet := decide (x.state ∈ ([.alarm, .predischarge, .discharged, .vent] : List FireState))
                  settings := s.store.fire[z], spent := s.store.spent[z], counts := s.counts z
                  coincidence := s.coincidence z, degraded := s.degraded z, page := f.page, next := f.next })
    (list : (s.detectorsOf z).map detectorRow = rows)
    (page : (pageOf 1 16 (start.getD 1) rows).1.map Prod.snd = f.page)
    (next : (pageOf 1 16 (start.getD 1) rows).2 = f.next) :
    readFireZone k start s = (s, { word := .ok, body := .fireZone f }) := by
  refine (naming_some named).trans (Prod.ext rfl ?_)
  dsimp only
  rw [list, page, next, held_eq, shed_eq, at_]
  exact congrArg (fun f => ({ word := .ok, body := .fireZone f } : Answer)) view.symm

/-- Settles O59. -/
theorem fireRequestsAreTaken : Obligations.FireRequestsAreTaken := by
  intro s z x k at_ named
  have at_ := at_.symm
  refine ⟨fun e c y hy => enterFire_order at_ e c hy, fun c => ⟨evaluate_manual, evaluate_coincident,
      fun manual short some_ => (evaluate_short manual short).trans (if_pos some_), fun manual short auto pre => ?_⟩,
    clearLatches_cleared z s, fun c => ⟨fun state => tryLeaveStarting_leaves (by rw [at_, state]),
      fun l => tryLeaveStarting_waits, fun state => tryLeaveStarting_other (by rw [at_]; exact state)⟩,
    fun m => ⟨takeDetectorChange_evaluates at_, takeDetectorChange_alarm at_, fun n y => takeDetectorChange_thaws at_,
      takeDetectorChange_counts at_, takeDetectorChange_other at_⟩, fun c y hy => ⟨fun free whole => ?_,
      fun isolated whole => ?_, fun free spent => ?_, fun isolated spent => ?_⟩,
    fun e c => ⟨fun state => moveFire_same (by rw [at_]; exact state),
      fun state => moveFire_other (by rw [at_]; exact state)⟩, fun ready => ?_⟩
  · exact (evaluate_short manual short).trans (if_neg (by omega))
  · have open_ : heldOff z s = false := by rw [heldOff, at_, free, whole]; rfl
    exact ⟨(releaseTest_free open_).trans (toPredischarge_eq at_ hy), (manualPath_free open_).trans (toPredischarge_eq at_ hy)⟩
  · have held : heldOff z s = true := by rw [heldOff, at_, isolated]; rfl
    have reports : heldOffReports z s = [.isolated z] := by rw [heldOffReports, at_, isolated, whole]; rfl
    rw [releaseTest_heldOff held, manualPath_heldOff held, reports]
    exact ⟨rfl, rfl⟩
  · have held : heldOff z s = true := by rw [heldOff, at_, free, spent]; rfl
    have reports : heldOffReports z s = [.agentSpent z] := by rw [heldOffReports, at_, free, spent]; rfl
    rw [releaseTest_heldOff held, manualPath_heldOff held, reports]
    exact ⟨rfl, rfl⟩
  · have held : heldOff z s = true := by rw [heldOff, at_, isolated]; rfl
    have reports : heldOffReports z s = [.isolated z, .agentSpent z] := by rw [heldOffReports, at_, isolated, spent]; rfl
    rw [releaseTest_heldOff held, manualPath_heldOff held, reports]
    exact ⟨rfl, rfl⟩
  · have at_' : s.heard.fire[z] = x := at_
    have list : ∀ rows : List DetectorRow, rows = _ → (s.heard.detectorsOf z).map detectorRow = rows :=
      fun _ h => (detectorRows_eq s z).trans h.symm
    refine ⟨fun u state spent hu => ⟨fun free called => ?_, fun stands => ?_⟩, fun y state done hy => ?_, fun other => ?_,
      fun state soaking => ?_, fun state => ?_, fun state => ?_, fun state => ?_, fun calm quiet spent => ?_,
      fun calm whole => ?_, fun state => ?_, fun rows view hrows hview => ⟨fun page next => ?_, fun j low high page next => ?_,
        fun j outside page next => ?_⟩, fun v y => ⟨fun hy => ?_, fun hy => ?_, fun hy => ?_, fun u t hu new hy ht => ?_,
        fun same => ?_⟩⟩
    · refine request_next ready ((restoreAgent_spent (s := s.heard) named ?_ spent hu).trans (Prod.ext ?_ rfl))
      · rw [at_', state]
        decide
      · exact afterRestore_tests (by rw [hu]; exact (congrArg _ at_').trans state)
          (by rw [hu]; exact (congrArg _ at_').trans free) (by rw [hu]; exact called)
    · refine request_next ready ((restoreAgent_spent (s := s.heard) named ?_ spent hu).trans (Prod.ext ?_ rfl))
      · rw [at_', state]
        decide
      · exact afterRestore_stands (.inr (by rw [hu]; exact stands.imp_left (congrArg _ at_').trans))
    · exact request_next ready (startVent_begins named at_' state done hy)
    · refine request_same ready ((startVent_refused named at_' (.inl other)).trans ?_)
      rw [if_neg other]
    · refine request_same ready ((startVent_refused named at_' (.inr soaking)).trans ?_)
      rw [if_pos state, state]
    · exact request_next ready (resetFireZone_alarmed (s := s.heard) named (by rw [at_']; exact state))
    · exact request_next ready (resetFireZone_normal (s := s.heard) named (by rw [at_']; exact state))
    · exact request_same ready (resetFireZone_refused named at_' state)
    · refine request_next ready ((restoreAgent_spent (s := s.heard) named (by rw [at_']; exact calm) spent rfl).trans ?_)
      refine Prod.ext (afterRestore_stands (.inl fun state => quiet ?_)) rfl
      rw [← at_, ← state]
      rfl
    · exact request_same ready (restoreAgent_unspent (s := s.heard) named (by rw [at_']; exact calm) whole)
    · exact request_word ready (restoreAgent_predischarge (s := s.heard) named (by rw [at_']; exact state))
    · refine request_same ready (readFireZone_page (s := s.heard) named at_' hview (list rows hrows) ?_ ?_)
      · rw [page]
        exact pageOf_start 16 rows
      · rw [next]
        exact congrArg Prod.snd (pageOf_first 1 16 rows)
    · refine request_same ready (readFireZone_page (s := s.heard) named at_' hview (list rows hrows) ?_ ?_)
      · rw [page]
        exact (pageOf_at 16 j rows low high).1
      · rw [next]
        refine (pageOf_at 16 j rows low high).2.trans ?_
        simp only [show j + 16 ≤ rows.length ↔ j + 15 < rows.length from Iff.rfl]
    · refine request_same ready (readFireZone_page (s := s.heard) named at_' hview (list rows hrows) ?_ ?_)
      · rw [page]
        exact congrArg (fun p => p.1.map Prod.snd) (pageOf_outside 16 outside)
      · rw [next]
        exact congrArg Prod.snd (pageOf_outside 16 outside)
    · subst hy
      exact request_next ready (indexedSetting_some named)
    · subst hy
      exact request_next ready (indexedSetting_some named)
    · subst hy
      exact request_next ready (indexedSetting_some named)
    · subst hu hy ht
      refine request_next ready ((indexedSetting_some named).trans ((if_neg fun same => new ?_).trans (Prod.ext ?_ rfl)))
      · rw [same]
        rfl
      · exact (reevaluate_eq z _).trans (by rw [← at_]; rfl)
    · exact request_same ready ((indexedSetting_some named).trans (if_pos same))

end Sys2Proof.Machine
end

