-- ==== Sys2Proof/Proofs/Polls.lean ====
section
/-!
PROOFS. Polls, rounds and bus errors of a detection loop.
-/

namespace Sys2Proof.Machine

variable {s : State} {l o : LoopId} {a b p : Address} {x y : Loop} {z : Zone}

/-! ### One loop written -/

theorem State.setLoop_get (l : LoopId) (x : Loop) : (s.setLoop l x).loop[l] = x := by simp

theorem State.setLoop_setLoop (l : LoopId) (x y : Loop) : (s.setLoop l x).setLoop l y = s.setLoop l y := by
  simp [State.setLoop]

theorem State.setLoop_same (l : LoopId) : s.setLoop l s.loop[l] = s := by simp [State.setLoop]

theorem State.modLoop_of (at_ : s.loop[l] = x) (f : Loop → Loop) : s.modLoop l f = s.setLoop l (f x) := by
  rw [← at_]; rfl

theorem State.modLoop_setLoop (l : LoopId) (f : Loop → Loop) : (s.setLoop l x).modLoop l f = s.setLoop l (f x) := by
  rw [State.modLoop_of (State.setLoop_get l x), State.setLoop_setLoop]

theorem State.modDet_of (at_ : s.loop[l] = x) (a : Address) (f : Detector → Detector) :
    s.modDet l a f = s.setLoop l { x with dets := x.dets.set a (f x.dets[a]) } := State.modLoop_of at_ _

theorem sendOrder_of (at_ : s.loop[l] = x) (a : Address) : sendOrder l a s = s.setLoop l { x with
    dets := x.dets.set a { x.dets[a] with order := some (s.store.alarmLevel s.store.detectors[l][a].type) } } :=
  State.modDet_of at_ a _

theorem beginPoll_of (at_ : s.loop[l] = x) (item : LoopItem) (a : Address) : beginPoll l item a s = s.setLoop l { x with
    item := item, void := false
    dets := x.dets.set a { x.dets[a] with order := some (s.store.alarmLevel s.store.detectors[l][a].type) } } := by
  unfold beginPoll
  rw [State.modLoop_of at_, sendOrder_of (State.setLoop_get l _), State.setLoop_setLoop]
  rfl

/-! ### The pass (R143, R144) -/

theorem nextItem_polls (at_ : s.loop[l] = x) (position : x.position = some p) : nextItem l s = s.setLoop l { x with
    item := .passPoll p, void := false
    dets := x.dets.set p { x.dets[p] with order := some (s.store.alarmLevel s.store.detectors[l][p].type) } } := by
  have run : nextItem l s = beginPoll l (.passPoll p) p s := by
    unfold nextItem
    rw [at_, position]
  exact run.trans (beginPoll_of at_ (.passPoll p) p)

theorem nextItem_none (at_ : s.loop[l] = x) (position : x.position = none) :
    nextItem l s = s.setLoop l { x with item := .none, void := false } := by
  have run : nextItem l s = s.modLoop l fun x => { x with item := .none, void := false } := by
    unfold nextItem
    rw [at_, position]
  exact run.trans (State.modLoop_of at_ _)

theorem mem_enabledOn {st : Store} : a ∈ enabledOn st l ↔ st.detectors[l][a].enabled = true := by
  simp [enabledOn]

theorem enabledOn_sorted (st : Store) (l : LoopId) : (enabledOn st l).Pairwise (· < ·) :=
  (List.pairwise_lt_finRange 32).filter _

/-- The first of an ascending list that has a property is the least that has it. -/
theorem find?_sorted {q : List Address} (sorted : q.Pairwise (· < ·)) (prop : Address → Bool) (b : Address) :
    q.find? prop = some b ↔ b ∈ q ∧ prop b = true ∧ ∀ c ∈ q, prop c = true → b ≤ c := by
  induction q with
  | nil => simp
  | cons c q ih =>
    obtain ⟨above, sorted⟩ := List.pairwise_cons.1 sorted
    by_cases h : prop c = true
    · rw [List.find?_cons_of_pos h]
      constructor
      · rintro ⟨⟩
        refine ⟨List.mem_cons_self, h, fun d hd _ => ?_⟩
        obtain rfl | hd := List.mem_cons.1 hd
        · exact Nat.le_refl _
        · exact Nat.le_of_lt (above d hd)
      · rintro ⟨hb, -, least⟩
        obtain rfl | hb := List.mem_cons.1 hb
        · rfl
        · exact absurd (least c List.mem_cons_self h) (Nat.not_le.2 (above b hb))
    · rw [List.find?_cons_of_neg h, ih sorted]
      constructor
      · rintro ⟨hb, hp, least⟩
        refine ⟨List.mem_cons_of_mem _ hb, hp, fun d hd hpd => ?_⟩
        obtain rfl | hd := List.mem_cons.1 hd
        · exact absurd hpd h
        · exact least d hd hpd
      · rintro ⟨hb, hp, least⟩
        obtain rfl | hb := List.mem_cons.1 hb
        · exact absurd hp h
        · exact ⟨hb, hp, fun d hd => least d (List.mem_cons_of_mem _ hd)⟩

theorem nextEnabled_eq_some {st : Store} : nextEnabled st l a = some b ↔
    st.detectors[l][b].enabled = true ∧ a < b ∧ ∀ q : Address, st.detectors[l][q].enabled = true → a < q → b ≤ q := by
  simp only [nextEnabled, find?_sorted (enabledOn_sorted st l), mem_enabledOn, decide_eq_true_eq]

theorem nextEnabled_eq_none {st : Store} : nextEnabled st l a = none ↔
    ∀ q : Address, st.detectors[l][q].enabled = true → q ≤ a := by
  simp only [nextEnabled, List.find?_eq_none, mem_enabledOn, decide_eq_true_eq, Fin.not_lt]

theorem lowestEnabled_eq_some {st : Store} : lowestEnabled st l = some b ↔
    st.detectors[l][b].enabled = true ∧ ∀ q : Address, st.detectors[l][q].enabled = true → b ≤ q := by
  have first : lowestEnabled st l = (enabledOn st l).find? fun _ => true := by
    unfold lowestEnabled
    cases enabledOn st l <;> rfl
  rw [first]
  simp only [find?_sorted (enabledOn_sorted st l), mem_enabledOn, true_and, forall_const]

theorem movePosition_next (at_ : s.loop[l] = x) (next : nextEnabled s.store l a = some b) :
    movePosition l a s = s.setLoop l { x with position := some b } := by
  unfold movePosition
  rw [next]
  exact State.modLoop_of at_ _

/-- Where no enabled entry stands above, the pass is complete and begins at the lowest. -/
theorem movePosition_last (at_ : s.loop[l] = x) (last : nextEnabled s.store l a = none) :
    movePosition l a s = firstPassDone l (s.setLoop l { x with position := lowestEnabled s.store l }) := by
  have run : movePosition l a s = firstPassDone l (s.modLoop l fun x => { x with position := lowestEnabled s.store l }) := by
    unfold movePosition
    rw [last]
  rw [run, State.modLoop_of at_]

theorem firstPassDone_again (h : s.loop[l].firstPass = true) : firstPassDone l s = s := if_pos h

theorem firstPassDone_first (at_ : s.loop[l] = x) (h : x.firstPass = false) : firstPassDone l s =
    inFreeOrder (fun z => tryLeaveStarting z .firstPass) (List.finRange 4) (s.setLoop l { x with firstPass := true }) := by
  unfold firstPassDone
  rw [at_, if_neg (by rw [h]; exact Bool.false_ne_true), State.modLoop_of at_]

/-! ### A detector changed (R145 to R150) -/

section
variable {f : Detector → Detector} {e : DetEntry} {d n : Detector} {u : State}

theorem changeDetector_same (at_ : s.loop[l] = x) (hd : x.dets[a] = d) (hn : n = f d) (state : n.state = d.state)
    (latch : n.latch = d.latch) : changeDetector l a f s = s.setLoop l { x with dets := x.dets.set a n } := by
  subst at_ hd hn
  exact if_pos ⟨state.symm, latch.symm⟩

theorem changeDetector_other (at_ : s.loop[l] = x) (hd : x.dets[a] = d) (he : s.store.detectors[l][a] = e) (hn : n = f d)
    (other : n.state ≠ d.state ∨ n.latch ≠ d.latch) : changeDetector l a f s =
      takeDetectorChange e.zone (s.counts e.zone).manual (postAll (changeReport l a e d n)
        (s.setLoop l { x with dets := x.dets.set a { n with handedLevel := n.level } })) := by
  subst at_ hd he hn
  exact if_neg fun same => other.elim (fun h => h same.1.symm) fun h => h same.2.symm

theorem postAll_changeReport : postAll (changeReport l a e d n) u =
    if n.state = d.state then u
    else if n.state = .fault then post (.detectorFaultEntered l a e.zone e.type) u
    else if d.state = .fault then post (.detectorFaultCleared l a e.zone e.type) u
    else post (.detectorState l a e.zone e.type n.level n.state) u := by
  unfold changeReport
  by_cases same : n.state = d.state
  · rw [if_pos same.symm, if_pos same]
    rfl
  · rw [if_neg (Ne.symm same), if_neg same]
    split
    · rfl
    · split <;> rfl

end

/-! ### Items completed and abandoned (R153, R154) -/

theorem otherLoop_eq (h : o ≠ l) : otherLoop l = o := by
  unfold otherLoop
  revert l o
  decide

theorem carries_eq (s : State) (l : LoopId) (z : Zone) : s.carries l z = (List.finRange 32).any fun a =>
    s.store.detectors[l][a].enabled && s.store.detectors[l][a].zone == z := by
  rw [State.carries, detectorsOn_eq, Bool.eq_iff_iff]
  simp [List.filterMap_eq_nil_iff]

/-- The loops that carry a detector of a zone are those of the table (R139). -/
theorem carries_congr {t : State} (same : t.store.detectors = s.store.detectors) (l : LoopId) (z : Zone) :
    t.carries l z = s.carries l z := by
  rw [carries_eq, carries_eq, same]

@[simp] theorem carries_setLoop (l o : LoopId) (x : Loop) (z : Zone) : (s.setLoop l x).carries o z = s.carries o z :=
  carries_congr (by rfl) o z

theorem otherLoop_ne (l : LoopId) : otherLoop l ≠ l := by
  revert l
  decide

theorem completeItem_eq (at_ : s.loop[l] = x) (other : o ≠ l) (hy : y = { x with busErrors := 0, fault := false }) :
    completeItem l s = if x.fault = true then
      post (.loopFault l false ((List.finRange 4).filter fun z => s.carries l z && !(s.loop[o].fault && s.carries o z)))
        (s.setLoop l y)
    else s.setLoop l y := by
  have apart : (s.setLoop l y).loop[o] = s.loop[o] := by
    have h : (l : Nat) ≠ o := fun e => other (Fin.ext e.symm)
    simp [Vector.getElem_set_ne _ _ h]
  have zones : (zonesOf (s.setLoop l y) l).filter (fun z => !((s.setLoop l y).loop[o].fault && (s.setLoop l y).carries o z)) =
      (List.finRange 4).filter fun z => s.carries l z && !(s.loop[o].fault && s.carries o z) := by
    rw [zonesOf, List.filter_filter, apart]
    exact List.filter_congr fun z _ => by rw [carries_setLoop, carries_setLoop, Bool.and_comm]
  obtain rfl := otherLoop_eq other
  unfold completeItem
  rw [at_, State.modLoop_of at_, ← hy]
  dsimp only
  rw [zones]

/-- The void mark stands as an item completes. -/
theorem completeItem_void (at_ : s.loop[l] = x) : (completeItem l s).loop[l].void = x.void := by
  rw [completeItem_eq at_ (otherLoop_ne l) rfl]
  split <;> simp

theorem completeItem_store : (completeItem l s).store = s.store := by
  unfold completeItem
  dsimp only
  split <;> rfl

theorem takeAnswer_aside {take : LoopId → Address → State → State} (void : s.loop[l].void = true) :
    takeAnswer l take a s = s := if_neg (by rw [void]; simp)

theorem takeAnswer_taken {take : LoopId → Address → State → State} (enabled : s.store.detectors[l][a].enabled = true)
    (void : s.loop[l].void = false) : takeAnswer l take a s = take l a s :=
  if_pos (by rw [void, Bool.not_false, Bool.and_true]; exact enabled)

section
variable {take : LoopId → Address → State → State}

theorem pollEnds_passPoll (at_ : s.loop[l] = x) (item : x.item = .passPoll a) {t : State}
    (ht : t = takeAnswer l take a (completeItem l (s.setLoop l { x with roundTaken := false }))) :
    pollEnds l take s = nextItem l (if x.void then t else movePosition l a t) := by
  subst ht
  rw [← State.modLoop_of at_ fun x => { x with roundTaken := false }]
  unfold pollEnds
  rw [at_, item]

theorem pollEnds_passAside (at_ : s.loop[l] = x) (item : x.item = .passPoll a) (void : x.void = true) :
    pollEnds l take s = nextItem l (completeItem l (s.setLoop l { x with roundTaken := false })) := by
  rw [pollEnds_passPoll at_ item rfl, if_pos void, takeAnswer_aside]
  rw [completeItem_void (State.setLoop_get l _)]
  exact void

theorem pollEnds_pass (at_ : s.loop[l] = x) (item : x.item = .passPoll a) (void : x.void = false)
    (enabled : s.store.detectors[l][a].enabled = true) : pollEnds l take s =
      nextItem l (movePosition l a (take l a (completeItem l (s.setLoop l { x with roundTaken := false })))) := by
  rw [pollEnds_passPoll at_ item rfl, if_neg (by rw [void]; exact Bool.false_ne_true), takeAnswer_taken]
  · rw [completeItem_store]
    exact enabled
  · rw [completeItem_void (State.setLoop_get l _)]
    exact void

theorem pollEnds_priority (at_ : s.loop[l] = x) (item : x.item = .priorityPoll a) (void : x.void = false)
    (enabled : s.store.detectors[l][a].enabled = true) :
    pollEnds l take s = nextItem l (take l a (completeItem l s)) := by
  have taken : takeAnswer l take a (completeItem l s) = take l a (completeItem l s) :=
    takeAnswer_taken (by rw [completeItem_store]; exact enabled) (by rw [completeItem_void at_, void])
  rw [← taken]
  unfold pollEnds
  rw [at_, item]

end

theorem countAbandoned_few (at_ : s.loop[l] = x) (few : x.busErrors < 7) :
    countAbandoned l s = s.setLoop l { x with busErrors := x.busErrors + 1 } := by
  have count : min 8 (x.busErrors + 1) = x.busErrors + 1 := by omega
  have short : x.busErrors + 1 ≠ 8 := by omega
  unfold countAbandoned
  rw [at_, count]
  dsimp only
  rw [if_neg fun h => short h.1, State.modLoop_of at_, beq_false_of_ne short, Bool.or_false]

/-- The eighth item abandoned in a run is LOOP-FAULT (R154). -/
theorem countAbandoned_eighth (at_ : s.loop[l] = x) (calm : x.fault = false) (seven : x.busErrors = 7) :
    countAbandoned l s = post (.loopFault l true ((List.finRange 4).filter fun z => s.carries l z))
      (s.setLoop l { x with busErrors := 8, fault := true }) := by
  have zones : zonesOf (s.setLoop l { x with busErrors := 8, fault := true }) l =
      (List.finRange 4).filter fun z => s.carries l z :=
    List.filter_congr fun z _ => carries_setLoop l l _ z
  unfold countAbandoned
  rw [at_, seven, calm, ← zones]
  dsimp only
  rw [State.modLoop_of at_]
  rfl

section
variable {taken : Bool}

/-- An abandoned item is counted, and the pass goes on; only a pass poll abandoned lets a further round be taken. -/
theorem itemAbandoned_eq (at_ : s.loop[l] = x) (busy : x.item ≠ .none)
    (hp : ∀ a, x.item = .passPoll a → taken = false) (ho : (∀ a, x.item ≠ .passPoll a) → taken = x.roundTaken) :
    itemAbandoned l s = nextItem l (countAbandoned l (s.setLoop l { x with roundTaken := taken })) := by
  have pass : ∀ a, x.item = .passPoll a → itemAbandoned l s =
      nextItem l (countAbandoned l (s.modLoop l fun x => { x with roundTaken := false })) := fun a item => by
    unfold itemAbandoned
    rw [at_, item]
  by_cases poll : ∃ a, x.item = .passPoll a
  · obtain ⟨a, item⟩ := poll
    rw [pass a item, hp a item, State.modLoop_of at_]
  · have other : itemAbandoned l s = nextItem l (countAbandoned l s) := by
      unfold itemAbandoned
      rw [at_]
      split
      · next h => exact absurd h busy
      · next a h => exact absurd ⟨a, h⟩ poll
      · rfl
    rw [other, ho fun a h => poll ⟨a, h⟩]
    congr 2
    exact (at_ ▸ State.setLoop_same l).symm

end

/-! ### Rounds (R151, R152) -/

/-- The line of a round reads the lowest address bit by bit: a detector that sends a 0 silences every one that sends a
1. -/
theorem readRound_least (k : Nat) {live : List Address} {a : Address} (mem : a ∈ live)
    (least : ∀ q ∈ live, a.val % 2 ^ k ≤ q.val % 2 ^ k) : readRound k live = a.val % 2 ^ k := by
  induction k generalizing live with
  | zero => simp [readRound, Nat.mod_one]
  | succ k ih =>
    have split : ∀ q : Address, q.val % 2 ^ (k + 1) = q.val % 2 ^ k + 2 ^ k * (q.val.testBit k).toNat :=
      fun q => by rw [Nat.toNat_testBit, Nat.mod_pow_succ]
    have below : ∀ q : Address, q.val % 2 ^ k < 2 ^ k := fun q => Nat.mod_lt _ (Nat.two_pow_pos k)
    have bit : (live.all fun q => q.val.testBit k) = a.val.testBit k := by
      cases hb : a.val.testBit k with
      | false => exact List.all_eq_false.2 ⟨a, mem, by simp [hb]⟩
      | true =>
        refine List.all_eq_true.2 fun q hq => ?_
        have le := least q hq
        have lt := below q
        rw [split a, split q, hb] at le
        cases hq : q.val.testBit k with
        | true => rfl
        | false =>
          rw [hq] at le
          simp only [Bool.toNat_true, Bool.toNat_false, Nat.mul_one, Nat.mul_zero, Nat.add_zero] at le
          omega
    have stays : a ∈ live.filter fun q => q.val.testBit k == a.val.testBit k :=
      List.mem_filter.2 ⟨mem, beq_self_eq_true _⟩
    simp only [readRound, bitTime, bit]
    rw [ih stays, split a]
    · cases a.val.testBit k <;> simp [Nat.add_comm]
    · intro q hq
      obtain ⟨hq, same⟩ := List.mem_filter.1 hq
      have le := least q hq
      rw [split a, split q, eq_of_beq same] at le
      omega

/-- A round names the lowest address that seized the loop, and address 32 where none goes on. -/
theorem roundWinner_eq {alerting : List Address}
    (h : a ∈ alerting ∧ (∀ q ∈ alerting, a ≤ q) ∨ alerting = [] ∧ a = 31) : roundWinner alerting = a := by
  obtain ⟨mem, least⟩ | ⟨rfl, rfl⟩ := h
  · have small : ∀ q : Address, q.val % 2 ^ 5 = q.val := fun q => Nat.mod_eq_of_lt q.isLt
    have read := readRound_least 5 mem fun q hq => by rw [small, small]; exact least q hq
    rw [roundWinner, read, small]
    exact Fin.ext (Nat.mod_eq_of_lt a.isLt)
  · decide

/-- Detectors seize the loop as a pass poll is due. -/
theorem alertTaken_round {alerting : List Address} (at_ : s.loop[l] = x) (item : x.item = .passPoll a)
    (position : x.position ≠ none) (free : x.roundTaken = false) :
    alertTaken l alerting s = s.setLoop l { x with item := .round alerting, void := false, roundTaken := true } := by
  obtain ⟨p, position⟩ := Option.ne_none_iff_exists'.1 position
  have run : alertTaken l alerting s = s.modLoop l fun x =>
      { x with item := .round alerting, void := false, roundTaken := true } := by
    unfold alertTaken
    rw [at_, item, position]
    exact if_neg (by rw [free]; exact Bool.false_ne_true)
  rw [run, State.modLoop_of at_]

theorem alertTaken_taken {alerting : List Address} (at_ : s.loop[l] = x) (taken : x.roundTaken = true) :
    alertTaken l alerting s = s := by
  unfold alertTaken
  rw [at_]
  split
  · exact if_pos taken
  · rfl

theorem roundEnds_eq {alerting : List Address} (at_ : s.loop[l] = x) (item : x.item = .round alerting)
    (winner : roundWinner alerting = a) : roundEnds l s =
      if s.store.detectors[l][a].enabled = true then beginPoll l (.priorityPoll a) a s
      else nextItem l (completeItem l s) := by
  unfold roundEnds
  rw [at_, item]
  dsimp only
  rw [winner]
  rfl

/-! ### A detector polled (R144 to R148) -/

section
variable {t : DetType} {q alarm level : Nat} {d : Detector} {pre : Option Nat} {was : DetState}

theorem countRuns_automatic (automatic : t ≠ .manual) : countRuns t (some q) alarm level d =
    if alarm ≤ level then { d with alarmRun := min 2 (d.alarmRun + 1), lowRun := 0 }
    else if q ≤ level then { d with alarmRun := 0, lowRun := 0 }
    else { d with lowRun := min 2 (d.lowRun + 1), alarmRun := 0 } := by
  cases t with
  | manual => exact absurd rfl automatic
  | _ => rfl

theorem judge_automatic (automatic : t ≠ .manual) (latch : d.latch = false) (run : d.alarmRun ≠ 2) :
    judge t (some q) level was d = { d with
      state := if q ≤ level then .prealarm else if was = .prealarm ∧ d.lowRun = 2 then .normal else was } := by
  unfold judge
  rw [if_neg (by rw [latch]; exact Bool.false_ne_true), if_neg run]
  cases t with
  | manual => exact absurd rfl automatic
  | _ =>
    dsimp only
    split
    · rfl
    · split <;> rfl

theorem judge_alarmed (latch : d.latch = false) (run : d.alarmRun = 2) :
    judge t pre level was d = { d with state := .alarm, latch := true } := by
  unfold judge
  rw [if_neg (by rw [latch]; exact Bool.false_ne_true), if_pos run]

theorem judge_latched (latch : d.latch = true) : judge t pre level was d = { d with state := .alarm } := if_pos latch

theorem answerDetector_sound (sound : d.state ≠ .fault) : answerDetector t pre alarm level d =
    judge t pre level d.state (countRuns t pre alarm level { d with miss := 0, level := some level }) := by
  unfold answerDetector
  rw [if_neg sound, if_neg sound]

/-- Counting the runs changes nothing else of a detector. -/
theorem countRuns_only (t : DetType) (pre : Option Nat) (alarm level : Nat) (d : Detector) :
    ∃ r w : Nat, countRuns t pre alarm level d = { d with alarmRun := r, lowRun := w } := by
  unfold countRuns
  split
  · split
    · exact ⟨_, d.lowRun, rfl⟩
    · exact ⟨_, d.lowRun, rfl⟩
  · split
    · exact ⟨_, _, rfl⟩
    · split
      · exact ⟨_, _, rfl⟩
      · exact ⟨_, _, rfl⟩
  · exact ⟨d.alarmRun, d.lowRun, rfl⟩

/-- The judgement changes nothing but the state and the latch, and does not use the state. -/
theorem judge_only (t : DetType) (pre : Option Nat) (level : Nat) (was : DetState) (d : Detector) :
    ∃ (st : DetState) (la : Bool), judge t pre level was d = { d with state := st, latch := la } := by
  unfold judge
  split
  · exact ⟨_, d.latch, rfl⟩
  · split
    · exact ⟨_, _, rfl⟩
    · split
      · exact ⟨_, d.latch, rfl⟩
      · split
        · exact ⟨_, d.latch, rfl⟩
        · split
          · exact ⟨_, d.latch, rfl⟩
          · exact ⟨_, d.latch, rfl⟩
      · exact ⟨_, d.latch, rfl⟩

theorem countRuns_state (st : DetState) : countRuns t pre alarm level { d with state := st } =
    { countRuns t pre alarm level d with state := st } := by
  unfold countRuns
  split
  · split <;> rfl
  · split
    · rfl
    · split <;> rfl
  · rfl

theorem judge_state (st : DetState) : judge t pre level was { d with state := st } = judge t pre level was d := by
  unfold judge
  cases d.latch with
  | true => rfl
  | false => rfl

/-- An answered poll ends a FAULT as if both runs began anew. -/
theorem answerDetector_fault (fault : d.state = .fault) : answerDetector t pre alarm level d =
    answerDetector t pre alarm level { d with state := .normal, alarmRun := 0, lowRun := 0 } := by
  rw [answerDetector_sound (d := { d with state := .normal, alarmRun := 0, lowRun := 0 }) (by exact DetState.noConfusion)]
  unfold answerDetector
  rw [if_pos fault, if_pos fault]
  dsimp only
  rw [← judge_state .normal, ← countRuns_state]

/-- An answered poll counts no miss, takes the level, and keeps a latched alarm. -/
theorem answerDetector_takes (t : DetType) (pre : Option Nat) (alarm level : Nat) (d : Detector) :
    (answerDetector t pre alarm level d).miss = 0 ∧ (answerDetector t pre alarm level d).level = some level ∧
      (d.latch = true → (answerDetector t pre alarm level d).state = .alarm ∧
        (answerDetector t pre alarm level d).latch = true) := by
  have sound : ∀ d : Detector, d.state ≠ .fault → (answerDetector t pre alarm level d).miss = 0 ∧
      (answerDetector t pre alarm level d).level = some level ∧
      (d.latch = true → (answerDetector t pre alarm level d).state = .alarm ∧
        (answerDetector t pre alarm level d).latch = true) := fun d sound => by
    rw [answerDetector_sound sound]
    obtain ⟨r, w, runs⟩ := countRuns_only t pre alarm level { d with miss := 0, level := some level }
    rw [runs]
    refine ⟨?_, ?_, fun latch => ?_⟩
    · obtain ⟨st, la, judged⟩ := judge_only t pre level d.state { d with miss := 0, level := some level, alarmRun := r, lowRun := w }
      rw [judged]
    · obtain ⟨st, la, judged⟩ := judge_only t pre level d.state { d with miss := 0, level := some level, alarmRun := r, lowRun := w }
      rw [judged]
    · rw [judge_latched (by exact latch)]
      exact ⟨rfl, latch⟩
  by_cases fault : d.state = .fault
  · rw [answerDetector_fault fault]
    exact sound { d with state := .normal, alarmRun := 0, lowRun := 0 } DetState.noConfusion
  · exact sound d fault

theorem answerDetector_runs (automatic : t ≠ .manual) (order : q < alarm) (sound : d.state ≠ .fault) :
    (answerDetector t (some q) alarm level d).alarmRun = (if alarm ≤ level then min 2 (d.alarmRun + 1) else 0) ∧
    (answerDetector t (some q) alarm level d).lowRun = (if q ≤ level then 0 else min 2 (d.lowRun + 1)) := by
  rw [answerDetector_sound sound, countRuns_automatic automatic]
  obtain ⟨e, he⟩ : ∃ e : Detector, e = { d with miss := 0, level := some level } := ⟨_, rfl⟩
  have runs : e.alarmRun = d.alarmRun ∧ e.lowRun = d.lowRun := by rw [he]; exact ⟨rfl, rfl⟩
  rw [← he]
  split
  · next high =>
    obtain ⟨st, la, judged⟩ := judge_only t (some q) level d.state { e with alarmRun := min 2 (e.alarmRun + 1), lowRun := 0 }
    rw [judged, if_pos (by omega), runs.1]
    exact ⟨rfl, rfl⟩
  · split
    · obtain ⟨st, la, judged⟩ := judge_only t (some q) level d.state { e with alarmRun := 0, lowRun := 0 }
      rw [judged]
      exact ⟨rfl, rfl⟩
    · obtain ⟨st, la, judged⟩ := judge_only t (some q) level d.state { e with lowRun := min 2 (e.lowRun + 1), alarmRun := 0 }
      rw [judged, runs.2]
      exact ⟨rfl, rfl⟩

section
variable (automatic : t ≠ .manual) (sound : d.state ≠ .fault) (latch : d.latch = false) (few : d.alarmRun ≤ 1)
include automatic sound latch

/-- The second reading in a row at the alarm level is ALARM. -/
theorem answerDetector_alarm (high : alarm ≤ level) (run : d.alarmRun = 1) :
    (answerDetector t (some q) alarm level d).state = .alarm ∧ (answerDetector t (some q) alarm level d).latch = true := by
  rw [answerDetector_sound sound, countRuns_automatic automatic, if_pos high, judge_alarmed (by exact latch) (by simp [run])]
  exact ⟨rfl, rfl⟩

theorem answerDetector_low (order : q < alarm) (low : level < q) : (answerDetector t (some q) alarm level d).state =
      (if d.state = .prealarm ∧ 1 ≤ d.lowRun then .normal else d.state) ∧
    (answerDetector t (some q) alarm level d).latch = false := by
  have second : min 2 (d.lowRun + 1) = 2 ↔ 1 ≤ d.lowRun := by omega
  rw [answerDetector_sound sound, countRuns_automatic automatic, if_neg (by omega), if_neg (by omega),
    judge_automatic automatic (by exact latch) (by dsimp only; omega), if_neg (by omega)]
  simp only [second]
  exact ⟨trivial, latch⟩

include few

theorem answerDetector_prealarm (reach : q ≤ level) (single : ¬(alarm ≤ level ∧ d.alarmRun = 1)) :
    (answerDetector t (some q) alarm level d).state = .prealarm ∧ (answerDetector t (some q) alarm level d).latch = false := by
  rw [answerDetector_sound sound, countRuns_automatic automatic]
  split
  · next high =>
    have run : d.alarmRun ≠ 1 := fun run => single ⟨high, run⟩
    rw [judge_automatic automatic (by exact latch) (by dsimp only; omega), if_pos reach]
    exact ⟨rfl, latch⟩
  · rw [judge_automatic automatic (by exact latch) (by dsimp only; omega), if_pos reach]
    exact ⟨rfl, latch⟩

end

theorem answerDetector_manual (sound : d.state ≠ .fault) (few : d.alarmRun ≤ 1) :
    (answerDetector .manual none 255 level d).state =
      (if d.latch = true ∨ (level = 255 ∧ d.alarmRun = 1) then .alarm else .normal) := by
  by_cases latch : d.latch = true
  · rw [((answerDetector_takes .manual none 255 level d).2.2 latch).1, if_pos (.inl latch)]
  have latch : d.latch = false := Bool.eq_false_iff.2 latch
  rw [answerDetector_sound sound]
  by_cases called : level = 255 ∧ d.alarmRun = 1
  · have counted : countRuns .manual none 255 level { d with miss := 0, level := some level } =
        { d with miss := 0, level := some level, alarmRun := 2 } := by simp [countRuns, called.1, called.2]
    rw [counted, judge_alarmed (by exact latch) rfl, if_pos (.inr called)]
  · have counted : (countRuns .manual none 255 level { d with miss := 0, level := some level }).alarmRun ≠ 2 := by
      by_cases up : level = 255
      · have run : d.alarmRun ≠ 1 := fun run => called ⟨up, run⟩
        simp only [countRuns, if_pos up]
        omega
      · simp [countRuns, if_neg up]
    obtain ⟨r, w, runs⟩ := countRuns_only .manual none 255 level { d with miss := 0, level := some level }
    rw [runs] at counted ⊢
    rw [if_neg (by rw [latch]; simpa using called)]
    unfold judge
    rw [if_neg (by rw [latch]; exact Bool.false_ne_true), if_neg counted]

end

/-- Settles O58. -/
theorem pollsAndRoundsRun : Obligations.PollsAndRoundsRun := by
  intro s l a on
  obtain ⟨c, at_⟩ : ∃ c : Loop, s.loop[l] = c := ⟨_, rfl⟩
  rw [at_]
  refine ⟨fun p position d x hd hx => ?_, fun x position hx => ?_, fun b x enabled above next hx => ?_,
    fun low x last hlow hx => ⟨fun again => ?_, fun first => ?_⟩, fun f e d n x y u hd he hn hx hy hu => ⟨fun state latch => ?_,
      fun other => ?_⟩, fun x o other hx => ?_, fun level u item void hu => ⟨?_, ?_⟩, fun level item void enabled => ⟨?_, ?_⟩,
    fun level u item void enabled hu => ⟨?_, ?_⟩, fun alerting x item position => ⟨fun free hx => ?_, fun taken => ?_⟩,
    fun alerting item winner => ⟨fun d x enabled hd hx => ?_, fun disabled => ?_⟩,
    fun x taken busy calm htaken => ?_,
    fun t p alarm level d automatic sound latch few order => ⟨fun high run => answerDetector_alarm automatic sound latch high run,
      fun reach single => answerDetector_prealarm automatic sound latch few reach single,
      fun low => answerDetector_low automatic sound latch order low⟩,
    fun level d sound few => answerDetector_manual sound few,
    fun t p alarm level d automatic order sound => answerDetector_runs automatic order sound,
    fun t p alarm level d => ?_, fun d fault => if_pos fault, fun d sound few => ?_⟩
  · subst hd hx
    exact nextItem_polls at_ position
  · subst hx
    exact nextItem_none at_ position
  · subst hx
    exact movePosition_next at_ (nextEnabled_eq_some.2 ⟨enabled, above, next⟩)
  · have lowest : lowestEnabled s.store l = low := Option.ext fun b => lowestEnabled_eq_some.trans (hlow b).symm
    rw [movePosition_last at_ (nextEnabled_eq_none.2 last), lowest, firstPassDone_again (by rw [State.setLoop_get]; exact again),
      hx, ← again]
    rfl
  · have lowest : lowestEnabled s.store l = low := Option.ext fun b => lowestEnabled_eq_some.trans (hlow b).symm
    rw [movePosition_last at_ (nextEnabled_eq_none.2 last), lowest,
      firstPassDone_first (State.setLoop_get l _) (by exact first), State.setLoop_setLoop, hx]
    exact inFreeOrder_spec _ _ _
  · subst hx
    exact changeDetector_same at_ hd.symm hn state latch
  · subst hu hy
    rw [changeDetector_other at_ hd.symm he.symm hn other, postAll_changeReport]
    rfl
  · exact completeItem_eq at_ other hx
  · subst hu
    exact (event_powered on).trans (congrArg _ (pollEnds_passAside at_ item void))
  · subst hu
    exact (event_powered on).trans (congrArg _ (pollEnds_passAside at_ item void))
  · refine (event_powered on).trans (congrArg _ ((pollEnds_priority at_ item void enabled).trans ?_))
    rw [answeredPoll, State.detEntry, completeItem_store]
  · exact (event_powered on).trans (congrArg _ (pollEnds_priority at_ item void enabled))
  · subst hu
    refine (event_powered on).trans (congrArg _ ((pollEnds_pass at_ item void enabled).trans ?_))
    rw [answeredPoll, State.detEntry, completeItem_store]
    rfl
  · subst hu
    exact (event_powered on).trans (congrArg _ (pollEnds_pass at_ item void enabled))
  · subst hx
    exact (event_powered on).trans (congrArg _ (alertTaken_round at_ item position free))
  · exact (event_powered on).trans (congrArg _ (alertTaken_taken at_ taken))
  · subst hd hx
    refine (event_powered on).trans (congrArg _ ((roundEnds_eq at_ item (roundWinner_eq winner)).trans ?_))
    exact (if_pos enabled).trans (beginPoll_of at_ _ a)
  · refine (event_powered on).trans (congrArg _ ((roundEnds_eq at_ item (roundWinner_eq winner)).trans ?_))
    exact if_neg (by rw [disabled]; exact Bool.false_ne_true)
  · have abandoned := itemAbandoned_eq (taken := taken) at_ busy (fun a item => by rw [htaken, item]) fun other => by
      rw [htaken]
      split
      · next a item => exact absurd item (other a)
      · rfl
    refine ⟨fun few hx => (event_powered on).trans (congrArg _ (abandoned.trans ?_)),
      fun seven hx => (event_powered on).trans (congrArg _ (abandoned.trans ?_))⟩
    · rw [countAbandoned_few (State.setLoop_get l _) (by exact few), State.setLoop_setLoop, hx]
      rfl
    · rw [countAbandoned_eighth (State.setLoop_get l _) (by exact calm) (by exact seven), State.setLoop_setLoop, hx]
      simp only [carries_setLoop]
      rfl
  · exact ⟨(answerDetector_takes t p alarm level d).1, (answerDetector_takes t p alarm level d).2.1,
      (answerDetector_takes t p alarm level d).2.2, answerDetector_fault⟩
  · unfold missDetector
    rw [if_neg sound]
    exact if_congr (by omega) rfl rfl

end Sys2Proof.Machine
end

