-- ==== Sys2Proof/Proofs/DetectorTable.lean ====
section
/-!
PROOFS. The detector table written and read.
-/

namespace Sys2Proof.Machine

variable {s : State} {k j : Int} {l : LoopId} {a : Address} {e : DetEntry} {x : Loop} {z : Zone} {m : Nat} {was : Bool}

/-! ### A request on one detector -/

theorem onDetector_some {f : LoopId → Address → Request} (loop : indexOf 2 k = some l) (address : indexOf 32 j = some a) :
    onDetector k j f s = f l a s := (naming_some loop).trans (naming_some address)

/-- An entry is written while it is disabled, a field left out keeping its value (R140). -/
theorem writeDetector_named {zone : Option Int} {type : Option Text} {t : DetType} (loop : indexOf 2 k = some l)
    (address : indexOf 32 j = some a) (he : s.store.detectors[l][a] = e)
    (hz : (zone = none ∧ z = e.zone) ∨ ∃ i, zone = some i ∧ indexOf 4 i = some z)
    (ht : (type = none ∧ t = e.type) ∨ ∃ w, type = some w ∧ wordOf typeWords w = some t)
    (given : zone ≠ none ∨ type ≠ none) : writeDetector (some k) (some j) zone type s =
      if e.enabled = true then answer .busy .empty s
      else (s.setDetEntry l a { e with zone := z, type := t }, { word := .ok }) := by
  have he : s.detEntry l a = e := he
  obtain ⟨rfl, rfl⟩ | ⟨i, rfl, hi⟩ := hz
  · obtain ⟨rfl, rfl⟩ | ⟨w, rfl, hw⟩ := ht
    · simp at given
    · simp only [writeDetector, onDetector_some loop address, he, hw]
  · obtain ⟨rfl, rfl⟩ | ⟨w, rfl, hw⟩ := ht
    · simp only [writeDetector, onDetector_some loop address, he, hi]
    · simp only [writeDetector, onDetector_some loop address, he, hi, hw]

/-! ### A detector enabled and disabled (R141) -/

section
variable (loop : indexOf 2 k = some l) (address : indexOf 32 j = some a)
include loop address

theorem setDetector_same {on : Bool} {w : Text} (word : wordOf yesNoWords w = some on)
    (same : s.store.detectors[l][a].enabled = on) : setDetector k j w s = (s, { word := .ok }) := by
  refine (onDetector_some loop address).trans ?_
  rw [word]
  exact if_pos same

theorem setDetector_enables (disabled : s.store.detectors[l][a].enabled = false) :
    setDetector k j "YES".toList s = (enableDetector l a s, { word := .ok }) := by
  refine (onDetector_some loop address).trans ?_
  rw [show wordOf yesNoWords "YES".toList = some true from rfl]
  exact (if_neg (by rw [State.detEntry, disabled]; exact Bool.false_ne_true)).trans (if_pos rfl)

theorem setDetector_no (enabled : s.store.detectors[l][a].enabled = true) : setDetector k j "NO".toList s =
    if s.loop[l].dets[a].latch = true then answer .refused (.refusedFor .latched) s
    else (disableDetector l a s, { word := .ok }) := by
  refine (onDetector_some loop address).trans ?_
  rw [show wordOf yesNoWords "NO".toList = some false from rfl]
  exact (if_neg (by rw [State.detEntry, enabled]; decide)).trans (if_neg Bool.false_ne_true)

end

theorem polls_eq (i : LoopItem) (a : Address) : i.polls a = decide (i = .passPoll a ∨ i = .priorityPoll a) := by
  cases i <;> simp [LoopItem.polls, beq_eq_decide]

theorem postAll_disableReport {d : Detector} : postAll (disableReport l a e d) s =
    if d.state = .fault then post (.detectorFaultDisabled l a) s
    else if d.state = .normal then s
    else post (.detectorState l a e.zone e.type none .normal) s := by
  unfold disableReport
  split
  · rfl
  next sound =>
    rw [postAll_changeReport]
    refine (if_congr eq_comm rfl ?_).trans rfl
    exact (if_neg (by decide)).trans (if_neg sound)

/-! ### What a zone's evaluation leaves alone -/

/-- `t` follows `s` by what zone `z` makes of a change: the loops stand, and the zone does not go back to STARTING. -/
structure ZoneMoved (z : Zone) (s t : State) : Prop where
  loop : t.loop = s.loop
  state : t.fire[z].state = .starting → s.fire[z].state = .starting

namespace ZoneMoved

variable {t u : State}

theorem refl (s : State) : ZoneMoved z s s := ⟨rfl, id⟩

theorem trans (h : ZoneMoved z s t) (h' : ZoneMoved z t u) : ZoneMoved z s u :=
  ⟨h'.loop.trans h.loop, fun e => h.state (h'.state e)⟩

theorem postAll (es : List Event) (h : ZoneMoved z s t) : ZoneMoved z s (Machine.postAll es t) := by
  rw [postAll_eq]
  exact ⟨h.loop, h.state⟩

theorem ite {c : Prop} [Decidable c] (h : ZoneMoved z s t) (h' : ZoneMoved z s u) : ZoneMoved z s (if c then t else u) := by
  split
  · exact h
  · exact h'

theorem enterFire {e : FireState} {c : FireCause} (entered : e ≠ .starting) (h : ZoneMoved z s t) :
    ZoneMoved z s (Machine.enterFire z e c t) := by
  refine ⟨(enterFire_loop z e c t).trans h.loop, fun start => absurd ?_ entered⟩
  rw [← start]
  simp [enterFire_fire]

theorem moveFire {e : FireState} {c : FireCause} (entered : e ≠ .starting) (h : ZoneMoved z s t) :
    ZoneMoved z s (Machine.moveFire z e c t) := .ite h (h.enterFire entered)

theorem modFire {f : FireZone → FireZone} (same : (f t.fire[z]).state = t.fire[z].state) (h : ZoneMoved z s t) :
    ZoneMoved z s (t.modFire z f) :=
  ⟨h.loop, fun start => h.state (by rw [← same, ← start, State.modFire_get])⟩

theorem toPredischarge {c : FireCause} (h : ZoneMoved z s t) : ZoneMoved z s (Machine.toPredischarge z c t) :=
  (h.modFire (by rfl)).enterFire (by decide)

theorem manualPath (h : ZoneMoved z s t) : ZoneMoved z s (Machine.manualPath z t) :=
  .ite ((h.moveFire (by decide)).postAll _) h.toPredischarge

theorem releaseTest {c : FireCause} (h : ZoneMoved z s t) : ZoneMoved z s (Machine.releaseTest z c t) :=
  .ite (h.postAll _) h.toPredischarge

theorem evaluate {c : FireCause} (h : ZoneMoved z s t) : ZoneMoved z s (Machine.evaluate z c t) :=
  .ite h.manualPath (.ite (h.enterFire (by decide)).releaseTest
    (.ite (h.moveFire (by decide)) (h.moveFire (by decide))))

theorem takeDetectorChange (h : ZoneMoved z s t) : ZoneMoved z s (Machine.takeDetectorChange z m t) := by
  unfold Machine.takeDetectorChange
  split
  · exact h.evaluate
  · exact h.evaluate
  · exact .ite h.manualPath h
  · refine h.modFire ?_
    split
    · split <;> rfl
    · rfl
  · exact h

theorem tryLeaveStarting {c : FireCause} (h : ZoneMoved z s t) : ZoneMoved z s (Machine.tryLeaveStarting z c t) :=
  .ite (h.enterFire (by decide)).evaluate h

end ZoneMoved

/-- The report of a MONITORING-DEGRADED flag that changed (R175). -/
def flagReported (z : Zone) (was : Bool) (t : State) : State :=
  if t.degraded z = was then t else post (.monitoringDegraded z (t.degraded z)) t

theorem handEnable_eq (t : State) : handEnable z was m t =
    tryLeaveStarting z .firstPass (takeDetectorChange z m (flagReported z was t)) := rfl

theorem flagReported_moved (t : State) : ZoneMoved z t (flagReported z was t) := .ite (.refl t) ⟨rfl, id⟩

theorem handEnable_loop (t : State) : (handEnable z was m t).loop = t.loop :=
  ((flagReported_moved t).takeDetectorChange.tryLeaveStarting).loop

theorem flagReported_same {α : Type} (part : State → α) (posted : ∀ e t, part (post e t) = part t) (t : State) :
    part (flagReported z was t) = part t := by
  unfold flagReported
  split
  · rfl
  · exact posted _ t

/-- In STARTING a change of the table makes the test for leaving it (R162). -/
theorem handEnable_starting {t : State} (state : t.fire[z].state = .starting) :
    handEnable z was m t = tryLeaveStarting z .firstPass (flagReported z was t) := by
  have start : (flagReported z was t).fire[z].state = .starting := by
    rw [flagReported_same (fun t => t.fire[z].state) fun _ _ => rfl]
    exact state
  rw [handEnable_eq, takeDetectorChange_other rfl (.inl start)]

theorem handEnable_other {t : State} (state : t.fire[z].state ≠ .starting) :
    handEnable z was m t = takeDetectorChange z m (flagReported z was t) :=
  tryLeaveStarting_other fun start => state (((flagReported_moved t).takeDetectorChange).state start)

section
variable {c : Loop} {d : Detector} {u t : State}

/-- A detector disabled: cleared, its poll in progress set aside, its change reported and handed on, and an address that
is due passed over (R141, R143). -/
theorem disableDetector_eq (at_ : s.loop[l] = c) (he : s.store.detectors[l][a] = e) (hd : d = { order := c.dets[a].order })
    (hx : x = { c with void := c.void || decide (c.item = .passPoll a ∨ c.item = .priorityPoll a), dets := c.dets.set a d })
    (hu : u = (s.setDetEntry l a { e with enabled := false }).setLoop l x)
    (ht : t = handEnable e.zone (s.degraded e.zone) (s.counts e.zone).manual (postAll (disableReport l a e c.dets[a]) u)) :
    disableDetector l a s = if c.position = some a then movePosition l a t else t := by
  have written : ((s.setDetEntry l a { e with enabled := false }).modDet l a fun d => { order := d.order }).modLoop l
      (fun x => { x with void := x.void || x.item.polls a }) = u := by
    rw [State.modDet_of (s := s.setDetEntry l a _) at_, State.modLoop_setLoop, hu, hx, hd, polls_eq]
  have entry : s.detEntry l a = e := he
  have live : s.det l a = c.dets[a] := by rw [State.det, at_]
  have loops : t.loop = u.loop := by
    rw [ht, handEnable_loop, postAll_eq]
  have due : t.loop[l].position = c.position := by
    have same : t.loop[l] = u.loop[l] := by simp only [loops]
    have live : u.loop[l] = x := by rw [hu, State.setLoop_get]
    rw [same, live, hx]
  rw [← due]
  subst ht
  unfold disableDetector
  simp only [entry, live, written]

/-- A detector enabled begins afresh, its place in the pass given (R141, R143). -/
theorem enableDetector_eq (at_ : s.loop[l] = c) (he : s.store.detectors[l][a] = e) (hd : d = { order := c.dets[a].order })
    (hx : x = { c with position := if c.position = none then some a else c.position, dets := c.dets.set a d })
    (hu : u = (s.setDetEntry l a { e with enabled := true }).setLoop l x) : enableDetector l a s =
      handEnable e.zone (s.degraded e.zone) (s.counts e.zone).manual (if c.item = .none then nextItem l u else u) := by
  have entry : s.detEntry l a = e := he
  obtain ⟨y, hy⟩ : ∃ y : Loop, y = { c with dets := c.dets.set a d } := ⟨_, rfl⟩
  obtain ⟨v, hv⟩ : ∃ v, v = (s.setDetEntry l a { e with enabled := true }).setLoop l y := ⟨_, rfl⟩
  have cleared : ((s.setDetEntry l a { e with enabled := true }).modDet l a fun d => { order := d.order }) = v := by
    rw [State.modDet_of (s := s.setDetEntry l a _) at_, hv, hy, hd]
  have vl : v.loop[l] = y := by rw [hv, State.setLoop_get]
  have placed : (if v.loop[l].position = none then v.modLoop l fun x => { x with position := some a } else v) = u := by
    rw [vl, hu, hx]
    by_cases none : c.position = none
    · rw [if_pos (by rw [hy]; exact none), if_pos none, hv, State.modLoop_setLoop, hy]
    · rw [if_neg (by rw [hy]; exact none), if_neg none, hv, hy]
  have item : u.loop[l].item = c.item := by rw [hu, State.setLoop_get, hx]
  unfold enableDetector
  simp only [entry, cleared, placed, item]

/-- A loop with no item in progress polls the detector enabled at once. -/
theorem enableDetector_polls (at_ : s.loop[l] = c) (he : s.store.detectors[l][a] = e) (position : c.position = none)
    (item : c.item = .none) (hd : d = { order := some (s.store.alarmLevel e.type) })
    (hx : x = { c with position := some a, item := .passPoll a, void := false, dets := c.dets.set a d })
    (hu : u = (s.setDetEntry l a { e with enabled := true }).setLoop l x) : enableDetector l a s =
      handEnable e.zone (s.degraded e.zone) (s.counts e.zone).manual u := by
  obtain ⟨y, hy⟩ : ∃ y : Loop, y = { c with position := some a, dets := c.dets.set a { order := c.dets[a].order } } := ⟨_, rfl⟩
  obtain ⟨v, hv⟩ : ∃ v, v = s.setDetEntry l a { e with enabled := true } := ⟨_, rfl⟩
  have type : v.store.detectors[l][a].type = e.type := by
    rw [hv]
    simp [State.setDetEntry]
  have level : v.store.alarmLevel = s.store.alarmLevel := by
    rw [hv]
    rfl
  have polled : nextItem l (v.setLoop l y) = u := by
    have place : y.position = some a := by rw [hy]
    rw [nextItem_polls (State.setLoop_get l y) place, State.setLoop_setLoop, hu, hx, hd, hy, ← hv]
    simp only [State.setLoop_store, type, level]
    simp
  refine (enableDetector_eq (x := y) at_ he rfl (by rw [hy, if_pos position]) rfl).trans ?_
  rw [if_pos item, ← hv, polled]

end

section
variable {t u : State}

/-- A change in STARTING with every first pass made lets the zone leave it (R162). -/
theorem handEnable_leaves (hu : u = flagReported z was t) (state : t.fire[z].state = .starting)
    (done : ∀ o : LoopId, t.carries o z = true → t.loop[o].firstPass = true) :
    handEnable z was m t = evaluate z .firstPass (enterFire z .normal .firstPass u) := by
  have start : u.fire[z].state = .starting := by
    rw [hu, flagReported_same (fun t => t.fire[z].state) fun _ _ => rfl]
    exact state
  rw [handEnable_starting state, ← hu]
  refine tryLeaveStarting_leaves start fun o carried => ?_
  rw [hu, flagReported_same (fun t => t.loop[o].firstPass) fun _ _ => rfl]
  refine done o (Eq.trans (carries_congr ?_ o z).symm carried)
  rw [hu, flagReported_same (fun t => t.store.detectors) fun _ _ => rfl]

theorem handEnable_waits {o : LoopId} (hu : u = flagReported z was t) (state : t.fire[z].state = .starting)
    (carried : t.carries o z = true) (undone : t.loop[o].firstPass = false) : handEnable z was m t = u := by
  rw [handEnable_starting state, ← hu]
  refine tryLeaveStarting_waits (l := o) ((carries_congr ?_ o z).trans carried) ?_
  · rw [hu, flagReported_same (fun t => t.store.detectors) fun _ _ => rfl]
  · rw [hu, flagReported_same (fun t => t.loop[o].firstPass) fun _ _ => rfl]
    exact undone

end

/-! ### A loop read (R156) -/

theorem loopPage_first : loopPage s l 1 =
    (((((List.finRange 32).filter fun q => s.store.detectors[l][q].enabled).take 16).map fun q =>
        { loop := l, address := q, zone := s.store.detectors[l][q].zone, type := s.store.detectors[l][q].type
          state := s.loop[l].dets[q].state, latch := s.loop[l].dets[q].latch }),
      (((List.finRange 32).filter fun q => s.store.detectors[l][q].enabled).drop 16).head?.map fun q => q.val + 1) := by
  have all : (enabledOn s.store l).filter (fun b => decide ((0 : Address) ≤ b)) = enabledOn s.store l :=
    List.filter_eq_self.2 fun b _ => decide_eq_true (Fin.zero_le b)
  have one : indexOf 32 1 = some 0 := rfl
  unfold loopPage
  rw [one]
  dsimp only
  rw [all]
  rfl

theorem readLoop_named {v : LoopView} (named : indexOf 2 k = some l) (at_ : s.loop[l] = x)
    (position : v.position = x.position) (item : v.item = x.item) (errors : v.busErrors = x.busErrors)
    (fault : v.fault = x.fault) (first : v.firstPass = x.firstPass) (page : v.page = (loopPage s l 1).1)
    (next : v.next = (loopPage s l 1).2) : readLoop k none s = (s, { word := .ok, body := .loop v }) := by
  refine (naming_some named).trans ?_
  obtain ⟨p, i, b, f, r, g, n⟩ := v
  dsimp only at position item errors fault first page next
  rw [at_, position, item, errors, fault, first, page, next]
  rfl

/-- Settles O57. -/
theorem detectorTableIsWritten : Obligations.DetectorTableIsWritten := by
  intro s k j l a e ready loop address he
  have he := he.symm
  obtain ⟨c, at_⟩ : ∃ c : Loop, s.loop[l] = c := ⟨_, rfl⟩
  rw [at_]
  have latched : (s.heard.loop[l].dets[a]).latch = (c.dets[a]).latch := congrArg (fun x : Loop => (x.dets[a]).latch) at_
  have enables : ∀ {t : State}, e.enabled = false → enableDetector l a s.heard = t →
      exec (.setDetector k j "YES".toList) s = .next (t.answered { word := .ok }) := fun off h =>
    request_next ready ((setDetector_enables (s := s.heard) loop address (by exact (congrArg _ he).trans off)).trans
      (congrArg (·, _) h))
  have disables : ∀ {t : State}, e.enabled = true → (c.dets[a]).latch = false → disableDetector l a s.heard = t →
      exec (.setDetector k j "NO".toList) s = .next (t.answered { word := .ok }) := fun on latch h => by
    refine request_next ready ((setDetector_no (s := s.heard) loop address (by exact (congrArg _ he).trans on)).trans ?_)
    rw [if_neg (by rw [latched, latch]; exact Bool.false_ne_true), h]
  refine ⟨fun z w t i zone type => ⟨fun on => ?_, fun rows off hr => ?_, fun rows off hr => ?_, fun rows off hr => ?_⟩,
    fun on => ?_, fun on latch => ?_, fun off => ?_, fun x d u on latch hd hx hu => ?_,
    fun x d u off position item hd hx hu => ?_, fun x d u off position item hd hx hu => ?_, fun z was m t u hu => ?_,
    fun x d u off position item hd hx hu => ?_, fun v u => ⟨fun hu => ?_, fun hu => ?_, fun hu => ?_, fun hu => ?_⟩, ?_,
    fun v position item errors fault first page next => ?_⟩
  · exact request_word ready ((writeDetector_named (s := s.heard) loop address he (.inr ⟨i, rfl, zone⟩) (.inr ⟨w, rfl, type⟩)
      (.inl (by simp))).trans (if_pos on))
  · subst hr
    refine request_next ready ((writeDetector_named (s := s.heard) loop address he (.inr ⟨i, rfl, zone⟩)
      (.inr ⟨w, rfl, type⟩) (.inl (by simp))).trans ((if_neg (by rw [off]; exact Bool.false_ne_true)).trans ?_))
    rw [off]
    rfl
  · subst hr
    exact request_next ready ((writeDetector_named (s := s.heard) loop address he (.inr ⟨i, rfl, zone⟩)
      (.inl ⟨rfl, rfl⟩) (.inl (by simp))).trans (if_neg (by rw [off]; exact Bool.false_ne_true)))
  · subst hr
    exact request_next ready ((writeDetector_named (s := s.heard) loop address he (.inl ⟨rfl, rfl⟩)
      (.inr ⟨w, rfl, type⟩) (.inr (by simp))).trans (if_neg (by rw [off]; exact Bool.false_ne_true)))
  · exact request_word ready (setDetector_same (s := s.heard) loop address (on := true) rfl (by exact (congrArg _ he).trans on))
  · refine request_same ready ((setDetector_no (s := s.heard) loop address (by exact (congrArg _ he).trans on)).trans (if_pos ?_))
    exact latched.trans latch
  · exact request_word ready (setDetector_same (s := s.heard) loop address (on := false) rfl (by exact (congrArg _ he).trans off))
  · obtain ⟨t, ht⟩ : ∃ t, t = handEnable e.zone (s.degraded e.zone) (s.counts e.zone).manual
        (postAll (disableReport l a e c.dets[a]) u) := ⟨_, rfl⟩
    refine ⟨t, by rw [ht, postAll_disableReport], disables on latch ?_⟩
    refine disableDetector_eq (s := s.heard) (x := x) (u := u) at_ he hd hx hu ?_
    rw [State.heard_degraded, State.heard_counts, ht]
  · refine enables off ((enableDetector_eq (s := s.heard) (x := x) (u := u) at_ he hd ?_ hu).trans (by rw [if_neg item, State.heard_degraded, State.heard_counts]))
    rw [hx, if_neg position]
  · refine enables off ((enableDetector_eq (s := s.heard) (x := x) (u := u) at_ he hd ?_ hu).trans (by rw [if_neg item, State.heard_degraded, State.heard_counts]))
    rw [hx, if_pos position]
  · exact ⟨fun start => ⟨handEnable_leaves hu start, fun o => handEnable_waits hu start⟩,
      fun other => (handEnable_other other).trans (congrArg _ hu.symm)⟩
  · refine enables off ((enableDetector_polls (s := s.heard) (x := x) (u := u) at_ he position item hd hx hu).trans ?_)
    rw [State.heard_degraded, State.heard_counts]
  · subst hu
    exact request_next ready (indexedSetting_some (a := false) rfl)
  · subst hu
    exact request_next ready (indexedSetting_some (a := true) rfl)
  · subst hu
    exact request_next ready (indexedSetting_some (a := true) rfl)
  · subst hu
    exact request_next ready (indexedSetting_some (a := false) rfl)
  · refine request_same ready ((onDetector_some loop address).trans ?_)
    rw [← he, ← at_]
    rfl
  · exact request_same ready (readLoop_named (s := s.heard) loop at_ position item errors fault first
      (by rw [page, loopPage_first, ← at_]; rfl) (by rw [next, loopPage_first]; rfl))

end Sys2Proof.Machine
end

