-- ==== Sys2Proof/Proofs/HatchRules.lean ====
section
/-!
PROOFS. One hatch controller written: its shutters, locks, waking and handover record.
-/

namespace Sys2Proof.Machine

variable {s : State} {h : HatchId} {sd : Side} {x y : Hatch} {sh : Shutter}

/-! ### One hatch controller written -/

theorem State.setHatch_get (h : HatchId) (x : Hatch) : (s.setHatch h x).hatch[h] = x := by simp

theorem State.setHatch_setHatch (h : HatchId) (x y : Hatch) : (s.setHatch h x).setHatch h y = s.setHatch h y := by
  simp [State.setHatch]

theorem State.setHatch_same (h : HatchId) : s.setHatch h s.hatch[h] = s := by simp [State.setHatch]

theorem State.setHatch_of (at_ : s.hatch[h] = x) : s.setHatch h x = s := by rw [← at_, State.setHatch_same]

theorem State.modHatch_of (at_ : s.hatch[h] = x) (f : Hatch → Hatch) : s.modHatch h f = s.setHatch h (f x) := by
  rw [← at_]; rfl

theorem State.modHatch_setHatch (h : HatchId) (f : Hatch → Hatch) :
    (s.setHatch h x).modHatch h f = s.setHatch h (f x) := by
  rw [State.modHatch_of (State.setHatch_get h x), State.setHatch_setHatch]

theorem setHatch_post (e : Event) : (post e s).setHatch h x = post e (s.setHatch h x) := rfl

theorem State.modShutter_of (at_ : s.hatch[h] = x) (f : Shutter → Shutter) :
    s.modShutter h sd f = s.setHatch h (x.setShutter sd (f (x.shutter sd))) := State.modHatch_of at_ _

theorem toPhase_of (at_ : s.hatch[h] = x) (p : Phase) :
    toPhase h p s = s.setHatch h { x with phase := p, unlockDue := none, idle := none } := State.modHatch_of at_ _

theorem toPhase_settled (at_ : s.hatch[h] = x) (due : x.unlockDue = none) (p : Phase) :
    toPhase h p s = s.setHatch h { x with phase := p, idle := none } := by
  rw [toPhase_of at_]
  congr 1
  rw [← due]

theorem startScan_of (at_ : s.hatch[h] = x) (why : ScanFor) : startScan h why s = s.setHatch h { x with scan := some why } :=
  State.modHatch_of at_ _

theorem light_of (at_ : s.hatch[h] = x) (c : Colour) (secs : Option Nat) :
    light h c secs s = s.setHatch h { x with colour := c, colourLeft := secs } := State.modHatch_of at_ _

theorem enterIdle_of (at_ : s.hatch[h] = x) : enterIdle h s = s.setHatch h (x.toIdle s.store.hatch[h].standbyTime) :=
  State.modHatch_of at_ _

/-! ### A shutter written -/

@[simp] theorem Hatch.setShutter_phase (x : Hatch) (sd : Side) (sh : Shutter) : (x.setShutter sd sh).phase = x.phase := by
  cases sd <;> rfl

@[simp] theorem Hatch.setShutter_unlockDue (x : Hatch) (sd : Side) (sh : Shutter) :
    (x.setShutter sd sh).unlockDue = x.unlockDue := by cases sd <;> rfl

@[simp] theorem Hatch.setShutter_tray (x : Hatch) (sd : Side) (sh : Shutter) : (x.setShutter sd sh).tray = x.tray := by
  cases sd <;> rfl

@[simp] theorem Hatch.setShutter_manifest (x : Hatch) (sd : Side) (sh : Shutter) :
    (x.setShutter sd sh).manifest = x.manifest := by cases sd <;> rfl

theorem Hatch.toIdle_setShutter (x : Hatch) (sd : Side) (sh : Shutter) (n : Nat) :
    (x.setShutter sd sh).toIdle n = (x.toIdle n).setShutter sd sh := by cases sd <;> rfl

/-! ### Waking (R118) -/

/-- A hatch after what wakes it: STANDBY returns to IDLE, and in IDLE the timer is reloaded. -/
def Hatch.woken (x : Hatch) (standby : Nat) : Hatch :=
  if x.phase = .standby then x.toIdle standby else if x.phase = .idle then { x with idle := some standby } else x

theorem wake_of (at_ : s.hatch[h] = x) : wake h s = s.setHatch h (x.woken s.store.hatch[h].standbyTime) := by
  unfold Hatch.woken
  by_cases standby : x.phase = .standby
  · rw [if_pos standby, wake_standby (by rw [at_]; exact standby), enterIdle_of at_]
  · by_cases idle : x.phase = .idle
    · rw [if_neg standby, if_pos idle, wake_idle (by rw [at_]; exact idle), at_]
    · rw [if_neg standby, if_neg idle, wake_other (by rw [at_]; exact idle) (by rw [at_]; exact standby), ← at_,
        State.setHatch_same]

theorem Hatch.woken_other (idle : x.phase ≠ .idle) (standby : x.phase ≠ .standby) (n : Nat) : x.woken n = x := by
  rw [Hatch.woken, if_neg standby, if_neg idle]

theorem Hatch.woken_phase_of_ne (x : Hatch) (n : Nat) (standby : x.phase ≠ .standby) : (x.woken n).phase = x.phase := by
  unfold Hatch.woken
  split
  · contradiction
  · split <;> rfl

theorem Hatch.woken_standby (standby : x.phase = .standby) (n : Nat) : x.woken n = x.toIdle n := if_pos standby

theorem Hatch.woken_unlockDue (due : x.unlockDue = none) (n : Nat) : (x.woken n).unlockDue = none := by
  unfold Hatch.woken
  split
  · rfl
  · split <;> exact due

theorem Hatch.woken_setShutter (x : Hatch) (sd : Side) (sh : Shutter) (n : Nat) :
    (x.setShutter sd sh).woken n = (x.woken n).setShutter sd sh := by
  unfold Hatch.woken
  rw [Hatch.setShutter_phase]
  split
  · exact x.toIdle_setShutter sd sh n
  · split
    · cases sd <;> rfl
    · rfl

/-! ### Locks (R88) -/

theorem canUnlock_of (at_ : s.hatch[h] = x) :
    canUnlock h sd s = ((x.shutter (otherSide sd)).secured && !s.held s.store.hatch[h].zone) := by rw [canUnlock, at_]; rfl

/-- A release under both conditions of R88. -/
theorem unlock_free (at_ : s.hatch[h] = x) (locked : (x.shutter sd).locked = true)
    (other : (x.shutter (otherSide sd)).secured = true) (free : s.held s.store.hatch[h].zone = false) :
    unlock h sd s = s.setHatch h { x.setShutter sd
      (releaseLock s.store.hatch[h] (x.shutter sd)) with unlockDue := none } := by
  have can : canUnlock h sd s = true := by rw [canUnlock_of at_, other, free]; rfl
  have run : unlock h sd s = _ := (if_pos (by rw [at_]; exact locked)).trans (if_pos can)
  rw [run, State.modShutter_of at_, State.modHatch_setHatch]
  rfl

/-- A release kept due. -/
theorem unlock_blocked (at_ : s.hatch[h] = x) (locked : (x.shutter sd).locked = true)
    (blocked : (x.shutter (otherSide sd)).secured = false ∨ s.held s.store.hatch[h].zone = true) :
    unlock h sd s = s.setHatch h { x with unlockDue := some sd } := by
  have cannot : ¬canUnlock h sd s = true := by
    rw [canUnlock_of at_]
    rcases blocked with b | b
    · rw [b]; exact Bool.false_ne_true
    · rw [b, Bool.not_true, Bool.and_false]; exact Bool.false_ne_true
  have run : unlock h sd s = _ := (if_pos (by rw [at_]; exact locked)).trans (if_neg cannot)
  rw [run, State.modHatch_of at_]

theorem unlock_unlocked (at_ : s.hatch[h] = x) (unlocked : (x.shutter sd).locked = false) : unlock h sd s = s :=
  if_neg (by rw [at_, unlocked]; exact Bool.false_ne_true)

/-- A lock released while the sensor reads CLOSED. -/
theorem releaseLock_closed {st : HatchSettings} (closed : sh.sensorOpen = false) :
    releaseLock st sh = { sh with locked := false, unlock := some st.unlockTimeout } :=
  if_neg (by rw [closed]; exact Bool.false_ne_true)

theorem serveDue_none (due : s.hatch[h].unlockDue = none) : serveDue h s = s := by rw [serveDue, due]

theorem Shutter.secured_iff : sh.secured = true ↔ sh.locked = true ∧ sh.sensorOpen = false := by simp [Shutter.secured]

theorem Shutter.unlocked_iff : sh.unlocked = true ↔ sh.locked = false ∧ sh.sensorOpen = false := by
  simp [Shutter.unlocked]

theorem Shutter.isOpen_iff : sh.isOpen = true ↔ sh.locked = false ∧ sh.sensorOpen = true := by simp [Shutter.isOpen]

/-- Both shutters secured, and the side named ready to be released. -/
theorem Hatch.secured_of (il : x.inner.locked = true) (ic : x.inner.sensorOpen = false) (ol : x.outer.locked = true)
    (oc : x.outer.sensorOpen = false) (sd : Side) : (x.shutter sd).secured = true := by
  cases sd
  · exact Shutter.secured_iff.2 ⟨ol, oc⟩
  · exact Shutter.secured_iff.2 ⟨il, ic⟩

/-- A release with both shutters secured. -/
theorem unlock_secured (at_ : s.hatch[h] = x) (secured : ∀ sd, (x.shutter sd).secured = true)
    (free : s.held s.store.hatch[h].zone = false) : unlock h sd s = s.setHatch h { x.setShutter sd
      { x.shutter sd with locked := false, unlock := some s.store.hatch[h].unlockTimeout } with unlockDue := none } := by
  obtain ⟨locked, closed⟩ := Shutter.secured_iff.1 (secured sd)
  rw [unlock_free at_ locked (secured _) free, releaseLock_closed closed]

/-! ### The tray (R91) -/

theorem trayEmpty_iff {t : Tray} : trayEmpty t = true ↔ ∀ p : TrayIdx, t[p].presence = .empty := by
  rw [trayEmpty, List.all_eq_true]
  simp only [Vector.mem_toList_iff, Vector.forall_mem_iff_forall_getElem, beq_iff_eq]
  exact ⟨fun all p => all p p.isLt, fun all i lt => all ⟨i, lt⟩⟩

/-! ### The handover record (R114) -/

theorem State.setHandover_eq (r : Option Handover) :
    s.setHandover h r = { s with store := { s.store with handover := s.store.handover.set h r } } := rfl

theorem setClass_of {r : Handover} (held : s.store.handover[h] = some r) (at_ : s.hatch[h] = x) (c : PhaseClass) :
    setClass h c s = s.setHandover h (some { r with phaseClass := c, tray := x.tray }) := by
  rw [setClass, State.modHandover, State.handover, held, at_]
  rfl

end Sys2Proof.Machine
end

