-- ==== Sys2Proof/Proofs/ShutterRules.lean ====
section
/-!
PROOFS. Openings, closings and relocks of a hatch's shutters.
-/

namespace Sys2Proof.Machine

variable {s : State} {h : HatchId} {sd : Side} {x y : Hatch} {sh : Shutter}

/-! ### Openings (R89) -/

theorem recordOpening_outer (at_ : s.hatch[h] = x) :
    recordOpening h .outer s = s.setHatch h { x with lastOpened := some .outer } :=
  State.modHatch_of at_ fun x => { x with lastOpened := some .outer }

theorem recordOpening_inner (at_ : s.hatch[h] = x) : recordOpening h .inner s =
    burstEvent s.store.hatch[h].zone (s.setHatch h { x with lastOpened := some .inner }) := by
  rw [← State.modHatch_of at_ fun x => { x with lastOpened := some .inner }]
  rfl

/-- A shutter written, then the hatch woken. -/
theorem wake_modShutter (at_ : s.hatch[h] = x) (f : Shutter → Shutter) : wake h (s.modShutter h sd f) =
    s.setHatch h ((x.woken s.store.hatch[h].standbyTime).setShutter sd (f (x.shutter sd))) := by
  rw [State.modShutter_of at_, wake_of (State.setHatch_get ..), State.setHatch_setHatch, Hatch.woken_setShutter]
  rfl

theorem shutterOpens_of (at_ : s.hatch[h] = x) (of_ : x.shutter sd = sh) (locked : sh.locked = false)
    (closed : sh.sensorOpen = false) : shutterOpens h sd s = recordOpening h sd
      (s.setHatch h ((x.woken s.store.hatch[h].standbyTime).setShutter sd { sh with
        sensorOpen := true, unlock := none, openAlarm := some s.store.hatch[h].openAlarm })) := by
  have run : shutterOpens h sd s = _ := if_pos (by rw [at_, of_]; exact Shutter.unlocked_iff.2 ⟨locked, closed⟩)
  rw [run]
  dsimp only
  rw [wake_modShutter at_, of_]
  rfl

theorem shutterForced_of (at_ : s.hatch[h] = x) (of_ : x.shutter sd = sh) (locked : sh.locked = true)
    (closed : sh.sensorOpen = false) : shutterForced h sd s = recordOpening h sd (post (.shutterForced h sd)
      (s.setHatch h ((x.woken s.store.hatch[h].standbyTime).setShutter sd { sh with sensorOpen := true }))) := by
  have run : shutterForced h sd s = _ := if_pos (by rw [at_, of_]; exact Shutter.secured_iff.2 ⟨locked, closed⟩)
  rw [run]
  dsimp only
  rw [sensorReads, wake_modShutter at_, of_]

/-! ### Closings (R89) -/

/-- With no release due, a shutter that closes tells the phase. -/
theorem shutterCloses_of (at_ : s.hatch[h] = x) (of_ : x.shutter sd = sh) (locked : sh.locked = false)
    (opened : sh.sensorOpen = true)
    (hy : y = (x.woken s.store.hatch[h].standbyTime).setShutter sd { locked := true, sensorOpen := false }) :
    shutterCloses h sd s = serveDue h (phaseClosed h sd (s.setHatch h y)) := by
  have run : shutterCloses h sd s = _ := if_pos (by rw [at_, of_]; exact Shutter.isOpen_iff.2 ⟨locked, opened⟩)
  rw [run]
  dsimp only
  rw [wake_modShutter at_, hy]
  rfl

theorem shutterCaught_of (at_ : s.hatch[h] = x) (of_ : x.shutter sd = sh) (locked : sh.locked = true)
    (opened : sh.sensorOpen = true) (due : x.unlockDue = none)
    (hy : y = (x.woken s.store.hatch[h].standbyTime).setShutter sd
      { sh with sensorOpen := false, closer := false, closerTimer := none }) :
    shutterCaught h sd s = s.setHatch h y := by
  have run : shutterCaught h sd s = _ := if_pos (by rw [at_, of_, locked, opened]; rfl)
  rw [run]
  dsimp only
  rw [wake_modShutter at_, of_, serveDue_none, hy]
  · rfl
  · rw [State.setHatch_get, Hatch.setShutter_unlockDue]
    exact Hatch.woken_unlockDue due _

/-- What the phase does when a shutter closes, where it starts a scan (R94, R96, R98, R100, R105, R106). -/
theorem phaseClosed_scans (at_ : s.hatch[h] = x) :
    (s.hatch[h].phase = .loading → phaseClosed h .inner s =
      s.setHatch h { x with phase := .loadScan, unlockDue := none, idle := none, scan := some .load }) ∧
    (s.hatch[h].phase = .loadReject → phaseClosed h .inner s = s.setHatch h { x with scan := some .load }) ∧
    (s.hatch[h].phase = .courierAccess → phaseClosed h .outer s =
      s.setHatch h { x with phase := .reconcile, unlockDue := none, idle := none, scan := some .reconcile }) ∧
    (s.hatch[h].phase = .rejectClear → phaseClosed h .outer s = s.setHatch h { x with scan := some .reconcile }) ∧
    (s.hatch[h].phase = .heldStuck → phaseClosed h sd s = s.setHatch h { x with scan := some .reconcile }) ∧
    (s.hatch[h].phase = .unload → phaseClosed h .inner s = s.setHatch h { x with scan := some .unload }) ∧
    (s.hatch[h].phase = .staffAccess → phaseClosed h .inner s = staffDone h s) := by
  refine ⟨?_, ?_, ?_, ?_, ?_, ?_, ?_⟩ <;> intro phase <;> unfold phaseClosed <;> rw [phase]
  · dsimp only
    rw [toPhase_of at_, startScan_of (State.setHatch_get ..), State.setHatch_setHatch]
  · exact startScan_of at_ _
  · dsimp only
    rw [toPhase_of at_, startScan_of (State.setHatch_get ..), State.setHatch_setHatch]
  · exact startScan_of at_ _
  · exact startScan_of at_ _
  · exact startScan_of at_ _

/-- The phases and sides that a closing means nothing to. -/
def Phase.ignores : Phase → Side → Bool
  | .loading, .inner => false
  | .loadReject, .inner => false
  | .courierAccess, .outer => false
  | .rejectClear, .outer => false
  | .heldStuck, _ => false
  | .unload, .inner => false
  | .staffAccess, .inner => false
  | _, _ => true

theorem phaseClosed_ignored (ignored : s.hatch[h].phase.ignores sd = true) : phaseClosed h sd s = s := by
  unfold phaseClosed
  cases phase : s.hatch[h].phase <;> cases sd <;> rw [phase] at ignored <;> first | rfl | cases ignored

theorem staffDone_waits (at_ : s.hatch[h] = x) (full : ∃ p : TrayIdx, x.tray[p].presence ≠ .empty) :
    staffDone h s = s := by
  refine if_neg ?_
  rintro ⟨-, empty, -⟩
  obtain ⟨p, there⟩ := full
  rw [at_] at empty
  exact there (trayEmpty_iff.1 empty p)

theorem staffDone_ends (at_ : s.hatch[h] = x) (phase : x.phase = .staffAccess) (secured : x.inner.secured = true)
    (empty : ∀ p : TrayIdx, x.tray[p].presence = .empty) : staffDone h s = toReceipt h s :=
  if_pos ⟨by rw [at_]; exact phase, by rw [at_]; exact trayEmpty_iff.2 empty, by rw [at_]; exact secured⟩

theorem toReceipt_unlockDue (due : s.hatch[h].unlockDue = none) : (toReceipt h s).hatch[h].unlockDue = none := by
  unfold toReceipt
  split
  · exact due
  · split
    · exact due
    · rw [post_hatch, State.modHatch_get, toPhase, State.modHatch_get]

/-! ### Relocks (R94, R98, R100) -/

/-- With no release due after it, a shutter that relocks tells the phase. -/
theorem unlockExpires_of (at_ : s.hatch[h] = x) (of_ : x.shutter sd = sh) (locked : sh.locked = false)
    (closed : sh.sensorOpen = false) (timed : sh.unlock.isSome = true)
    (hy : y = x.setShutter sd { sh with locked := true, unlock := none, openAlarm := none }) :
    unlockExpires h sd s = serveDue h (phaseRelocked h sd (s.setHatch h y)) := by
  have run : unlockExpires h sd s = _ := if_pos (by
    rw [at_, of_, timed, Shutter.unlocked_iff.2 ⟨locked, closed⟩]; rfl)
  rw [run, State.modShutter_of at_, of_, hy]
  rfl

theorem phaseRelocked_loading (phase : s.hatch[h].phase = .loading) : phaseRelocked h sd s = s := by
  unfold phaseRelocked
  rw [phase]

theorem phaseRelocked_outbound {r : Handover} {t : Tray} (at_ : s.hatch[h] = x) (phase : x.phase = .courierAccess)
    (held : s.store.handover[h] = some r) (out : r.direction = .out) (due : x.unlockDue = none) (tray : x.tray = t) :
    phaseRelocked h .outer s = (s.setHandover h (some { r with phaseClass := .wait, tray := t })).setHatch h
      { x with phase := .awaitCourier, idle := none } := by
  have run : phaseRelocked h .outer s = toPhase h .awaitCourier (setClass h .wait s) := by
    unfold phaseRelocked
    rw [at_, phase]
    dsimp only
    rw [State.handover, held]
    dsimp only
    rw [out]
  subst tray
  rw [run, setClass_of held at_]
  exact toPhase_settled (s := s.setHandover h _) at_ due _

theorem letGo_of {id : Nat} (at_ : s.hatch[h] = x) (manifest : x.manifest = some id) :
    letGo h s = ((reopen id s).setHandover h none).setHatch h (x.toIdle s.store.hatch[h].standbyTime) := by
  unfold letGo
  rw [at_, manifest]
  exact enterIdle_of at_

theorem phaseRelocked_inbound {r : Handover} (at_ : s.hatch[h] = x) (phase : x.phase = .courierAccess)
    (held : s.store.handover[h] = some r) (in_ : r.direction = .in_) : phaseRelocked h .outer s = letGo h s := by
  unfold phaseRelocked
  rw [at_, phase]
  dsimp only
  rw [State.handover, held]
  dsimp only
  rw [in_]

end Sys2Proof.Machine
end

