-- ==== Sys2Proof/Proofs/Shutters.lean ====
section
/-!
PROOFS. Every move of a shutter, with what its phase does.
-/

namespace Sys2Proof.Machine

variable {s : State} {h : HatchId} {sd : Side} {x y z w : Hatch} {sh : Shutter}

/-! ### A shutter that closes -/

theorem Hatch.woken_ignores (x : Hatch) (n : Nat) (ignored : x.phase.ignores sd = true) :
    (x.woken n).phase.ignores sd = true := by
  by_cases standby : x.phase = .standby
  · rw [Hatch.woken_standby standby]
    rfl
  · rwa [Hatch.woken_phase_of_ne x n standby]

/-- What a closed shutter's hatch goes to: its scan, or nothing further. -/
theorem phaseClosed_settles (due : y.unlockDue = none) (wake : x.phase ≠ .standby → y.phase = x.phase)
    (ignores : x.phase.ignores sd = true → y.phase.ignores sd = true) (tray : x.phase = .staffAccess → y.tray = x.tray)
    (cases_ : (x.phase = .loading ∧ sd = .inner ∧ z = { y with phase := .loadScan, scan := some .load, idle := none }) ∨
      (x.phase = .loadReject ∧ sd = .inner ∧ z = { y with scan := some .load }) ∨
      (x.phase = .courierAccess ∧ sd = .outer ∧
        z = { y with phase := .reconcile, scan := some .reconcile, idle := none }) ∨
      (x.phase = .rejectClear ∧ sd = .outer ∧ z = { y with scan := some .reconcile }) ∨
      (x.phase = .heldStuck ∧ z = { y with scan := some .reconcile }) ∨
      (x.phase = .unload ∧ sd = .inner ∧ z = { y with scan := some .unload }) ∨
      (x.phase = .staffAccess ∧ (sd = .outer ∨ ∃ p : TrayIdx, x.tray[p].presence ≠ .empty) ∧ z = y) ∨
      (x.phase.ignores sd = true ∧ z = y)) :
    phaseClosed h sd (s.setHatch h y) = s.setHatch h z ∧ z.unlockDue = none := by
  have live : (s.setHatch h y).hatch[h] = y := State.setHatch_get h y
  have phase {p : Phase} (is : x.phase = p) (ne : p ≠ .standby) : (s.setHatch h y).hatch[h].phase = p := by
    rw [live, wake (is ▸ ne), is]
  obtain ⟨loading, loadReject, courierAccess, rejectClear, heldStuck, unload, staffAccess⟩ :=
    phaseClosed_scans (sd := sd) live
  rcases cases_ with ⟨is, rfl, rfl⟩ | ⟨is, rfl, rfl⟩ | ⟨is, rfl, rfl⟩ | ⟨is, rfl, rfl⟩ | ⟨is, rfl⟩ | ⟨is, rfl, rfl⟩ |
    ⟨is, which, rfl⟩ | ⟨is, rfl⟩
  · refine ⟨?_, due⟩
    rw [loading (phase is nofun), State.setHatch_setHatch, due]
  · exact ⟨by rw [loadReject (phase is nofun), State.setHatch_setHatch], due⟩
  · refine ⟨?_, due⟩
    rw [courierAccess (phase is nofun), State.setHatch_setHatch, due]
  · exact ⟨by rw [rejectClear (phase is nofun), State.setHatch_setHatch], due⟩
  · exact ⟨by rw [heldStuck (phase is nofun), State.setHatch_setHatch], due⟩
  · exact ⟨by rw [unload (phase is nofun), State.setHatch_setHatch], due⟩
  · refine ⟨?_, due⟩
    cases sd
    · exact phaseClosed_ignored (by rw [phase is nofun]; rfl)
    · rcases which with outer | full
      · cases outer
      · exact (staffAccess (phase is nofun)).trans (staffDone_waits live (by rw [tray is]; exact full))
  · exact ⟨phaseClosed_ignored (by rw [live]; exact ignores is), due⟩

/-- Settles O50. -/
theorem shutterMoves : Obligations.ShutterMoves := by
  rintro s h sd x w sh on rfl rfl due (hw : w = s.hatch[h].woken s.store.hatch[h].standbyTime)
  refine ⟨?_, ?_, ?_, ?_, ?_, ?_⟩
  · rintro y t locked closed hy rfl
    refine (fieldEvent_powered on).trans (congrArg _ ?_)
    rw [shutterOpens_of rfl rfl locked closed, ← hw]
    cases sd
    · rw [recordOpening_outer (State.setHatch_get ..), State.setHatch_setHatch, ← hy]
      rfl
    · rw [recordOpening_inner (State.setHatch_get ..), State.setHatch_setHatch, ← hy]
      rfl
  · rintro y z locked opened hy cases_
    refine (fieldEvent_powered on).trans (congrArg _ ?_)
    rw [shutterCloses_of rfl rfl locked opened (hw ▸ hy)]
    have wdue : w.unlockDue = none := hw ▸ Hatch.woken_unlockDue due _
    have settles := phaseClosed_settles (s := s) (h := h) (sd := sd) (x := s.hatch[h]) (y := y) (z := z)
      (by rw [hy, Hatch.setShutter_unlockDue, wdue])
      (fun standby => by rw [hy, Hatch.setShutter_phase, hw, Hatch.woken_phase_of_ne _ _ standby])
      (fun ignored => by rw [hy, Hatch.setShutter_phase, hw]; exact Hatch.woken_ignores _ _ ignored)
      (fun staff => by
        rw [hy, Hatch.setShutter_tray, hw, Hatch.woken_other (by rw [staff]; nofun) (by rw [staff]; nofun)])
      (by
        rcases cases_ with c | c | c | c | c | c | c | ⟨c, e⟩
        · exact .inl c
        · exact .inr (.inl c)
        · exact .inr (.inr (.inl c))
        · exact .inr (.inr (.inr (.inl c)))
        · exact .inr (.inr (.inr (.inr (.inl c))))
        · exact .inr (.inr (.inr (.inr (.inr (.inl c)))))
        · exact .inr (.inr (.inr (.inr (.inr (.inr (.inl c))))))
        · refine .inr (.inr (.inr (.inr (.inr (.inr (.inr ⟨?_, e⟩))))))
          rcases c with c | c | c | c | c | c | c | c | c | ⟨rfl, c | c | c⟩ | ⟨rfl, c | c⟩ <;> rw [c] <;> rfl)
    rw [settles.1, serveDue_none (by rw [State.setHatch_get]; exact settles.2)]
    rfl
  · rintro y locked opened staff rfl empty hy
    refine (fieldEvent_powered on).trans (congrArg _ ?_)
    have live : (s.setHatch h y).hatch[h] = y := State.setHatch_get h y
    have phase : y.phase = .staffAccess := by rw [hy, Hatch.setShutter_phase, staff]
    obtain ⟨-, -, -, -, -, -, staffAccess⟩ := phaseClosed_scans (sd := .inner) live
    rw [shutterCloses_of rfl rfl locked opened (y := y)
        (by rw [Hatch.woken_other (by rw [staff]; nofun) (by rw [staff]; nofun)]; exact hy),
      staffAccess (by rw [live]; exact phase),
      staffDone_ends live phase (by rw [hy]; rfl) (by rw [hy]; exact empty), serveDue_none]
    · rfl
    · exact toReceipt_unlockDue (by rw [live, hy]; exact due)
  · rintro y t locked closed hy rfl
    refine (fieldEvent_powered on).trans (congrArg _ ?_)
    rw [shutterForced_of rfl rfl locked closed, ← hw]
    have live {v : Hatch} : (post (.shutterForced h sd) (s.setHatch h v)).hatch[h] = v := State.setHatch_get h v
    cases sd
    · rw [recordOpening_outer live, setHatch_post, State.setHatch_setHatch, ← hy]
      rfl
    · rw [recordOpening_inner live, setHatch_post, State.setHatch_setHatch, ← hy]
      rfl
  · rintro y locked opened hy
    refine (fieldEvent_powered on).trans (congrArg _ ?_)
    exact shutterCaught_of rfl rfl locked opened due (hw ▸ hy)
  · rintro y locked closed timed hy
    have ydue : y.unlockDue = none := by rw [hy, Hatch.setShutter_unlockDue, due]
    have yphase : y.phase = s.hatch[h].phase := by rw [hy, Hatch.setShutter_phase]
    have live : (s.setHatch h y).hatch[h] = y := State.setHatch_get h y
    have relocks {t : State} (told : phaseRelocked h sd (s.setHatch h y) = t) (tdue : t.hatch[h].unlockDue = none) :
        exec (.unlockTimerExpiry h sd) s = .next t :=
      (event_powered on).trans (congrArg _ ((unlockExpires_of rfl rfl locked closed timed hy).trans
        (by rw [told, serveDue_none tdue])))
    refine ⟨?_, ?_, ?_⟩
    · intro loading
      exact relocks (phaseRelocked_loading (by rw [live, yphase, loading])) ((congrArg Hatch.unlockDue live).trans ydue)
    · rintro r phase rfl held out
      have tray : y.tray = s.hatch[h].tray := by rw [hy, Hatch.setShutter_tray]
      refine (relocks (phaseRelocked_outbound live (by rw [yphase, phase]) held out ydue tray)
        (by rw [State.setHatch_get]; exact ydue)).trans ?_
      refine congrArg Host.Outcome.next ?_
      exact State.setHatch_setHatch (s := s.setHandover h _) h y _
    · rintro r id phase rfl held in_ manifest
      refine (relocks ((phaseRelocked_inbound live (by rw [yphase, phase]) held in_).trans
        (letGo_of live (by rw [hy, Hatch.setShutter_manifest, manifest]))) (by rw [State.setHatch_get]; rfl)).trans ?_
      refine congrArg Host.Outcome.next ?_
      exact State.setHatch_setHatch (s := (reopen id s).setHandover h none) h y _

end Sys2Proof.Machine
end

