-- ==== Sys2Proof/Proofs/HatchFire.lean ====
section
/-!
PROOFS. The hatch's alarms, CLEAR-STUCK, and the fire states it takes.
-/

namespace Sys2Proof.Machine

variable {s : State} {h : HatchId} {sd : Side} {x y : Hatch} {sh : Shutter} {z : Zone} {k : Int} {f : HatchId → Request}

/-! ### Requests that name a hatch (R118, R188) -/

theorem onHatch_named (named : indexOf 2 k = some h) : onHatch k f s = f h (wake h s) := by
  unfold onHatch
  rw [named]

theorem onHatch_awake (named : indexOf 2 k = some h) (idle : s.hatch[h].phase ≠ .idle)
    (standby : s.hatch[h].phase ≠ .standby) : onHatch k f s = f h s := by
  rw [onHatch_named named, wake_other idle standby]

/-- A hatch in the state it stands in is none of the two that a request wakes. -/
theorem phase_ne (at_ : x.phase = .heldStuck ∨ x.phase = .heldFire ∨ x.phase = .query ∨ x.phase = .awaitCourier ∨
    x.phase = .loading ∨ x.phase = .conditioning ∨ x.phase = .receiptPending) : x.phase ≠ .idle ∧ x.phase ≠ .standby := by
  rcases at_ with h | h | h | h | h | h | h <;> rw [h] <;> exact ⟨nofun, nofun⟩

/-! ### Alarms and timers (R89, R90, R97, R105, R118) -/

theorem openTooLong_of (at_ : s.hatch[h] = x) (of_ : x.shutter sd = sh) (locked : sh.locked = false)
    (opened : sh.sensorOpen = true) (timed : sh.openAlarm.isSome = true) : openTooLong h sd s =
      post (.shutterOpenLong h sd x.phase) (s.setHatch h (x.setShutter sd { sh with openAlarm := none })) := by
  have run : openTooLong h sd s = _ := if_pos (by
    rw [at_, of_, timed, Shutter.isOpen_iff.2 ⟨locked, opened⟩]; rfl)
  rw [run, State.modShutter_of at_, at_, of_]

theorem notSecured_of (at_ : s.hatch[h] = x) (of_ : x.shutter sd = sh) (closer : sh.closer = true)
    (timed : sh.closerTimer.isSome = true) : notSecured h sd s =
      post (.shutterNotSecured h sd) (s.setHatch h (x.setShutter sd { sh with closerTimer := none })) := by
  have run : notSecured h sd s = _ := if_pos (by rw [at_, of_, timed, closer]; rfl)
  rw [run, State.modShutter_of at_, of_]

theorem buttonPressed_of (at_ : s.hatch[h] = x) (takes : x.phase.takesButton = true) (scan : x.scan = none)
    (secured : x.inner.secured = true) : buttonPressed h s = unlock h .inner s :=
  if_pos (by rw [at_, takes, scan, secured]; rfl)

theorem toStuck_of (at_ : s.hatch[h] = x) (hy : y = { x with
      phase := .heldStuck, idle := none, unlockDue := none, rejectTimer := none, rejectExpired := false,
      outer := engage x.outer }) : toStuck h s =
    post (.hatchStuck h x.manifest (verdictPositions x.tray .rejected)) (s.setHatch h y) := by
  subst hy
  have engaged : s.modShutter h .outer engage = s.setHatch h { x with outer := engage x.outer } :=
    State.modShutter_of at_ engage
  unfold toStuck
  dsimp only
  rw [engaged, State.setHatch_get, toPhase_of (x := { x with outer := engage x.outer })
    (by rw [post_hatch, State.setHatch_get]), State.modHatch_setHatch, setHatch_post, State.setHatch_setHatch]

theorem rejectExpires_stuck (at_ : s.hatch[h] = x) (phase : x.phase = .rejectClear) (timed : x.rejectTimer.isSome = true)
    (scan : x.scan = none) (shut : x.outer.isOpen = false) : rejectExpires h s = toStuck h s :=
  (if_pos (by rw [at_]; exact ⟨phase, timed⟩)).trans
    (if_neg (by rw [at_, scan, shut]; exact Bool.false_ne_true))

theorem idleExpires_standby (at_ : s.hatch[h] = x) (phase : x.phase = .idle) (timed : x.idle.isSome = true)
    (outer : x.outer.secured = true) (inner : x.inner.secured = true) (empty : ∀ p : TrayIdx, x.tray[p].presence = .empty)
    (hy : y = { x with phase := .standby, idle := none, readerOn := false, purgeOn := false, heaterOn := false }) :
    idleExpires h s = s.setHatch h y := by
  have run : idleExpires h s = _ := (if_pos (by rw [at_]; exact ⟨phase, timed⟩)).trans
    (if_pos (by rw [at_, outer, inner, trayEmpty_iff.2 empty]; rfl))
  rw [run, State.modHatch_of at_, hy]

theorem idleExpires_reloads (at_ : s.hatch[h] = x) (phase : x.phase = .idle) (timed : x.idle.isSome = true)
    (busy : ¬(x.outer.secured && x.inner.secured && trayEmpty x.tray) = true) :
    idleExpires h s = s.setHatch h { x with idle := some s.store.hatch[h].standbyTime } := by
  have run : idleExpires h s = _ := (if_pos (by rw [at_]; exact ⟨phase, timed⟩)).trans
    (if_neg (by rw [at_]; exact busy))
  rw [run, State.modHatch_of at_]
  rfl

/-! ### CLEAR-STUCK (R106) -/

section
variable {side : Text}

theorem clearStuck_of (named : indexOf 2 k = some h) (word : wordOf sideWords side = some sd) (at_ : s.hatch[h] = x) :
    (x.phase = .heldStuck → x.scan = none → x.outer.locked = true → x.inner.locked = true →
      clearStuck k side s = (unlock h sd s, { word := .ok })) ∧
    (x.phase = .heldStuck → (x.scan.isSome = true ∨ x.outer.locked = false ∨ x.inner.locked = false) →
      clearStuck k side s = answer .busy .empty s) ∧
    (x.phase = .heldFire → clearStuck k side s = answer .fireHold .empty s) ∧
    (x.phase ≠ .heldStuck → x.phase ≠ .heldFire → x.phase ≠ .idle → x.phase ≠ .standby →
      clearStuck k side s = answer .refused .empty s) := by
  have run (idle : x.phase ≠ .idle) (standby : x.phase ≠ .standby) : clearStuck k side s = _ :=
    onHatch_awake named (by rw [at_]; exact idle) (by rw [at_]; exact standby)
  simp only [word, at_] at run
  refine ⟨?_, ?_, ?_, ?_⟩
  · intro stuck scan outer inner
    obtain ⟨idle, standby⟩ := phase_ne (.inl stuck)
    refine (run idle standby).trans ?_
    rw [stuck]
    exact if_neg (by rw [scan, outer, inner]; exact Bool.false_ne_true)
  · intro stuck busy
    obtain ⟨idle, standby⟩ := phase_ne (.inl stuck)
    refine (run idle standby).trans ?_
    rw [stuck]
    refine if_pos ?_
    rcases busy with b | b | b
    · rw [b]; rfl
    · rw [b]; simp
    · rw [b]; simp
  · intro fire
    obtain ⟨idle, standby⟩ := phase_ne (.inr (.inl fire))
    refine (run idle standby).trans ?_
    rw [fire]
  · intro stuck fire idle standby
    refine (run idle standby).trans ?_
    split
    · contradiction
    · contradiction
    · rfl

theorem clearStuck_bad (named : indexOf 2 k = some h) (word : wordOf sideWords side = none)
    (idle : s.hatch[h].phase ≠ .idle) (standby : s.hatch[h].phase ≠ .standby) :
    clearStuck k side s = answer .badValue .empty s := by
  refine (onHatch_awake named idle standby).trans ?_
  simp only [word]

end

/-! ### The fire states a hatch takes (R90, R115, R117) -/

/-- A shutter as an entry to the state `e` leaves its closer. -/
def closerFor (e : FireState) (sh : Shutter) : Shutter :=
  if e = .predischarge ∧ sh.sensorOpen = true then { sh with closer := true, closerTimer := some 10 } else sh

/-- A hatch as an entry to the state `e` leaves its closers. -/
def Hatch.closersFor (e : FireState) (x : Hatch) : Hatch := x.bothShutters (closerFor e)

theorem driveCloser_eq (sh : Shutter) : driveCloser sh = closerFor .predischarge sh := by
  unfold driveCloser closerFor
  simp only [true_and]

theorem Hatch.closersFor_other {e : FireState} (other : e ≠ .predischarge) (x : Hatch) : x.closersFor e = x := by
  have same (sh : Shutter) : closerFor e sh = sh := if_neg fun ⟨is, _⟩ => other is
  rw [Hatch.closersFor, Hatch.bothShutters, same, same]

/-- The closers driven at the entry to PREDISCHARGE. -/
theorem drives_of {left entered : FireState} (at_ : s.hatch[h] = x) (first : left ≠ .predischarge) :
    (if entered = .predischarge ∧ left ≠ .predischarge then s.modHatch h (·.bothShutters driveCloser) else s) =
      s.setHatch h (x.closersFor entered) := by
  by_cases pre : entered = .predischarge
  · subst pre
    rw [if_pos ⟨rfl, first⟩, State.modHatch_of at_, Hatch.closersFor, Hatch.bothShutters, driveCloser_eq, driveCloser_eq]
    rfl
  · rw [if_neg (fun both => pre both.1), Hatch.closersFor_other pre, State.setHatch_of at_]

/-- A hatch at the entry into the fire hold set: both locks engaged, a scan set aside. -/
def Hatch.shutDown (x : Hatch) : Hatch := asideScan { x.bothShutters engage with unlockDue := none }

/-- A hatch that goes to HELD-FIRE with the class it remembers. -/
def Hatch.heldWith (x : Hatch) (c : Option PhaseClass) : Hatch :=
  { x with
    phase := .heldFire, heldClass := c, heldTray := some x.tray, idle := none, purgeOn := false, heaterOn := false,
    rejectTimer := none, rejectExpired := false, readerOn := true }

theorem holdHatch_held (at_ : s.hatch[h] = x) (phase : x.phase = .heldFire) : holdHatch h s = s.setHatch h x.shutDown := by
  unfold holdHatch
  dsimp only
  rw [State.modHatch_of at_, State.setHatch_get]
  exact if_pos phase

theorem holdHatch_takes {c : Option PhaseClass} (at_ : s.hatch[h] = x) (phase : x.phase ≠ .heldFire)
    (query : x.phase ≠ .query) (class_ : rememberedClass h s = c) :
    holdHatch h s = s.setHatch h (x.shutDown.heldWith c) := by
  have same : rememberedClass h (s.setHatch h x.shutDown) = c := by
    rw [← class_]
    unfold rememberedClass
    rw [State.setHatch_get, at_]
    rfl
  unfold holdHatch
  dsimp only
  rw [State.modHatch_of at_, State.setHatch_get, if_neg (h := _) (by exact phase), if_neg (h := _) (by exact query)]
  refine (State.modHatch_setHatch h _).trans ?_
  rw [← same]
  rfl

/-- A hatch whose query has ended, its indicator red for 3 s. -/
def Hatch.queryClosed (x : Hatch) : Hatch := { x with query := none, colour := .red, colourLeft := some 3 }

theorem endQuery_of {q : Query} {cause : QueryEnd} (at_ : s.hatch[h] = x) (query : x.query = some q) :
    endQuery h cause s = post (.queryEnded h q.courier cause) (s.setHatch h x.queryClosed) := by
  unfold endQuery
  rw [at_, query]
  dsimp only
  rw [State.modHatch_of at_, light_of (State.setHatch_get ..), State.setHatch_setHatch]
  rfl

theorem State.modHatch_post (e : Event) (g : Hatch → Hatch) : (post e s).modHatch h g = post e (s.modHatch h g) := rfl

theorem holdHatch_query {q : Query} (at_ : s.hatch[h] = x) (phase : x.phase = .query) (query : x.query = some q) :
    holdHatch h s = post (.queryEnded h q.courier .fire) (s.setHatch h (x.shutDown.queryClosed.heldWith none)) := by
  have live : (s.setHatch h x.shutDown).hatch[h] = x.shutDown := State.setHatch_get ..
  have none_ : rememberedClass h (s.setHatch h x.shutDown) = none := by
    unfold rememberedClass
    rw [live, show x.shutDown.phase = .query from phase]
  unfold holdHatch
  dsimp only
  rw [State.modHatch_of at_, show asideScan { x.bothShutters engage with unlockDue := none } = x.shutDown from rfl, live,
    if_neg (h := _) (by rw [show x.shutDown.phase = .query from phase]; nofun),
    if_pos (h := _) (show x.shutDown.phase = .query from phase), endQuery_of live (show x.shutDown.query = some q from query),
    State.setHatch_setHatch, State.modHatch_post, State.modHatch_setHatch, none_]
  rfl

section
variable {left entered : FireState}

theorem left_ne_predischarge (out : left.holds = false) : left ≠ .predischarge := by rintro rfl; cases out

theorem hatchTakesFire_enters (out : left.holds = false) (in_ : entered.holds = true) :
    hatchTakesFire h left entered s = (holdHatch h s).setHatch h (((holdHatch h s).hatch[h]).closersFor entered) := by
  unfold hatchTakesFire
  dsimp only
  simp only [out, in_, Bool.not_true, Bool.not_false, Bool.and_true, Bool.and_false, Bool.false_eq_true, if_false, if_true]
  exact drives_of rfl (left_ne_predischarge out)

theorem hatchTakesFire_stays (at_ : s.hatch[h] = x) (in_ : left.holds = true) (in' : entered.holds = true) :
    hatchTakesFire h left entered s = s.setHatch h (if left = .predischarge then x else x.closersFor entered) := by
  unfold hatchTakesFire
  dsimp only
  simp only [in_, in', Bool.not_true, Bool.and_true, Bool.and_false, Bool.false_eq_true, if_false]
  by_cases first : left = .predischarge
  · rw [if_pos first, if_neg (fun both => both.2 first), State.setHatch_of at_]
  · rw [if_neg first, drives_of at_ first]

theorem hatchTakesFire_leaves (at_ : s.hatch[h] = x) (in_ : left.holds = true) (out : entered.holds = false)
    (hy : y = { x.bothShutters stopCloser with scan := if x.phase = .heldFire then some .resume else x.scan }) :
    hatchTakesFire h left entered s = s.setHatch h y := by
  have stopped : s.modHatch h (·.bothShutters stopCloser) = s.setHatch h (x.bothShutters stopCloser) :=
    State.modHatch_of at_ _
  have live : (s.setHatch h (x.bothShutters stopCloser)).hatch[h].phase = x.phase := by rw [State.setHatch_get]; rfl
  unfold hatchTakesFire
  simp only [in_, out, Bool.not_true, Bool.not_false, Bool.and_true, Bool.and_false, Bool.false_eq_true, if_false, if_true,
    left_ne_predischarge out, false_and, stopped, live, hy]
  by_cases held : x.phase = .heldFire
  · simp only [if_pos held]
    exact (startScan_of (State.setHatch_get ..) _).trans (State.setHatch_setHatch ..)
  · simp only [if_neg held]
    rfl

theorem hatchTakesFire_stands (out : left.holds = false) (out' : entered.holds = false) :
    hatchTakesFire h left entered s = s := by
  unfold hatchTakesFire
  dsimp only
  simp only [out, out', Bool.not_false, Bool.and_true, Bool.and_false, Bool.false_eq_true, if_false]
  exact if_neg fun both => left_ne_predischarge out' both.1

end

end Sys2Proof.Machine
end

