-- ==== Sys2Proof/Proofs/HatchTimers.lean ====
section
/-!
PROOFS. The hatch's timers, settings and reading.
-/

namespace Sys2Proof.Machine

variable {s : State} {h : HatchId} {sd : Side} {x y : Hatch} {z : Zone} {k v : Int}

/-! ### Settings and reading (R87, R119) -/

theorem writeHatchZone_rest (named : indexOf 2 k = some h) (zone : indexOf 4 v = some z)
    (rest : s.hatch[h].phase = .idle ∨ s.hatch[h].phase = .standby) :
    writeHatchZone (some k) (some v) s = (if z = s.hatchZone h then s else moveHatch h z s, { word := .ok }) := by
  refine (indexedSetting_some named).trans ?_
  rw [zone]
  exact if_pos rest

theorem writeHatchZone_busy (named : indexOf 2 k = some h) (zone : indexOf 4 v = some z)
    (rest : ¬(s.hatch[h].phase = .idle ∨ s.hatch[h].phase = .standby)) :
    writeHatchZone (some k) (some v) s = answer .busy .empty s := by
  refine (indexedSetting_some named).trans ?_
  rw [zone]
  exact if_neg rest

/-- A page of the tray: 12 positions from the one named. -/
theorem pageOf_tray (t : Tray) (p : TrayIdx) : pageOf 1 12 (num p) t.toList =
    (((t.toList.drop p).take 12).zipIdx.map (fun q => (p.val + 1 + q.2, q.1)),
      if p.val + 12 < 24 then some (p.val + 13) else none) := by
  have len : t.toList.length = 24 := t.length_toList
  have start : (num p : Int) = p.val + 1 := rfl
  have inside : (1 : Int) ≤ num p ∧ (num p : Int) < 1 + t.toList.length := by rw [len, start]; omega
  have place : ((num p : Int) - 1).toNat = p.val := by rw [start]; omega
  have page : ((t.toList.drop p).take 12).length = min 12 (24 - p.val) := by
    rw [List.length_take, List.length_drop, len]
  refine (if_pos inside).trans ?_
  dsimp only
  rw [Nat.cast_one, place]
  refine Prod.ext (List.map_congr_left fun q _ => by rw [Nat.add_comm 1]) ?_
  dsimp only
  rw [page, len]
  have lt := p.isLt
  by_cases more : p.val + 12 < 24
  · rw [if_pos more, if_pos (by omega)]
    congr 1
    omega
  · rw [if_neg more, if_neg (by omega)]

/-- The two words of a shutter's side. -/
theorem wordOf_side (sd : Side) {side : Text}
    (word : side = (match sd with | .outer => "OUTER".toList | .inner => "INNER".toList)) :
    wordOf sideWords side = some sd := by
  subst word
  cases sd <;> decide

theorem not_secured {sh : Shutter} (h : sh.locked = false ∨ sh.sensorOpen = true) : sh.secured = false := by
  rcases h with e | e <;> simp [Shutter.secured, e]

/-- An idle hatch that is not ready to stand by. -/
theorem not_standby_ready (h : x.outer.locked = false ∨ x.outer.sensorOpen = true ∨ x.inner.locked = false ∨
    x.inner.sensorOpen = true ∨ ∃ p : TrayIdx, x.tray[p].presence ≠ .empty) :
    ¬(x.outer.secured && x.inner.secured && trayEmpty x.tray) = true := by
  rw [Bool.and_eq_true, Bool.and_eq_true, Shutter.secured_iff, Shutter.secured_iff, trayEmpty_iff]
  rintro ⟨⟨⟨ol, oc⟩, il, ic⟩, empty⟩
  rcases h with e | e | e | e | ⟨p, there⟩
  · rw [ol] at e; cases e
  · rw [oc] at e; cases e
  · rw [il] at e; cases e
  · rw [ic] at e; cases e
  · exact there (empty p)

/-! ### The class a hatch remembers (R115) -/

theorem rememberedClass_eq (at_ : s.hatch[h] = x) {c : Option PhaseClass}
    (idle : x.phase = .idle → c = none) (standby : x.phase = .standby → c = none) (query : x.phase = .query → c = none)
    (receipt : x.phase = .receiptPending → c = some .receipt)
    (other : x.phase ≠ .idle → x.phase ≠ .standby → x.phase ≠ .query → x.phase ≠ .receiptPending →
      c = (s.store.handover[h]).bind fun r => x.phase.phaseClass r.direction r.phaseClass) :
    rememberedClass h s = c := by
  unfold rememberedClass
  rw [at_]
  split
  · exact (idle ‹_›).symm
  · exact (standby ‹_›).symm
  · exact (query ‹_›).symm
  · exact (receipt ‹_›).symm
  · rw [other ‹_› ‹_› ‹_› ‹_›, State.handover]
    cases s.store.handover[h] <;> rfl

/-- The hatch's share of a fire state, whatever it is (R90, R103, R115, R117). -/
theorem hatch_takes_fire (left entered : FireState) (at_ : s.hatch[h] = x) :
    (left.holds = false → entered.holds = true →
      (x.phase = .heldFire → hatchTakesFire h left entered s = s.setHatch h (x.shutDown.closersFor entered)) ∧
      (∀ c, x.phase ≠ .heldFire → rememberedClass h s = c →
        (x.phase ≠ .query → hatchTakesFire h left entered s =
          s.setHatch h ((x.shutDown.heldWith c).closersFor entered)) ∧
        (∀ q : Query, x.phase = .query → x.query = some q → hatchTakesFire h left entered s =
          post (.queryEnded h q.courier .fire)
            (s.setHatch h ((x.shutDown.queryClosed.heldWith none).closersFor entered))))) := by
  intro out in_
  have enters := hatchTakesFire_enters (s := s) (h := h) out in_
  refine ⟨fun held => ?_, fun c free class_ => ⟨fun query => ?_, fun q query is => ?_⟩⟩
  · rw [enters, holdHatch_held at_ held, State.setHatch_get, State.setHatch_setHatch]
  · rw [enters, holdHatch_takes at_ free query class_, State.setHatch_get, State.setHatch_setHatch]
  · have live {w : Hatch} : (post (.queryEnded h q.courier .fire) (s.setHatch h w)).hatch[h] = w := State.setHatch_get h w
    rw [enters, holdHatch_query at_ query is, live, setHatch_post, State.setHatch_setHatch]

/-- Settles O51. -/
theorem hatchTimersAndSettings : Obligations.HatchTimersAndSettings := by
  rintro s h x at_
  refine ⟨?_, ?_, ?_, ?_, ?_, ?_, ?_, ?_, ?_, ?_, ?_⟩
  · rintro on sd sh of_
    refine ⟨fun locked opened timed => ?_, ?_, fun closer timed => ?_⟩
    · exact (event_powered on).trans (congrArg _ (openTooLong_of at_.symm of_.symm locked opened timed))
    · rw [of_]
      exact (event_powered (f := fun s => s.modShutter h sd stopCloser) on).trans
        (congrArg _ (State.modShutter_of at_.symm stopCloser))
    · exact (event_powered on).trans (congrArg _ (notSecured_of at_.symm of_.symm closer timed))
  · rintro y on timed rfl
    refine (event_powered on).trans (congrArg _ ?_)
    exact (if_pos (by rw [← at_]; exact timed)).trans (light_of at_.symm _ _)
  · rintro y on phase scan il ic ol oc free rfl
    refine (event_powered on).trans (congrArg _ ?_)
    have secured := Hatch.secured_of il ic ol oc
    rw [buttonPressed_of at_.symm (by rcases phase with p | p | p | p <;> rw [p] <;> rfl) scan (secured .inner),
      unlock_secured at_.symm secured free]
    rfl
  · rintro y on phase timed ol oc il ic empty hy
    exact (event_powered on).trans (congrArg _ (idleExpires_standby at_.symm phase timed
      (Shutter.secured_iff.2 ⟨ol, oc⟩) (Shutter.secured_iff.2 ⟨il, ic⟩) empty hy))
  · rintro y on phase timed scan shut hy
    have closed : x.outer.isOpen = false := by rw [← Bool.not_eq_true, Shutter.isOpen_iff]; exact shut
    exact (event_powered on).trans (congrArg _
      ((rejectExpires_stuck at_.symm phase timed scan closed).trans (toStuck_of at_.symm hy)))
  · rintro y on phase timed busy rfl
    exact (event_powered on).trans (congrArg _ (idleExpires_reloads at_.symm phase timed (not_standby_ready busy)))
  · rintro k sd side ready named word
    have at' : s.heard.hatch[h] = x := at_.symm
    obtain ⟨clears, busy, fire, refused⟩ := clearStuck_of (s := s.heard) named (wordOf_side sd word) at'
    refine ⟨?_, ?_, ?_, ?_, ?_, ?_⟩
    · rintro y phase scan il ic ol oc free rfl
      refine request_next ready ((clears phase scan ol il).trans (congrArg (·, _) ?_))
      rw [unlock_secured at' (Hatch.secured_of il ic ol oc) (by rw [State.heard_held]; exact free)]
      cases sd <;> rfl
    · rintro y phase scan il ol opened rfl
      refine request_next ready ((clears phase scan ol il).trans (congrArg (·, _) ?_))
      rw [unlock_blocked at' (by cases sd <;> assumption) (.inl (not_secured (.inr opened)))]
      rfl
    · exact fun phase b => request_word ready (busy phase b)
    · exact fun phase => request_word ready (fire phase)
    · exact fun stuck held idle standby => request_word ready (refused stuck held idle standby)
    · intro w outer inner idle standby
      refine request_word ready (clearStuck_bad named ?_ (by rw [at']; exact idle) (by rw [at']; exact standby))
      rw [wordOf_eq_none]
      simp only [sideWords, List.map_cons, List.map_nil, List.mem_cons, List.not_mem_nil, or_false, not_or]
      exact ⟨outer, inner⟩
  · rintro k v n st ready named rfl
    refine ⟨request_next ready (indexedSetting_some named), ?_⟩
    cases n <;> rfl
  · rintro k v z ready named zone
    have rests (rest : x.phase = .idle ∨ x.phase = .standby) :
        writeHatchZone (some k) (some v) s.heard =
          (if z = s.heard.hatchZone h then s.heard else moveHatch h z s.heard, { word := .ok }) :=
      writeHatchZone_rest named zone (by rw [State.heard_hatch, ← at_]; exact rest)
    refine ⟨?_, ?_, ?_, ?_⟩
    · intro rest other
      exact request_next ready ((rests rest).trans (congrArg (·, _) (if_neg other)))
    · intro rest same
      exact request_word ready ((rests rest).trans (congrArg (·, _) (if_pos same)))
    · intro idle standby
      refine request_word ready (writeHatchZone_busy named zone ?_)
      rw [State.heard_hatch, ← at_]
      exact fun rest => rest.elim idle standby
    · intro rest free free' other
      refine request_next ready ((rests rest).trans (congrArg (·, _) ((if_neg other).trans ?_)))
      exact hatchTakesFire_stands free' free
  · rintro left entered drive y rfl rfl
    refine ⟨?_, ?_, ?_, ?_⟩
    · rintro z u out in_
      obtain ⟨held, free⟩ := hatch_takes_fire left entered at_.symm out in_
      refine ⟨held, ?_⟩
      rintro c phase class_ rfl
      obtain ⟨other, query⟩ := free c phase (by
        refine rememberedClass_eq at_.symm ?_ ?_ ?_ ?_ ?_
        · intro p; rw [class_, p]
        · intro p; rw [class_, p]
        · intro p; rw [class_, p]
        · intro p; rw [class_, p]
        · intro idle standby query receipt
          rw [class_]
          split <;> first | contradiction | rfl)
      refine ⟨other, ?_⟩
      rintro q w isQuery is rfl
      have none_ : c = none := by rw [class_, isQuery]
      rw [none_]
      exact query q isQuery is
    · rintro z u in_ in' rfl
      exact hatchTakesFire_stays at_.symm in_ in'
    · rintro z u in_ out rfl
      exact hatchTakesFire_leaves at_.symm in_ out rfl
    · rintro z out out'
      exact hatchTakesFire_stands out out'
  · rintro k ready named idle standby
    have live {t : Option Int} : readHatch k t s.heard = _ :=
      onHatch_awake named (by rw [State.heard_hatch, ← at_]; exact idle) (by rw [State.heard_hatch, ← at_]; exact standby)
    refine ⟨?_, ?_⟩
    · rw [at_]
      exact request_same ready live
    · intro start
      refine ⟨fun none_ => ?_, ?_⟩
      · refine request_word ready (live.trans ?_)
        dsimp only
        rw [none_]
      · rintro p page next at_p rfl rfl
        refine request_same ready (live.trans ?_)
        dsimp only
        rw [at_p]
        dsimp only
        rw [pageOf_tray, at_]
        rfl

end Sys2Proof.Machine
end

