-- ==== Sys2Proof/Proofs/HandoverRules.lean ====
section
/-!
PROOFS. A handover begun, the checks of LOAD-HATCH, and badges.
-/

namespace Sys2Proof.Machine

variable {s : State} {h : HatchId} {x y : Hatch} {m : Manifest} {k : Int}

/-! ### A handover begun (R82, R93, R102) -/

/-- A phase entered with the release that its rule calls for, both shutters secured. -/
theorem unlock_toPhase {sd : Side} {p : Phase} (at_ : s.hatch[h] = x) (secured : ∀ sd, (x.shutter sd).secured = true)
    (free : s.held s.store.hatch[h].zone = false)
    (hy : y = { x with phase := p, unlockDue := none, idle := none }.setShutter sd
      { x.shutter sd with locked := false, unlock := some s.store.hatch[h].unlockTimeout }) :
    unlock h sd (toPhase h p s) = s.setHatch h y := by
  have secured' : ∀ sd, (({ x with phase := p, unlockDue := none, idle := none } : Hatch).shutter sd).secured = true :=
    secured
  rw [toPhase_of at_, unlock_secured (State.setHatch_get ..) secured' free, State.setHatch_setHatch, hy]
  cases sd <;> rfl

theorem unlock_written {sd : Side} {p : Phase} (secured : ∀ sd, (x.shutter sd).secured = true)
    (free : s.held s.store.hatch[h].zone = false)
    (hy : y = { x with phase := p, unlockDue := none, idle := none }.setShutter sd
      { x.shutter sd with locked := false, unlock := some s.store.hatch[h].unlockTimeout }) :
    unlock h sd (toPhase h p (s.setHatch h x)) = s.setHatch h y :=
  (unlock_toPhase (s := s.setHatch h x) (State.setHatch_get ..) secured free hy).trans (State.setHatch_setHatch ..)

/-- A hatch that has taken a manifest up. -/
def Hatch.takingUp (x : Hatch) (id : Nat) : Hatch :=
  { x with manifest := some id, risk := false, query := none, rejectTimer := none, rejectExpired := false }

theorem beginHandover_of (at_ : s.hatch[h] = x) (c : PhaseClass) : beginHandover h m c s =
    (s.setHandover h (some {
      manifest := m.id, direction := m.direction, phaseClass := c, tray := x.tray, start := s.minute })).setHatch h
        (x.takingUp m.id) := by
  unfold beginHandover newHandover
  rw [at_]
  exact State.modHatch_of (s := s.setHandover h _) at_ _

theorem beginLoad_of (at_ : s.hatch[h] = x) (secured : ∀ sd, (x.shutter sd).secured = true)
    (free : s.held s.store.hatch[h].zone = false)
    (hy : y = { x.takingUp m.id with
      phase := .loading, idle := none, unlockDue := none,
      inner := { x.inner with locked := false, unlock := some s.store.hatch[h].unlockTimeout } }) :
    beginLoad h m s = ((takeUp m.id s).setHandover h (some {
      manifest := m.id, direction := m.direction, phaseClass := .load, tray := x.tray, start := s.minute })).setHatch h y := by
  have live : (takeUp m.id s).hatch[h] = x := at_
  unfold beginLoad
  rw [beginHandover_of live]
  exact unlock_written (s := (takeUp m.id s).setHandover h _) (x := x.takingUp m.id) secured free hy

theorem toCourierAccess_of (at_ : s.hatch[h] = x) (secured : ∀ sd, (x.shutter sd).secured = true)
    (free : s.held s.store.hatch[h].zone = false)
    (hy : y = { x with
      phase := .courierAccess, idle := none, unlockDue := none,
      outer := { x.outer with locked := false, unlock := some s.store.hatch[h].unlockTimeout } }) :
    toCourierAccess h s = s.setHatch h y := unlock_toPhase at_ secured free hy

theorem beginInbound_of (at_ : s.hatch[h] = x) (secured : ∀ sd, (x.shutter sd).secured = true)
    (free : s.held s.store.hatch[h].zone = false)
    (hy : y = { x.takingUp m.id with
      phase := .courierAccess, idle := none, unlockDue := none, colour := .green, colourLeft := some 3,
      outer := { x.outer with locked := false, unlock := some s.store.hatch[h].unlockTimeout } }) :
    beginInbound h m s = (s.setHandover h (some {
      manifest := m.id, direction := m.direction, phaseClass := .inAccess, tray := x.tray, start := s.minute })).setHatch h
        y := by
  unfold beginInbound
  rw [beginHandover_of at_, light_of (State.setHatch_get ..), State.setHatch_setHatch]
  exact unlock_written (s := s.setHandover h _) (x := { x.takingUp m.id with colour := .green, colourLeft := some 3 })
    secured free hy

/-! ### The checks of LOAD-HATCH (R93) -/

theorem loadHatch_awake (named : indexOf 2 k = some h) (at_ : (wake h s).hatch[h] = x) (id : Int) :
    ((x.phase = .heldFire ∨ s.held s.store.hatch[h].zone = true) →
      loadHatch k id s = answer .fireHold .empty (wake h s)) ∧
    (x.phase ≠ .heldFire → s.held s.store.hatch[h].zone = false →
      (x.phase ≠ .idle → loadHatch k id s = answer .busy .empty (wake h s)) ∧
      (x.phase = .idle → s.manifestNamed id = none → loadHatch k id s = answer .notFound .empty (wake h s)) ∧
      (x.phase = .idle → s.manifestNamed id = some m →
        (∀ why, loadRefusal h m = some why → loadHatch k id s = answer .refused (.refusedFor why) (wake h s)) ∧
        (loadRefusal h m = none → loadHatch k id s = (beginLoad h m (wake h s), { word := .ok })))) := by
  have run : loadHatch k id s = _ := onHatch_named named
  obtain ⟨w, woken⟩ := wake_only h s
  have held : (wake h s).held ((wake h s).hatchZone h) = s.held s.store.hatch[h].zone := by rw [woken]; rfl
  have manifests : (wake h s).manifestNamed id = s.manifestNamed id := by rw [woken]; rfl
  refine ⟨fun fire => ?_, fun phase free => ?_⟩
  · exact run.trans (if_pos (by rw [at_, held]; exact fire))
  · have passed := run.trans (if_neg (by
      rw [at_, held, free]
      exact fun fire => fire.elim phase Bool.false_ne_true))
    refine ⟨fun busy => ?_, fun idle none_ => ?_, fun idle found => ⟨fun why refused => ?_, fun none_ => ?_⟩⟩
    · exact passed.trans (if_pos (by rw [at_]; exact busy))
    all_goals
      refine (passed.trans (if_neg (by rw [at_]; exact fun busy => busy idle))).trans ?_
      rw [manifests]
    · rw [none_]
    · rw [found]
      dsimp only
      rw [refused]
    · rw [found]
      dsimp only
      rw [none_]

theorem loadRefusal_some {why : RefusedFor} (h_ : why = .wrongDirection ∧ m.direction = .in_ ∨
    why = .wrongHatch ∧ m.direction = .out ∧ m.hatch ≠ h ∨
    why = .active ∧ m.direction = .out ∧ m.hatch = h ∧ m.active = true ∨
    why = .nothingToLoad ∧ m.direction = .out ∧ m.hatch = h ∧ m.active = false ∧
      ∀ i ∈ m.items, i.status ≠ .reserved ∧ i.status ≠ .picked) : loadRefusal h m = some why := by
  unfold loadRefusal
  rcases h_ with ⟨rfl, in_⟩ | ⟨rfl, out, other⟩ | ⟨rfl, out, this, active⟩ | ⟨rfl, out, this, idle, none_⟩
  · rw [if_pos in_]
  · rw [if_neg (by rw [out]; nofun), if_pos other]
  · rw [if_neg (by rw [out]; nofun), if_neg (not_not_intro this), if_pos active]
  · have work : ¬m.workLeft = true := by
      rw [Manifest.workLeft, List.any_eq_true]
      rintro ⟨i, mem, left⟩
      obtain ⟨reserved, picked⟩ := none_ i mem
      rw [Bool.or_eq_true, beq_iff_eq, beq_iff_eq] at left
      exact left.elim reserved picked
    rw [if_neg (by rw [out]; nofun), if_neg (not_not_intro this), if_neg (by rw [idle]; exact Bool.false_ne_true),
      if_neg work]

theorem loadRefusal_none (out : m.direction = .out) (this : m.hatch = h) (idle : m.active = false)
    (work : m.workLeft = true) : loadRefusal h m = none := by
  unfold loadRefusal
  rw [if_neg (by rw [out]; nofun), if_neg (not_not_intro this), if_neg (by rw [idle]; exact Bool.false_ne_true),
    if_pos work]

/-! ### Badges (R92, R97, R102) -/

/-- What a badge does at a hatch with no scan in flight, by the phase it finds once the hatch is woken. -/
theorem badgeTaken_of {w : State} {b : Option Nat} (woken : wake h s = w) (at_ : w.hatch[h] = x) (scan : x.scan = none) :
    (∀ c, b = some c → x.phase = .idle → badgeTaken h b s = badgeInIdle h c w) ∧
    (b = none → x.phase = .idle → badgeTaken h b s = light h .red (some 3) w) ∧
    (∀ c, b = some c → x.phase = .awaitCourier → badgeTaken h b s = badgeInAwait h c w) ∧
    (b = none → x.phase = .awaitCourier → badgeTaken h b s = light h .red (some 3) w) ∧
    (x.phase = .receiptPending → badgeTaken h b s = light h .amber (some 3) w) ∧
    (x.phase = .heldFire → badgeTaken h b s = light h .red (some 3) w) ∧
    (x.phase ∉ ([.idle, .awaitCourier, .receiptPending, .heldFire] : List Phase) → badgeTaken h b s = w) := by
  have scans : ¬x.scan.isSome = true := by rw [scan]; exact Bool.false_ne_true
  unfold badgeTaken
  simp only [woken, at_, if_neg scans]
  refine ⟨?_, ?_, ?_, ?_, ?_, ?_, ?_⟩
  · rintro c rfl phase
    rw [phase]
  · rintro rfl phase
    rw [phase]
  · rintro c rfl phase
    rw [phase]
  · rintro rfl phase
    rw [phase]
  · intro phase
    rw [phase]
  · intro phase
    rw [phase]
  · intro other
    split <;> first | rfl | exact absurd (by rw [‹x.phase = _›]; decide) other

theorem badgeTaken_scanning {b : Option Nat} (scan : s.hatch[h].scan.isSome = true) (idle : s.hatch[h].phase ≠ .idle)
    (standby : s.hatch[h].phase ≠ .standby) : badgeTaken h b s = s := by
  unfold badgeTaken
  dsimp only
  rw [wake_other idle standby, if_pos scan]

theorem badgeInIdle_query {c : Nat} (at_ : s.hatch[h] = x) (none_ : s.inboundFor h c = none)
    (hy : y = { x with
      phase := .query, idle := none, unlockDue := none, colour := .amber, colourLeft := none,
      query := some { courier := c, wait := s.store.hatch[h].queryWait } }) :
    badgeInIdle h c s = post (.manifestQuery h c) (s.setHatch h y) := by
  unfold badgeInIdle
  rw [none_]
  dsimp only
  rw [toPhase_of at_, State.modHatch_setHatch,
    light_of (s := post _ _) (by rw [post_hatch, State.setHatch_get]), setHatch_post, State.setHatch_setHatch, hy]
  rfl

theorem badgeInIdle_found {c : Nat} (found : s.inboundFor h c = some m) :
    badgeInIdle h c s = beginInbound h m (takeUp m.id s) := by
  unfold badgeInIdle
  rw [found]

theorem activeManifest_of {id : Nat} (manifest : s.hatch[h].manifest = some id) : s.activeManifest h = s.manifest? id := by
  unfold State.activeManifest
  rw [manifest]

theorem badgeInAwait_of {c : Nat} (active : s.activeManifest h = some m) : badgeInAwait h c s =
    if m.courier = c then toCourierAccess h (setClass h .outAccess (light h .green (some 3) s))
    else post (.badgeMismatch h c m.id) (light h .red (some 3) s) := by
  unfold badgeInAwait
  rw [active]

end Sys2Proof.Machine
end

