-- ==== Sys2Proof/Proofs/Handovers.lean ====
section
/-!
PROOFS. Handovers begun and aborted, and queries that end.
-/

namespace Sys2Proof.Machine

variable {s : State} {h : HatchId} {x y : Hatch} {m : Manifest} {k : Int}

/-! ### Queries that end (R103) -/

theorem closeQuery_of {q : Query} {cause : QueryEnd} (at_ : s.hatch[h] = x) (query : x.query = some q)
    (hy : y = { x.toIdle s.store.hatch[h].standbyTime with query := none, colour := .red, colourLeft := some 3 }) :
    closeQuery h cause s = post (.queryEnded h q.courier cause) (s.setHatch h y) := by
  unfold closeQuery
  rw [endQuery_of at_ query, enterIdle_of (s := post _ _) (by rw [post_hatch, State.setHatch_get]), setHatch_post,
    State.setHatch_setHatch, hy]
  rfl

section
variable {a : AnswerFields}

/-- An answer of good form at a hatch in QUERY. -/
theorem answerQuery_standing {q : Query} (full : partialSummary a.summary = none) (named : indexOf 2 k = some h)
    (at_ : s.hatch[h] = x) (phase : x.phase = .query) (query : x.query = some q) :
    (a.decline = some "YES".toList → answerQuery k a s = (closeQuery h .declined s, { word := .ok })) ∧
    (∀ ls, a.decline = none → a.items = some ls → answerQuery k a s = answerItems h q.courier ls a s) := by
  have awake : wake h s = s := wake_other (by rw [at_, phase]; nofun) (by rw [at_, phase]; nofun)
  refine ⟨fun declined => ?_, fun ls declined items => ?_⟩
  · unfold answerQuery
    rw [full, declined]
    dsimp only
    rw [onHatch_named named, awake, at_, phase, query]
    exact if_pos rfl
  · unfold answerQuery
    rw [full, declined, items]
    dsimp only
    rw [onHatch_named named, awake, at_, phase, query]

theorem answerQuery_late {d : Text} (full : partialSummary a.summary = none) (declined : a.decline = some d)
    (named : indexOf 2 k = some h) (query : s.hatch[h].phase ≠ .query) (idle : s.hatch[h].phase ≠ .idle)
    (standby : s.hatch[h].phase ≠ .standby) : answerQuery k a s = answer .tooLate .empty s := by
  unfold answerQuery
  rw [full, declined]
  dsimp only
  rw [onHatch_awake named idle standby]
  split
  · contradiction
  · rfl

end

theorem answerItems_accepted {courier : Nat} {ls : List Text} {a : AnswerFields} {u : State} {ans : Answer}
    (ok : submissionOk courier ls = true)
    (accepted : submitChecked .in_ h courier (a.validity.getD 60) ls true a.summary s = ((u, ans), some m)) :
    answerItems h courier ls a s = (beginInbound h m u, ans) := by
  refine (if_pos ok).trans ?_
  rw [accepted]

/-! ### Aborts (R101) -/

theorem abortHandover_of (named : indexOf 2 k = some h) (at_ : s.hatch[h] = x) :
    (x.phase = .awaitCourier → abortHandover k s =
      (unlock h .inner (toPhase h .unload (setClass h .abortUnload s)), { word := .ok })) ∧
    (x.phase = .query → abortHandover k s = (closeQuery h .declined s, { word := .ok })) ∧
    (x.phase = .heldFire → abortHandover k s = answer .fireHold .empty s) ∧
    (x.phase = .loading → abortHandover k s = answer .refused .empty s) := by
  have run (ne : x.phase ≠ .idle ∧ x.phase ≠ .standby) : abortHandover k s = _ :=
    onHatch_awake named (by rw [at_]; exact ne.1) (by rw [at_]; exact ne.2)
  simp only [at_] at run
  refine ⟨?_, ?_, ?_, ?_⟩ <;> intro phase <;>
    exact (run (phase_ne (by simp only [phase, true_or, or_true]))).trans (by rw [phase])

/-- Settles O49. -/
theorem queryEndsAndHandoverAborts : Obligations.QueryEndsAndHandoverAborts := by
  rintro s h x k at_ named
  have at' : s.heard.hatch[h] = x := at_.symm
  obtain ⟨await_, query_, fire, loading⟩ := abortHandover_of named at'
  refine ⟨?_, ?_, ?_, ?_, ?_⟩
  · rintro q ended phase query hy
    have closes : closeQuery h .declined s.heard = _ := closeQuery_of at' query hy
    refine ⟨fun ready => ?_, fun ready => ?_, fun on => ?_, ?_⟩
    · exact request_next ready (((answerQuery_standing rfl named at' phase query).1 rfl).trans (congrArg (·, _) closes))
    · exact request_next ready ((query_ phase).trans (congrArg (·, _) closes))
    · refine (event_powered on).trans (congrArg _ (Eq.trans ?_ (closeQuery_of at_.symm query hy)))
      exact if_pos (by rw [← at_, phase, query]; exact ⟨rfl, rfl⟩)
    · intro ls v u ans m ready ok accepted
      exact request_next ready (((answerQuery_standing rfl named at' phase query).2 ls rfl rfl).trans
        (answerItems_accepted ok accepted))
  · intro ready query idle standby
    rw [← at'] at query idle standby
    exact request_word ready (answerQuery_late rfl rfl named query idle standby)
  · rintro r y ready phase held il ic ol oc free hy
    refine request_next ready ((await_ phase).trans (congrArg (·, _) ?_))
    rw [setClass_of (s := s.heard) held at']
    exact unlock_toPhase (s := s.heard.setHandover h _) at' (Hatch.secured_of il ic ol oc) free hy
  · exact fun ready phase => request_word ready (fire phase)
  · exact fun ready phase => request_word ready (loading phase)

/-! ### A hatch in STANDBY (R118) -/

/-- Waking a hatch twice is waking it once. -/
theorem wake_standby_twice (at_ : s.hatch[h] = x) (phase : x.phase = .standby) :
    wake h (s.setHatch h (x.toIdle s.store.hatch[h].standbyTime)) = wake h s := by
  have twice : (x.toIdle s.store.hatch[h].standbyTime).woken s.store.hatch[h].standbyTime =
      x.toIdle s.store.hatch[h].standbyTime := by
    unfold Hatch.woken
    exact (if_neg nofun).trans (if_pos rfl)
  rw [wake_of (State.setHatch_get ..), State.setHatch_setHatch, wake_of at_, Hatch.woken_standby phase]
  exact congrArg (s.setHatch h) twice

/-- A hatch in IDLE with its timer reloaded. -/
def Hatch.reloaded (x : Hatch) (n : Nat) : Hatch := { x with idle := some n }

theorem Hatch.woken_idle (idle : x.phase = .idle) (n : Nat) : x.woken n = x.reloaded n := by
  unfold Hatch.woken
  rw [if_neg (by rw [idle]; nofun), if_pos idle]
  rfl

theorem setClass_eq (at_ : s.hatch[h] = x) (c : PhaseClass) : setClass h c s =
    s.setHandover h (s.store.handover[h].map fun r => { r with phaseClass := c, tray := x.tray }) := by rw [← at_]; rfl

/-- Settles O48. -/
theorem handoverBegins : Obligations.HandoverBegins := by
  rintro s h x m at_ scan il ic ol oc
  have secured := Hatch.secured_of il ic ol oc
  have at' : s.heard.hatch[h] = x := at_.symm
  have woken : wake h s = s.setHatch h (x.woken s.store.hatch[h].standbyTime) := wake_of at_.symm
  have woken' : wake h s.heard = s.heard.setHatch h (x.woken s.store.hatch[h].standbyTime) := wake_of at'
  have live : (wake h s).hatch[h] = x.woken s.store.hatch[h].standbyTime := by rw [woken, State.setHatch_get]
  have live' : (wake h s.heard).hatch[h] = x.woken s.store.hatch[h].standbyTime := by rw [woken', State.setHatch_get]
  have idles (idle : x.phase = .idle) :
      x.woken s.store.hatch[h].standbyTime = x.reloaded s.store.hatch[h].standbyTime := Hatch.woken_idle idle _
  have awake (idle : x.phase ≠ .idle) (standby : x.phase ≠ .standby) : wake h s = s :=
    wake_other (by rw [← at_]; exact idle) (by rw [← at_]; exact standby)
  refine ⟨?_, ?_, ?_, ?_, ?_, ?_, ?_, ?_, ?_, ?_, ?_⟩
  · rintro k y ready named free phase found out this inactive work hy
    rw [idles phase] at live' woken'
    have takes := (((loadHatch_awake named live' m.id).2 (fun held => nomatch phase.symm.trans held) free).2.2 phase
      ((manifestNamed_natCast _ _).trans found)).2 (loadRefusal_none out this inactive work)
    refine request_next ready (takes.trans (congrArg (·, _) ?_))
    rw [woken']
    refine (beginLoad_of (s := s.heard.setHatch h _) (x := x.reloaded _) (State.setHatch_get ..) secured free hy).trans ?_
    rw [out]
    exact State.setHatch_setHatch (s := (takeUp m.id s.heard).setHandover h _) h _ _
  · rintro k id ready named
    refine request_word ready ?_
    unfold loadHatch onHatch
    rw [named]
  · rintro k id ready named idle standby
    have same : x.woken s.store.hatch[h].standbyTime = x := Hatch.woken_other idle standby _
    have awake' : wake h s.heard = s.heard := by rw [woken', same, State.setHatch_of at']
    rw [same] at live'
    obtain ⟨fire, free⟩ := loadHatch_awake (m := m) named live' id
    rw [awake'] at fire free
    exact ⟨fun held => request_word ready (fire held), fun phase out => request_word ready ((free phase out).1 idle)⟩
  · rintro k id y u ready named phase rfl rfl
    rw [idles phase] at live' woken'
    refine ⟨fun held => ?_, fun free => ⟨fun none_ => ?_, fun why found refused => ?_⟩⟩
    · exact request_next ready (((loadHatch_awake (m := m) named live' id).1 (.inr held)).trans
        (congrArg (·, _) woken'))
    · have missing : s.heard.manifestNamed id = none := by
        rw [State.manifestNamed, List.find?_eq_none]
        exact fun n mem is => none_ n mem (beq_iff_eq.1 is)
      exact request_next ready ((((loadHatch_awake (m := m) named live' id).2
        (fun held => nomatch phase.symm.trans held) free).2.1 phase missing).trans (congrArg (·, _) woken'))
    · exact request_next ready (((((loadHatch_awake named live' m.id).2
        (fun held => nomatch phase.symm.trans held) free).2.2 phase
          ((manifestNamed_natCast _ _).trans found)).1 why (loadRefusal_some refused)).trans (congrArg (·, _) woken'))
  · rintro y u phase rfl rfl
    refine ⟨fun b on => ?_, fun k id ready named => ?_⟩
    · refine (event_powered on).trans (Eq.trans (congrArg _ ?_)
        (event_powered (s := s.setHatch h (x.toIdle s.store.hatch[h].standbyTime)) on).symm)
      have same : wake h (s.setHatch h (x.toIdle s.store.hatch[h].standbyTime)) = wake h s :=
        wake_standby_twice at_.symm phase
      unfold badgeTaken
      dsimp only
      rw [same]
    · have same : wake h (s.heard.setHatch h (x.toIdle s.store.hatch[h].standbyTime)) = wake h s.heard :=
        wake_standby_twice at' phase
      have both : loadHatch k id (s.heard.setHatch h (x.toIdle s.store.hatch[h].standbyTime)) = loadHatch k id s.heard := by
        unfold loadHatch
        rw [onHatch_named named, onHatch_named named, same]
      refine (request_next (r := loadHatch k id) ready rfl).trans (Eq.symm ?_)
      exact request_next (r := loadHatch k id) (s := s.setHatch h (x.toIdle s.store.hatch[h].standbyTime)) ready both
  · rintro c y on phase free found in_ hy
    rw [idles phase] at live woken
    refine (event_powered on).trans (congrArg _ ?_)
    rw [(badgeTaken_of woken (State.setHatch_get ..) scan).1 c rfl phase, badgeInIdle_found (s := s.setHatch h _) found]
    refine (beginInbound_of (s := takeUp m.id (s.setHatch h _)) (x := x.reloaded _) (State.setHatch_get ..)
      secured free hy).trans ?_
    rw [in_]
    exact State.setHatch_setHatch (s := (takeUp m.id s).setHandover h _) h _ _
  · rintro c y on phase none_ hy
    rw [idles phase] at live woken
    refine (event_powered on).trans (congrArg _ ?_)
    rw [(badgeTaken_of woken (State.setHatch_get ..) scan).1 c rfl phase,
      badgeInIdle_query (s := s.setHatch h _) (x := x.reloaded _) (State.setHatch_get ..) none_ hy, State.setHatch_setHatch]
    rfl
  · rintro c y on phase manifest found
    have same : wake h s = s := awake (by rw [phase]; nofun) (by rw [phase]; nofun)
    have taken := (badgeTaken_of (b := some c) same at_.symm scan).2.2.1 c rfl phase
    have active : s.activeManifest h = some m := (activeManifest_of (by rw [← at_]; exact manifest)).trans found
    rw [badgeInAwait_of active] at taken
    refine ⟨fun other hy => ?_, fun this free hy => ?_⟩
    · refine (event_powered on).trans (congrArg _ ?_)
      rw [taken, if_neg other, light_of at_.symm, ← hy]
      rfl
    · refine (event_powered on).trans (congrArg _ ?_)
      rw [taken, if_pos this, light_of at_.symm, setClass_eq (State.setHatch_get ..)]
      exact unlock_written (s := s.setHandover h _) (x := { x with colour := .green, colourLeft := some 3 }) secured free hy
  · rintro y on
    refine ⟨fun phase hy => ?_, fun phase hy => ?_, fun b phase hy => ?_, fun b phase hy => ?_⟩
    · rw [idles phase] at live woken
      refine (event_powered on).trans (congrArg _ ?_)
      rw [(badgeTaken_of woken (State.setHatch_get ..) scan).2.1 rfl phase, light_of (x := x.reloaded _) (State.setHatch_get ..),
        State.setHatch_setHatch, hy]
      rfl
    all_goals
      have same : wake h s = s := awake (by rw [phase]; nofun) (by rw [phase]; nofun)
      obtain ⟨-, -, -, await_, receipt, fire, -⟩ := badgeTaken_of same at_.symm scan
      refine (event_powered on).trans (congrArg _ ?_)
    · rw [await_ rfl phase, light_of at_.symm, hy]
      rfl
    · rw [receipt phase, light_of at_.symm, hy]
      rfl
    · rw [fire phase, light_of at_.symm, hy]
      rfl
  · rintro b on other
    simp only [List.mem_cons, List.not_mem_nil, or_false, not_or] at other
    obtain ⟨idle, standby, await_, receipt, fire⟩ := other
    refine (event_powered on).trans (congrArg _ ?_)
    refine (badgeTaken_of (awake idle standby) at_.symm scan).2.2.2.2.2.2 ?_
    simp only [List.mem_cons, List.not_mem_nil, or_false, not_or]
    exact ⟨idle, await_, receipt, fire⟩
  · rintro b w u on idle standby rfl
    have live : (s.setHatch h { x with scan := some w }).hatch[h] = { x with scan := some w } := State.setHatch_get ..
    refine (event_powered (s := s.setHatch h { x with scan := some w }) on).trans (congrArg _ ?_)
    exact badgeTaken_scanning (s := s.setHatch h { x with scan := some w }) (by rw [live]; rfl) (by rw [live]; exact idle)
      (by rw [live]; exact standby)

end Sys2Proof.Machine
end

