-- ==== Sys2Proof/Proofs/GateRules.lean ====
section
/-!
PROOFS. The gate evaluated and opened.
-/

namespace Sys2Proof.Machine

variable {s : State} {h : HatchId} {x y : Hatch} {m : Manifest} {r : Handover} {k : Int}

/-! ### The gate (R107, R108, R110) -/

theorem gateCond_met (a b : Int) {met : Int → Int → Bool} : gateCond (some a) (some b) met =
    if met a b = true then .met else .failing := rfl

theorem purgeCond_eq {c : GateCond} (at_ : s.hatch[h] = x)
    (valid : ∀ a b, x.rh.value = .valid a → s.climate[s.store.hatch[h].zone].rh.value = .valid b →
      c = if a ≤ b + s.store.hatch[h].purgeBand then .met else .failing)
    (other : (∀ a b, x.rh.value = .valid a → s.climate[s.store.hatch[h].zone].rh.value ≠ .valid b) → c = .unknown) :
    purgeCond h s = c := by
  unfold purgeCond
  dsimp only
  rw [at_]
  cases here : x.rh.value with
  | valid a =>
    cases there : (s.climate[s.hatchZone h]).rh.value with
    | valid b =>
      rw [valid a b here there]
      simp only [Value.toInt?, gateCond, decide_eq_true_eq]
      rfl
    | _ => exact (other fun _ _ _ e => nomatch there.symm.trans e).symm
  | _ => exact (other fun _ _ e => nomatch here.symm.trans e).symm

theorem condensationCond_eq {c : GateCond} (at_ : s.hatch[h] = x)
    (valid : ∀ p d (a b e), x.probe.value = .valid p → s.climate[s.store.hatch[h].zone].dew = .valid d a b e →
      c = if d + s.store.hatch[h].condMargin ≤ p then .met else .failing)
    (other : (∀ p d a b e, x.probe.value = .valid p → s.climate[s.store.hatch[h].zone].dew ≠ .valid d a b e) →
      c = .unknown) : condensationCond h s = c := by
  unfold condensationCond
  dsimp only
  rw [at_]
  cases here : x.probe.value with
  | valid p =>
    cases there : (s.climate[s.hatchZone h]).dew with
    | valid d a b e =>
      rw [valid p d a b e here there]
      simp only [Value.toInt?, DewPoint.toInt?, gateCond, decide_eq_true_eq, ge_iff_le]
      rfl
    | _ => exact (other fun _ _ _ _ _ _ e => nomatch there.symm.trans e).symm
  | _ => exact (other fun _ _ _ _ _ e => nomatch here.symm.trans e).symm

theorem evaluateGate_of {p c : GateCond} (at_ : s.hatch[h] = x) (phase : x.phase = .conditioning)
    (purge : purgeCond h s = p) (cond : condensationCond h s = c)
    (hy : y = { x with
      purge := p, condensation := c, purgeOn := decide (p = .failing), heaterOn := decide (c = .failing) }) :
    evaluateGate h s = if p = .met ∧ c = .met then openGate h false (s.setHatch h y) else s.setHatch h y := by
  subst hy
  have run : evaluateGate h s = _ := if_pos (by rw [at_]; exact phase)
  rw [run, purge, cond]
  dsimp only
  rw [State.modHatch_of at_]
  rfl

/-- A release leaves its hatch as it was but for its locks and what is due. -/
theorem unlock_keeps (sd : Side) (at_ : s.hatch[h] = x) : ∃ y, unlock h sd s = s.setHatch h y ∧ y.phase = x.phase ∧
    y.tray = x.tray ∧ y.purgeOn = x.purgeOn ∧ y.heaterOn = x.heaterOn ∧ y.risk = x.risk := by
  rcases unlock_cases h sd s with ⟨-, e⟩ | ⟨-, -, e⟩ | ⟨-, -, e⟩
  · exact ⟨x, by rw [e, State.setHatch_of at_], rfl, rfl, rfl, rfl, rfl⟩
  · rw [at_] at e
    exact ⟨_, e, by cases sd <;> rfl, by cases sd <;> rfl, by cases sd <;> rfl, by cases sd <;> rfl, by cases sd <;> rfl⟩
  · rw [at_] at e
    exact ⟨_, e, rfl, rfl, rfl, rfl, rfl⟩

/-- A phase entered with the release that its rule calls for, made or kept due. -/
theorem unlock_enters (sd : Side) (p : Phase) (s : State) (x : Hatch) : ∃ y,
    unlock h sd (toPhase h p (s.setHatch h x)) = s.setHatch h y ∧ y.phase = p ∧
      y.tray = x.tray ∧ y.purgeOn = x.purgeOn ∧ y.heaterOn = x.heaterOn ∧ y.risk = x.risk := by
  rw [toPhase_of (State.setHatch_get ..), State.setHatch_setHatch]
  obtain ⟨y, e, kept⟩ := unlock_keeps sd (State.setHatch_get (s := s) h { x with phase := p, unlockDue := none, idle := none })
  exact ⟨y, e.trans (State.setHatch_setHatch ..), kept⟩

/-- Records changed one label after another, the rest of the state left alone. -/
theorem forLabels_modCartridge {f : Cartridge → Cartridge} (label : ∀ c, (f c).label = c.label) (twice : ∀ c, f (f c) = f c)
    (ls : List Text) (s : State) : forLabels (fun l s => s.modCartridge l f) ls s = s.setStore { s.store with
      cartridges := s.store.cartridges.map fun c => if c.label ∈ ls then f c else c } := by
  have fold : forLabels (fun l s => s.modCartridge l f) ls s =
      s.setStore (ls.foldl (fun st l => st.modCartridge l f) s.store) := by
    unfold forLabels
    induction ls generalizing s with
    | nil => rfl
    | cons l ls ih => exact ih (s.modCartridge l f)
  rw [fold, foldl_modCartridge label twice]

theorem mem_acceptedLabels {t : Tray} {l : Text} : l ∈ (acceptedLabels t).map Prod.fst ↔
    ∃ (p : TrayIdx) (n : Char), t[p].verdict = .accepted ∧ t[p].presence = .present l n := by
  simp only [acceptedLabels, List.mem_map, List.mem_filterMap, List.mem_finRange, true_and]
  constructor
  · rintro ⟨a, ⟨p, found⟩, rfl⟩
    split at found
    · next verdict =>
      unfold labelAt at found
      split at found
      · next l n there =>
        cases found
        exact ⟨p, n, verdict, there⟩
      · cases found
    · cases found
  · rintro ⟨p, n, verdict, there⟩
    refine ⟨(l, t[p]), ⟨p, ?_⟩, rfl⟩
    unfold labelAt
    rw [if_pos verdict, there]
    rfl

/-- A tray with a hold kept at every ACCEPTED position. -/
def keptTray (hold : Nat) (t : Tray) : Tray := t.map fun p => if p.verdict = .accepted then { p with hold := some hold } else p

/-- A cartridge as the gate's opening marks it. -/
def gateMark (m : Manifest) (risk : Bool) (c : Cartridge) : Cartridge :=
  { c with noExposure := c.noExposure || m.exposure.isNone, condensationReleased := c.condensationReleased || risk }

theorem gateMark_twice (m : Manifest) (risk : Bool) (c : Cartridge) : gateMark m risk (gateMark m risk c) = gateMark m risk c := by
  simp [gateMark]

theorem keepHold_of {risk : Bool} {hold : Nat} (at_ : s.hatch[h] = x)
    (hh : hold = holdFor s.store.hold s.store.climate[s.store.hatch[h].zone].tset
      s.store.climate[s.store.hatch[h].zone].hset m.exposure risk) :
    keepHold h m risk s = (s.setStore { s.store with
      cartridges := s.store.cartridges.map fun c =>
        if c.label ∈ (acceptedLabels x.tray).map Prod.fst then gateMark m risk c else c }).setHatch h
          { x with tray := keptTray hold x.tray } := by
  unfold keepHold
  dsimp only
  rw [State.modHatch_of at_, at_]
  refine (forLabels_modCartridge (f := gateMark m risk) (fun _ => rfl) (gateMark_twice m risk) _ _).trans ?_
  rw [hh]
  rfl

/-! ### Records written one after another -/

theorem State.setHandover_get (h : HatchId) (o : Option Handover) : (s.setHandover h o).store.handover[h] = o := by
  simp [State.setHandover]

theorem State.setHandover_setHandover (h : HatchId) (o p : Option Handover) :
    (s.setHandover h o).setHandover h p = s.setHandover h p := by simp [State.setHandover, State.setStore]

theorem State.modHandover_of {o : Option Handover} (held : s.store.handover[h] = o) (f : Handover → Handover) :
    s.modHandover h f = s.setHandover h (o.map f) := by rw [← held]; rfl

theorem saveTray_of {o : Option Handover} (held : s.store.handover[h] = o) (at_ : s.hatch[h] = x) :
    saveTray h s = s.setHandover h (o.map fun r => { r with tray := x.tray }) := by
  rw [saveTray, State.modHandover_of held, at_]

/-- The live tray copied into a record already changed. -/
theorem saveTray_modHandover (at_ : s.hatch[h] = x) (f : Handover → Handover) : saveTray h (s.modHandover h f) =
    s.setHandover h (s.store.handover[h].map fun r => { f r with tray := x.tray }) := by
  rw [State.modHandover_of rfl, saveTray_of (State.setHandover_get ..) (x := x) at_, State.setHandover_setHandover,
    Option.map_map]
  rfl

/-- A hatch with its gate open, before its phase changes. -/
def Hatch.gateOpened (x : Hatch) (hold : Nat) (risk : Bool) : Hatch :=
  { x with tray := keptTray hold x.tray, purgeOn := false, heaterOn := false, risk := risk }

/-- The gate open: what it leaves of the hatch, and the store. -/
theorem openGate_of {risk : Bool} {hold : Nat} (at_ : s.hatch[h] = x) (active : s.activeManifest h = some m)
    (hh : hold = holdFor s.store.hold s.store.climate[s.store.hatch[h].zone].tset
      s.store.climate[s.store.hatch[h].zone].hset m.exposure risk) :
    ∃ y : Hatch, openGate h risk s = (s.setStore { s.store with
        cartridges := s.store.cartridges.map fun c =>
          if c.label ∈ (acceptedLabels x.tray).map Prod.fst then gateMark m risk c else c
        handover := s.store.handover.set h (s.store.handover[h].map fun r =>
          { r with phaseClass := .inStaff, risk := risk, tray := keptTray hold x.tray }) }).setHatch h y ∧
      y.phase = .staffAccess ∧ y.tray = keptTray hold x.tray ∧ y.purgeOn = false ∧ y.heaterOn = false ∧ y.risk = risk := by
  have run : openGate h risk s = unlock h .inner (toPhase h .staffAccess (saveTray h
      (((keepHold h m risk s).modHatch h fun x => { x with purgeOn := false, heaterOn := false, risk := risk }).modHandover h
        fun r => { r with phaseClass := .inStaff, risk := risk }))) := by
    unfold openGate
    rw [active]
  rw [keepHold_of at_ hh, State.modHatch_setHatch, saveTray_modHandover (State.setHatch_get ..)] at run
  obtain ⟨y, e, phase, tray, purge, heater, risk_⟩ := unlock_enters (h := h) .inner .staffAccess
    ((s.setStore { s.store with cartridges := s.store.cartridges.map fun c =>
      if c.label ∈ (acceptedLabels x.tray).map Prod.fst then gateMark m risk c else c }).setHandover h
        (s.store.handover[h].map fun r =>
          { r with phaseClass := .inStaff, risk := risk, tray := keptTray hold x.tray }))
    (x.gateOpened hold risk)
  exact ⟨y, run.trans e, phase, tray, purge, heater, risk_⟩

end Sys2Proof.Machine
end

