-- ==== Sys2Proof/Proofs/Receipts.lean ====
section
/-!
PROOFS. Conditioning and receipts.
-/

namespace Sys2Proof.Machine

variable {s : State} {h : HatchId} {x y : Hatch} {m : Manifest} {r : Handover} {k : Int}

/-! ### Receipts (R112, R113) -/

theorem outboundEntry_eq (es : List Entry) (i : Item) : outboundEntry es i = es.find? fun e =>
    decide (e.label = some i.label ∧ (e.result = .departed ∨ e.result = .left)) := by
  unfold outboundEntry
  congr 1
  funext e
  rw [Bool.eq_iff_iff]
  simp only [Bool.and_eq_true, Bool.or_eq_true, beq_iff_eq, decide_eq_true_eq]

theorem inboundEntry_eq (es : List Entry) (i : Item) : inboundEntry es i =
    (es.find? fun e => decide (e.label = some i.label ∧ e.result = .received)).getD
      { label := some i.label, result := if i.status = .received then .received else .notReturned } := by
  have same : (fun e : Entry => e.label == some i.label && e.result == .received) =
      fun e => decide (e.label = some i.label ∧ e.result = .received) := by
    funext e
    rw [Bool.eq_iff_iff]
    simp only [Bool.and_eq_true, beq_iff_eq, decide_eq_true_eq]
  unfold inboundEntry
  rw [same]
  cases es.find? fun e => decide (e.label = some i.label ∧ e.result = .received) with
  | some e => rfl
  | none => cases i.status <;> rfl

theorem outcomeOf_eq (r : Handover) (es : List Entry) : outcomeOf r es =
    if r.recovered = true then .interrupted
    else if r.phaseClass = .abortUnload then .aborted
    else if ∀ e ∈ es, e.result ≠ .left ∧ e.result ≠ .notReturned ∧ e.result ≠ .rejectedRemoved then .complete
    else .partly := by
  unfold outcomeOf
  simp only [List.all_eq_true, Bool.and_eq_true, bne_iff_ne, and_assoc]

/-- The receipt of a handover, its entries in the order of R112. -/
theorem receiptOf_eq {es : List Entry} (out : m.direction = .out → es =
      (m.items.filterMap fun i => r.entries.find? fun e =>
          decide (e.label = some i.label ∧ (e.result = .departed ∨ e.result = .left))) ++
        r.entries.filter (fun e => decide (e.result = .cross)) ++
        r.entries.filter (fun e => decide (e.result = .rejectedRemoved)))
    (in_ : m.direction = .in_ → es =
      (m.items.map fun i => (r.entries.find? fun e => decide (e.label = some i.label ∧ e.result = .received)).getD
          { label := some i.label, result := if i.status = .received then .received else .notReturned }) ++
        r.entries.filter (fun e => decide (e.result = .cross)) ++
        r.entries.filter (fun e => decide (e.result = .rejectedRemoved))) (now : Minute) :
    receiptOf h now m r = {
      hatch := h, manifest := r.manifest, direction := r.direction, courier := m.courier, start := r.start, finish := now
      entries := es.take 48, furtherRejects := es.length - 48, outcome := outcomeOf r es } := by
  have all : es = settledEntries m r ++ rejectEntries r := by
    unfold settledEntries
    cases d : m.direction with
    | out => rw [out d, funext (outboundEntry_eq r.entries)]; rfl
    | in_ => rw [in_ d, funext (inboundEntry_eq r.entries)]; rfl
  rw [all]
  rfl

theorem toReceipt_of {c : Receipt} (at_ : s.hatch[h] = x) (held : s.store.handover[h] = some r)
    (found : s.manifest? r.manifest = some m) (written : receiptOf h s.minute m r = c)
    (hy : y = { x with
      phase := .receiptPending, unlockDue := none, idle := none, rejectTimer := none, rejectExpired := false }) :
    toReceipt h s = post (.receiptReady h r.manifest c.outcome) ((s.setStore { s.store with
      handover := s.store.handover.set h none, receipt := s.store.receipt.set h (some c) }).setHatch h y) := by
  unfold toReceipt
  rw [State.handover, held]
  dsimp only
  rw [found]
  dsimp only
  rw [written]
  have enters {t : State} (live : t.hatch[h] = x) : ((toPhase h .receiptPending t).modHatch h fun x =>
      { x with rejectTimer := none, rejectExpired := false }) = t.setHatch h y := by
    rw [toPhase_of live, State.modHatch_setHatch, hy]
  exact congrArg (post _) (enters at_)

/-- A manifest settled: back to OPEN where it is outbound with work left, else removed. -/
theorem settle_of {id : Nat} (found : s.manifest? id = some m) : settle id s = s.setStore { s.store with
    manifests :=
      if m.direction = .out ∧ m.workLeft = true then
        s.store.manifests.map fun n => if n.id = id then { n with active := false } else n
      else s.store.manifests.filter fun n => n.id != id } := by
  have back : m.reopens = true ↔ m.direction = .out ∧ m.workLeft = true := by
    rw [Manifest.reopens, Bool.and_eq_true, beq_iff_eq]
  unfold settle
  rw [found]
  dsimp only
  by_cases open_ : m.reopens = true
  · rw [if_pos open_, if_pos (back.1 open_)]
    rfl
  · rw [if_neg open_, if_neg (fun b => open_ (back.2 b))]

theorem willReopen_of {id : Nat} (found : s.manifest? id = some m) :
    willReopen id s = (decide (m.direction = .out) && m.workLeft) := by
  unfold willReopen
  rw [found]
  rfl

theorem afterReceipt_pending (at_ : s.hatch[h] = x) (phase : x.phase = .receiptPending) :
    afterReceipt h s = s.setHatch h (x.toIdle s.store.hatch[h].standbyTime) := by
  unfold afterReceipt
  rw [at_, phase]
  exact enterIdle_of at_

/-- Settles O53. -/
theorem conditioningAndReceipts : Obligations.ConditioningAndReceipts := by
  rintro s h x k at_ named
  have at' : s.heard.hatch[h] = x := at_.symm
  have awake {g : HatchId → Request} (idle : x.phase ≠ .idle) (standby : x.phase ≠ .standby) :
      onHatch k g s.heard = g h s.heard := onHatch_awake named (by rw [at']; exact idle) (by rw [at']; exact standby)
  refine ⟨?_, ?_, ?_, ?_, ?_, ?_, ?_, ?_, ?_, ?_⟩
  · rintro purge cond y phase hp hc hy
    have gate := evaluateGate_of at_.symm phase (p := purge) (c := cond)
      (purgeCond_eq at_.symm (fun a b here there => by rw [hp, here, there]) (fun other => by
        rw [hp]
        split
        · next a b here there => exact absurd there (other a b here)
        · rfl))
      (condensationCond_eq at_.symm (fun p d a b e here there => by rw [hc, here, there]) (fun other => by
        rw [hc]
        split
        · next p d a b e here there => exact absurd there (other p d a b e here)
        · rfl)) hy
    refine ⟨fun met met' => gate.trans (if_pos ⟨met, met'⟩), fun failing => gate.trans (if_neg ?_)⟩
    rintro ⟨met, met'⟩
    exact failing.elim (fun f => f met) (fun f => f met')
  · exact fun phase => if_neg (by rw [← at_]; exact phase)
  · rintro r m es rc y held found hes hrc hy
    refine (toReceipt_of at_.symm held found (c := rc) ?_ hy).trans rfl
    rw [hrc, receiptOf_eq (es := es) (fun out => by rw [hes, out]) (fun in_ => by rw [hes, in_]), outcomeOf_eq]
  · rintro m risk t phase manifest found rfl
    refine ⟨fun ready mark => ?_, ?_⟩
    · refine request_next ready ((awake (by rw [phase]; nofun) (by rw [phase]; nofun)).trans ?_)
      dsimp only
      rw [at', phase]
      have same : (x.condensation != .met) = risk := by rw [mark, bne, decide_not]; rfl
      simp only [same]
    · obtain ⟨y, e, phase', tray, purge, heater, mark⟩ := openGate_of (risk := risk) at_.symm
        ((activeManifest_of (by rw [← at_]; exact manifest)).trans found) rfl
      have live : (openGate h risk s).hatch[h] = y := by rw [e, State.setHatch_get]
      refine ⟨by rw [live, phase'], by rw [live, purge], by rw [live, heater], by rw [live, mark], ?_, ?_, ?_, ?_, ?_, ?_⟩
      · intro p
        rw [live, tray]
        simp [keptTray]
      · refine ⟨_, fun l => mem_acceptedLabels, ?_⟩
        rw [live, tray, e]
        rfl
      all_goals rw [e]; rfl
  · intro ready phase
    refine request_word ready ((awake (by rw [phase]; nofun) (by rw [phase]; nofun)).trans ?_)
    dsimp only
    rw [at', phase]
  · intro ready phase
    refine request_word ready ((awake (by rw [phase]; nofun) (by rw [phase]; nofun)).trans ?_)
    dsimp only
    rw [at', phase]
  · rintro y on phase fresh reached hy
    refine (event_powered on).trans (congrArg _ ?_)
    refine (if_pos (by rw [← at_, fresh]; exact ⟨phase, rfl, reached⟩)).trans ?_
    rw [hatchMinute_conditioning at_.symm phase, if_pos ⟨reached, fresh⟩, hy]
    rfl
  · intro on past
    refine (event_powered on).trans (congrArg _ (if_neg ?_))
    rw [← at_]
    rintro ⟨phase, fresh, -⟩
    rcases past with other | posted
    · exact other phase
    · rw [posted] at fresh
      cases fresh
  · rintro r ready phase there
    have run {g : HatchId → Request} : onHatch k g s.heard = g h s.heard :=
      awake (by rw [phase]; nofun) (by rw [phase]; nofun)
    have there' : s.heard.store.receipt[h] = some r := there
    refine ⟨fun page hp => ?_, fun m y found hy => ?_⟩
    · refine request_same ready (run.trans ?_)
      dsimp only
      rw [there', show (none : Option Int).getD 1 = ((1 : Nat) : Int) from rfl]
      dsimp only
      rw [pageOf_start, pageOf_first, ← hp]
    · refine request_next ready (run.trans ?_)
      have found' : (s.heard.setStore { s.heard.store with receipt := s.heard.store.receipt.set h none }).manifest?
          r.manifest = some m := found
      dsimp only
      rw [there']
      dsimp only
      rw [settle_of found', willReopen_of (s := s.heard) found, hy]
      exact congrArg (·, _) (afterReceipt_pending (s := State.setStore _ _) at' phase)
  · intro ready idle standby none_
    have none' : s.heard.store.receipt[h] = none := none_
    refine ⟨request_word ready ((awake idle standby).trans ?_), request_word ready ((awake idle standby).trans ?_)⟩
    · dsimp only
      rw [none']
    · dsimp only
      rw [none']

end Sys2Proof.Machine
end

