-- ==== Sys2Proof/Proofs/ReplyNames.lean ====
section
/-!
PROOFS. The names of a reply's fields, free and given.
-/

namespace Sys2Proof.Machine

/-! ### The names that rules give (R187) -/

/-- The names that rules give parts of a body of that number, where the rule leaves others open. -/
def ruleNames : Nat → List Text
  | 1 => [lit "reason"]
  | 2 => [lit "reason"]
  | 3 => [lit "reason"]
  | 4 => [lit "reason"]
  | 8 => [lit "zone"]
  | 14 => [lit "next"]
  | 15 => [lit "next"]
  | 16 => [lit "next"]
  | 17 => [lit "id"]
  | 19 => [lit "next"]
  | 21 => [lit "bank"]
  | 22 => [lit "level"]
  | 23 => [lit "next"]
  | 24 => [lit "next"]
  | _ => []

theorem ruleName_slots (i : Nat) (vs : List Text) : (slots i vs).filterMap Part.ruleName = [] := by
  induction vs generalizing i with
  | nil => rfl
  | cons v vs ih => exact ih (i + 1)

theorem ruleName_records (i : Nat) (rows : List (List Text)) : (records i rows).filterMap Part.ruleName = [] := by
  induction rows with
  | nil => rfl
  | cons r rows ih => exact ih

theorem ruleName_nextPart (k : Option Nat) : [nextPart k].filterMap Part.ruleName = [lit "next"] := rfl

theorem ruleName_custodyParts (i : Nat) (k : Custody) : (custodyParts i k).filterMap Part.ruleName = [] := by
  cases k <;> rfl

/-- A body with open names has those that its number says beside them, whatever its values. -/
theorem ruleNames_of_kind (b : Body) (open_ : b.kind ≠ 0) : (bodyParts b).filterMap Part.ruleName = ruleNames b.kind := by
  cases b with
  | wrongState | slotTaken | settled => rfl
  | duplicate _ holder => cases holder <;> rfl
  | fireRefused _ left => cases left <;> rfl
  | items fs => exact congrArg (lit "reason" :: ·) (ruleName_records 0 _)
  | mode | channel | index | minutes | removed | staging | hatch => exact ruleName_slots 0 _
  | picks => exact ruleName_records 0 _
  | zone v => exact congrArg (lit "zone" :: ·) (ruleName_slots 0 _)
  | cartridge c z aisle index =>
    simp only [bodyParts, cartridgeParts, List.filterMap_append, ruleName_slots, ruleName_custodyParts]
    rfl
  | manifest m page next =>
    simp only [bodyParts, manifestParts, List.filterMap_append, ruleName_slots, ruleName_records, ruleName_nextPart]
    rfl
  | manifests ms next =>
    simp only [bodyParts, List.filterMap_append, ruleName_records, ruleName_nextPart]
    rfl
  | receipt r page next =>
    simp only [bodyParts, receiptParts, List.filterMap_append, ruleName_slots, ruleName_records, ruleName_nextPart]
    rfl
  | tray page next =>
    simp only [bodyParts, List.filterMap_append, ruleName_records, ruleName_nextPart]
    rfl
  | bank v =>
    simp only [bodyParts, bankParts, List.cons_append, List.filterMap_cons, List.filterMap_append, ruleName_slots,
      ruleName_records]
    rfl
  | detector v =>
    simp only [bodyParts, detectorParts, List.filterMap_append, ruleName_slots]
    rfl
  | loop v =>
    simp only [bodyParts, loopParts, List.filterMap_append, ruleName_slots, ruleName_records, ruleName_nextPart]
    rfl
  | fireZone v =>
    simp only [bodyParts, fireZoneParts, List.filterMap_append, ruleName_slots, ruleName_records, ruleName_nextPart]
    rfl
  | _ => exact absurd rfl open_

/-- The names of the slots of a body of that number. -/
def kindNames (k : Nat) : List Text :=
  if namesFit (nameRoom k) (ruleNames k) ((List.range ((plainNames k).map lit).length).map (Config.fieldName k)) then
    (List.range ((plainNames k).map lit).length).map (Config.fieldName k)
  else (plainNames k).map lit

theorem slotNames_eq (b : Body) : slotNames b = kindNames b.kind := by
  unfold slotNames kindNames
  dsimp only
  by_cases open_ : b.kind = 0
  · rw [open_]
    split <;> split <;> rfl
  · rw [ruleNames_of_kind b open_]

/-- No plain name is one that a rule gives the reply. -/
theorem plainNames_free (k : Nat) : ∀ n ∈ (plainNames k).map lit, n ∉ lit "reason" :: ruleNames k := by
  by_cases h : k < 25
  · have : ∀ k : Fin 25, ((plainNames k).map lit).all fun n => !(lit "reason" :: ruleNames k).contains n := by decide
    intro n mem
    have free := List.all_eq_true.1 (this ⟨k, h⟩) n mem
    rwa [Bool.not_eq_true', ← Bool.not_eq_true, List.contains_iff_mem] at free
  · have none_ : plainNames k = [] := by
      unfold plainNames
      split <;> first | omega | rfl
    rw [none_]
    rintro n ⟨⟩

theorem kindNames_free (k : Nat) : ∀ n ∈ kindNames k, n ∉ lit "reason" :: ruleNames k := by
  unfold kindNames
  split
  · next fit =>
    intro n mem
    rw [namesFit, Bool.and_eq_true] at fit
    have free := List.all_eq_true.1 fit.2 n mem
    rwa [Bool.not_eq_true', ← Bool.not_eq_true, List.contains_iff_mem] at free
  · exact plainNames_free k

theorem fieldName_mono {a b : Nat} {n : Text} (le : a ≤ b) (h : fieldName a n = true) : fieldName b n = true := by
  rw [fieldName, Bool.and_eq_true, Bool.and_eq_true, decide_eq_true_eq, decide_eq_true_eq] at h ⊢
  exact ⟨⟨h.1.1, h.1.2.trans le⟩, h.2⟩

theorem nameRoom_le (k : Nat) : nameRoom k ≤ 12 := by
  unfold nameRoom
  split <;> omega

/-- The name of a slot that a reply of that number has. -/
theorem kindName_form {k i : Nat} (slot : i < (plainNames k).length) :
    fieldName (nameRoom k) ((kindNames k).getD i []) = true := by
  have forms : (kindNames k).length = (plainNames k).length ∧ ∀ n ∈ kindNames k, fieldName (nameRoom k) n = true := by
    unfold kindNames
    split
    · next fit =>
      rw [namesFit, Bool.and_eq_true, Bool.and_eq_true, List.all_eq_true] at fit
      exact ⟨by simp only [List.length_map, List.length_range], fit.1.1⟩
    · exact ⟨List.length_map _, List.all_eq_true.1 (plainNames_form k).1⟩
  have lt : i < (kindNames k).length := by rw [forms.1]; exact slot
  rw [List.getD_eq_getElem _ _ lt]
  exact forms.2 _ (List.getElem_mem lt)

/-! ### Parts as they stand in a line -/

theorem partText_slots_length (names : List Text) (i : Nat) (vs : List Text) :
    ((slots i vs).map (partText names)).length = vs.length := by
  rw [List.length_map]
  induction vs generalizing i with
  | nil => rfl
  | cons v vs ih => exact congrArg (· + 1) (ih (i + 1))

theorem partText_records (names : List Text) (i : Nat) (rows : List (List Text)) :
    (records i rows).map (partText names) = rows.map fun r => names.getD i [] ++ '=' :: joinText '/' r := by
  rw [records, List.map_map]
  rfl

theorem partText_nextPart (names : List Text) (k : Option Nat) :
    partText names (nextPart k) = "next=".toList ++ (match k with
      | some m => natText m
      | none => "END".toList) := by cases k <;> rfl

theorem yesNo_eq (b : Bool) : yesNo b = if b then "YES".toList else "NO".toList := by cases b <;> rfl

/-- The fields of an answer that gives no reason of its own. -/
theorem answerFields_plain (n : Nat) (w : StatusWord) {b : Body} (reason : namesNoReason b = false) :
    answerFields n { word := w, body := b } = (bodyParts b).map (partText (kindNames b.kind)) := by
  have no : reasonless { word := w, body := b } = false := by rw [reasonless, reason, Bool.and_false]
  rw [answerFields, no, slotNames_eq]
  rfl

theorem namesNoReason_iff (b : Body) : namesNoReason b = true ↔ b = .empty ∨ ∃ st left, b = .fireRefused st left := by
  cases b <;> simp [namesNoReason]

end Sys2Proof.Machine
end

