-- ==== Sys2Proof/Proofs/Replies.lean ====
section
/-!
PROOFS. The reply line and its fields.
-/

namespace Sys2Proof.Machine

/-! ### The length of a reply (R186) -/

theorem twoDigits_length {n : Nat} (le : n ≤ 99) : (twoDigits n).length = 2 := by
  have : ∀ k : Fin 100, (twoDigits k).length = 2 := by decide
  exact this ⟨n, by omega⟩

theorem natText_length {n : Nat} (le : n ≤ 24) : (natText n).length ≤ 2 := by
  have : ∀ k : Fin 25, (natText k).length ≤ 2 := by decide
  exact this ⟨n, by omega⟩

theorem custodyWord_length (k : CustodyName) : (textIn custodyWords k).length ≤ 12 := by cases k <;> decide

theorem spaced_length (fs : List Text) : (spaced fs).length = (fs.map fun f => f.length + 1).sum := by
  rw [spaced, List.length_flatten, List.map_map]
  rfl

theorem replyLine_length (n : Nat) (q : Reply) (station : q.station ≤ 99) : (replyLine n q).length =
    10 + (textIn statusWords q.answer.word).length + (spaced (answerFields n q.answer)).length := by
  have digits := twoDigits_length station
  simp only [replyLine, replyContent, hexText, List.length_append, List.length_cons, List.length_nil]
  omega

theorem itemFaultWord_length (e : ItemFault) : (textIn itemFaultWords e).length ≤ 9 := by
  cases e with
  | wrongState found => simp [textIn, itemFaultWords]
  | _ => decide

/-- A failing item takes 41 characters of its reply at most. -/
theorem failureRow_room {f : ItemFailure} (pos : f.pos ≤ 24) (label : f.label.length ≤ 8) :
    partRoom 3 (.unnamed 0 (joinText '/' (failureRow f))) ≤ 41 := by
  have digits := natText_length pos
  cases h : f.fault with
  | wrongState found =>
    have word := custodyWord_length found
    have reason : (lit "WRONG-STATE").length = 11 := rfl
    simp only [partRoom, failureRow, h, List.cons_append, List.nil_append, joinText, List.length_append, List.length_cons]
    omega
  | notFound | duplicate | fireHold =>
    have word := itemFaultWord_length f.fault
    rw [h] at word
    simp only [partRoom, failureRow, h, List.cons_append, List.nil_append, joinText, List.length_append, List.length_cons]
    omega

theorem items_room {fs : List ItemFailure} (short : fs.length ≤ 24) (each : ∀ f ∈ fs, f.pos ≤ 24 ∧ f.label.length ≤ 8) :
    bodyRoom (.items fs) ≤ 997 := by
  have rows : (((records 0 (fs.map failureRow)).map (partRoom 3))).sum ≤ 24 * 41 := by
    refine (List.sum_le_card_nsmul _ 41 ?_).trans ?_
    · simp only [records, List.map_map, List.mem_map]
      rintro n ⟨f, mem, rfl⟩
      obtain ⟨pos, label⟩ := each f mem
      exact failureRow_room pos label
    · rw [smul_eq_mul, List.length_map, records, List.length_map, List.length_map]
      exact Nat.mul_le_mul_right 41 short
  have head : partRoom 3 (reasonPart (lit "ITEMS")) = 13 := rfl
  have all : bodyRoom (.items fs) = partRoom 3 (reasonPart (lit "ITEMS")) +
    ((records 0 (fs.map failureRow)).map (partRoom 3)).sum := by
    rw [bodyRoom, bodyParts, List.map_cons, List.sum_cons]
    rfl
  omega

/-! ### Records and pages (R187) -/

/-- A page of records after the single values of its reply, the place of the next page last. -/
theorem partText_page (names : List Text) (vs : List Text) (i : Nat) (rows : List (List Text)) (k : Option Nat) :
    (slots 0 vs ++ records i rows ++ [nextPart k]).map (partText names) = (slots 0 vs).map (partText names) ++
      (rows.map fun r => names.getD i [] ++ '=' :: joinText '/' r) ++ [partText names (nextPart k)] := by
  rw [List.map_append, List.map_append, partText_records, List.map_singleton]

theorem entryRow_eq (e : Entry) : entryRow e = [e.label.getD "-".toList, textIn resultWords e.result,
    (e.side.map (textIn sideWords)).getD "-".toList, (e.hold.map natText).getD "-".toList,
    if e.missing then "YES".toList else "NO".toList] := by
  rw [← yesNo_eq]
  rfl

theorem loopRow_eq (d : DetectorRow) : loopRow d = [natText (d.address.val + 1), natText (d.zone.val + 1),
    textIn typeWords d.type, textIn detStateWords d.state, if d.latch then "YES".toList else "NO".toList] := by
  rw [← yesNo_eq]
  rfl

theorem fireRow_eq (d : DetectorRow) : fireRow d = [natText (d.loop.val + 1), natText (d.address.val + 1),
    textIn typeWords d.type, textIn detStateWords d.state, if d.latch then "YES".toList else "NO".toList] := by
  rw [← yesNo_eq]
  rfl

theorem exposureTexts_length (e : Option Exposure) : (exposureTexts e).length = 5 := by cases e <;> rfl

theorem itemTexts_length (i : LoopItem) : (itemTexts i).length = 2 := by cases i <;> rfl

theorem countdownTexts_length (c : Countdown) : (countdownTexts c).length = 2 := by cases c <;> rfl

/-- Settles O21. -/
theorem replyLeavesTheLine : Obligations.ReplyLeavesTheLine := by
  rintro s q on
  refine ⟨?_, ?_, ?_, ?_, namesNoReason_iff, ?_⟩
  · intro owed
    refine (event_powered on).trans (congrArg _ ?_)
    unfold replyStarts
    rw [owed]
    dsimp only
    have reason : reasonless q.answer = true ↔ q.answer.word = .refused ∧ namesNoReason q.answer.body = true := by
      rw [reasonless, Bool.and_eq_true, beq_iff_eq]
    by_cases free : q.answer.word = .refused ∧ namesNoReason q.answer.body = true
    · rw [if_pos (reason.2 free), if_pos free]
      rfl
    · rw [if_neg (fun r => free (reason.1 r)), if_neg free]
      rfl
  · intro sending due
    refine (event_powered on).trans (congrArg _ ?_)
    unfold replyEnds
    rw [sending]
    dsimp only
    rw [due]
    rfl
  · intro n
    refine ⟨replyContent n q, rfl, rfl, ?_, ?_⟩
    · intro station short
      rw [replyLine_length n q station, spaced_length]
      omega
    · intro fs station answer short each
      rw [replyLine_length n q station, answer, answerFields_plain n _ (b := .items fs) rfl]
      have room := items_room short each
      have fits := bodyFields_length (.items fs)
      rw [slotNames_eq] at fits
      have word : (textIn statusWords StatusWord.refused).length = 7 := rfl
      dsimp only
      omega
  · intro n a
    obtain ⟨len, form, nodup⟩ := slotNames_form a.body
    obtain ⟨value, short⟩ := freeReason_form n
    refine ⟨slotNames a.body, ?_, value, short, nodup, ?_⟩
    · unfold answerFields reasonless
      simp only [Bool.and_eq_true, beq_iff_eq]
      rfl
    · intro m mem
      have free := kindNames_free a.body.kind m (slotNames_eq a.body ▸ mem)
      rw [List.mem_cons, not_or] at free
      refine ⟨fieldName_mono (nameRoom_le _) (form m mem), free.1, fun v there => ?_⟩
      by_cases open_ : a.body.kind = 0
      · rw [List.length_eq_zero_iff.1 (len.trans (by rw [open_]; rfl))] at mem
        cases mem
      · refine free.2 ?_
        rw [← ruleNames_of_kind a.body open_]
        exact List.mem_filterMap.2 ⟨_, there, rfl⟩
  · rintro n w F rows next hF hrows hnext
    have plain (b : Body) (reason : namesNoReason b = false) :
        F b = (bodyParts b).map (partText (kindNames b.kind)) := (hF b).trans (answerFields_plain n w reason)
    have name (k i : Nat) (slot : i < (plainNames k).length) :
        fieldName 12 ((kindNames k).getD i []) = true := fieldName_mono (nameRoom_le _) (kindName_form slot)
    have next_ (names : List Text) (k : Option Nat) : partText names (nextPart k) = next k :=
      (partText_nextPart names k).trans (hnext k).symm
    have paged {b : Body} {vs : List Text} {i c : Nat} {rs rs' : List (List Text)} {k : Option Nat}
        (parts : bodyParts b = slots 0 vs ++ records i rs ++ [nextPart k]) (reason : namesNoReason b = false)
        (count : vs.length = c) (same : rs = rs') :
        ∃ head : List Text, head.length = c ∧ F b = head ++ rows ((kindNames b.kind).getD i []) rs' ++ [next k] :=
      ⟨(slots 0 vs).map (partText (kindNames b.kind)), (partText_slots_length ..).trans count, by
        rw [plain b reason, parts, partText_page, hrows, next_, same]⟩
    refine ⟨?_, ?_, ?_, ?_, ?_, ?_, ?_, ?_, ?_, ?_, ?_, ?_, ?_, ?_, ?_, ?_, ?_⟩
    · refine ⟨_, name 17 0 (by decide), fun id reopened => ?_⟩
      rw [plain _ rfl]
      rfl
    · intro v
      rw [plain _ rfl]
      rfl
    · intro v
      rw [plain _ rfl]
      rfl
    · intro v
      rw [plain _ rfl]
      refine List.mem_map.2 ⟨given "level" (numberOrHyphen v.live.level), ?_, ?_⟩
      · exact List.mem_append_left _ (List.mem_append_right _ (List.mem_singleton.2 rfl))
      · cases v.live.level <;> rfl
    · refine ⟨_, name 1 0 (by decide), fun k => ?_⟩
      rw [plain _ rfl]
      rfl
    · refine ⟨_, name 3 0 (by decide), fun l => ?_⟩
      rw [plain _ rfl]
      rfl
    · refine ⟨_, name 11 0 (by decide), fun k => ?_⟩
      rw [plain _ rfl]
      rfl
    · refine ⟨_, name 9 0 (by decide), fun k => ?_⟩
      rw [plain _ rfl]
      rfl
    · refine ⟨_, name 20 0 (by decide), fun k => ?_⟩
      rw [plain _ rfl]
      rfl
    · refine ⟨_, kindName_form (k := 4) (i := 0) (by decide), fun fs => ?_⟩
      rw [plain _ rfl, hrows]
      refine congrArg (_ :: ·) ((partText_records ..).trans (congrArg (List.map _) (List.map_congr_left fun f _ => ?_)))
      unfold failureRow
      cases f.fault <;> rfl
    · refine ⟨_, name 13 0 (by decide), fun ps => ?_⟩
      rw [plain _ rfl, hrows]
      exact partText_records ..
    · refine ⟨_, name 15 0 (by decide), fun ms k => ?_⟩
      rw [plain _ rfl, hrows, ← next_]
      exact partText_page _ [] 0 _ k
    · refine ⟨_, name 14 12 (by decide), fun m page k => paged (b := .manifest m page k) (i := 12) rfl rfl ?_ rfl⟩
      rw [List.length_append, List.length_append, exposureTexts_length]
      rfl
    · exact ⟨_, name 16 8 (by decide), fun r page k => paged (b := .receipt r page k) (i := 8) rfl rfl rfl
        (List.map_congr_left fun e _ => entryRow_eq e)⟩
    · refine ⟨_, name 19 0 (by decide), fun page k => ?_⟩
      rw [plain _ rfl, hrows, ← next_]
      refine (partText_page _ [] 0 _ k).trans (congrArg (fun l => List.map _ l ++ _) (List.map_congr_left fun x _ => ?_))
      unfold trayRow
      cases x.2.presence <;> rfl
    · refine ⟨_, name 23 6 (by decide), fun v => paged (b := .loop v) (i := 6) rfl rfl ?_
        (List.map_congr_left fun d _ => loopRow_eq d)⟩
      rw [List.length_append, List.length_append, itemTexts_length]
      rfl
    · refine ⟨_, name 24 27 (by decide), fun v => paged (b := .fireZone v) (i := 27) rfl rfl ?_
        (List.map_congr_left fun d _ => fireRow_eq d)⟩
      rw [List.length_append, List.length_append, countdownTexts_length]
      rfl

end Sys2Proof.Machine
end

