-- ==== Sys2Proof/Proofs/StartedZones.lean ====
section
/-!
PROOFS. A zone with no detector leaves STARTING, and the hatches it hands the departure to.
-/

namespace Sys2Proof.Machine

variable {s t : State} {z : Zone} {h : HatchId} {x : Hatch} {c : FireCause}

/-! ### A zone with no detector leaves STARTING (R162) -/

theorem zoneWatched_iff : zoneWatched s z = true ↔ ∃ l : LoopId, s.carries l z = true := by
  simp only [zoneWatched, carries_eq, List.any_eq_true, List.mem_finRange, true_and]

theorem zoneWatched_false (free : zoneWatched s z = false) (l : LoopId) : s.carries l z = false := by
  rw [← Bool.not_eq_true]
  intro carried
  rw [zoneWatched_iff.2 ⟨l, carried⟩] at free
  cases free

/-- A zone with no detector evaluates to NORMAL. -/
theorem evaluate_unwatched (free : zoneWatched s z = false) : evaluate z c s = moveFire z .normal c s := by
  have empty (l : LoopId) : s.detectorsOn z l = [] := by
    have := zoneWatched_false free l
    rwa [State.carries, Bool.not_eq_false', List.isEmpty_iff] at this
  have none_ : s.counts z = { auto := 0, manual := 0, prealarm := 0, usable := 0 } := by
    rw [State.counts, State.detectorsOf, empty 0, empty 1]
    rfl
  have one : s.coincidence z = 1 := by
    rw [State.coincidence, none_]
    exact if_pos (by decide)
  rw [evaluate_short (by rw [none_]) (by rw [one, none_]; exact Nat.one_pos), none_]
  exact if_neg (by decide)

/-- A hatch whose zone departs from the fire hold set: its closers stopped, the resume scan begun in HELD-FIRE. -/
def Hatch.resumes (x : Hatch) : Hatch :=
  { x.bothShutters stopCloser with scan := if x.phase = .heldFire then some .resume else x.scan }

theorem Hatch.resumes_twice (x : Hatch) : x.resumes.resumes = x.resumes := by
  unfold Hatch.resumes
  by_cases held : x.phase = .heldFire
  · simp [Hatch.bothShutters, stopCloser, held]
  · simp [Hatch.bothShutters, stopCloser, held]

theorem react_leaves (r : FireTaker) : react z .starting .normal r s = { s with
    hatch := Vector.ofFn fun h => if r = .hatch h then s.hatch[h].resumes else s.hatch[h] } := by
  cases r with
  | climate =>
    refine (climateTakesFire_stands rfl).trans ?_
    simp
  | bank b =>
    refine (bankTakesFire_stands rfl).trans ?_
    simp
  | hatch h =>
    refine (hatchTakesFire_leaves (left := .starting) (entered := .normal) (y := s.hatch[h].resumes)
      rfl rfl rfl rfl).trans ?_
    refine congrArg (fun v => { s with hatch := v }) (Vector.ext fun i lt => ?_)
    simp only [Vector.getElem_ofFn, FireTaker.hatch.injEq]
    by_cases same : h = ⟨i, lt⟩
    · subst same
      simp
    · rw [if_neg same, Vector.getElem_set_ne _ _ (fun e => same (Fin.ext e))]
      rfl

/-- The departure from STARTING to NORMAL handed to some blocks, in whatever order. -/
theorem actAll_leaves (order : List FireTaker) (s : State) : actAll (react z .starting .normal) order s = { s with
    hatch := Vector.ofFn fun h => if .hatch h ∈ order then s.hatch[h].resumes else s.hatch[h] } := by
  induction order generalizing s with
  | nil => simp [actAll]
  | cons r order ih =>
    refine (ih (react z .starting .normal r s)).trans ?_
    rw [react_leaves]
    refine congrArg (fun v => { s with hatch := v }) (Vector.ext fun i lt => ?_)
    simp only [Vector.getElem_ofFn, Fin.getElem_fin, List.mem_cons]
    by_cases here : FireTaker.hatch ⟨i, lt⟩ ∈ order
    · by_cases first : r = .hatch ⟨i, lt⟩
      · simp only [here, first, if_true, or_true, Hatch.resumes_twice]
      · simp only [here, first, if_true, if_false, or_true]
    · by_cases first : r = .hatch ⟨i, lt⟩
      · simp only [here, first, if_true, if_false, or_false]
      · have first' : ¬FireTaker.hatch ⟨i, lt⟩ = r := fun e => first e.symm
        simp only [here, first, first', if_false, or_false]

theorem mem_receivers_hatch : FireTaker.hatch h ∈ receivers s z ↔ s.store.hatch[h].zone = z := by
  simp only [receivers, List.mem_append, List.mem_singleton, List.mem_map, List.mem_filter, List.mem_finRange, true_and,
    reduceCtorEq, false_or, and_false, exists_false, or_false, FireTaker.hatch.injEq, exists_eq_right, beq_iff_eq]
  rfl

/-- A zone with no detector leaves STARTING for NORMAL, its hatches with it. -/
theorem tryLeaveStarting_unwatched {f : FireZone} (free : zoneWatched s z = false) (at_ : s.fire[z] = f)
    (state : f.state = .starting) : ∃ n, tryLeaveStarting z c s = { post (.fireState z .starting .normal c) s with
      fire := s.fire.set z { f with state := .normal }
      hatch := Vector.ofFn fun h => if s.store.hatch[h].zone = z then s.hatch[h].resumes else s.hatch[h]
      choice := n } := by
  obtain ⟨order, perm, enters⟩ := enterFire_order at_ .normal c rfl
  rw [state, actAll_leaves] at enters
  simp only [perm.mem_iff, mem_receivers_hatch] at enters
  have leaves := tryLeaveStarting_leaves (c := c) (by rw [at_]; exact state)
    (fun l carried => absurd carried (by rw [zoneWatched_false free l]; exact Bool.false_ne_true))
  have store := enterFire_store z .normal c s
  have free' : zoneWatched (enterFire z .normal c s) z = false := by
    rw [← free]
    unfold zoneWatched
    rw [store]
  have normal : (enterFire z .normal c s).fire[z].state = .normal := by rw [enters]; simp
  refine ⟨s.choice + 1, ?_⟩
  rw [leaves, evaluate_unwatched free', moveFire_same normal, enters]
  rfl

/-- A zone with a detector on a loop whose first pass is not complete stays in STARTING. -/
theorem tryLeaveStarting_watched (watched : zoneWatched s z = true)
    (undone : ∀ l : LoopId, s.carries l z = true → s.loop[l].firstPass = false) : tryLeaveStarting z c s = s := by
  obtain ⟨l, carried⟩ := zoneWatched_iff.1 watched
  exact tryLeaveStarting_waits carried (undone l carried)

end Sys2Proof.Machine
end

