-- ==== Sys2Proof/Proofs/StartedHatches.lean ====
section
/-!
PROOFS. A hatch as a start brings it up.
-/

namespace Sys2Proof.Machine

variable {s t : State} {z : Zone} {h : HatchId} {x y : Hatch} {c : FireCause}

/-! ### A hatch started (R120, R121) -/

/-- A handover record as a start marks it (R121). -/
def Handover.marked (r : Handover) : Handover := { r with recovered := true }

/-- A hatch as a start brings it up, its zone still in STARTING or gone from it. -/
def hatchAt (s : State) (h : HatchId) (starting : Bool) : Hatch :=
  let tray := trayFromSensors s.hatch[h].sensors
  let x : Hatch := {
    phase := .heldFire, outer := startedShutter s.hatch[h].outer.sensorOpen starting
    inner := startedShutter s.hatch[h].inner.sensorOpen starting, sensors := s.hatch[h].sensors, tray := tray
    scan := if starting then none else some .resume
    rh := unread s (.hatch h) .rh, temp := unread s (.hatch h) .temp, probe := unread s (.hatch h) .probe }
  match s.store.handover[h] with
  | some r =>
    { x with
      heldClass := some r.phaseClass, heldTray := some r.tray, recovering := true, manifest := some r.manifest
      risk := r.risk }
  | none =>
    { x with
      heldClass := s.store.receipt[h].map fun _ => .receipt, heldTray := some tray
      manifest := s.store.receipt[h].map Receipt.manifest }

theorem startedHatch_eq (s : State) (h : HatchId) :
    startedHatch s h = hatchAt s h (zoneWatched s s.store.hatch[h].zone) := by
  unfold startedHatch hatchAt
  cases s.store.handover[h] <;> rfl

/-- The closer of a started shutter stops with its zone's departure. -/
theorem stopCloser_startedShutter (o : Bool) : stopCloser (startedShutter o true) = startedShutter o false := by
  cases o <;> rfl

theorem hatchAt_resumes (s : State) (h : HatchId) : (hatchAt s h true).resumes = hatchAt s h false := by
  unfold hatchAt Hatch.resumes Hatch.bothShutters
  cases s.store.handover[h] <;> simp [stopCloser_startedShutter]

/-- A shutter of a started hatch, its lock engaged by the hold. -/
theorem engage_started (o : Bool) : engage (driveCloser { sensorOpen := o }) = startedShutter o true := by cases o <;> rfl

theorem unread_congr (same : t.store.channels = s.store.channels) (o : Owner) (k : ChanKind) :
    unread t o k = unread s o k := by
  unfold unread
  rw [same]

theorem startReading_of (same : t.store.channels = s.store.channels) (o : Owner) (k : ChanKind) :
    startReading t.store o k = unread s o k := (startReading_eq t o k).trans (unread_congr same o k)

theorem State.setHandover_same (h : HatchId) : s.setHandover h s.store.handover[h] = s := by
  simp [State.setHandover, State.setStore]

theorem holdHatch_written (phase : x.phase = .heldFire) : holdHatch h (s.setHatch h x) = s.setHatch h x.shutDown :=
  (holdHatch_held (State.setHatch_get ..) phase).trans (State.setHatch_setHatch ..)

/-- A hatch that has its field inputs, its closers driven, and nothing more. -/
def freshHatch (s : State) (h : HatchId) : Hatch :=
  { outer := driveCloser { sensorOpen := s.hatch[h].outer.sensorOpen }
    inner := driveCloser { sensorOpen := s.hatch[h].inner.sensorOpen }
    sensors := s.hatch[h].sensors, tray := trayFromSensors s.hatch[h].sensors }

/-- A hatch with its chamber's values as a start forms them. -/
def Hatch.chamber (x : Hatch) (s : State) (h : HatchId) : Hatch :=
  { x with rh := unread s (.hatch h) .rh, temp := unread s (.hatch h) .temp, probe := unread s (.hatch h) .probe }

/-- A hatch brought up: started, its chamber's values written, and held. -/
theorem bringUpHatch_start {u : State} (start : startHatch h t = u.setHatch h x)
    (channels : t.store.channels = s.store.channels) : bringUpHatch h t = holdHatch h (u.setHatch h (x.chamber s h)) := by
  unfold bringUpHatch Hatch.chamber
  dsimp only
  rw [start, State.modHatch_setHatch, ← startReading_of channels,
    ← startReading_of channels, ← startReading_of channels]

/-- A hatch brought up from a cold state that has the store of `s`. -/
theorem bringUpHatch_of (cold : t.hatch[h] = coldHatch s.hatch[h]) (records : t.store.handover[h] = s.store.handover[h])
    (receipts : t.store.receipt[h] = s.store.receipt[h]) (channels : t.store.channels = s.store.channels) :
    bringUpHatch h t = (t.setHandover h ((s.store.handover[h]).map Handover.marked)).setHatch h (hatchAt s h true) := by
  have same : t.setHandover h t.store.handover[h] = t := State.setHandover_same h
  cases held : s.store.handover[h] with
  | some r =>
    let x : Hatch := { freshHatch s h with
      phase := .heldFire, heldClass := some r.phaseClass, heldTray := some r.tray, recovering := true,
      manifest := some r.manifest, risk := r.risk }
    have start : startHatch h t = (t.setHandover h (some r.marked)).setHatch h x := by
      unfold startHatch
      dsimp only
      rw [State.handover, records, held, cold]
      rfl
    rw [bringUpHatch_start start channels, holdHatch_written rfl]
    refine congrArg (State.setHatch _ h) ?_
    simp [x, hatchAt, held, Hatch.shutDown, Hatch.chamber, asideScan, Hatch.bothShutters, freshHatch, engage_started]
  | none =>
    rw [records, held] at same
    rw [Option.map_none, same]
    cases there : s.store.receipt[h] with
    | some c =>
      let x : Hatch := { freshHatch s h with phase := .receiptPending, manifest := some c.manifest }
      have start : startHatch h t = t.setHatch h x := by
        unfold startHatch
        dsimp only
        rw [State.handover, records, held, receipts, there, cold]
        rfl
      have class_ : rememberedClass h (t.setHatch h (x.chamber s h)) = some .receipt :=
        rememberedClass_eq (State.setHatch_get ..) nofun nofun nofun (fun _ => rfl) (fun _ _ _ other => absurd rfl other)
      rw [bringUpHatch_start start channels, holdHatch_takes (State.setHatch_get ..)
        (show Phase.receiptPending ≠ .heldFire by nofun) (show Phase.receiptPending ≠ .query by nofun) class_,
        State.setHatch_setHatch]
      refine congrArg (State.setHatch _ h) ?_
      simp [x, hatchAt, held, there, Hatch.shutDown, Hatch.heldWith, Hatch.chamber, asideScan, Hatch.bothShutters,
        freshHatch, engage_started]
    | none =>
      let x : Hatch := (freshHatch s h).toIdle t.store.hatch[h].standbyTime
      have start : startHatch h t = t.setHatch h x := by
        unfold startHatch
        dsimp only
        rw [State.handover, records, held, receipts, there, cold]
        rfl
      have class_ : rememberedClass h (t.setHatch h (x.chamber s h)) = none :=
        rememberedClass_eq (State.setHatch_get ..) (fun _ => rfl) nofun nofun nofun (fun other => absurd rfl other)
      rw [bringUpHatch_start start channels, holdHatch_takes (State.setHatch_get ..)
        (show Phase.idle ≠ .heldFire by nofun) (show Phase.idle ≠ .query by nofun) class_,
        State.setHatch_setHatch]
      refine congrArg (State.setHatch _ h) ?_
      simp [x, hatchAt, held, there, Hatch.shutDown, Hatch.heldWith, Hatch.chamber, asideScan, Hatch.bothShutters,
        Hatch.toIdle, freshHatch, engage_started]

end Sys2Proof.Machine
end

