-- ==== Sys2Proof/Proofs/StartStages.lean ====
section
/-!
PROOFS. How far a start has come after some of its actions.
-/

namespace Sys2Proof.Machine

variable {s t : State} {z : Zone} {h : HatchId} {cause : StartCause} {done : List StartAction} {n : Nat}

/-! ### How far a start has come (R203) -/

/-- A manifest as the comparison of a start leaves it (R86). -/
def reopenedBy (ms : List Manifest) (m : Manifest) : Manifest :=
  if m.id ∈ ms.map Manifest.id then { m with active := false } else m

/-- The store of a start: the handover records marked, and the manifests let go once they were compared. -/
def startedStore (s : State) (done : List StartAction) : Store :=
  { s.store with
    manifests :=
      if .manifests ∈ done then s.store.manifests.map (reopenedBy (unheldManifests s)) else s.store.manifests
    handover := s.store.handover.map (Option.map Handover.marked) }

/-- What an action of a start posts. -/
def StartAction.reports (s : State) : StartAction → List Event
  | .manifests => (unheldManifests s).map fun m => .manifestReleased m.id m.hatch
  | .zone z => if zoneWatched s z then [] else [.fireState z .starting .normal .noDetectors]

/-- The zone has left STARTING once its test was made, where it has no detector. -/
def hasLeft (s : State) (done : List StartAction) (z : Zone) : Bool := decide (.zone z ∈ done) && !zoneWatched s z

/-- A fire zone as a start leaves it. -/
def fireAt (s : State) (left : Bool) (z : Zone) : FireZone :=
  { FireZone.start s.fire[z] with state := if left then .normal else .starting }

/-- The reports of some actions of a start, after its own. -/
def startReports (s : State) (cause : StartCause) (done : List StartAction) : List Report :=
  (done.flatMap (StartAction.reports s)).foldl (fun q e => enqueue q { stamp := 0, event := e })
    [{ stamp := 0, event := .powerUp cause }]

/-- The part in a start, some of its actions done. -/
def startStage (s : State) (cause : StartCause) (done : List StartAction) (n : Nat) : State :=
  { coldState s with
    powered := true, choice := n, store := startedStore s done
    hatch := Vector.ofFn fun h => hatchAt s h (!hasLeft s done s.store.hatch[h].zone)
    fire := Vector.ofFn fun z => fireAt s (hasLeft s done z) z
    reports := startReports s cause done }

theorem startReports_append (done more : List StartAction) : startReports s cause (done ++ more) =
    (more.flatMap (StartAction.reports s)).foldl (fun q e => enqueue q { stamp := 0, event := e })
      (startReports s cause done) := by
  unfold startReports
  rw [List.flatMap_append, List.foldl_append]

theorem hasLeft_append (a : StartAction) :
    hasLeft s (done ++ [a]) z = (hasLeft s done z || (decide (a = .zone z) && !zoneWatched s z)) := by
  unfold hasLeft
  by_cases now : a = .zone z <;> by_cases before : StartAction.zone z ∈ done <;>
    simp [now, before, eq_comm]

theorem startedStore_zone : startedStore s (done ++ [.zone z]) = startedStore s done := by simp [startedStore]

/-! ### The hatches brought up -/

theorem vector_two {α : Type} (v : Vector α 2) (f : HatchId → α) : (v.set 0 (f 0)).set 1 (f 1) = Vector.ofFn f := by
  refine Vector.ext fun i lt => ?_
  match i, lt with
  | 0, _ => simp
  | 1, _ => simp

theorem bringUp_both (s : State) (cause : StartCause) :
    bringUpHatch 1 (bringUpHatch 0 (post (.powerUp cause) { coldState s with powered := true })) =
      startStage s cause [] s.choice := by
  have first := bringUpHatch_of (s := s) (h := 0) (t := post (.powerUp cause) { coldState s with powered := true })
    (by simp [coldState, post]) rfl rfl rfl
  have second := bringUpHatch_of (s := s) (h := 1)
    (t := bringUpHatch 0 (post (.powerUp cause) { coldState s with powered := true }))
    (by rw [first]; simp [coldState, post, State.setHandover]) (by rw [first]; simp [coldState, post, State.setHandover])
    (by rw [first]; rfl) (by rw [first]; rfl)
  have records := vector_two s.store.handover fun h => s.store.handover[h].map Handover.marked
  have hatches := vector_two (s.hatch.map coldHatch) fun h => hatchAt s h true
  have fires : s.fire.map FireZone.start = Vector.ofFn fun z => fireAt s (hasLeft s [] z) z :=
    Vector.ext fun i lt => by simp [fireAt, hasLeft, FireZone.start]
  have store : startedStore s [] = { s.store with
      handover := (s.store.handover.set 0 (s.store.handover[0].map Handover.marked)).set 1
        (s.store.handover[1].map Handover.marked) } := by
    unfold startedStore
    refine congrArg (fun v => { s.store with handover := v }) ?_
    refine Eq.trans ?_ records.symm
    exact Vector.ext fun i lt => by simp
  rw [second, first]
  unfold startStage
  have hatches' : (Vector.ofFn fun h => hatchAt s h (!hasLeft s [] s.store.hatch[h].zone)) =
      ((s.hatch.map coldHatch).set 0 (hatchAt s 0 true)).set 1 (hatchAt s 1 true) :=
    Eq.trans (congrArg Vector.ofFn (funext fun h => rfl)) hatches.symm
  rw [store, ← fires, hatches']
  rfl

/-! ### One action of a start -/

theorem startStage_watched (watched : zoneWatched s z = true) :
    startStage s cause (done ++ [.zone z]) n = startStage s cause done n := by
  have same (k : Zone) : hasLeft s (done ++ [.zone z]) k = hasLeft s done k := by
    rw [hasLeft_append]
    by_cases here : z = k
    · subst here
      simp [watched]
    · simp [here]
  have posts : startReports s cause (done ++ [.zone z]) = startReports s cause done := by
    rw [startReports_append]
    simp [StartAction.reports, watched]
  unfold startStage startedStore
  simp only [same, posts, List.mem_append, List.mem_singleton, reduceCtorEq, or_false]

theorem carried_enabled {l : LoopId} (carried : s.carries l z = true) :
    ∃ a : Address, s.store.detectors[l][a].enabled = true := by
  rw [carries_eq, List.any_eq_true] at carried
  obtain ⟨a, -, on⟩ := carried
  exact ⟨a, (Bool.and_eq_true_iff.1 on).1⟩

theorem loopStart_firstPass {st : Store} {l : LoopId} {a : Address} (on : st.detectors[l][a].enabled = true) :
    (Loop.start st l).firstPass = false := by
  unfold Loop.start
  cases first : lowestEnabled st l with
  | some b => rfl
  | none =>
    have listed := mem_enabledOn.2 on
    rw [List.head?_eq_none_iff.1 first] at listed
    cases listed

/-- The test for leaving STARTING that a start makes of a zone (R162). -/
theorem startAct_zone (new : .zone z ∉ done) :
    ∃ k, startAct (.zone z) (startStage s cause done n) = startStage s cause (done ++ [.zone z]) k := by
  cases watched : zoneWatched s z with
  | true =>
    refine ⟨n, (tryLeaveStarting_watched (s := startStage s cause done n) watched
      fun l carried => ?_).trans (startStage_watched watched).symm⟩
    obtain ⟨a, on⟩ := carried_enabled (s := startStage s cause done n) carried
    simpa [startStage, coldState] using loopStart_firstPass (st := s.store) on
  | false =>
    have stays : hasLeft s done z = false := by simp [hasLeft, new]
    have at_ : (startStage s cause done n).fire[z] = fireAt s false z := by simp [startStage, stays]
    obtain ⟨k, leaves⟩ := tryLeaveStarting_unwatched (c := .noDetectors) (s := startStage s cause done n) watched at_ rfl
    have now (i : Zone) : hasLeft s (done ++ [.zone z]) i = (hasLeft s done i || decide (z = i)) := by
      rw [hasLeft_append]
      by_cases here : z = i
      · subst here
        simp [watched]
      · simp [here]
    have fires : (startStage s cause done n).fire.set z { fireAt s false z with state := .normal } =
        Vector.ofFn fun i => fireAt s (hasLeft s (done ++ [.zone z]) i) i := by
      refine Vector.ext fun i lt => ?_
      rw [Vector.getElem_ofFn, now]
      by_cases here : z = ⟨i, lt⟩
      · subst here
        simp [fireAt]
      · rw [Vector.getElem_set_ne _ _ fun e => here (Fin.ext e)]
        simp [startStage, here]
    have hatches : (Vector.ofFn fun h => if (startStage s cause done n).store.hatch[h].zone = z then
          (startStage s cause done n).hatch[h].resumes else (startStage s cause done n).hatch[h]) =
        Vector.ofFn fun h => hatchAt s h (!hasLeft s (done ++ [.zone z]) s.store.hatch[h].zone) := by
      refine congrArg Vector.ofFn (funext fun h => ?_)
      by_cases here : s.store.hatch[(h : Nat)].zone = z
      · simp [startStage, startedStore, now, here, stays, hatchAt_resumes]
      · have other : ¬z = s.store.hatch[(h : Nat)].zone := fun e => here e.symm
        simp [startStage, startedStore, now, here, other]
    have posts : startReports s cause (done ++ [.zone z]) = enqueue (startReports s cause done)
        { stamp := 0, event := .fireState z .starting .normal .noDetectors } := by
      rw [startReports_append]
      simp [StartAction.reports, watched]
    refine ⟨k, leaves.trans ?_⟩
    simp only [hatches]
    refine (congrArg (fun v => { post (.fireState z .starting .normal .noDetectors) (startStage s cause done n) with
      fire := v
      hatch := Vector.ofFn fun h => hatchAt s h (!hasLeft s (done ++ [StartAction.zone z]) s.store.hatch[h].zone)
      choice := k }) fires).trans ?_
    unfold startStage
    rw [posts, startedStore_zone]
    rfl

/-! ### The manifest table compared (R86) -/

theorem reopenedBy_cons (m : Manifest) (ms : List Manifest) (x : Manifest) :
    reopenedBy ms (if x.id = m.id then { x with active := false } else x) = reopenedBy (m :: ms) x := by
  unfold reopenedBy
  by_cases first : x.id = m.id <;> by_cases rest : x.id ∈ ms.map Manifest.id <;> simp_all

theorem actAll_releaseOrphan (ms : List Manifest) (s : State) : actAll releaseOrphan ms s = { s with
    store := { s.store with manifests := s.store.manifests.map (reopenedBy ms) }
    reports := (ms.map fun m => .manifestReleased m.id m.hatch).foldl
      (fun q e => enqueue q { stamp := s.minute, event := e }) s.reports } := by
  induction ms generalizing s with
  | nil =>
    have same : s.store.manifests.map (reopenedBy []) = s.store.manifests := List.map_id'' (fun _ => rfl) _
    rw [same]
    rfl
  | cons m ms ih =>
    refine (ih (releaseOrphan m s)).trans ?_
    have step : (releaseOrphan m s).store.manifests.map (reopenedBy ms) = s.store.manifests.map (reopenedBy (m :: ms)) := by
      refine List.map_map.trans (List.map_congr_left fun x _ => ?_)
      exact reopenedBy_cons m ms x
    rw [step]
    rfl

theorem heldByHatch_startStage (m : Manifest) : (!heldByHatch (startStage s cause done n) m) =
    decide ((s.store.handover[m.hatch]).map Handover.manifest ≠ some m.id ∧
      (s.store.receipt[m.hatch]).map Receipt.manifest ≠ some m.id) := by
  have record : (startStage s cause done n).handover m.hatch = s.store.handover[m.hatch].map Handover.marked := by
    simp [startStage, startedStore, State.handover]
  have receipt : (startStage s cause done n).store.receipt[m.hatch] = s.store.receipt[m.hatch] := rfl
  unfold heldByHatch
  rw [record, receipt]
  cases s.store.handover[m.hatch] <;> cases s.store.receipt[m.hatch] <;> simp [Handover.marked, beq_eq_decide]

theorem startAct_manifests (new : .manifests ∉ done) :
    startAct .manifests (startStage s cause done n) = startStage s cause (done ++ [.manifests]) n := by
  have orphans : ((startStage s cause done n).store.manifests.filter fun m =>
      m.active && !heldByHatch (startStage s cause done n) m) = unheldManifests s := by
    have table : (startStage s cause done n).store.manifests = s.store.manifests := if_neg new
    rw [table]
    refine List.filter_congr fun m _ => ?_
    rw [heldByHatch_startStage]
  have same (k : Zone) : hasLeft s (done ++ [.manifests]) k = hasLeft s done k := by
    rw [hasLeft_append]
    simp
  have store : startedStore s (done ++ [.manifests]) = { startedStore s done with
      manifests := (startedStore s done).manifests.map (reopenedBy (unheldManifests s)) } := by
    simp [startedStore, new]
  have posts : startReports s cause (done ++ [.manifests]) =
      ((unheldManifests s).map fun m => .manifestReleased m.id m.hatch).foldl
        (fun q e => enqueue q { stamp := 0, event := e }) (startReports s cause done) := by
    rw [startReports_append]
    simp [StartAction.reports]
  refine (congrArg (actAll releaseOrphan · _) orphans).trans ((actAll_releaseOrphan _ _).trans ?_)
  unfold startStage
  simp only [same, posts, store]
  rfl

theorem actAll_startAct (order done : List StartAction) (n : Nat) (new : (done ++ order).Nodup) :
    ∃ k, actAll startAct order (startStage s cause done n) = startStage s cause (done ++ order) k := by
  induction order generalizing done n with
  | nil => exact ⟨n, by rw [List.append_nil]; rfl⟩
  | cons a order ih =>
    have fresh : a ∉ done := fun old => List.disjoint_of_nodup_append new old (List.mem_cons_self ..)
    have step : ∃ k, startAct a (startStage s cause done n) = startStage s cause (done ++ [a]) k := by
      cases a with
      | manifests => exact ⟨n, startAct_manifests fresh⟩
      | zone z => exact startAct_zone fresh
    obtain ⟨k, step⟩ := step
    rw [List.append_cons] at new
    obtain ⟨j, rest⟩ := ih (done ++ [a]) k new
    refine ⟨j, ?_⟩
    rw [List.append_cons, ← rest, ← step]
    rfl

end Sys2Proof.Machine
end

