-- ==== Sys2Proof/Proofs/Starts.lean ====
section
/-!
PROOFS. POWER-UP and RESTART start every block.
-/

namespace Sys2Proof.Machine

variable {s t : State} {z : Zone} {h : HatchId} {cause : StartCause} {order : List StartAction} {n : Nat}

/-! ### The start ended -/

/-- A report at the head of the queue stays there, but for a LOST marker. -/
theorem head_enqueue {q : List Report} {r : Report} (r' : Report) (at_ : q.head? = some r) (kept : r.isLost = false) :
    (enqueue q r').head? = some r := by
  cases q with
  | nil => cases at_
  | cons a q =>
    cases at_
    rcases enqueue_cases (r :: q) r' with ⟨t, n, last, eq⟩ | ⟨-, -, eq⟩ | ⟨-, -, eq⟩
    · rw [eq]
      cases q with
      | nil =>
        cases last
        cases kept
      | cons b q => rfl
    · rw [eq]
      rfl
    · rw [eq]
      rfl

theorem head_foldl_enqueue {q : List Report} {r : Report} (es : List Event) (at_ : q.head? = some r)
    (kept : r.isLost = false) :
    (es.foldl (fun q e => enqueue q { stamp := 0, event := e }) q).head? = some r := by
  induction es generalizing q with
  | nil => exact at_
  | cons e es ih => exact ih (head_enqueue _ at_ kept)

/-- The reports of a start, in the order its actions stand in. -/
theorem startActions_reports (s : State) : startActions.flatMap (StartAction.reports s) =
    (unheldManifests s).map (fun m => .manifestReleased m.id m.hatch) ++
      ((List.finRange 4).filter fun z => !zoneWatched s z).map fun z => .fireState z .starting .normal .noDetectors := by
  have zones (l : List Zone) : (l.map StartAction.zone).flatMap (StartAction.reports s) =
      (l.filter fun z => !zoneWatched s z).map fun z => .fireState z .starting .normal .noDetectors := by
    induction l with
    | nil => rfl
    | cons z l ih =>
      rw [List.map_cons, List.flatMap_cons, ih]
      cases watched : zoneWatched s z <;> simp [StartAction.reports, watched]
  exact congrArg (_ ++ ·) (zones (List.finRange 4))

theorem mem_startActions (a : StartAction) : a ∈ startActions := by
  cases a with
  | manifests => exact List.mem_cons_self ..
  | zone z =>
    have listed : StartAction.zone z ∈ (List.finRange 4).map .zone := List.mem_map_of_mem (List.mem_finRange z)
    exact List.mem_cons_of_mem _ listed

/-- A start takes its actions in some order. -/
theorem startUp_stage (cause : StartCause) (s : State) :
    ∃ order n, order.Perm startActions ∧ startUp cause s = startStage s cause order n := by
  obtain ⟨order, perm, runs⟩ := inFreeOrder_spec startAct startActions
    (bringUpHatch 1 (bringUpHatch 0 (post (.powerUp cause) { coldState s with powered := true })))
  have once : ([] ++ order).Nodup := perm.nodup_iff.2 (by decide)
  obtain ⟨n, done⟩ := actAll_startAct (s := s) (cause := cause) order [] (s.choice + 1) once
  refine ⟨order, n, perm, runs.trans ?_⟩
  rw [bringUp_both]
  exact done

/-! ### The blocks a start leaves -/

theorem loopStarts_start (s : State) (l : LoopId) : LoopStarts s l (Loop.start s.store l) where
  empty := by
    intro off
    have none_ : lowestEnabled s.store l = none := by
      cases found : lowestEnabled s.store l with
      | none => rfl
      | some a =>
        have on := (lowestEnabled_eq_some.1 found).1
        rw [off a] at on
        cases on
    unfold Loop.start
    rw [none_]
  first := by
    intro a d on lower order
    have found : lowestEnabled s.store l = some a := by
      refine lowestEnabled_eq_some.2 ⟨on, fun q enabled => ?_⟩
      rw [← not_lt]
      intro below
      rw [lower q below] at enabled
      cases enabled
    unfold Loop.start
    rw [found, order]

theorem startClimate_eq (s : State) (z : Zone) : startClimate s.store z = {
    rh := unread s (.zone z) .rh, temp := unread s (.zone z) .temp, dew := .invalid, outRh := false, outTemp := false
    mode := .hold, dh := 0, hu := 0, dhOn := false, huOn := false, period := s.store.climate[z].period
    elapsed := some 0, burst := none, deferredBreak := false, deferredBurst := false } := by
  unfold startClimate
  rw [startReading_eq, startReading_eq]
  rfl

/-- A start leaves every block as the rules say. -/
theorem startsAfresh_stage (perm : order.Perm startActions) : StartsAfresh cause s (startStage s cause order n) := by
  have all (a : StartAction) : a ∈ order := perm.mem_iff.2 (mem_startActions a)
  have left (z : Zone) : hasLeft s order z = !zoneWatched s z := by
    rw [hasLeft, decide_eq_true (all _), Bool.true_and]
  refine {
    powered := rfl, pending := rfl, clock := ⟨rfl, rfl⟩, line := rfl, front := rfl, staging := rfl
    reports := ⟨order.flatMap (StartAction.reports s), ?_, rfl⟩
    head := head_foldl_enqueue _ rfl rfl
    store := ?_, manifests := ?_, records := ?_, climate := ?_, hatch := ?_, bank := ?_, loop := ?_, fire := ?_ }
  · rw [← startActions_reports]
    exact List.Perm.flatMap_right _ perm
  · rfl
  · exact if_pos (all .manifests)
  · intro h
    simp only [startStage, startedStore, Fin.getElem_fin, Vector.getElem_map]
    rfl
  · intro z
    exact (by simp [startStage, coldState] : (startStage s cause order n).climate[z] = startClimate s.store z).trans
      (startClimate_eq s z)
  · intro h
    rw [startedHatch_eq]
    simp [startStage, left]
  · intro b
    simp [startStage, coldState, Bank.start]
  · intro l
    simpa [startStage, coldState] using loopStarts_start s l
  · intro z
    cases watched : zoneWatched s z <;> simp [startStage, left, watched, fireAt, FireZone.start]

theorem startUp_startsAfresh (cause : StartCause) (s : State) : StartsAfresh cause s (startUp cause s) := by
  obtain ⟨order, n, perm, runs⟩ := startUp_stage cause s
  rw [runs]
  exact startsAfresh_stage perm

/-- After a start no manifest is ACTIVE that no hatch holds (R86). -/
theorem startsAfresh_active (start : StartsAfresh cause s t) {m : Manifest} (there : m ∈ t.store.manifests)
    (active : m.active = true) :
    (∃ r : Handover, s.store.handover[m.hatch] = some r ∧ r.manifest = m.id) ∨
    (∃ r : Receipt, s.store.receipt[m.hatch] = some r ∧ r.manifest = m.id) := by
  rw [start.manifests] at there
  obtain ⟨m', stored, rfl⟩ := List.mem_map.1 there
  by_cases let_ : m'.id ∈ (unheldManifests s).map Manifest.id
  · rw [if_pos let_] at active
    cases active
  · rw [if_neg let_] at active ⊢
    by_contra unheld
    rw [not_or] at unheld
    obtain ⟨record, receipt⟩ := unheld
    refine let_ (List.mem_map_of_mem (List.mem_filter.2 ⟨stored, ?_⟩))
    rw [active, Bool.true_and, decide_eq_true_eq, ne_eq, ne_eq, Option.map_eq_some_iff, Option.map_eq_some_iff]
    exact ⟨record, receipt⟩

/-! ### POWER-UP and RESTART -/

/-- Settles O5. -/
theorem powerUpStartsEveryBlock : Obligations.PowerUpStartsEveryBlock := by
  intro s
  refine ⟨fun off => ⟨startUp .powerOn s, ?_, startUp_startsAfresh .powerOn s, fun m there active =>
    startsAfresh_active (startUp_startsAfresh .powerOn s) there active⟩, fun on => ?_⟩
  · exact congrArg Host.Outcome.next (if_neg (by rw [off]; exact Bool.false_ne_true))
  · exact congrArg Host.Outcome.next (if_pos on)

theorem mem_refusingZones : z ∈ refusingZones s ↔ s.fire[z].state = .alarm ∨ s.fire[z].state = .predischarge := by
  simp only [refusingZones, fireState_eq, List.mem_filter, List.mem_finRange, true_and, Bool.or_eq_true, beq_iff_eq]

theorem refusingZones_eq (s : State) : refusingZones s = (List.finRange 4).filter fun z =>
    decide (s.fire[z].state = .alarm ∨ s.fire[z].state = .predischarge) := by
  refine List.filter_congr fun z _ => ?_
  rw [Bool.decide_or, ← beq_eq_decide, ← beq_eq_decide]
  rfl

/-- Once its reply has left, a RESTART that is due starts the part (R204). -/
theorem replyEnds_restart {q : Reply} (sending : s.line.reply = .sending q) (due : s.line.restartDue = true) :
    ∃ l, replyEnds s = startUp .restart (s.setLine l) := by
  refine ⟨{ s.line with
    reply := .none, driving := false, receiver := .hunt, outgoing := [], rate := s.store.rate
    station := s.store.station, restartDue := false }, ?_⟩
  unfold replyEnds
  rw [sending]
  exact if_pos due

/-- The line that a start finds makes no difference to it. -/
theorem startsAfresh_setLine {l : HostLine} (start : StartsAfresh cause (s.setLine l) t) : StartsAfresh cause s t :=
  ⟨start.powered, start.pending, start.clock, start.line, start.reports, start.head, start.store, start.manifests,
    start.records, start.front, start.staging, start.climate, start.hatch, start.bank,
    fun l => ⟨(start.loop l).empty, (start.loop l).first⟩, start.fire⟩

/-- Settles O22. -/
theorem restartWaitsForItsReply : Obligations.RestartWaitsForItsReply := by
  intro s
  refine ⟨fun ready safe => ?_, fun ready fire => ?_, fun q on sending due => ?_⟩
  · have free : refusingZones s.heard = [] :=
      List.eq_nil_iff_forall_not_mem.2 fun z listed => (mem_refusingZones.1 listed).elim (safe z).1 (safe z).2
    refine (request_next ready ?_)
    exact if_pos (by rw [free]; rfl)
  · obtain ⟨z, burns⟩ := fire
    have listed : z ∈ refusingZones s.heard := mem_refusingZones.2 burns
    have some_ : (refusingZones s.heard).isEmpty = false := List.isEmpty_eq_false_iff.2 (List.ne_nil_of_mem listed)
    refine request_same ready ((if_neg (by rw [some_]; exact Bool.false_ne_true)).trans ?_)
    exact congrArg (fun zs => answer .refused (.fireZones zs) s.heard) (refusingZones_eq s)
  · obtain ⟨l, runs⟩ := replyEnds_restart sending due
    exact ⟨_, (event_powered on).trans (congrArg _ runs), startsAfresh_setLine (startUp_startsAfresh .restart _)⟩

end Sys2Proof.Machine
end

