-- ==== Sys2Proof/Proofs/ScannedTrays.lean ====
section
/-!
PROOFS. What a scan reads, and its verdicts.
-/

namespace Sys2Proof.Machine

variable {s : State} {st : Store} {h : HatchId} {x y : Hatch} {r : Handover} {t : Tray} {p q : TrayIdx} {l : Text} {m : Char}
  {e : Entry}

/-! ### A store and one hatch written (R114) -/

/-- A state with another store and another live state of one hatch. -/
def State.put (s : State) (h : HatchId) (st : Store) (x : Hatch) : State := { s with store := st, hatch := s.hatch.set h x }

theorem State.put_get : (s.put h st x).hatch[h] = x := State.setHatch_get (s := s.setStore st) h x

theorem State.put_modHatch (f : Hatch → Hatch) : (s.put h st x).modHatch h f = s.put h st (f x) :=
  State.modHatch_setHatch (s := s.setStore st) h f

theorem State.put_setHatch (y : Hatch) : (s.put h st x).setHatch h y = s.put h st y :=
  State.setHatch_setHatch (s := s.setStore st) h x y

theorem Store.withRecord_of (held : st.handover[h] = some r) : st.withRecord h r = st := by
  unfold Store.withRecord
  rw [← held, Fin.getElem_fin, Vector.set_getElem_self]

theorem Store.withRecord_get : (st.withRecord h r).handover[h] = some r := by simp [Store.withRecord]

theorem Store.withRecord_withRecord (r' : Handover) : (st.withRecord h r).withRecord h r' = st.withRecord h r' := by
  simp [Store.withRecord]

theorem modHandover_put (f : Handover → Handover) :
    (s.put h (st.withRecord h r) x).modHandover h f = s.put h (st.withRecord h (f r)) x := by
  rw [State.modHandover_of (o := some r) Store.withRecord_get]
  exact congrArg (fun st => s.put h st x) (Store.withRecord_withRecord (st := st) (r := r) (f r))

theorem saveTray_put :
    saveTray h (s.put h (st.withRecord h r) x) = s.put h (st.withRecord h { r with tray := x.tray }) x := by
  unfold saveTray
  rw [modHandover_put, State.put_get]

theorem setClass_put (c : PhaseClass) : setClass h c (s.put h (st.withRecord h r) x) =
    s.put h (st.withRecord h { r with phaseClass := c, tray := x.tray }) x := by
  unfold setClass
  rw [modHandover_put, State.put_get]

/-- An entry of a cartridge stands once in the record. -/
theorem addEntry_put (label : e.label.isSome = true) (kept : e.result ≠ .rejectedRemoved) :
    addEntry h e (s.put h (st.withRecord h r) x) = s.put h (st.withRecord h (r.noting e)) x := by
  unfold addEntry
  rw [modHandover_put]
  simp only [label, kept, ne_eq, not_false_eq_true, true_and]
  rfl

/-- A reject removed is entered each time. -/
theorem addEntry_removed (removed : e.result = .rejectedRemoved) : addEntry h e (s.put h (st.withRecord h r) x) =
    s.put h (st.withRecord h { r with entries := r.entries ++ [e] }) x := by
  unfold addEntry
  rw [modHandover_put, if_neg (fun ⟨_, other, _⟩ => other removed)]

theorem setTray_put (t : Tray) : setTray h t (s.put h st x) = s.put h st { x with tray := t } := State.put_modHatch _

theorem toPhase_put (ph : Phase) :
    toPhase h ph (s.put h st x) = s.put h st { x with phase := ph, unlockDue := none, idle := none } := State.put_modHatch _

theorem activeManifest_put {id : Nat} (manifest : x.manifest = some id) :
    (s.put h st x).activeManifest h = st.manifests.find? (·.id == id) :=
  activeManifest_of (by rw [State.put_get]; exact manifest)

/-! ### Labels on a tray (R91) -/

theorem labelAt_eq_some : labelAt t p = some (l, m) ↔ t[p].presence = .present l m := by
  unfold labelAt
  cases t[p].presence <;> simp

theorem holdsLabel_iff : holdsLabel t l p = true ↔ ∃ m, t[p].presence = .present l m := by
  unfold holdsLabel labelAt
  cases t[p].presence <;> simp

theorem onTray_iff : onTray t l = true ↔ ∃ (p : TrayIdx) (m : Char), t[p].presence = .present l m := by
  simp only [onTray, List.any_eq_true, List.mem_finRange, true_and, holdsLabel_iff]

theorem seenBefore_false : seenBefore t p l = false ↔
    ∀ (q : TrayIdx) (m : Char), q < p → t[q].presence ≠ .present l m := by
  rw [← Bool.not_eq_true, seenBefore, List.any_eq_true]
  simp only [List.mem_finRange, true_and, Bool.and_eq_true, decide_eq_true_eq, holdsLabel_iff, not_exists, not_and]
  exact ⟨fun none q m below => none q below m, fun none q below m => none q m below⟩

theorem mem_tray {a : TrayPos} : a ∈ t.toList ↔ ∃ p : TrayIdx, t[p] = a := by
  rw [Vector.mem_toList_iff, Vector.mem_iff_getElem]
  exact ⟨fun ⟨i, lt, e⟩ => ⟨⟨i, lt⟩, e⟩, fun ⟨p, e⟩ => ⟨p, p.isLt, e⟩⟩

theorem mem_labelsOn : l ∈ labelsOn t ↔ ∃ (p : TrayIdx) (m : Char), t[p].presence = .present l m := by
  simp only [labelsOn, List.mem_filterMap, mem_tray]
  constructor
  · rintro ⟨_, ⟨p, rfl⟩, found⟩
    split at found
    · next l' m there =>
      cases found
      exact ⟨p, m, there⟩
    · cases found
  · rintro ⟨p, m, there⟩
    exact ⟨_, ⟨p, rfl⟩, by rw [there]⟩

theorem onTray_eq : onTray t l = decide (l ∈ labelsOn t) := by
  rw [Bool.eq_iff_iff, decide_eq_true_eq, onTray_iff, mem_labelsOn]

theorem goneFrom_eq (t : Tray) (ls : List Text) : goneFrom t ls = ls.filter fun l => l ∉ labelsOn t := by
  unfold goneFrom
  refine List.filter_congr fun l _ => ?_
  rw [onTray_eq, ← decide_not]

theorem hasVerdict_iff {v : Verdict} : hasVerdict t v = true ↔ ∃ p : TrayIdx, t[p].verdict = v := by
  simp only [hasVerdict, List.any_eq_true, mem_tray, beq_iff_eq]
  exact ⟨fun ⟨_, ⟨p, rfl⟩, e⟩ => ⟨p, e⟩, fun ⟨p, e⟩ => ⟨_, ⟨p, rfl⟩, e⟩⟩

theorem hasVerdict_false {v : Verdict} : hasVerdict t v = false ↔ ∀ p : TrayIdx, t[p].verdict ≠ v := by
  rw [← Bool.not_eq_true, hasVerdict_iff, not_exists]

@[simp] theorem withVerdicts_get (v : TrayIdx → Verdict) : (withVerdicts t v)[p] = { t[p] with verdict := v p } := by
  simp [withVerdicts]

theorem withVerdicts_withVerdicts (v w : TrayIdx → Verdict) : withVerdicts (withVerdicts t v) w = withVerdicts t w := by
  refine Vector.ext fun i lt => ?_
  simp [withVerdicts]

/-! ### What a scan reads (R92) -/

theorem readAttempts_good {run : LabelRun} (good : readLabel run = .ok (l, m)) (rest : List Attempt) :
    readAttempts (.run run :: rest) = .present l m := by
  cases rest <;> simp [readAttempts, good]

/-- An attempt that gives no good record leaves the position to those after it. -/
theorem readAttempts_fails {a : Attempt} (fails : ∀ run, a = .run run → ∀ g, readLabel run ≠ .ok g) (b : Attempt)
    (rest : List Attempt) : readAttempts (a :: b :: rest) = readAttempts (b :: rest) := by
  cases a with
  | noResponse => rfl
  | run run =>
    cases read : readLabel run with
    | ok g => exact absurd read (fails run rfl g)
    | error e => simp [readAttempts, read]

theorem readAttempts_append {n : List Attempt} (fails : ∀ a ∈ n, ∀ run, a = .run run → ∀ g, readLabel run ≠ .ok g)
    (b : Attempt) (rest : List Attempt) : readAttempts (n ++ b :: rest) = readAttempts (b :: rest) := by
  induction n with
  | nil => rfl
  | cons a n ih =>
    have first := fails a (List.mem_cons_self ..)
    have later := ih fun a there => fails a (List.mem_cons_of_mem _ there)
    cases n with
    | nil => exact readAttempts_fails first b rest
    | cons c n => exact (readAttempts_fails first c _).trans later

theorem readAttempts_ne_empty (n : List Attempt) : readAttempts n ≠ .empty := by
  induction n with
  | nil => nofun
  | cons a n ih =>
    cases n with
    | nil =>
      cases a with
      | noResponse => nofun
      | run run =>
        cases read : readLabel run <;> simp [readAttempts, read]
    | cons b n =>
      cases a with
      | noResponse => exact ih
      | run run =>
        cases read : readLabel run with
        | ok g => simp [readAttempts, read]
        | error e => simpa [readAttempts, read] using ih

/-- What a scan reads, at one position. -/
theorem scannedTray_get (sensors : Vector Bool 24) (reads : Vector TrayRead 24) :
    (scannedTray sensors reads)[p] = if sensors[p] then { presence := readPosition reads[p] } else {} := by
  simp [scannedTray]

theorem scannedTray_empty {sensors : Vector Bool 24} {reads : Vector TrayRead 24} :
    (scannedTray sensors reads)[p].presence = .empty ↔ sensors[p] = false := by
  rw [scannedTray_get]
  cases sensors[p] with
  | false => simp
  | true => simp [readPosition, readAttempts_ne_empty]

/-- A scanned tray has no verdict, no mark and no hold. -/
theorem scannedTray_plain (sensors : Vector Bool 24) (reads : Vector TrayRead 24) (p : TrayIdx) :
    (scannedTray sensors reads)[p] = { presence := (scannedTray sensors reads)[p].presence } := by
  rw [scannedTray_get]
  cases sensors[p] <;> rfl

/-! ### Verdicts (R95, R99, R104) -/

theorem verdict_ext {v w : Verdict} (none_ : v = .none ↔ w = .none) (accepted : v = .accepted ↔ w = .accepted) : v = w := by
  cases v <;> cases w <;> simp_all

theorem lookup_eq_found {c : Cartridge} : s.lookup l m = .found c ↔ s.cartridge? l = some c ∧ m = c.media := by
  unfold State.lookup
  cases s.cartridge? l with
  | none => simp
  | some d =>
    by_cases media : d.media = m
    · simp only [media, if_true, Lookup.found.injEq, Option.some.injEq]
      exact ⟨fun e => ⟨e, e ▸ media.symm⟩, And.left⟩
    · simp only [media, if_false, reduceCtorEq, Option.some.injEq, false_iff]
      rintro ⟨rfl, rfl⟩
      exact media rfl

theorem loadVerdict_none (k : Manifest) : loadVerdict s k t p = .none ↔ t[p].presence = .empty := by
  unfold loadVerdict
  cases t[p].presence with
  | empty => simp
  | unreadable e => simp
  | present l m =>
    simp only [reduceCtorEq, iff_false]
    split
    · nofun
    · split
      · split <;> nofun
      · nofun

theorem loadVerdict_present {k : Manifest} (there : t[p].presence = .present l m) : loadVerdict s k t p = .accepted ↔
    seenBefore t p l = false ∧ ∃ c, s.lookup l m = .found c ∧
      ((∃ i ∈ k.items, i.label = l ∧ i.status = .loaded) ∨ c.custody = .reserved k.id ∨ c.custody = .picked k.id) := by
  unfold loadVerdict
  rw [there]
  dsimp only
  cases seenBefore t p l with
  | true => simp
  | false =>
    cases s.lookup l m with
    | found c =>
      simp only [Bool.false_eq_true, if_false, Lookup.found.injEq, exists_eq_left', true_and]
      split
      · next free => simpa [or_assoc] using free
      · next held => simpa [or_assoc] using held
    | mediaMismatch c => simp
    | notInTable => simp

theorem loadVerdict_accepted (k : Manifest) : loadVerdict s k t p = .accepted ↔
    ∃ (l : Text) (c : Cartridge), t[p].presence = .present l c.media ∧
      (∀ (q : TrayIdx) (n : Char), q < p → t[q].presence ≠ .present l n) ∧ s.cartridge? l = some c ∧
      ((∃ i ∈ k.items, i.label = l ∧ i.status = .loaded) ∨ c.custody = .reserved k.id ∨ c.custody = .picked k.id) := by
  constructor
  · intro accepted
    cases there : t[p].presence with
    | present l m =>
      obtain ⟨first, c, found, free⟩ := (loadVerdict_present there).1 accepted
      obtain ⟨record, rfl⟩ := lookup_eq_found.1 found
      exact ⟨l, c, rfl, seenBefore_false.1 first, record, free⟩
    | _ =>
      unfold loadVerdict at accepted
      rw [there] at accepted
      cases accepted
  · rintro ⟨l, c, there, first, record, free⟩
    exact (loadVerdict_present there).2 ⟨seenBefore_false.2 first, c, lookup_eq_found.2 ⟨record, rfl⟩, free⟩

theorem outboundVerdict_none (k : Manifest) : outboundVerdict k t p = .none ↔ t[p].presence = .empty := by
  unfold outboundVerdict
  cases t[p].presence with
  | present l m =>
    simp only [reduceCtorEq, iff_false]
    split <;> nofun
  | _ => simp

theorem outboundVerdict_accepted (k : Manifest) : outboundVerdict k t p = .accepted ↔
    ∃ (l : Text) (n : Char), t[p].presence = .present l n ∧ l ∈ k.labelsIn .loaded ∧
      ∀ (q : TrayIdx) (c : Char), q < p → t[q].presence ≠ .present l c := by
  unfold outboundVerdict
  cases there : t[p].presence with
  | present l m =>
    simp only [← seenBefore_false, Presence.present.injEq, Bool.and_eq_true, Bool.not_eq_true', List.contains_iff_mem]
    constructor
    · intro accepted
      split at accepted
      · next free => exact ⟨l, m, ⟨rfl, rfl⟩, free.2, free.1⟩
      · cases accepted
    · rintro ⟨_, _, ⟨rfl, rfl⟩, listed, first⟩
      exact if_pos ⟨first, listed⟩
  | _ => simp

theorem inboundClass_none {k : Manifest} : inboundClass s k t p = none ↔ t[p].presence = .empty := by
  unfold inboundClass
  cases t[p].presence with
  | present l m =>
    simp only [reduceCtorEq, iff_false]
    split
    · nofun
    · split
      · split
        · split <;> nofun
        · nofun
        · nofun
      · nofun
  | _ => simp

/-- A cartridge that an inbound reconcile may take in: OUT with a courier, its label here first, and not listed but as
EXPECTED. -/
def receivable (s : State) (k : Manifest) (t : Tray) (p : TrayIdx) (l : Text) (c : Cartridge) : Prop :=
  t[p].presence = .present l c.media ∧ s.cartridge? l = some c ∧ (∃ n, c.custody = .out n) ∧
    (∀ (q : TrayIdx) (n : Char), q < p → t[q].presence ≠ .present l n) ∧
    ∀ i : Item, k.items.find? (fun i => i.label == l) = some i → i.status = .expected

/-- The class of a cartridge that may be taken in: of the manifest where it is listed, CROSS-MANIFEST where it is not. -/
theorem inboundClass_receivable {k : Manifest} {c : Cartridge} (free : receivable s k t p l c) :
    inboundClass s k t p = some (if (k.items.find? fun i => i.label == l).isSome then .manifest else .cross) := by
  obtain ⟨there, record, ⟨n, out⟩, first, expected⟩ := free
  unfold inboundClass
  rw [there]
  dsimp only
  rw [seenBefore_false.2 first, lookup_found record, if_neg Bool.false_ne_true]
  dsimp only
  rw [out]
  cases listed : k.items.find? fun i => i.label == l with
  | none => rfl
  | some i => exact if_pos (expected i listed)

theorem inboundClass_free {k : Manifest} : inboundClass s k t p ≠ some .reject ↔
    t[p].presence = .empty ∨ ∃ (l : Text) (c : Cartridge), receivable s k t p l c := by
  constructor
  · intro free
    unfold inboundClass at free
    cases there : t[p].presence with
    | empty => exact .inl rfl
    | unreadable e =>
      rw [there] at free
      exact absurd rfl free
    | present l m =>
      rw [there] at free
      dsimp only at free
      cases seen : seenBefore t p l with
      | true =>
        rw [seen] at free
        exact absurd rfl free
      | false =>
        rw [seen, if_neg Bool.false_ne_true] at free
        cases found : s.lookup l m with
        | found c =>
          obtain ⟨record, rfl⟩ := lookup_eq_found.1 found
          refine .inr ⟨l, c, there, record, ?_, seenBefore_false.1 seen, ?_⟩
          · rw [found] at free
            dsimp only at free
            split at free
            · next n _ out _ => exact ⟨_, out⟩
            · next n out _ => exact ⟨_, out⟩
            · exact absurd rfl free
          · intro i listed
            rw [found, listed] at free
            dsimp only at free
            split at free
            · next same =>
              cases same
              split at free
              · assumption
              · exact absurd rfl free
            · next same => cases same
            · exact absurd rfl free
        | _ =>
          rw [found] at free
          exact absurd rfl free
  · rintro (there | ⟨l, c, free⟩)
    · rw [inboundClass_none.2 there]
      nofun
    · rw [inboundClass_receivable free]
      split <;> nofun

end Sys2Proof.Machine
end

