-- ==== Sys2Proof/Proofs/ItemMoves.lean ====
section
/-!
PROOFS. Items and their cartridges moved one after another, each entered in the record.
-/

namespace Sys2Proof.Machine

variable {s : State} {st : Store} {h : HatchId} {x y : Hatch} {r : Handover} {t : Tray} {p : TrayIdx} {l : Text}
  {m k : Manifest} {id : Nat} {f : Cartridge → Cartridge} {status : ItemStatus} {ls : List Text} {sd : Side} {d : Cartridge}

/-! ### Items moved one after another (R83) -/

/-- What every step of a fold keeps, the fold keeps. -/
theorem foldl_keeps {α β γ : Type} {g : β → γ} {step : β → α → β} (each : ∀ b a, g (step b a) = g b) (as : List α) (b : β) :
    g (as.foldl step b) = g b := by
  induction as generalizing b with
  | nil => rfl
  | cons a as ih => exact (ih _).trans (each b a)

/-- The store with a change of some labels made. -/
def Store.moveAll (st : Store) (id : Nat) (f : Cartridge → Cartridge) (status : ItemStatus) (ls : List Text) : Store :=
  ls.foldl (fun st l => st.moveItem id l f status) st

theorem Store.moveAll_cons (a : Text) :
    st.moveAll id f status (a :: ls) = (st.moveItem id a f status).moveAll id f status ls :=
  rfl

theorem goneBy_fold (m : Manifest) (sd : Side) (st : Store) (ls : List Text) : ls.foldl (Store.goneBy m sd) st =
    match sd with
    | .outer => st.moveAll m.id (Cartridge.depart m.courier) .departed ls
    | .inner => st.moveAll m.id (·.enter .reshelve) .left ls := by cases sd <;> rfl

/-- The records after changes of one label each, all writing one custody state: written, or as they were. -/
theorem foldl_written {α : Type} {step : Store → α → Store} {key : α → Text} {c : Custody}
    (one : ∀ st a d, d ∈ (step st a).cartridges → d.label = key a ∧ d.custody = c ∨ d.label ≠ key a ∧ d ∈ st.cartridges)
    {as : List α} (there : d ∈ (as.foldl step st).cartridges) :
    (d.label ∈ as.map key → d.custody = c) ∧ (d.label ∉ as.map key → d ∈ st.cartridges) := by
  induction as generalizing st with
  | nil => exact ⟨nofun, fun _ => there⟩
  | cons a as ih =>
    obtain ⟨later, other⟩ := ih there
    constructor
    · intro listed
      by_cases last : d.label ∈ as.map key
      · exact later last
      · have here : d.label = key a := (List.mem_cons.1 listed).resolve_right last
        rcases one st a d (other last) with ⟨-, written⟩ | ⟨elsewhere, -⟩
        · exact written
        · exact absurd here elsewhere
    · intro unlisted
      rcases one st a d (other fun last => unlisted (List.mem_cons_of_mem _ last)) with ⟨here, -⟩ | ⟨-, stored⟩
      · exact absurd (List.mem_cons.2 (.inl here)) unlisted
      · exact stored

/-- A record of another label stands through such changes. -/
theorem foldl_untouched {α : Type} {step : Store → α → Store} {key : α → Text}
    (one : ∀ st a d, d.label ≠ key a → d ∈ st.cartridges → d ∈ (step st a).cartridges) {as : List α}
    (other : d.label ∉ as.map key) (there : d ∈ st.cartridges) : d ∈ (as.foldl step st).cartridges := by
  induction as generalizing st with
  | nil => exact there
  | cons a as ih =>
    exact ih (fun last => other (List.mem_cons_of_mem _ last))
      (one st a d (fun here => other (List.mem_cons.2 (.inl here))) there)

/-- One record's change, by membership in the table. -/
theorem mem_modCartridge {c : Custody} (label : ∀ d, (f d).label = d.label) (custody : ∀ d, (f d).custody = c)
    (there : d ∈ (st.modCartridge l f).cartridges) : d.label = l ∧ d.custody = c ∨ d.label ≠ l ∧ d ∈ st.cartridges := by
  obtain ⟨b, stored, rfl⟩ := List.mem_map.1 there
  by_cases here : b.label = l
  · rw [if_pos here]
    exact .inl ⟨(label b).trans here, custody b⟩
  · rw [if_neg here]
    exact .inr ⟨here, stored⟩

theorem mem_modCartridge_other (other : d.label ≠ l) (there : d ∈ st.cartridges) : d ∈ (st.modCartridge l f).cartridges :=
  List.mem_map.2 ⟨d, there, if_neg other⟩

theorem moveAll_written {c : Custody} (label : ∀ d, (f d).label = d.label) (custody : ∀ d, (f d).custody = c)
    (there : d ∈ (st.moveAll id f status ls).cartridges) :
    (d.label ∈ ls → d.custody = c) ∧ (d.label ∉ ls → d ∈ st.cartridges) := by
  have all := foldl_written (step := fun st l => st.moveItem id l f status) (key := fun l => l)
    (fun st a d there => mem_modCartridge (st := st) (l := a) label custody there) there
  rwa [List.map_id'] at all

theorem moveAll_untouched (other : d.label ∉ ls) (there : d ∈ st.cartridges) :
    d ∈ (st.moveAll id f status ls).cartridges :=
  foldl_untouched (step := fun st l => st.moveItem id l f status) (key := fun l => l)
    (fun st a _ => mem_modCartridge_other (st := st) (l := a)) (by rwa [List.map_id']) there

/-- A manifest with the status of some labels written. -/
def Manifest.setItems (m : Manifest) (status : ItemStatus) (ls : List Text) : Manifest :=
  ls.foldl (fun m l => m.setItem l status) m

theorem Manifest.setItems_id : (m.setItems status ls).id = m.id := 
  foldl_keeps (g := Manifest.id) (step := fun m l => m.setItem l status) (fun _ _ => rfl) ls m

theorem find_modManifest {g : Manifest → Manifest} (same : ∀ m, (g m).id = m.id)
    (found : st.manifests.find? (·.id == id) = some m) :
    (st.modManifest id g).manifests.find? (·.id == id) = some (g m) := by
  have id_ : m.id = id := by simpa using List.find?_some found
  unfold Store.modManifest
  rw [List.find?_map]
  have test : ((fun m : Manifest => m.id == id) ∘ fun m => if m.id = id then g m else m) = fun m => m.id == id := by
    funext m
    by_cases here : m.id = id <;> simp [here, same]
  rw [test, found, Option.map_some, if_pos id_]

theorem find_moveAll (found : st.manifests.find? (·.id == id) = some m) :
    (st.moveAll id f status ls).manifests.find? (·.id == id) = some (m.setItems status ls) := by
  induction ls generalizing st m with
  | nil => exact found
  | cons a ls ih =>
    exact ih (find_modManifest (st := st.modCartridge a f) (g := fun m => m.setItem a status) (fun _ => rfl) found)

theorem setItem_loaded (other : status ≠ .loaded) (m : Manifest) (l : Text) :
    (m.setItem l status).labelsIn .loaded = (m.labelsIn .loaded).filter (· ≠ l) := by
  unfold Manifest.setItem Manifest.labelsIn
  induction m.items with
  | nil => rfl
  | cons i is ih =>
    rw [List.map_cons, List.filter_cons, List.filter_cons]
    by_cases here : i.label = l <;> by_cases loaded : i.status = .loaded <;> simp [here, loaded, other] <;> simpa using ih

/-- The labels left LOADED once some were moved on. -/
theorem setItems_loaded (other : status ≠ .loaded) (m : Manifest) (ls : List Text) :
    (m.setItems status ls).labelsIn .loaded = (m.labelsIn .loaded).filter (· ∉ ls) := by
  induction ls generalizing m with
  | nil => exact (List.filter_eq_self.2 fun _ _ => by simp).symm
  | cons a ls ih =>
    refine (ih (m.setItem a status)).trans ?_
    rw [setItem_loaded other, List.filter_filter]
    refine List.filter_congr fun l _ => ?_
    by_cases here : l = a <;> by_cases later : l ∈ ls <;> simp [here, later]

/-! ### Items moved, each with its entry (R99, R100) -/

/-- Labels moved one after another, each entered in the record. -/
theorem forLabels_move {e : Text → Entry} (label : ∀ l, (e l).label.isSome = true)
    (kept : ∀ l, (e l).result ≠ .rejectedRemoved) (ls : List Text) (st : Store) (r : Handover) :
    forLabels (fun l s => addEntry h (e l) (s.moveItem id l f status)) ls (s.put h (st.withRecord h r) x) =
      s.put h ((st.moveAll id f status ls).withRecord h ((ls.map e).foldl Handover.noting r)) x := by
  unfold forLabels
  induction ls generalizing st r with
  | nil => rfl
  | cons a ls ih =>
    rw [List.foldl_cons, List.map_cons, List.foldl_cons, Store.moveAll_cons, ← ih]
    exact congrArg (ls.foldl _)
      (addEntry_put (s := s) (h := h) (x := x) (r := r) (st := st.moveItem id a f status) (label a) (kept a))

theorem forLabels_taken (m : Manifest) (sd : Side) (ls : List Text) (st : Store) (r : Handover) :
    forLabels (takenBy h m sd) ls (s.put h (st.withRecord h r) x) =
      s.put h ((ls.foldl (Store.goneBy m sd) st).withRecord h ((ls.map (goneEntry sd)).foldl Handover.noting r)) x := by
  rw [goneBy_fold]
  cases sd with
  | outer => exact forLabels_move (e := goneEntry .outer) (fun _ => rfl) (fun _ => nofun) ls st r
  | inner => exact forLabels_move (e := goneEntry .inner) (fun _ => rfl) (fun _ => nofun) ls st r

/-- Items moved with no entry. -/
theorem forLabels_moveItem (ls : List Text) (st : Store) :
    forLabels (fun l s => s.moveItem id l f status) ls (s.put h st x) = s.put h (st.moveAll id f status ls) x := by
  unfold forLabels
  induction ls generalizing st with
  | nil => rfl
  | cons a ls ih => exact ih (st.moveItem id a f status)

/-! ### Rejects removed (R105) -/

theorem foldl_removed (g : Option Side → TrayIdx → Entry) (removed : ∀ o p, (g o p).result = .rejectedRemoved)
    (ps : List TrayIdx) (r : Handover) :
    ps.foldl (fun s p => addEntry h (g s.hatch[h].lastOpened p) s) (s.put h (st.withRecord h r) x) =
      s.put h (st.withRecord h { r with entries := r.entries ++ ps.map (g x.lastOpened) }) x := by
  induction ps generalizing r with
  | nil => simp
  | cons p ps ih =>
    rw [List.foldl_cons, State.put_get, addEntry_removed (removed _ p), ih]
    simp

/-- The record with the rejects that a scan finds gone entered. -/
def Handover.without (r : Handover) (t : Tray) (side : Option Side) : Handover :=
  { r with entries := r.entries ++ removedRejects r.tray t side }

theorem enterRemoved_put : enterRemoved h t (s.put h (st.withRecord h r) x) =
    s.put h (st.withRecord h (r.without t x.lastOpened)) x := by
  have label (p : TrayIdx) : (labelAt r.tray p).map Prod.fst = match r.tray[p].presence with
      | .present l _ => some l
      | _ => none := by
    unfold labelAt
    cases r.tray[p].presence <;> rfl
  have record : (s.put h (st.withRecord h r) x).handover h = some r := Store.withRecord_get
  unfold enterRemoved
  rw [record]
  refine (foldl_removed (fun o p => { label := (labelAt r.tray p).map Prod.fst, result := .rejectedRemoved, side := o })
    (fun _ _ => rfl) _ r).trans ?_
  simp only [label]
  rfl

end Sys2Proof.Machine
end

