-- ==== Sys2Proof/Proofs/ScanEnds.lean ====
section
/-!
PROOFS. The ends of reconcile and unload scans.
-/

namespace Sys2Proof.Machine

variable {s : State} {st : Store} {h : HatchId} {x y : Hatch} {r : Handover} {t : Tray} {p : TrayIdx} {l : Text}
  {m k : Manifest} {id : Nat} {sd : Side} {reads : Vector TrayRead 24} {u : Tray}

/-! ### What a scan's end takes on (R92) -/

theorem scanEnds_none (at_ : s.hatch[h] = x) (scan : x.scan = none) : scanEnds h reads s = s := by
  unfold scanEnds
  rw [at_, scan]

theorem scanEnds_load (at_ : s.hatch[h] = x) (scan : x.scan = some .load) : scanEnds h reads s =
    loadScanEnd h false (scannedTray x.sensors reads) (s.put h s.store { x with scan := none }) := by
  unfold scanEnds
  rw [at_, scan]
  exact congrArg (loadScanEnd h false _) (State.modHatch_of at_ _)

theorem scanEnds_unload (at_ : s.hatch[h] = x) (scan : x.scan = some .unload) : scanEnds h reads s =
    unloadScanEnd h (scannedTray x.sensors reads) (s.put h s.store { x with scan := none }) := by
  unfold scanEnds
  rw [at_, scan]
  exact congrArg (unloadScanEnd h _) (State.modHatch_of at_ _)

theorem scanEnds_resume (at_ : s.hatch[h] = x) (scan : x.scan = some .resume) : scanEnds h reads s =
    resumeHatch h (scannedTray x.sensors reads) (s.put h s.store { x with scan := none }) := by
  unfold scanEnds
  rw [at_, scan]
  exact congrArg (resumeHatch h _) (State.modHatch_of at_ _)

theorem scanEnds_setAside (at_ : s.hatch[h] = x) (scan : x.scan = some .setAside) :
    scanEnds h reads s = s.put h s.store { x with scan := none } := by
  unfold scanEnds
  rw [at_, scan]
  exact State.modHatch_of at_ _

theorem scanEnds_reconcile (at_ : s.hatch[h] = x) (scan : x.scan = some .reconcile) : scanEnds h reads s =
    reconcileScanEnd h (scannedTray x.sensors reads) (s.put h s.store { x with scan := none }) := by
  unfold scanEnds
  rw [at_, scan]
  exact congrArg (reconcileScanEnd h _) (State.modHatch_of at_ _)

theorem reconcileScanEnd_out (out : r.direction = .out) : reconcileScanEnd h t (s.put h (st.withRecord h r) y) =
    outboundScanEnd h t (s.put h (st.withRecord h r) y) := by
  have record : (s.put h (st.withRecord h r) y).handover h = some r := Store.withRecord_get
  unfold reconcileScanEnd
  rw [record]
  dsimp only
  rw [out]

theorem reconcileScanEnd_in (in_ : r.direction = .in_) : reconcileScanEnd h t (s.put h (st.withRecord h r) y) =
    inboundScanEnd h t (s.put h (st.withRecord h r) y) := by
  have record : (s.put h (st.withRecord h r) y).handover h = some r := Store.withRecord_get
  unfold reconcileScanEnd
  rw [record]
  dsimp only
  rw [in_]

/-- A reconcile scan's end, the handover's record at hand. -/
theorem scanEnds_record (at_ : s.hatch[h] = x) (scan : x.scan = some .reconcile) (held : s.store.handover[h] = some r) :
    scanEnds h reads s = reconcileScanEnd h (scannedTray x.sensors reads)
      (s.put h (s.store.withRecord h r) { x with scan := none }) := by
  rw [scanEnds_reconcile at_ scan, Store.withRecord_of held]

/-! ### The receipt at a scan's end (R112) -/

/-- A handover whose manifest stands ends with its receipt written. -/
theorem toReceipt_put (found : st.manifests.find? (·.id == r.manifest) = some m) : ∃ (e : Event) (c : Receipt),
    toReceipt h (s.put h (st.withRecord h r) y) = (post e s).put h
      { st with handover := st.handover.set h none, receipt := st.receipt.set h (some c) }
      { y with
        phase := .receiptPending, unlockDue := none, idle := none, rejectTimer := none, rejectExpired := false } := by
  have ends := toReceipt_of (s := s.put h (st.withRecord h r) y) (h := h) (x := y) (r := r) (m := m) State.put_get
    Store.withRecord_get found rfl rfl
  refine ⟨.receiptReady h r.manifest (receiptOf h s.minute m r).outcome, receiptOf h s.minute m r, ends.trans ?_⟩
  simp [State.put, Store.withRecord, State.setStore, State.setHatch, post, State.setReports]

/-! ### An outbound reconcile (R99) -/

/-- The status of an item gone by a side. -/
def goneStatus : Side → ItemStatus
  | .outer => .departed
  | .inner => .left

theorem goneStatus_ne (sd : Side) : goneStatus sd ≠ .loaded := by cases sd <;> nofun

theorem find_goneBy {ls : List Text} (found : st.manifests.find? (·.id == m.id) = some m) :
    (ls.foldl (Store.goneBy m sd) st).manifests.find? (·.id == m.id) = some (m.setItems (goneStatus sd) ls) := by
  rw [goneBy_fold]
  cases sd <;> exact find_moveAll found

/-- Step 1 of R99: the items gone are settled by one side, the last opened where one stands. -/
theorem settleGone_put (gone : List Text) (hg : gone = goneFrom t (m.labelsIn .loaded)) :
    ∃ (sd : Side) (n : Nat), (∀ sd', y.lastOpened = some sd' → sd = sd' ∧ n = s.choice) ∧
      settleGone h m t (s.put h (st.withRecord h r) y) = { s with choice := n }.put h
        ((gone.foldl (Store.goneBy m sd) st).withRecord h ((gone.map (goneEntry sd)).foldl Handover.noting r)) y := by
  unfold settleGone
  rw [← hg]
  cases gone with
  | nil => exact ⟨y.lastOpened.getD .outer, s.choice, fun sd' last => by rw [last]; exact ⟨rfl, rfl⟩, rfl⟩
  | cons a gone =>
    cases last : y.lastOpened with
    | some sd =>
      have side : goneSide h (s.put h (st.withRecord h r) y) = (sd, s.put h (st.withRecord h r) y) := by
        unfold goneSide
        rw [State.put_get, last]
      refine ⟨sd, s.choice, fun sd' same => ⟨Option.some.inj same, rfl⟩, ?_⟩
      dsimp only
      rw [side]
      exact forLabels_taken m sd _ st r
    | none =>
      have side : ∃ sd, goneSide h (s.put h (st.withRecord h r) y) =
          (sd, { s with choice := s.choice + 1 }.put h (st.withRecord h r) y) := by
        unfold goneSide
        rw [State.put_get, last]
        exact ⟨_, rfl⟩
      obtain ⟨sd, side⟩ := side
      refine ⟨sd, s.choice + 1, nofun, ?_⟩
      dsimp only
      rw [side]
      exact forLabels_taken (s := { s with choice := s.choice + 1 }) m sd _ st r

/-- The items still LOADED are those on the tray. -/
theorem stillLoaded (status : ItemStatus) (other : status ≠ .loaded) (m : Manifest) (t : Tray) :
    (m.setItems status (goneFrom t (m.labelsIn .loaded))).labelsIn .loaded =
      (m.labelsIn .loaded).filter fun l => l ∈ labelsOn t := by
  rw [setItems_loaded other, goneFrom_eq]
  refine List.filter_congr fun l listed => ?_
  simp [listed]

theorem outboundVerdict_still (listed : k.labelsIn .loaded = (m.labelsIn .loaded).filter fun l => l ∈ labelsOn t) :
    outboundVerdict k t = outboundVerdict m t := by
  funext p
  refine verdict_ext ?_ ?_
  · rw [outboundVerdict_none, outboundVerdict_none]
  · rw [outboundVerdict_accepted, outboundVerdict_accepted, listed]
    simp only [List.mem_filter, decide_eq_true_eq]
    constructor
    · rintro ⟨l, n, there, ⟨loaded, -⟩, first⟩
      exact ⟨l, n, there, loaded, first⟩
    · rintro ⟨l, n, there, loaded, first⟩
      exact ⟨l, n, there, ⟨loaded, mem_labelsOn.2 ⟨p, n, there⟩⟩, first⟩

/-- The record as an outbound reconcile leaves it, before its rejects are judged. -/
def Handover.settledBy (r : Handover) (t : Tray) (side : Option Side) (gone : List Text) (sd : Side) : Handover :=
  (gone.map (goneEntry sd)).foldl Handover.noting (r.without t side)

/-- The end of an outbound reconcile (R99, R105). -/
theorem outboundScanEnd_put (gone : List Text) (hg : gone = goneFrom t (m.labelsIn .loaded))
    (hu : u = withVerdicts t (outboundVerdict m t)) (manifest : y.manifest = some m.id)
    (found : st.manifests.find? (·.id == m.id) = some m) : ∃ (sd : Side) (n : Nat) (k : Manifest) (v : State),
      (∀ sd', y.lastOpened = some sd' → sd = sd' ∧ n = s.choice) ∧ k.id = m.id ∧
      (k.labelsIn .loaded = (m.labelsIn .loaded).filter fun l => l ∈ labelsOn t) ∧
      v = { s with choice := n }.put h ((gone.foldl (Store.goneBy m sd) st).withRecord h
        { r.settledBy t y.lastOpened gone sd with tray := u }) { y with tray := u } ∧
      outboundScanEnd h t (s.put h (st.withRecord h r) y) =
        if hasVerdict u .rejected = true then rejectsRemain h v else finishOutbound h k u v := by
  obtain ⟨sd, n, side, settled⟩ := settleGone_put (s := s) (h := h) (st := st) (y := y)
    (r := r.without t y.lastOpened) gone hg
  have listed := stillLoaded (goneStatus sd) (goneStatus_ne sd) m t
  rw [← hg] at listed
  refine ⟨sd, n, m.setItems (goneStatus sd) gone, _, side, Manifest.setItems_id, listed, rfl, ?_⟩
  unfold outboundScanEnd
  dsimp only
  have active := activeManifest_put (s := s) (h := h) (st := st.withRecord h (r.without t y.lastOpened)) manifest
  have active' := activeManifest_put (s := { s with choice := n }) (h := h) (st := (gone.foldl (Store.goneBy m sd)
    st).withRecord h ((gone.map (goneEntry sd)).foldl Handover.noting (r.without t y.lastOpened))) manifest
  rw [enterRemoved_put, active.trans found]
  dsimp only
  rw [settled, active'.trans (find_goneBy found), Option.getD_some, outboundVerdict_still listed, ← hu, setTray_put,
    saveTray_put]
  rfl

/-- A hatch whose reconcile scan found no reject, its tray to be emptied. -/
def Hatch.cleared (y : Hatch) (t : Tray) : Hatch := { y with rejectTimer := none, rejectExpired := false, tray := t }

/-- Step 4 of R99 with items still on the tray: LEFT, and to be unloaded. -/
theorem finishOutbound_left (id : k.id = m.id) (hu : u = withVerdicts t fun _ => .none)
    (some_ : k.labelsIn .loaded ≠ []) : finishOutbound h k t (s.put h (st.withRecord h r) y) =
      unlock h .inner (toPhase h .unload (s.put h
        (((k.labelsIn .loaded).foldl (Store.goneBy m .inner) st).withRecord h
          { ((k.labelsIn .loaded).map (goneEntry .inner)).foldl Handover.noting r with
            phaseClass := .outUnload, tray := u }) (y.cleared u))) := by
  have same : Store.goneBy k .inner = Store.goneBy m .inner := by
    funext st l
    unfold Store.goneBy
    rw [id]
  unfold finishOutbound rejectsGone
  dsimp only
  rw [State.put_modHatch, forLabels_taken, ← hu, setTray_put, if_neg (by rw [List.isEmpty_iff]; exact some_),
    setClass_put, saveTray_put, same]
  rfl

/-- Step 4 of R99 with nothing left: the handover ends. -/
theorem finishOutbound_none (hu : u = withVerdicts t fun _ => .none) (none_ : k.labelsIn .loaded = []) :
    finishOutbound h k t (s.put h (st.withRecord h r) y) =
      toReceipt h (s.put h (st.withRecord h { r with tray := u }) (y.cleared u)) := by
  unfold finishOutbound rejectsGone
  dsimp only
  rw [State.put_modHatch, forLabels_taken, ← hu, setTray_put, saveTray_put, none_, if_pos List.isEmpty_nil]
  rfl

/-! ### Rejects on the tray (R105, R106) -/

theorem post_put (e : Event) : post e (s.put h st y) = (post e s).put h st y := rfl

theorem rejectsRemain_stuck (phase : y.phase = .heldStuck) : rejectsRemain h (s.put h st y) = s.put h st y := by
  unfold rejectsRemain
  rw [State.put_get, phase]

theorem rejectsRemain_waits (phase : y.phase = .rejectClear) (runs : y.rejectExpired = false) :
    rejectsRemain h (s.put h st y) = unlock h .outer (s.put h st y) := by
  unfold rejectsRemain
  rw [State.put_get, phase]
  exact if_neg (by rw [runs]; exact Bool.false_ne_true)

theorem rejectsRemain_expired (phase : y.phase = .rejectClear) (expired : y.rejectExpired = true) :
    rejectsRemain h (s.put h st y) = post (.hatchStuck h y.manifest (verdictPositions y.tray .rejected)) (s.put h st
      { y with
        phase := .heldStuck, outer := engage y.outer, unlockDue := none, idle := none, rejectTimer := none
        rejectExpired := false }) := by
  have run : rejectsRemain h (s.put h st y) = toStuck h (s.put h st y) := by
    unfold rejectsRemain
    rw [State.put_get, phase]
    exact if_pos expired
  rw [run]
  unfold toStuck
  dsimp only
  have shut : (s.put h st y).modShutter h .outer engage = s.put h st { y with outer := engage y.outer } :=
    State.put_modHatch _
  rw [shut, State.put_get, post_put, toPhase_put, State.put_modHatch]
  rfl

theorem rejectsRemain_enters (stuck : y.phase ≠ .heldStuck) (clear : y.phase ≠ .rejectClear) :
    rejectsRemain h (s.put h st y) = unlock h .outer (s.put h st { y with
      phase := .rejectClear, unlockDue := none, idle := none, rejectTimer := some st.hatch[h].rejectTimeout
      rejectExpired := false }) := by
  have run : rejectsRemain h (s.put h st y) = toRejectClear h (s.put h st y) := by
    unfold rejectsRemain
    rw [State.put_get]
    cases phase : y.phase <;> first | exact absurd phase stuck | exact absurd phase clear | rfl
  rw [run]
  unfold toRejectClear
  dsimp only
  rw [toPhase_put, State.put_modHatch]
  rfl

/-! ### An inbound reconcile (R104) -/

theorem inboundScanEnd_reject (manifest : y.manifest = some m.id) (found : s.manifest? m.id = some m)
    (hu : u = withVerdicts t fun p => if inboundClass s m t p = some .reject then .rejected else .none)
    (reject : ∃ p, inboundClass s m t p = some .reject) :
    inboundScanEnd h t (s.put h (s.store.withRecord h r) y) =
      rejectsRemain h (s.put h (s.store.withRecord h { r.without t y.lastOpened with tray := u }) { y with tray := u }) := by
  have active := activeManifest_put (s := s) (h := h) (st := s.store.withRecord h (r.without t y.lastOpened)) manifest
  have class_ : inboundClass (s.put h (s.store.withRecord h (r.without t y.lastOpened)) y) m t = inboundClass s m t := rfl
  have any : ((List.finRange 24).any fun p => inboundClass s m t p == some .reject) = true := by
    obtain ⟨p, class_⟩ := reject
    exact List.any_eq_true.2 ⟨p, List.mem_finRange p, beq_iff_eq.2 class_⟩
  unfold inboundScanEnd
  dsimp only
  rw [enterRemoved_put, active.trans found]
  dsimp only
  rw [class_, if_pos any]
  simp only [beq_iff_eq, ← hu]
  rw [setTray_put, saveTray_put]

theorem modManifest_put (id : Nat) (g : Manifest → Manifest) : (s.put h (st.withRecord h r) y).modManifest id g =
    s.put h ((st.modManifest id g).withRecord h r) y := rfl

/-- A cartridge taken in, in the store. -/
def Store.receiving (m : Manifest) (st : Store) (a : Text × TrayPos) : Store :=
  if a.2.cross then st.modCartridge a.1 (Cartridge.receive m.id true)
  else st.moveItem m.id a.1 (Cartridge.receive m.id false) .received

/-- A cartridge taken in, in the record. -/
def Handover.receiving (r : Handover) (a : Text × TrayPos) : Handover :=
  if a.2.cross then r.noting { label := some a.1, result := .cross } else r

theorem foldl_receiveOne (as : List (Text × TrayPos)) (st : Store) (r : Handover) :
    as.foldl (fun s a => receiveOne h m a s) (s.put h (st.withRecord h r) y) =
      s.put h ((as.foldl (Store.receiving m) st).withRecord h (as.foldl Handover.receiving r)) y := by
  induction as generalizing st r with
  | nil => rfl
  | cons a as ih =>
    rw [List.foldl_cons, List.foldl_cons, List.foldl_cons, ← ih]
    refine congrArg (as.foldl _) ?_
    unfold receiveOne Store.receiving Handover.receiving
    by_cases cross : a.2.cross = true
    · rw [if_pos cross, if_pos cross, if_pos cross]
      exact addEntry_put (s := s) (r := r) (st := st.modCartridge a.1 _) rfl nofun
    · rw [if_neg cross, if_neg cross, if_neg cross]
      rfl

/-- An inbound reconcile with no reject: the cartridges taken in, the items that did not come back marked. -/
theorem inboundScanEnd_free (manifest : y.manifest = some m.id) (found : s.manifest? m.id = some m)
    (hu : u = acceptedTray s m t) (free : ∀ p, inboundClass s m t p ≠ some .reject) {v : State}
    (hv : v = s.put h ((((acceptedLabels u).foldl (Store.receiving m) s.store).modManifest m.id Manifest.expire).withRecord h
      { (acceptedLabels u).foldl Handover.receiving (r.without t y.lastOpened) with tray := u }) (y.cleared u)) :
    inboundScanEnd h t (s.put h (s.store.withRecord h r) y) =
      if hasVerdict u .accepted = true then toConditioning h v else toReceipt h v := by
  have active := activeManifest_put (s := s) (h := h) (st := s.store.withRecord h (r.without t y.lastOpened)) manifest
  have class_ : inboundClass (s.put h (s.store.withRecord h (r.without t y.lastOpened)) y) m t = inboundClass s m t := rfl
  have tray : acceptedTray (s.put h (s.store.withRecord h (r.without t y.lastOpened)) y) m t = u := hu.symm
  have any : ¬((List.finRange 24).any fun p => inboundClass s m t p == some .reject) = true := by
    intro some_
    obtain ⟨p, -, class_⟩ := List.any_eq_true.1 some_
    exact free p (beq_iff_eq.1 class_)
  unfold inboundScanEnd
  dsimp only
  rw [enterRemoved_put, active.trans found]
  dsimp only
  rw [class_, if_neg any, tray]
  have run : saveTray h (setTray h u (((acceptedLabels u).foldl (fun s a => receiveOne h m a s) (rejectsGone h
      (s.put h (s.store.withRecord h (r.without t y.lastOpened)) y))).modManifest m.id Manifest.expire)) = v := by
    unfold rejectsGone
    rw [State.put_modHatch, foldl_receiveOne, modManifest_put, setTray_put, saveTray_put, hv]
    rfl
  rw [run]

theorem toConditioning_put : toConditioning h (s.put h (st.withRecord h r) y) =
    s.put h (st.withRecord h { r with phaseClass := .inCondition, risk := false }) { y with
      phase := .conditioning, unlockDue := none, idle := none, purge := .unknown, condensation := .unknown
      purgeOn := false, heaterOn := false, limitCount := 0, limitPosted := false, risk := false } := by
  unfold toConditioning
  dsimp only
  rw [modHandover_put, toPhase_put, State.put_modHatch]

/-! ### An unload scan (R100) -/

theorem unloadGone_put (gone : List Text) (hg : gone = goneFrom t (m.labelsIn .loaded)) (manifest : y.manifest = some m.id)
    (found : st.manifests.find? (·.id == m.id) = some m) : unloadGone h t (s.put h (st.withRecord h r) y) =
      s.put h ((gone.foldl (Store.backToPicked m) st).withRecord h
        ((gone.map (goneEntry .inner)).foldl Handover.noting r)) y := by
  have active := activeManifest_put (s := s) (h := h) (st := st.withRecord h r) manifest
  unfold unloadGone
  rw [active.trans found, hg]
  exact forLabels_move (e := goneEntry .inner) (fun _ => rfl) (fun _ => nofun) _ st r

theorem toUnload_empty (empty : ∀ p : TrayIdx, t[p].presence = .empty) : toUnload h t s = toReceipt h s :=
  if_pos (trayEmpty_iff.2 empty)

theorem toUnload_left (left : ∃ p : TrayIdx, t[p].presence ≠ .empty) :
    toUnload h t s = unlock h .inner (toPhase h .unload s) := by
  refine if_neg fun empty => ?_
  obtain ⟨p, there⟩ := left
  exact there (trayEmpty_iff.1 empty p)

theorem unloadScanEnd_plain (class_ : r.phaseClass ≠ .abortUnload) : unloadScanEnd h t (s.put h (st.withRecord h r) y) =
    toUnload h t (s.put h (st.withRecord h { r with tray := t }) { y with tray := t }) := by
  have record : (s.put h (st.withRecord h r) y).handover h = some r := Store.withRecord_get
  have aborting : (s.put h (st.withRecord h r) y).aborting h = false := by
    rw [State.aborting, record]
    exact beq_eq_false_iff_ne.2 class_
  unfold unloadScanEnd
  dsimp only
  rw [aborting, if_neg Bool.false_ne_true, setTray_put, saveTray_put]

theorem unloadScanEnd_abort (gone : List Text) (hg : gone = goneFrom t (m.labelsIn .loaded))
    (manifest : y.manifest = some m.id) (found : st.manifests.find? (·.id == m.id) = some m)
    (class_ : r.phaseClass = .abortUnload) : unloadScanEnd h t (s.put h (st.withRecord h r) y) =
      toUnload h t (s.put h ((gone.foldl (Store.backToPicked m) st).withRecord h
        { (gone.map (goneEntry .inner)).foldl Handover.noting r with tray := t }) { y with tray := t }) := by
  have record : (s.put h (st.withRecord h r) y).handover h = some r := Store.withRecord_get
  have aborting : (s.put h (st.withRecord h r) y).aborting h = true := by
    rw [State.aborting, record]
    exact beq_iff_eq.2 class_
  unfold unloadScanEnd
  dsimp only
  rw [aborting, if_pos rfl, unloadGone_put gone hg manifest found, setTray_put, saveTray_put]

end Sys2Proof.Machine
end

