-- ==== Sys2Proof/Proofs/LoadScans.lean ====
section
/-!
PROOFS. The end of a load scan, and cartridges taken in.
-/

namespace Sys2Proof.Machine

variable {s : State} {st : Store} {h : HatchId} {x y : Hatch} {r : Handover} {t u : Tray} {p : TrayIdx} {l : Text}
  {m : Manifest} {sd : Side}

/-! ### A load scan (R95, R96) -/

theorem unlock_put (sd : Side) : ∃ y', unlock h sd (s.put h st y) = s.put h st y' ∧ y'.phase = y.phase ∧ y'.tray = y.tray ∧
    y'.scan = y.scan ∧ y'.manifest = y.manifest := by
  have keeps (f : Shutter) (o : Option Side) : ({ y.setShutter sd f with unlockDue := o } : Hatch).phase = y.phase ∧
      ({ y.setShutter sd f with unlockDue := o } : Hatch).tray = y.tray ∧
      ({ y.setShutter sd f with unlockDue := o } : Hatch).scan = y.scan ∧
      ({ y.setShutter sd f with unlockDue := o } : Hatch).manifest = y.manifest := by
    cases sd <;> exact ⟨rfl, rfl, rfl, rfl⟩
  rcases unlock_cases h sd (s.put h st y) with ⟨-, e⟩ | ⟨-, -, e⟩ | ⟨-, -, e⟩
  · exact ⟨y, e, rfl, rfl, rfl, rfl⟩
  · rw [State.put_get, State.put_setHatch] at e
    exact ⟨_, e, keeps _ _⟩
  · rw [State.put_get, State.put_setHatch] at e
    exact ⟨_, e, rfl, rfl, rfl, rfl⟩

/-- A store whose record of one hatch may have changed, and nothing else. -/
def Store.recordOnly (st st' : Store) (h : HatchId) : Prop := ∃ o, st' = { st with handover := st.handover.set h o }

theorem setClass_any (c : PhaseClass) : ∃ st', setClass h c (s.put h st y) = s.put h st' y ∧ st.recordOnly st' h :=
  ⟨_, rfl, _, rfl⟩

theorem saveTray_any : ∃ st', saveTray h (s.put h st y) = s.put h st' y ∧ st.recordOnly st' h := ⟨_, rfl, _, rfl⟩

/-- A manifest let go, its hatch's record erased (R84, R96). -/
def Store.letsGo (st : Store) (h : HatchId) (id : Nat) : Store :=
  { st.modManifest id fun m => { m with active := false } with handover := st.handover.set h none }

theorem letGo_put {id : Nat} (manifest : y.manifest = some id) :
    letGo h (s.put h st y) = s.put h (st.letsGo h id) (y.toIdle st.hatch[h].standbyTime) :=
  (letGo_of State.put_get manifest).trans (State.put_setHatch (s := s) (h := h) (x := y) (st := st.letsGo h id) _)

/-- The phase after the verdicts of a load scan. -/
def Tray.loadPhase (u : Tray) (resumed : Bool) : Phase :=
  if resumed && !hasVerdict u .accepted then .idle
  else if hasVerdict u .rejected then .loadReject
  else if hasVerdict u .accepted then .awaitCourier
  else .idle

/-- The manifest let go: no record, and it is not ACTIVE any more. -/
def Store.letGone (st : Store) (h : HatchId) (id : Nat) : Prop :=
  st.handover[h] = none ∧ ∀ n ∈ st.manifests, n.id = id → n.active = false

theorem letGone_of (st : Store) (h : HatchId) (id : Nat) : (st.letsGo h id).letGone h id := by
  refine ⟨by simp [Store.letsGo], fun n there named => ?_⟩
  obtain ⟨k, -, rfl⟩ := List.mem_map.1 there
  by_cases here : k.id = id
  · rw [if_pos here]
  · rw [if_neg here] at named
    exact absurd named here

theorem afterLoad_put {id : Nat} (resumed : Bool) (manifest : y.manifest = some id) : ∃ st' y',
    afterLoad h resumed u (s.put h st y) = s.put h st' y' ∧ y'.tray = y.tray ∧ y'.scan = y.scan ∧
      y'.phase = u.loadPhase resumed ∧ st'.cartridges = st.cartridges ∧
      (u.loadPhase resumed = .idle → st'.letGone h id ∧ y'.manifest = none) := by
  have gone : letGo h (s.put h st y) = _ := letGo_put manifest
  have lets := letGone_of st h id
  unfold afterLoad Tray.loadPhase
  by_cases none_ : (resumed && !hasVerdict u .accepted) = true
  · rw [if_pos none_, if_pos none_, gone]
    exact ⟨_, _, rfl, rfl, rfl, rfl, rfl, fun _ => ⟨lets, rfl⟩⟩
  · rw [if_neg none_, if_neg none_]
    by_cases rejected : hasVerdict u .rejected = true
    · rw [if_pos rejected, if_pos rejected]
      obtain ⟨st', class_, o, only⟩ := setClass_any (s := s) (h := h) (st := st) (y := y) .load
      rw [class_, toPhase_put]
      obtain ⟨y', e, phase, tray, scan, -⟩ := unlock_put (s := s) (h := h) (st := st')
        (y := { y with phase := .loadReject, unlockDue := none, idle := none }) .inner
      exact ⟨st', y', e, tray, scan, phase, by rw [only], nofun⟩
    · rw [if_neg rejected, if_neg rejected]
      by_cases accepted : hasVerdict u .accepted = true
      · rw [if_pos accepted, if_pos accepted]
        obtain ⟨st', class_, o, only⟩ := setClass_any (s := s) (h := h) (st := st) (y := y) .wait
        rw [class_, toPhase_put]
        exact ⟨st', _, rfl, rfl, rfl, rfl, by rw [only], nofun⟩
      · rw [if_neg accepted, if_neg accepted, gone]
        exact ⟨_, _, rfl, rfl, rfl, rfl, rfl, fun _ => ⟨lets, rfl⟩⟩

/-- The end of a load scan (R95, R96), or of a resume scan taken as one (R117). -/
theorem loadScanEnd_put (resumed : Bool) (manifest : y.manifest = some m.id) (found : s.manifest? m.id = some m)
    (hu : u = withVerdicts t (loadVerdict s m t)) : ∃ st' y',
      loadScanEnd h resumed t (s.put h s.store y) = s.put h st' y' ∧ y'.tray = u ∧ y'.scan = y.scan ∧
      y'.phase = u.loadPhase resumed ∧
      st'.cartridges = ((s.store.moveAll m.id (·.enter (.inHatchOut m.id)) .loaded ((acceptedLabels u).map Prod.fst)).moveAll
        m.id (·.enter (.picked m.id)) .picked (goneFrom u (m.labelsIn .loaded))).cartridges ∧
      (u.loadPhase resumed = .idle → st'.letGone h m.id ∧ y'.manifest = none) := by
  have active := activeManifest_put (s := s) (h := h) (st := s.store) manifest
  have verdict : loadVerdict (s.put h s.store y) m t = loadVerdict s m t := rfl
  unfold loadScanEnd
  rw [active.trans found]
  dsimp only
  rw [verdict, ← hu, forLabels_moveItem, forLabels_moveItem, setTray_put]
  obtain ⟨st₁, saves, o, only⟩ := saveTray_any (s := s) (h := h) (y := { y with tray := u })
    (st := (s.store.moveAll m.id (·.enter (.inHatchOut m.id)) .loaded ((acceptedLabels u).map Prod.fst)).moveAll
        m.id (·.enter (.picked m.id)) .picked (goneFrom u (m.labelsIn .loaded)))
  rw [saves]
  obtain ⟨st', y', e, tray, scan, phase, cartridges, idle⟩ := afterLoad_put (s := s) (h := h) (st := st₁) (u := u)
    (y := { y with tray := u }) resumed manifest
  exact ⟨st', y', e, tray, scan, phase, by rw [cartridges, only], idle⟩

/-! ### Cartridges taken in (R104) -/

theorem receiving_written {as : List (Text × TrayPos)} {d : Cartridge}
    (there : d ∈ (as.foldl (Store.receiving m) st).cartridges) :
    (d.label ∈ as.map Prod.fst → d.custody = .inHatchIn m.id) ∧ (d.label ∉ as.map Prod.fst → d ∈ st.cartridges) := by
  refine foldl_written (key := Prod.fst) (fun st a d there => ?_) there
  refine mem_modCartridge (st := st) (l := a.1) (f := Cartridge.receive m.id a.2.cross) (fun _ => rfl) (fun _ => rfl) ?_
  unfold Store.receiving at there
  cases cross : a.2.cross <;> rw [cross] at there <;> exact there

/-- An entry of a reject removed stays whatever is taken in after it. -/
theorem mem_receiving_entries {as : List (Text × TrayPos)} {e : Entry} (removed : e.result = .rejectedRemoved)
    (there : e ∈ r.entries) : e ∈ (as.foldl Handover.receiving r).entries := by
  induction as generalizing r with
  | nil => exact there
  | cons a as ih =>
    refine ih (r := r.receiving a) ?_
    unfold Handover.receiving
    split
    · unfold Handover.noting
      dsimp only
      split
      · exact List.mem_map.2 ⟨e, there, if_neg fun ⟨_, other⟩ => other removed⟩
      · exact List.mem_append_left _ there
    · exact there

end Sys2Proof.Machine
end

