-- ==== Sys2Proof/Proofs/Resumes.lean ====
section
/-!
PROOFS. What a resume scan finds, and the cartridges found nowhere.
-/

namespace Sys2Proof.Machine

variable {s : State} {st : Store} {h : HatchId} {x y : Hatch} {r : Handover} {t u held : Tray} {p : TrayIdx} {l : Text}
  {m : Manifest} {sd : Side} {c : PhaseClass} {mark : Bool}

/-! ### What a resume scan finds (R117) -/

/-- The label of an ACCEPTED position, with the position. -/
def TrayPos.acceptedLabel (a : TrayPos) : Option (Text × TrayPos) :=
  match a.verdict, a.presence with
  | .accepted, .present l _ => some (l, a)
  | _, _ => none

theorem acceptedLabel_eq_some {a : TrayPos} {b : Text × TrayPos} : a.acceptedLabel = some b ↔
    ∃ n, a.verdict = .accepted ∧ a.presence = .present b.1 n ∧ b.2 = a := by
  obtain ⟨l, b⟩ := b
  unfold TrayPos.acceptedLabel
  cases verdict : a.verdict <;> cases there : a.presence <;> simp [eq_comm]

theorem toList_positions (t : Tray) : t.toList = (List.finRange 24).map fun p => t[p] :=
  List.ext_getElem (by simp) fun i _ _ => by simp

theorem acceptedLabels_eq (t : Tray) : acceptedLabels t = t.toList.filterMap TrayPos.acceptedLabel := by
  rw [toList_positions, List.filterMap_map]
  unfold acceptedLabels
  refine List.filterMap_congr fun p _ => ?_
  simp only [labelAt, Function.comp_apply, TrayPos.acceptedLabel]
  cases t[p].verdict <;> cases t[p].presence <;> rfl

theorem lostFrom_eq (held t : Tray) : lostFrom held t = (acceptedLabels held).filter fun a => a.1 ∉ labelsOn t := by
  rw [acceptedLabels_eq, List.filter_filterMap]
  unfold lostFrom
  refine List.filterMap_congr fun a _ => ?_
  unfold TrayPos.acceptedLabel
  cases a.verdict <;> cases a.presence <;> simp [Option.filter]

theorem mem_lostFrom {b : Text × TrayPos} :
    b ∈ lostFrom held t ↔ (∃ p : TrayIdx, held[p].acceptedLabel = some b) ∧ b.1 ∉ labelsOn t := by
  rw [lostFrom_eq, acceptedLabels_eq, List.mem_filter, List.mem_filterMap, decide_eq_true_eq]
  simp only [mem_tray, exists_exists_eq_and]

/-- The remembered tray with the cartridges found nowhere taken from it. -/
def heldKept (held t : Tray) : Tray := held.map fun p => if p ∈ (lostFrom held t).map Prod.snd then {} else p

theorem mem_lost_positions {a : TrayPos} (there : ∃ p : TrayIdx, held[p] = a) : a ∈ (lostFrom held t).map Prod.snd ↔
    ∃ l, a.acceptedLabel = some (l, a) ∧ l ∉ labelsOn t := by
  rw [List.mem_map]
  constructor
  · rintro ⟨⟨l, b⟩, lost, rfl⟩
    obtain ⟨⟨p, label⟩, gone⟩ := mem_lostFrom.1 lost
    obtain ⟨n, -, -, same⟩ := acceptedLabel_eq_some.1 label
    exact ⟨l, by rw [← same] at label; exact label, gone⟩
  · rintro ⟨l, label, gone⟩
    obtain ⟨p, rfl⟩ := there
    exact ⟨_, mem_lostFrom.2 ⟨⟨p, label⟩, gone⟩, rfl⟩

theorem acceptedLabels_kept (held t : Tray) :
    acceptedLabels (heldKept held t) = (acceptedLabels held).filter fun a => a.1 ∈ labelsOn t := by
  rw [acceptedLabels_eq, acceptedLabels_eq, List.filter_filterMap]
  unfold heldKept
  rw [Vector.toList_map, List.filterMap_map]
  refine List.filterMap_congr fun a there => ?_
  have lost := mem_lost_positions (t := t) (mem_tray.1 there)
  cases label : a.acceptedLabel with
  | none =>
    rw [Function.comp_apply, if_neg (fun gone => ?_), label]
    · rfl
    · obtain ⟨l, some_, -⟩ := lost.1 gone
      rw [label] at some_
      cases some_
  | some b =>
    obtain ⟨n, -, -, same⟩ := acceptedLabel_eq_some.1 label
    have pair : b = (b.1, a) := by rw [← same]
    by_cases found : b.1 ∈ labelsOn t
    · rw [Function.comp_apply, if_neg (fun gone => ?_), label]
      · simp [Option.filter, found]
      · obtain ⟨l, some_, missing⟩ := lost.1 gone
        rw [label, Option.some.injEq] at some_
        rw [some_] at found
        exact missing found
    · rw [Function.comp_apply, if_pos (lost.2 ⟨b.1, by rw [label, ← pair], found⟩)]
      simp [Option.filter, found, TrayPos.acceptedLabel]

theorem lostFrom_kept (held t : Tray) : lostFrom (heldKept held t) t = [] := by
  rw [lostFrom_eq, acceptedLabels_kept, List.filter_filter]
  exact List.filter_eq_nil_iff.2 fun a _ => by simp

theorem reaccept_kept (held t : Tray) : reaccept (heldKept held t) t = reaccept held t := by
  unfold reaccept
  refine congrArg Vector.ofFn (funext fun p => ?_)
  cases label : labelAt t p with
  | none => rfl
  | some b =>
    have found : b.1 ∈ labelsOn t := mem_labelsOn.2 ⟨p, b.2, labelAt_eq_some.1 label⟩
    have same : (acceptedLabels (heldKept held t)).find? (fun a => a.1 == b.1) =
        (acceptedLabels held).find? fun a => a.1 == b.1 := by
      rw [acceptedLabels_kept, List.find?_filter]
      refine congrArg (List.find? · _) (funext fun a => ?_)
      by_cases here : a.1 = b.1
      · simp [here, found]
      · simp [here]
    dsimp only
    rw [same]

theorem reaccept_presence (held t : Tray) (q : TrayIdx) : (reaccept held t)[q].presence = t[q].presence := by
  unfold reaccept
  rw [Fin.getElem_fin, Vector.getElem_ofFn]
  split
  · rfl
  · split
    · rfl
    · split <;> rfl

theorem reaccept_accepted {q : TrayIdx} (plain : t[q].verdict ≠ .accepted) : (reaccept held t)[q].verdict = .accepted ↔
    ∃ (l : Text) (k n : Char) (p : TrayIdx), t[q].presence = .present l k ∧
      (∀ (i : TrayIdx) (j : Char), i < q → t[i].presence ≠ .present l j) ∧ held[p].verdict = .accepted ∧
      held[p].presence = .present l n := by
  unfold reaccept
  rw [Fin.getElem_fin, Vector.getElem_ofFn]
  cases label : labelAt t q with
  | none =>
    simp only [Fin.eta, plain, false_iff]
    rintro ⟨l, k, -, -, there, -⟩
    rw [labelAt_eq_some.2 there] at label
    cases label
  | some b =>
    obtain ⟨l, k⟩ := b
    have there := labelAt_eq_some.1 label
    simp only [there, Presence.present.injEq, ← seenBefore_false]
    cases seen : seenBefore t q l with
    | true =>
      simp only [Fin.eta, if_true, plain, false_iff]
      rintro ⟨_, _, -, -, ⟨rfl, -⟩, first, -⟩
      rw [seen] at first
      cases first
    | false =>
      have listed : (∃ a ∈ acceptedLabels held, a.1 = l) ↔
          ∃ (p : TrayIdx) (n : Char), held[p].verdict = .accepted ∧ held[p].presence = .present l n := by
        rw [← mem_acceptedLabels, List.mem_map]
      cases found : (acceptedLabels held).find? fun a => a.1 == l with
      | some a =>
        obtain ⟨p, n, accepted, here⟩ := listed.1 ⟨a, List.mem_of_find?_eq_some found, by simpa using List.find?_some found⟩
        simp only [Fin.eta, Bool.false_eq_true, if_false, true_iff]
        exact ⟨l, k, n, p, ⟨rfl, rfl⟩, seen, accepted, here⟩
      | none =>
        simp only [Fin.eta, Bool.false_eq_true, if_false, plain, false_iff]
        rintro ⟨_, _, n, p, ⟨rfl, -⟩, -, accepted, here⟩
        obtain ⟨a, there, same⟩ := listed.2 ⟨p, n, accepted, here⟩
        exact absurd (beq_iff_eq.2 same) (List.find?_eq_none.1 found a there)

/-! ### Cartridges found nowhere (R83, R117, R121) -/

/-- A hatch that has left HELD-FIRE for the class it remembered. -/
def Hatch.resumed (y : Hatch) : Hatch := { y with heldClass := none, heldTray := none, recovering := false }

theorem resumeHatch_idle (class_ : y.heldClass = none) : resumeHatch h t (s.put h st y) =
    s.put h st ({ y.resumed with tray := t }.toIdle st.hatch[h].standbyTime) := by
  unfold resumeHatch
  simp only [State.put_get, class_, State.put_modHatch, setTray_put]
  exact State.put_modHatch _

theorem resumeHatch_receipt (class_ : y.heldClass = some .receipt) : resumeHatch h t (s.put h st y) =
    s.put h st { y.resumed with tray := t, phase := .receiptPending, unlockDue := none, idle := none } := by
  unfold resumeHatch
  simp only [State.put_get, class_, State.put_modHatch, resumeIn, setTray_put, toPhase_put]
  rfl

/-- A resume scan's end: the cartridges found nowhere dealt with, then the class resumed. -/
theorem resumeHatch_class (class_ : y.heldClass = some c) (other : c ≠ .receipt) (tray : y.heldTray = some held) :
    resumeHatch h t (s.put h (st.withRecord h r) y) = resumeIn h c t (reaccept held t)
      ((lostFrom held t).foldl (fun s a => settleLost h { r with phaseClass := c } y.recovering a s)
        (s.put h (st.withRecord h r) y.resumed)) := by
  have lost : ((acceptedLabels held).filter fun a => !onTray t a.1) = lostFrom held t := by
    rw [lostFrom_eq]
    refine List.filter_congr fun a _ => ?_
    rw [onTray_eq, ← decide_not]
  have record : (s.put h (st.withRecord h r) y.resumed).handover h = some r := Store.withRecord_get
  have run : resumeHatch h t (s.put h (st.withRecord h r) y) = resumeIn h c t (reaccept held t)
      (((acceptedLabels held).filter fun a => !onTray t a.1).foldl
        (fun s a => settleLost h { r with phaseClass := c } y.recovering a s) (s.put h (st.withRecord h r) y.resumed)) := by
    unfold resumeHatch
    dsimp only
    rw [State.put_get, State.put_modHatch, class_, tray, Option.getD_some]
    have record' := record
    unfold Hatch.resumed at record'
    rw [record']
    cases c <;> first | exact absurd rfl other | rfl
  rw [run, lost]

theorem settleLost_stands (none_ : c ≠ .wait ∧ c ≠ .inCondition ∧ c ≠ .inStaff) (a : Text × TrayPos) :
    settleLost h { r with phaseClass := c } false a s = s := by
  obtain ⟨wait, condition, staff⟩ := none_
  unfold settleLost
  cases c <;> first | exact absurd rfl wait | exact absurd rfl condition | exact absurd rfl staff | rfl

theorem settleLost_missing (b : Bool) (missing : b = true ∨ c = .wait ∨ c = .inCondition) (a : Text × TrayPos) :
    settleLost h { r with phaseClass := c } b a s =
      goesMissing h { r with phaseClass := c } (b || decide (c = .inCondition)) a.1 a.2 s := by
  unfold settleLost
  rcases missing with rfl | rfl | rfl
  · rfl
  · cases b <;> rfl
  · cases b <;> rfl

/-- One cartridge found nowhere: MISSING, entered and reported. -/
theorem goesMissing_put {k : Handover} (direction : k.direction = r.direction) (id : k.manifest = r.manifest)
    (a : Text × TrayPos) (r' : Handover) : goesMissing h k mark a.1 a.2 (s.put h (st.withRecord h r') y) =
      (post (.cartridgeMissing h a.1) s).put h
        ((st.losing r a).withRecord h (r'.noting (missingEntry r.direction mark a))) y := by
  have rest (st : Store) {e : Entry} (label : e.label.isSome = true) (kept : e.result ≠ .rejectedRemoved) :
      post (.cartridgeMissing h a.1) (addEntry h e (s.put h (st.withRecord h r') y)) =
        (post (.cartridgeMissing h a.1) s).put h (st.withRecord h (r'.noting e)) y := by
    rw [addEntry_put label kept]
    rfl
  unfold goesMissing Store.losing missingEntry
  rw [direction, id]
  cases r.direction with
  | out =>
    exact rest (st.moveItem r.manifest a.1 (·.enter .missing) .left)
      (e := { label := some a.1, result := .left, hold := a.2.hold, missing := mark }) rfl nofun
  | in_ =>
    refine rest (st.modCartridge a.1 (·.enter .missing)) (e :=
      { label := some a.1, result := if a.2.cross then .cross else .received, hold := a.2.hold, missing := mark }) rfl ?_
    dsimp only
    split <;> nofun

theorem foldl_goesMissing {k : Handover} (direction : k.direction = r.direction) (id : k.manifest = r.manifest)
    (as : List (Text × TrayPos)) (s : State) (st : Store) (r' : Handover) :
    as.foldl (fun s a => goesMissing h k mark a.1 a.2 s) (s.put h (st.withRecord h r') y) =
      (as.foldl (fun s a => post (.cartridgeMissing h a.1) s) s).put h ((as.foldl (Store.losing r) st).withRecord h
        ((as.map (missingEntry r.direction mark)).foldl Handover.noting r')) y := by
  induction as generalizing s st r' with
  | nil => rfl
  | cons a as ih =>
    rw [List.foldl_cons, goesMissing_put direction id, ih]
    rfl

theorem foldl_post {α : Type} (e : α → Event) (as : List α) (s : State) : as.foldl (fun s a => post (e a) s) s =
    { s with reports := as.foldl (fun q a => enqueue q { stamp := s.minute, event := e a }) s.reports } := by
  induction as generalizing s with
  | nil => rfl
  | cons a as ih => exact ih (post (e a) s)

theorem losing_written {as : List (Text × TrayPos)} {d : Cartridge} (there : d ∈ (as.foldl (Store.losing r) st).cartridges) :
    d.label ∈ as.map Prod.fst → d.custody = .missing := by
  refine (foldl_written (key := Prod.fst) (fun st a d there => ?_) there).1
  refine mem_modCartridge (st := st) (l := a.1) (f := fun c => { c with custody := .missing }) (fun _ => rfl)
    (fun _ => rfl) ?_
  unfold Store.losing at there
  cases direction : r.direction <;> rw [direction] at there <;> exact there

theorem takeHold_setHatch (l : Text) (n : Nat) (s : State) (y : Hatch) :
    takeHold l n (s.setHatch h y) = (takeHold l n s).setHatch h y := by
  have same : (s.setHatch h y).cartridge? l = s.cartridge? l := rfl
  unfold takeHold
  rw [same]
  cases s.cartridge? l with
  | none => rfl
  | some c =>
    dsimp only
    by_cases zero : min n s.store.hold.holdMax = 0
    · refine (if_pos zero).trans ?_
      rw [if_pos zero]
      rfl
    · refine (if_neg zero).trans ?_
      rw [if_neg zero]
      rfl

/-- A hold taken does not touch a hatch's live state. -/
theorem takenToStaff_setHatch (l : Text) (q : TrayPos) (s : State) (y : Hatch) :
    takenToStaff h l q (s.setHatch h y) = (takenToStaff h l q s).setHatch h y := by
  unfold takenToStaff
  rw [takeHold_setHatch]
  rfl

theorem foldl_takenToStaff (as : List (Text × TrayPos)) (s : State) (y : Hatch) :
    as.foldl (fun s a => takenToStaff h a.1 a.2 s) (s.setHatch h y) =
      (as.foldl (fun s a => takenToStaff h a.1 a.2 s) s).setHatch h y := by
  induction as generalizing s with
  | nil => rfl
  | cons a as ih => rw [List.foldl_cons, takenToStaff_setHatch, ih, List.foldl_cons]

end Sys2Proof.Machine
end

