-- ==== Sys2Proof/Proofs/Reconciles.lean ====
section
/-!
PROOFS. Reconcile scans with a reject and with none.
-/

namespace Sys2Proof.Machine

variable {s : State} {st : Store} {h : HatchId} {x y : Hatch} {r : Handover} {t u held : Tray} {p : TrayIdx} {l : Text}
  {m k : Manifest} {sd : Side} {c : PhaseClass} {reads : Vector TrayRead 24} {gone : List Text}

/-! ### A presence sensor (R91, R111) -/

theorem presenceChanges_plain {occupied : Bool} (at_ : s.hatch[h] = x) (other : x.sensors[p] ≠ occupied)
    (idle : x.phase ≠ .idle) (standby : x.phase ≠ .standby) (staff : x.phase ≠ .staffAccess)
    (hy : y = { x with
      sensors := x.sensors.set p occupied
      tray := x.tray.set p { presence := if occupied then .unreadable .notScanned else .empty } }) :
    presenceChanges h p occupied s = s.setHatch h y := by
  unfold presenceChanges presenceReads
  rw [at_, if_neg other, wake_other (by rw [at_]; exact idle) (by rw [at_]; exact standby)]
  dsimp only
  rw [State.modHatch_of at_, State.modHatch_setHatch, State.setHatch_get, if_neg staff, hy]
  cases occupied <;> rfl

theorem presenceChanges_taken {n : Char} (at_ : s.hatch[h] = x) (other : x.sensors[p] ≠ false)
    (staff : x.phase = .staffAccess)
    (there : x.tray[p].presence = .present l n) (accepted : x.tray[p].verdict = .accepted)
    (hy : y = { x with sensors := x.sensors.set p false, tray := x.tray.set p { presence := .empty } }) :
    presenceChanges h p false s =
      staffDone h (saveTray h (takenToStaff h l x.tray[p] (s.setHatch h y))) := by
  unfold presenceChanges presenceReads
  rw [at_, if_neg other, wake_other (by rw [at_, staff]; nofun) (by rw [at_, staff]; nofun)]
  dsimp only
  rw [State.modHatch_of at_, State.modHatch_setHatch, State.setHatch_get, if_pos staff, at_, there, accepted, hy]
  rfl

/-! ### Releases in a written hatch (R88) -/

theorem unlock_put_free (sd : Side) (settings : st.hatch = s.store.hatch) (locked : (y.shutter sd).locked = true)
    (other : (y.shutter (otherSide sd)).secured = true) (free : s.held s.store.hatch[h].zone = false) :
    unlock h sd (s.put h st y) = s.put h st { y.setShutter sd
      (releaseLock s.store.hatch[h] (y.shutter sd)) with unlockDue := none } := by
  have run := unlock_free (s := s.put h st y) (h := h) State.put_get locked other
    (by rw [← settings] at free; exact free)
  rw [run, State.put_setHatch]
  exact congrArg (fun v : Vector HatchSettings 2 => s.put h st { y.setShutter sd
      (releaseLock v[h] (y.shutter sd)) with unlockDue := none }) settings

theorem goneBy_hatch (ls : List Text) (st : Store) : (ls.foldl (Store.goneBy m sd) st).hatch = st.hatch :=
  foldl_keeps (g := Store.hatch) (fun st l => by cases sd <;> rfl) ls st

theorem goneBy_receipt (ls : List Text) (st : Store) : (ls.foldl (Store.goneBy m sd) st).receipt = st.receipt :=
  foldl_keeps (g := Store.receipt) (fun st l => by cases sd <;> rfl) ls st

/-! ### A reconcile scan with a reject (R105) -/

/-- What makes the verdicts of an outbound reconcile (R99 step 2). -/
def OutboundVerdicts (m : Manifest) (t : Tray) (v : TrayIdx → Verdict) : Prop :=
  ∀ p : TrayIdx, (v p = .none ↔ t[p].presence = .empty) ∧
    (v p = .accepted ↔ ∃ (l : Text) (n : Char), t[p].presence = .present l n ∧ l ∈ m.labelsIn .loaded ∧
      ∀ (q : TrayIdx) (k : Char), q < p → t[q].presence ≠ .present l k)

/-- What makes the verdicts of an inbound reconcile with a reject (R104). -/
def InboundVerdicts (s : State) (m : Manifest) (t : Tray) (v : TrayIdx → Verdict) : Prop :=
  ∀ p : TrayIdx, v p ≠ .accepted ∧ (v p = .none ↔ t[p].presence = .empty ∨
    ∃ (l : Text) (c : Cartridge), receivable s m t p l c)

theorem OutboundVerdicts.eq {v : TrayIdx → Verdict} (judged : OutboundVerdicts m t v) : v = outboundVerdict m t := by
  funext p
  exact verdict_ext ((judged p).1.trans (outboundVerdict_none m).symm) ((judged p).2.trans (outboundVerdict_accepted m).symm)

theorem outboundVerdicts (m : Manifest) (t : Tray) : OutboundVerdicts m t (outboundVerdict m t) :=
  fun _ => ⟨outboundVerdict_none m, outboundVerdict_accepted m⟩

theorem InboundVerdicts.eq {v : TrayIdx → Verdict} (judged : InboundVerdicts s m t v) :
    v = fun p => if inboundClass s m t p = some .reject then .rejected else .none := by
  funext p
  obtain ⟨accepted, none_⟩ := judged p
  rw [← inboundClass_free] at none_
  by_cases reject : inboundClass s m t p = some .reject
  · rw [if_pos reject]
    have some_ : v p ≠ .none := fun e => none_.1 e reject
    cases verdict : v p with
    | rejected => rfl
    | none => exact absurd verdict some_
    | accepted => exact absurd verdict accepted
  · rw [if_neg reject]
    exact none_.2 reject

theorem inboundVerdicts (s : State) (m : Manifest) (t : Tray) :
    InboundVerdicts s m t fun p => if inboundClass s m t p = some .reject then .rejected else .none := by
  intro p
  rw [← inboundClass_free]
  by_cases reject : inboundClass s m t p = some .reject <;> simp [reject]

/-- The record and the store that a reconcile scan with a reject leaves. -/
theorem reconcile_rejected (at_ : s.hatch[h] = x) (scan : x.scan = some .reconcile) (manifest : x.manifest = some m.id)
    (found : s.manifest? m.id = some m) (record : s.store.handover[h] = some r) (ht : t = scannedTray x.sensors reads)
    (hg : gone = goneFrom t (m.labelsIn .loaded)) {v : TrayIdx → Verdict} (reject : ∃ p, v p = .rejected)
    (hu : u = withVerdicts t v) (out : r.direction = .out → OutboundVerdicts m t v)
    (in_ : r.direction = .in_ → InboundVerdicts s m t v) : ∃ (sd : Side) (n : Nat) (st : Store),
      (∀ sd', x.lastOpened = some sd' → sd = sd' ∧ n = s.choice) ∧
      (r.direction = .in_ → n = s.choice ∧ st = s.store.withRecord h { r.without t x.lastOpened with tray := u }) ∧
      (r.direction = .out → st = (gone.foldl (Store.goneBy m sd) s.store).withRecord h
        { r.settledBy t x.lastOpened gone sd with tray := u }) ∧
      st.hatch = s.store.hatch ∧ st.receipt = s.store.receipt ∧
      scanEnds h reads s = rejectsRemain h ({ s with choice := n }.put h st { x with scan := none, tray := u }) := by
  have run := scanEnds_record (reads := reads) at_ scan record
  rw [← ht] at run
  cases direction : r.direction with
  | out =>
    have hv := (out direction).eq
    rw [reconcileScanEnd_out direction] at run
    obtain ⟨sd, n, k, w, side, -, -, rfl, ends⟩ := outboundScanEnd_put (s := s) (st := s.store) (h := h) (r := r)
      (y := { x with scan := none }) (u := u) gone hg (by rw [hu, hv]) manifest found
    have rejected : hasVerdict u .rejected = true := by
      obtain ⟨p, judged⟩ := reject
      exact hasVerdict_iff.2 ⟨p, by rw [hu, withVerdicts_get]; exact judged⟩
    rw [if_pos rejected] at ends
    exact ⟨sd, n, _, side, nofun, fun _ => rfl, goneBy_hatch .., goneBy_receipt .., run.trans ends⟩
  | in_ =>
    have hv := (in_ direction).eq
    rw [reconcileScanEnd_in direction] at run
    have some_ : ∃ p, inboundClass s m t p = some .reject := by
      obtain ⟨p, judged⟩ := reject
      refine ⟨p, ?_⟩
      rw [hv] at judged
      by_contra free
      exact absurd ((if_neg free).symm.trans judged) nofun
    have ends := inboundScanEnd_reject (s := s) (h := h) (r := r) (y := { x with scan := none }) manifest found
      (hu.trans (congrArg _ hv)) some_
    refine ⟨x.lastOpened.getD .outer, s.choice, _, fun sd' last => by rw [last]; exact ⟨rfl, rfl⟩, fun _ => ⟨rfl, rfl⟩,
      nofun, rfl, rfl, run.trans ends⟩

/-! ### A reconcile scan with none (R99, R104) -/

/-- Every position of an outbound reconcile's tray is EMPTY or holds an item still LOADED. -/
def allLoaded (m : Manifest) (t : Tray) : Prop :=
  ∀ p : TrayIdx, t[p].presence ≠ .empty → ∃ (l : Text) (n : Char), t[p].presence = .present l n ∧
    l ∈ m.labelsIn .loaded ∧ ∀ (q : TrayIdx) (k : Char), q < p → t[q].presence ≠ .present l k

theorem allLoaded_verdicts (all : allLoaded m t) : hasVerdict (withVerdicts t (outboundVerdict m t)) .rejected = false := by
  rw [hasVerdict_false]
  intro p
  rw [withVerdicts_get]
  by_cases empty : t[p].presence = .empty
  · rw [(outboundVerdict_none m).2 empty]
    nofun
  · rw [(outboundVerdict_accepted m).2 (all p empty)]
    nofun

/-- A tray just scanned stands as it was when its verdicts are taken off. -/
theorem plain_tray {v : TrayIdx → Verdict} (ht : t = scannedTray x.sensors reads) :
    withVerdicts (withVerdicts t v) (fun _ => .none) = t := by
  rw [withVerdicts_withVerdicts]
  refine Vector.ext fun i lt => ?_
  have plain := scannedTray_plain x.sensors reads ⟨i, lt⟩
  rw [← ht] at plain
  have get := withVerdicts_get (t := t) (p := ⟨i, lt⟩) fun _ => .none
  exact get.trans (by rw [plain]; exact plain.symm)

/-- An outbound reconcile with no reject: the items gone settled, and those left still to be dealt with. -/
theorem reconcile_clean (at_ : s.hatch[h] = x) (scan : x.scan = some .reconcile) (manifest : x.manifest = some m.id)
    (found : s.manifest? m.id = some m) (record : s.store.handover[h] = some r) (ht : t = scannedTray x.sensors reads)
    (hg : gone = goneFrom t (m.labelsIn .loaded)) (direction : r.direction = .out) (all : allLoaded m t) :
    ∃ (sd : Side) (n : Nat) (k : Manifest) (u : Tray), (∀ sd', x.lastOpened = some sd' → sd = sd' ∧ n = s.choice) ∧
      k.id = m.id ∧ (k.labelsIn .loaded = (m.labelsIn .loaded).filter fun l => l ∈ labelsOn t) ∧
      t = withVerdicts u (fun _ => .none) ∧ scanEnds h reads s = finishOutbound h k u ({ s with choice := n }.put h
        ((gone.foldl (Store.goneBy m sd) s.store).withRecord h { r.settledBy t x.lastOpened gone sd with tray := u })
        { x with scan := none, tray := u }) := by
  have run := scanEnds_record (reads := reads) at_ scan record
  rw [← ht, reconcileScanEnd_out direction] at run
  obtain ⟨sd, n, k, w, side, id, listed, rfl, ends⟩ := outboundScanEnd_put (s := s) (st := s.store) (h := h) (r := r)
    (y := { x with scan := none }) gone hg rfl manifest found
  rw [if_neg (by rw [allLoaded_verdicts all]; exact Bool.false_ne_true)] at ends
  exact ⟨sd, n, k, _, side, id, listed, (plain_tray ht).symm, run.trans ends⟩

/-! ### Items left on the tray, and none (R99, R112) -/

theorem clean_left (listed : k.labelsIn .loaded = (m.labelsIn .loaded).filter fun l => l ∈ labelsOn t)
    (some_ : ∃ p : TrayIdx, t[p].presence ≠ .empty) (all : allLoaded m t) : k.labelsIn .loaded ≠ [] := by
  obtain ⟨p, there⟩ := some_
  obtain ⟨l, n, present, loaded, -⟩ := all p there
  rw [listed]
  exact List.ne_nil_of_mem (List.mem_filter.2 ⟨loaded, decide_eq_true (mem_labelsOn.2 ⟨p, n, present⟩)⟩)

theorem labelsOn_empty (empty : ∀ p : TrayIdx, t[p].presence = .empty) : labelsOn t = [] := by
  refine List.eq_nil_iff_forall_not_mem.2 fun l there => ?_
  obtain ⟨p, n, present⟩ := mem_labelsOn.1 there
  rw [empty p] at present
  cases present

theorem goneFrom_empty (empty : ∀ p : TrayIdx, t[p].presence = .empty) (ls : List Text) : goneFrom t ls = ls := by
  rw [goneFrom_eq, labelsOn_empty empty]
  exact List.filter_eq_self.2 fun _ _ => rfl

/-- What the records of items gone by a side show (R99 step 1). -/
def goneCustody (m : Manifest) : Side → Custody
  | .outer => .out m.courier
  | .inner => .reshelve

theorem goneBy_written {ls : List Text} {d : Cartridge} (there : d ∈ (ls.foldl (Store.goneBy m sd) st).cartridges) :
    d.label ∈ ls → d.custody = goneCustody m sd := by
  rw [goneBy_fold] at there
  cases sd with
  | outer => exact (moveAll_written (f := Cartridge.depart m.courier) (fun _ => rfl) (fun _ => rfl) there).1
  | inner => exact (moveAll_written (f := (·.enter .reshelve)) (fun _ => rfl) (fun _ => rfl) there).1

theorem goneBy_untouched {ls : List Text} {d : Cartridge} (other : d.label ∉ ls) (there : d ∈ st.cartridges) :
    d ∈ (ls.foldl (Store.goneBy m sd) st).cartridges := by
  rw [goneBy_fold]
  cases sd <;> exact moveAll_untouched other there

theorem noting_manifest (es : List Entry) (r : Handover) : (es.foldl Handover.noting r).manifest = r.manifest :=
  foldl_keeps (g := Handover.manifest) (step := Handover.noting) (fun _ _ => rfl) es r

theorem settledBy_manifest (r : Handover) (t : Tray) (o : Option Side) (gone : List Text) (sd : Side) :
    (r.settledBy t o gone sd).manifest = r.manifest := noting_manifest ..

/-- What the end of a handover leaves, whatever its receipt says. -/
def EndsWith (t : State) (h : HatchId) (st : Store) : Prop :=
  t.hatch[h].phase = .receiptPending ∧ t.hatch[h].scan = none ∧ t.store.handover[h] = none ∧
    t.store.receipt[h].isSome = true ∧ t.store.cartridges = st.cartridges ∧ t.store.manifests = st.manifests

theorem toReceipt_ends {m : Manifest} (found : st.manifests.find? (·.id == r.manifest) = some m) (scan : y.scan = none) :
    EndsWith (toReceipt h (s.put h (st.withRecord h r) y)) h st := by
  obtain ⟨e, c, ends⟩ := toReceipt_put (s := s) (h := h) (y := y) found
  rw [ends]
  refine ⟨?_, ?_, ?_, ?_, rfl, rfl⟩
  · rw [State.put_get]
  · rw [State.put_get]
    exact scan
  · simp [State.put]
  · simp [State.put]

/-- An outbound reconcile that finds the tray EMPTY ends the handover. -/
theorem reconcile_departed (at_ : s.hatch[h] = x) (scan : x.scan = some .reconcile) (manifest : x.manifest = some m.id)
    (found : s.manifest? m.id = some m) (record : s.store.handover[h] = some r) (named : r.manifest = m.id)
    (direction : r.direction = .out) (last : x.lastOpened = some sd) (empty : ∀ p : TrayIdx, x.sensors[p] = false) :
    EndsWith (scanEnds h reads s) h ((m.labelsIn .loaded).foldl (Store.goneBy m sd) s.store) := by
  have bare (p : TrayIdx) : (scannedTray x.sensors reads)[p].presence = .empty := scannedTray_empty.2 (empty p)
  obtain ⟨sd', n, k, u, side, id, listed, tray, run⟩ := reconcile_clean at_ scan manifest found record rfl rfl direction
    (fun p there => absurd (bare p) there)
  obtain ⟨rfl, rfl⟩ := side sd last
  rw [goneFrom_empty bare] at run
  rw [labelsOn_empty bare] at listed
  have none_ : k.labelsIn .loaded = [] := by
    rw [listed]
    exact List.filter_eq_nil_iff.2 fun _ _ => by simp
  rw [run, finishOutbound_none tray none_]
  refine toReceipt_ends (m := m.setItems (goneStatus sd') (m.labelsIn .loaded)) ?_ rfl
  dsimp only
  rw [settledBy_manifest, named]
  exact find_goneBy found

/-! ### An inbound reconcile with no reject (R104) -/

/-- Every position of an inbound reconcile's tray is EMPTY or holds a cartridge to be taken in. -/
def allReceivable (s : State) (m : Manifest) (t : Tray) : Prop :=
  ∀ p : TrayIdx, t[p].presence ≠ .empty → ∃ (l : Text) (c : Cartridge), receivable s m t p l c

theorem acceptedTray_empty (empty : t[p].presence = .empty) : (acceptedTray s m t)[p] = t[p] := by
  have class_ := inboundClass_none (s := s) (k := m).2 empty
  simp [acceptedTray, class_]

/-- A position taken in: ACCEPTED, CROSS-MANIFEST where the manifest does not list it. -/
theorem acceptedTray_receivable {c : Cartridge} (free : receivable s m t p l c) :
    (acceptedTray s m t)[p] = { presence := .present l c.media, verdict := .accepted
                                cross := decide (∀ i ∈ m.items, i.label ≠ l) } := by
  have class_ := inboundClass_receivable free
  have listed : (m.items.find? fun i => i.label == l).isSome = !decide (∀ i ∈ m.items, i.label ≠ l) := by
    rw [Bool.eq_iff_iff, List.find?_isSome]
    simp
  obtain ⟨there, -⟩ := free
  unfold acceptedTray
  rw [Fin.getElem_fin, Vector.getElem_ofFn]
  simp only [Fin.eta, class_, listed]
  cases decide (∀ i ∈ m.items, i.label ≠ l) <;> simpa using there

theorem allReceivable_free (all : allReceivable s m t) (p : TrayIdx) : inboundClass s m t p ≠ some .reject := by
  by_cases empty : t[p].presence = .empty
  · exact inboundClass_free.2 (.inl empty)
  · exact inboundClass_free.2 (.inr (all p empty))

theorem acceptedTray_bare (empty : ∀ p : TrayIdx, t[p].presence = .empty) : acceptedTray s m t = t :=
  Vector.ext fun i lt => acceptedTray_empty (p := ⟨i, lt⟩) (empty ⟨i, lt⟩)

theorem scannedTray_verdict (sensors : Vector Bool 24) (reads : Vector TrayRead 24) (p : TrayIdx) :
    (scannedTray sensors reads)[p].verdict = .none := by rw [scannedTray_plain]

theorem acceptedLabels_none (none_ : ∀ p : TrayIdx, t[p].verdict ≠ .accepted) : acceptedLabels t = [] := by
  refine List.eq_nil_iff_forall_not_mem.2 fun a there => ?_
  obtain ⟨p, n, accepted, -⟩ := mem_acceptedLabels.1 (List.mem_map_of_mem (f := Prod.fst) there)
  exact none_ p accepted

/-- An inbound reconcile that finds the tray EMPTY ends the handover, its EXPECTED items not returned. -/
theorem reconcile_unreturned (at_ : s.hatch[h] = x) (scan : x.scan = some .reconcile) (manifest : x.manifest = some m.id)
    (found : s.manifest? m.id = some m) (record : s.store.handover[h] = some r) (named : r.manifest = m.id)
    (direction : r.direction = .in_) (empty : ∀ p : TrayIdx, x.sensors[p] = false) :
    EndsWith (scanEnds h reads s) h (s.store.modManifest m.id Manifest.expire) := by
  have bare (p : TrayIdx) : (scannedTray x.sensors reads)[p].presence = .empty := scannedTray_empty.2 (empty p)
  have plain (p : TrayIdx) : (scannedTray x.sensors reads)[p].verdict ≠ .accepted := by
    rw [scannedTray_verdict]
    nofun
  have run := scanEnds_record (reads := reads) at_ scan record
  rw [reconcileScanEnd_in direction, inboundScanEnd_free (u := scannedTray x.sensors reads) (y := { x with scan := none })
    manifest found (acceptedTray_bare bare).symm (allReceivable_free fun p there => absurd (bare p) there) rfl,
    acceptedLabels_none plain, if_neg (by rw [hasVerdict_false.2 plain]; exact Bool.false_ne_true)] at run
  rw [run]
  refine toReceipt_ends (m := m.expire) (st := s.store.modManifest m.id Manifest.expire) ?_ rfl
  dsimp only [List.foldl_nil]
  rw [show (r.without (scannedTray x.sensors reads) x.lastOpened).manifest = m.id from named]
  exact find_modManifest (fun _ => rfl) found

theorem Store.modManifest_cartridges (st : Store) (id : Nat) (g : Manifest → Manifest) :
    (st.modManifest id g).cartridges = st.cartridges := rfl

theorem removedRejects_result {o : Option Side} {e : Entry} (removed : e ∈ removedRejects u t o) :
    e.result = .rejectedRemoved := by
  unfold removedRejects at removed
  rw [List.mem_map] at removed
  obtain ⟨p, -, rfl⟩ := removed
  rfl

/-- An inbound reconcile that takes its cartridges in. -/
theorem reconcile_received (at_ : s.hatch[h] = x) (scan : x.scan = some .reconcile) (manifest : x.manifest = some m.id)
    (found : s.manifest? m.id = some m) (record : s.store.handover[h] = some r) (direction : r.direction = .in_)
    (ht : t = scannedTray x.sensors reads) (some_ : ∃ p : TrayIdx, t[p].presence ≠ .empty) (all : allReceivable s m t) :
    ∃ (st : Store) (q : Handover), scanEnds h reads s = s.put h (st.withRecord h q) { x.cleared (acceptedTray s m t) with
        scan := none, phase := .conditioning, unlockDue := none, idle := none, purge := .unknown, condensation := .unknown
        purgeOn := false, heaterOn := false, limitCount := 0, limitPosted := false, risk := false } ∧
      q.phaseClass = .inCondition ∧ q.tray = acceptedTray s m t ∧
      (∀ e ∈ removedRejects r.tray t x.lastOpened, e ∈ q.entries) ∧
      ∀ d ∈ st.cartridges, d.label ∈ (acceptedLabels (acceptedTray s m t)).map Prod.fst →
        d.custody = .inHatchIn m.id := by
  have accepted : hasVerdict (acceptedTray s m t) .accepted = true := by
    obtain ⟨p, there⟩ := some_
    obtain ⟨l, c, free⟩ := all p there
    exact hasVerdict_iff.2 ⟨p, by rw [acceptedTray_receivable free]⟩
  obtain ⟨st, hst⟩ : ∃ st : Store, st = ((acceptedLabels (acceptedTray s m t)).foldl (Store.receiving m)
      s.store).modManifest m.id Manifest.expire := ⟨_, rfl⟩
  obtain ⟨q, hq⟩ : ∃ q : Handover, q = { (acceptedLabels (acceptedTray s m t)).foldl Handover.receiving
      (r.without t x.lastOpened) with tray := acceptedTray s m t } := ⟨_, rfl⟩
  have entries : q.entries = ((acceptedLabels (acceptedTray s m t)).foldl Handover.receiving
      (r.without t x.lastOpened)).entries := by rw [hq]
  have ends := inboundScanEnd_free (h := h) (r := r) (y := { x with scan := none }) manifest found rfl
    (allReceivable_free all) rfl
  rw [if_pos accepted, ← hst] at ends
  dsimp only at ends
  rw [← hq, toConditioning_put] at ends
  have run := scanEnds_record (reads := reads) at_ scan record
  rw [← ht, reconcileScanEnd_in direction] at run
  refine ⟨st, { q with phaseClass := .inCondition, risk := false }, run.trans ends, rfl, ?_, ?_, ?_⟩
  · rw [hq]
  · intro e removed
    have there : e ∈ (r.without t x.lastOpened).entries := List.mem_append_right _ removed
    show e ∈ q.entries
    rw [entries]
    exact mem_receiving_entries (as := acceptedLabels (acceptedTray s m t)) (removedRejects_result removed) there
  · intro d there
    rw [hst, Store.modManifest_cartridges] at there
    exact (receiving_written (m := m) (st := s.store) (as := acceptedLabels (acceptedTray s m t)) there).1

end Sys2Proof.Machine
end

