-- ==== Sys2Proof/Proofs/UnloadsAndResumes.lean ====
section
/-!
PROOFS. Unload scans, and resumes by their class.
-/

namespace Sys2Proof.Machine

variable {s : State} {st : Store} {h : HatchId} {x y : Hatch} {r : Handover} {t u held : Tray} {p : TrayIdx} {l : Text}
  {m k : Manifest} {sd : Side} {c : PhaseClass} {reads : Vector TrayRead 24} {gone : List Text}

/-! ### An unload scan (R100) -/

theorem backToPicked_fold (ls : List Text) (st : Store) :
    ls.foldl (Store.backToPicked m) st = st.moveAll m.id (·.enter (.picked m.id)) .picked ls := rfl

theorem moveAll_hatch {id : Nat} {f : Cartridge → Cartridge} {status : ItemStatus} {ls : List Text} :
    (st.moveAll id f status ls).hatch = st.hatch :=
  foldl_keeps (g := Store.hatch) (step := fun st l => st.moveItem id l f status) (fun _ _ => rfl) ls st

/-- Each LOADED item that an unload after an abort finds nowhere is PICKED again. -/
theorem backToPicked_written {d : Cartridge} (hg : gone = goneFrom t (m.labelsIn .loaded)) (loaded : l ∈ m.labelsIn .loaded)
    (missing : ∀ (p : TrayIdx) (n : Char), t[p].presence ≠ .present l n)
    (there : d ∈ (gone.foldl (Store.backToPicked m) st).cartridges) (label : d.label = l) : d.custody = .picked m.id := by
  rw [backToPicked_fold] at there
  refine (moveAll_written (f := (·.enter (.picked m.id))) (fun _ => rfl) (fun _ => rfl) there).1 ?_
  rw [hg, goneFrom_eq, label]
  refine List.mem_filter.2 ⟨loaded, decide_eq_true fun on => ?_⟩
  obtain ⟨p, n, here⟩ := mem_labelsOn.1 on
  exact missing p n here

/-- What an unload scan finds gone settled, before the tray is judged. -/
theorem unload_settled (at_ : s.hatch[h] = x) (scan : x.scan = some .unload) (manifest : x.manifest = some m.id)
    (found : s.manifest? m.id = some m) (record : s.store.handover[h] = some r) (ht : t = scannedTray x.sensors reads) :
    ∃ (st : Store) (q : Handover), scanEnds h reads s = toUnload h t (s.put h (st.withRecord h q)
        { x with scan := none, tray := t }) ∧ q.manifest = r.manifest ∧ st.hatch = s.store.hatch ∧
      (∃ k, st.manifests.find? (·.id == m.id) = some k) ∧
      (r.phaseClass ≠ .abortUnload → st.cartridges = s.store.cartridges) ∧
      (r.phaseClass = .abortUnload → ∀ l ∈ m.labelsIn .loaded, (∀ (p : TrayIdx) (n : Char), t[p].presence ≠ .present l n) →
        ∀ d ∈ st.cartridges, d.label = l → d.custody = .picked m.id) := by
  have run := scanEnds_unload (reads := reads) at_ scan
  rw [← ht] at run
  have put : s.put h s.store { x with scan := none } = s.put h (s.store.withRecord h r) { x with scan := none } := by
    rw [Store.withRecord_of record]
  rw [put] at run
  by_cases abort : r.phaseClass = .abortUnload
  · obtain ⟨gone, hg⟩ : ∃ gone, gone = goneFrom t (m.labelsIn .loaded) := ⟨_, rfl⟩
    have ends := unloadScanEnd_abort (s := s) (h := h) (st := s.store) (y := { x with scan := none })
      gone hg manifest found abort
    refine ⟨gone.foldl (Store.backToPicked m) s.store, _, run.trans ends, noting_manifest .., moveAll_hatch,
      ⟨_, find_moveAll found⟩, fun other => absurd abort other, fun _ l loaded missing d there label => ?_⟩
    exact backToPicked_written hg loaded missing there label
  · exact ⟨s.store, _, run.trans (unloadScanEnd_plain abort), rfl, rfl, ⟨m, found⟩, fun _ => rfl,
      fun same => absurd same abort⟩

/-! ### A resume scan (R117, R121) -/

theorem State.put_store : (s.put h st x).store = st := rfl

theorem State.put_put (st' : Store) (y : Hatch) : (s.put h st x).put h st' y = s.put h st' y := by simp [State.put]

theorem State.setHatch_put : (s.setHatch h x).put h st y = s.put h st y := by simp [State.put]

theorem resume_settled (at_ : s.hatch[h] = x) (scan : x.scan = some .resume) (record : s.store.handover[h] = some r)
    (class_ : x.heldClass = some c) (other : c ≠ .receipt) (tray : x.heldTray = some held)
    (ht : t = scannedTray x.sensors reads) : scanEnds h reads s = resumeIn h c t (reaccept held t)
      ((lostFrom held t).foldl (fun s a => settleLost h { r with phaseClass := c } x.recovering a s)
        (s.put h (s.store.withRecord h r) { x.resumed with scan := none })) := by
  have put : s.put h s.store { x with scan := none } = s.put h (s.store.withRecord h r) { x with scan := none } := by
    rw [Store.withRecord_of record]
  rw [scanEnds_resume at_ scan, ← ht, put]
  exact resumeHatch_class (y := { x with scan := none }) class_ other tray

theorem foldl_stands (none_ : c ≠ .wait ∧ c ≠ .inCondition ∧ c ≠ .inStaff) (as : List (Text × TrayPos)) (s : State) :
    as.foldl (fun s a => settleLost h { r with phaseClass := c } false a s) s = s := by
  induction as with
  | nil => rfl
  | cons a as ih => rw [List.foldl_cons, settleLost_stands none_, ih]

theorem lostFrom_none (all : ∀ (p : TrayIdx) (l : Text) (n : Char), held[p].verdict = .accepted →
    held[p].presence = .present l n → ∃ (q : TrayIdx) (k : Char), t[q].presence = .present l k) : lostFrom held t = [] := by
  refine List.eq_nil_iff_forall_not_mem.2 fun a lost => ?_
  obtain ⟨⟨p, label⟩, gone⟩ := mem_lostFrom.1 lost
  obtain ⟨n, accepted, there, -⟩ := acceptedLabel_eq_some.1 label
  exact gone (mem_labelsOn.2 (all p a.1 n accepted there))

theorem resumeIn_wait : resumeIn h .wait t u (s.put h (st.withRecord h r) y) = s.put h (st.withRecord h { r with tray := u })
    { y with tray := u, phase := .awaitCourier, unlockDue := none, idle := none } := by
  unfold resumeIn
  dsimp only
  rw [setTray_put, saveTray_put, toPhase_put]

theorem resumeIn_conditioning (class_ : c = .inCondition ∨ c = .inStaff) :
    resumeIn h c t u (s.put h (st.withRecord h r) y) =
      s.put h (st.withRecord h { r with tray := u, phaseClass := .inCondition, risk := false }) { y with
        tray := u, phase := .conditioning, unlockDue := none, idle := none, purge := .unknown, condensation := .unknown
        purgeOn := false, heaterOn := false, limitCount := 0, limitPosted := false, risk := false } := by
  have run : resumeIn h c t u (s.put h (st.withRecord h r) y) =
      toConditioning h (saveTray h (setTray h u (s.put h (st.withRecord h r) y))) := by
    rcases class_ with rfl | rfl <;> rfl
  rw [run, setTray_put, saveTray_put, toConditioning_put]

theorem resumeIn_outUnload : resumeIn h .outUnload t u (s.put h (st.withRecord h r) y) =
    toUnload h u (s.put h (st.withRecord h { r with tray := u }) { y with tray := u }) := by
  unfold resumeIn
  dsimp only
  rw [setTray_put, saveTray_put]

theorem resumeIn_abortUnload (hg : gone = goneFrom t (m.labelsIn .loaded)) (manifest : y.manifest = some m.id)
    (found : st.manifests.find? (·.id == m.id) = some m) : resumeIn h .abortUnload t u (s.put h (st.withRecord h r) y) =
      toUnload h u (s.put h ((gone.foldl (Store.backToPicked m) st).withRecord h
        { (gone.map (goneEntry .inner)).foldl Handover.noting r with tray := u }) { y with tray := u }) := by
  unfold resumeIn
  dsimp only
  rw [unloadGone_put gone hg manifest found, setTray_put, saveTray_put]

/-- An unload resumed, its store and its record. -/
theorem resume_unloads {st' : Store} (at_ : s.hatch[h] = x) (scan : x.scan = some .resume)
    (record : s.store.handover[h] = some r) (class_ : x.heldClass = some c) (start : x.recovering = false)
    (tray : x.heldTray = some held) (ht : t = scannedTray x.sensors reads) (manifest : x.manifest = some m.id)
    (found : s.manifest? m.id = some m) (hg : gone = goneFrom t (m.labelsIn .loaded))
    (hs : c = .outUnload ∧ st' = s.store.withRecord h { r with tray := reaccept held t } ∨
      c = .abortUnload ∧ st' = (gone.foldl (Store.backToPicked m) s.store).withRecord h
        { (gone.map (goneEntry .inner)).foldl Handover.noting r with tray := reaccept held t }) :
    ∃ (st : Store) (q : Handover), st' = st.withRecord h q ∧ q.manifest = r.manifest ∧ st.hatch = s.store.hatch ∧
      (∃ k, st.manifests.find? (·.id == m.id) = some k) ∧ scanEnds h reads s = toUnload h (reaccept held t)
        (s.put h (st.withRecord h q) { x.resumed with scan := none, tray := reaccept held t }) := by
  have other : c ≠ .receipt := by rcases hs with ⟨rfl, -⟩ | ⟨rfl, -⟩ <;> nofun
  have none_ : c ≠ .wait ∧ c ≠ .inCondition ∧ c ≠ .inStaff := by
    rcases hs with ⟨rfl, -⟩ | ⟨rfl, -⟩ <;> exact ⟨nofun, nofun, nofun⟩
  have run := resume_settled (reads := reads) at_ scan record class_ other tray ht
  rw [start, foldl_stands none_] at run
  rcases hs with ⟨rfl, rfl⟩ | ⟨rfl, rfl⟩
  · exact ⟨s.store, _, rfl, rfl, rfl, ⟨m, found⟩, run.trans resumeIn_outUnload⟩
  · have ends := resumeIn_abortUnload (s := s) (h := h) (r := r) (u := reaccept held t)
      (y := { x.resumed with scan := none }) hg manifest found
    exact ⟨gone.foldl (Store.backToPicked m) s.store,
      { (gone.map (goneEntry .inner)).foldl Handover.noting r with tray := reaccept held t }, rfl,
      noting_manifest (gone.map (goneEntry .inner)) r, moveAll_hatch, ⟨_, find_moveAll found⟩, run.trans ends⟩

/-- A resume of class OUT-ACCESS or IN-ACCESS is a reconcile scan (R117). -/
theorem resume_reconciles (at_ : s.hatch[h] = x) (scan : x.scan = some .resume) (record : s.store.handover[h] = some r)
    (class_ : x.heldClass = some c) (dir : c = .outAccess ∧ r.direction = .out ∨ c = .inAccess ∧ r.direction = .in_)
    (start : x.recovering = false) (tray : x.heldTray = some held)
    (hy : y = { x with
      phase := .reconcile, scan := some .reconcile, heldClass := none, heldTray := none, unlockDue := none, idle := none }) :
    scanEnds h reads s = scanEnds h reads (s.setHatch h y) := by
  have other : c ≠ .receipt := by rcases dir with ⟨rfl, -⟩ | ⟨rfl, -⟩ <;> nofun
  have none_ : c ≠ .wait ∧ c ≠ .inCondition ∧ c ≠ .inStaff := by
    rcases dir with ⟨rfl, -⟩ | ⟨rfl, -⟩ <;> exact ⟨nofun, nofun, nofun⟩
  have run := resume_settled (reads := reads) at_ scan record class_ other tray rfl
  rw [start, foldl_stands none_] at run
  have then_ := scanEnds_record (reads := reads) (s := s.setHatch h y) (h := h) (x := y) (State.setHatch_get ..)
    (by rw [hy]) record
  have same : (s.setHatch h y).put h (s.store.withRecord h r) { y with scan := none } =
      toPhase h .reconcile (s.put h (s.store.withRecord h r) { x.resumed with scan := none }) := by
    rw [State.setHatch_put, toPhase_put, hy]
    unfold Hatch.resumed
    rw [start]
  have sensors : y.sensors = x.sensors := by rw [hy]
  have base : (s.setHatch h y).store = s.store := rfl
  rw [run, then_, base, same, sensors]
  rcases dir with ⟨rfl, out⟩ | ⟨rfl, in_⟩
  · rw [toPhase_put, reconcileScanEnd_out out]
    exact congrArg (outboundScanEnd h _) (toPhase_put _)
  · rw [toPhase_put, reconcileScanEnd_in in_]
    exact congrArg (inboundScanEnd h _) (toPhase_put _)

/-- Cartridges found nowhere that are MISSING: a resume on the state in which they already are (R117, R121). -/
theorem resume_missing {lost : List (Text × TrayPos)} (at_ : s.hatch[h] = x) (scan : x.scan = some .resume)
    (record : s.store.handover[h] = some r) (class_ : x.heldClass = some c) (other : c ≠ .receipt)
    (tray : x.heldTray = some held) (hl : lost = lostFrom held (scannedTray x.sensors reads))
    (missing : x.recovering = true ∨ c = .wait ∨ c = .inCondition)
    (hy : y = { x with recovering := false, heldTray := some (heldKept held (scannedTray x.sensors reads)) }) :
    scanEnds h reads s = scanEnds h reads ((lost.foldl (fun s a => post (.cartridgeMissing h a.1) s) s).put h
      ((lost.foldl (Store.losing r) s.store).withRecord h ((lost.map (missingEntry r.direction
        (x.recovering || decide (c = .inCondition)))).foldl Handover.noting r)) y) := by
  have first := resume_settled (reads := reads) at_ scan record class_ other tray rfl
  simp only [settleLost_missing _ missing] at first
  rw [← hl, foldl_goesMissing (r := r) (k := { r with phaseClass := c }) rfl rfl] at first
  obtain ⟨base, hb⟩ : ∃ base, base = lost.foldl (fun s a => post (.cartridgeMissing h a.1) s) s := ⟨_, rfl⟩
  obtain ⟨st, hs⟩ : ∃ st, st = lost.foldl (Store.losing r) s.store := ⟨_, rfl⟩
  obtain ⟨q, hq⟩ : ∃ q, q = (lost.map (missingEntry r.direction (x.recovering || decide (c = .inCondition)))).foldl
    Handover.noting r := ⟨_, rfl⟩
  rw [← hb, ← hs, ← hq] at first ⊢
  have second := resume_settled (reads := reads) (s := base.put h (st.withRecord h q) y) (h := h) (x := y) (r := q)
    (c := c) State.put_get (by rw [hy]; exact scan) Store.withRecord_get (by rw [hy]; exact class_) other
    (held := heldKept held (scannedTray x.sensors reads)) (by rw [hy]) (by rw [hy])
  rw [lostFrom_kept, reaccept_kept] at second
  rw [first, second]
  refine congrArg (resumeIn h c _ _) ?_
  rw [List.foldl_nil, State.put_put, State.put_store, Store.withRecord_withRecord, hy]
  rfl

theorem takenToStaff_record (a : Text × TrayPos) (s : State) :
    (takenToStaff h a.1 a.2 s).store.handover[h].isSome = s.store.handover[h].isSome := by
  have hold : (takeHold a.1 (a.2.hold.getD 0) s).store.handover = s.store.handover := by
    unfold takeHold
    cases s.cartridge? a.1 with
    | none => rfl
    | some c =>
      dsimp only
      split <;> rfl
  unfold takenToStaff addEntry
  rw [State.modHandover_of rfl, State.setHandover_get, hold, Option.isSome_map]

/-- Cartridges found nowhere that had been taken in STAFF-ACCESS: a resume on the state in which they took their holds. -/
theorem resume_staff {lost : List (Text × TrayPos)} (at_ : s.hatch[h] = x) (scan : x.scan = some .resume)
    (record : s.store.handover[h] = some r) (class_ : x.heldClass = some .inStaff) (start : x.recovering = false)
    (tray : x.heldTray = some held) (hl : lost = lostFrom held (scannedTray x.sensors reads))
    (hy : y = { x with recovering := false, heldTray := some (heldKept held (scannedTray x.sensors reads)) }) :
    scanEnds h reads s = scanEnds h reads ((lost.foldl (fun s a => takenToStaff h a.1 a.2 s) s).setHatch h y) := by
  have first := resume_settled (reads := reads) at_ scan record class_ nofun tray rfl
  have put : s.put h (s.store.withRecord h r) { x.resumed with scan := none } =
      s.setHatch h { x.resumed with scan := none } := by
    rw [Store.withRecord_of record]
    rfl
  have taken : (fun s a => settleLost h { r with phaseClass := .inStaff } false a s) =
      fun s a => takenToStaff h a.1 a.2 s := rfl
  rw [← hl, put, start, taken, foldl_takenToStaff] at first
  obtain ⟨base, hb⟩ : ∃ base, base = lost.foldl (fun s a => takenToStaff h a.1 a.2 s) s := ⟨_, rfl⟩
  rw [← hb] at first ⊢
  have some_ : base.store.handover[h].isSome = true := by
    rw [hb, foldl_keeps (g := fun s : State => s.store.handover[h].isSome)
      (step := fun s a => takenToStaff h a.1 a.2 s) (fun s a => takenToStaff_record a s), record]
    rfl
  obtain ⟨q, held_⟩ := Option.isSome_iff_exists.1 some_
  have second := resume_settled (reads := reads) (s := base.setHatch h y) (h := h) (x := y) (r := q) (c := .inStaff)
    (State.setHatch_get ..) (by rw [hy]; exact scan) held_ (by rw [hy]; exact class_) nofun
    (held := heldKept held (scannedTray x.sensors reads)) (by rw [hy]) (by rw [hy])
  rw [lostFrom_kept, reaccept_kept] at second
  rw [first, second]
  refine congrArg (resumeIn h .inStaff _ _) ?_
  have kept : (base.setHatch h y).store.withRecord h q = base.store := Store.withRecord_of held_
  rw [List.foldl_nil, kept, State.setHatch_put, hy]
  rfl

end Sys2Proof.Machine
end

