-- ==== Sys2Proof/Proofs/TrayFacts.lean ====
section
/-!
PROOFS. Holds taken, verdicts of either direction, and the phase after a load scan.
-/

namespace Sys2Proof.Machine

variable {s : State} {st : Store} {h : HatchId} {x y : Hatch} {r : Handover} {t u held : Tray} {p : TrayIdx} {l : Text}
  {m : Manifest} {sd : Side} {e : Entry} {c : Cartridge} {reads : Vector TrayRead 24}

/-! ### Holds taken in STAFF-ACCESS (R111) -/

theorem addEntry_of (record : s.store.handover[h] = some r) (label : e.label.isSome = true)
    (kept : e.result ≠ .rejectedRemoved) : addEntry h e s = s.setHandover h (some (r.noting e)) := by
  unfold addEntry
  rw [State.modHandover_of record, Option.map_some]
  simp only [label, kept, ne_eq, not_false_eq_true, true_and]
  rfl

theorem takenToStaff_of {q : TrayPos} {n : Nat} (found : s.cartridge? l = some c) (record : s.store.handover[h] = some r)
    (hn : n = min (q.hold.getD 0) s.store.hold.holdMax)
    (he : e = { label := some l, result := if q.cross then .cross else .received, hold := q.hold })
    (hs : st = { s.store with
      cartridges := s.store.cartridges.map fun d =>
        if d.label = l then { d with custody := if n = 0 then .reshelve else .quarantine n } else d
      handover := s.store.handover.set h (some (r.noting e)) }) : takenToStaff h l q s =
        if n = 0 then post (.holdEnded l s.store.bank[c.home.bank].zone c.home (some 0)) (s.setStore st)
        else s.setStore st := by
  have kept : e.result ≠ .rejectedRemoved := by
    rw [he]
    dsimp only
    split <;> nofun
  have label : e.label.isSome = true := by rw [he]; rfl
  unfold takenToStaff takeHold
  rw [found, ← he]
  dsimp only
  rw [← hn]
  by_cases zero : n = 0
  · rw [if_pos zero, if_pos zero]
    refine (addEntry_of (s := post _ (s.modCartridge l _)) record label kept).trans ?_
    rw [hs]
    simp only [zero, if_true]
    rfl
  · rw [if_neg zero, if_neg zero]
    refine (addEntry_of (s := s.modCartridge l _) record label kept).trans ?_
    rw [hs]
    simp only [zero, if_false]
    rfl

/-! ### Verdicts of a reconcile, whichever its direction -/

theorem receivable_iff : receivable s m t p l c ↔ ∃ k : Nat, t[p].presence = .present l c.media ∧ s.cartridge? l = some c ∧
    c.custody = .out k ∧ (∀ (q : TrayIdx) (n : Char), q < p → t[q].presence ≠ .present l n) ∧
    ∀ i : Item, m.items.find? (fun i => i.label == l) = some i → i.status = .expected := by
  unfold receivable
  constructor
  · rintro ⟨there, record, ⟨k, out⟩, first, expected⟩
    exact ⟨k, there, record, out, first, expected⟩
  · rintro ⟨k, there, record, out, first, expected⟩
    exact ⟨there, record, ⟨k, out⟩, first, expected⟩

theorem verdicts_exist (s : State) (m : Manifest) (t : Tray) (d : Direction) : ∃ v : TrayIdx → Verdict,
    (d = .out → OutboundVerdicts m t v) ∧ (d = .in_ → InboundVerdicts s m t v) := by
  cases d with
  | out => exact ⟨_, fun _ => outboundVerdicts m t, nofun⟩
  | in_ => exact ⟨_, nofun, fun _ => inboundVerdicts s m t⟩

theorem unreadable_rejected {v : TrayIdx → Verdict} {d : Direction} {e : UnreadReason}
    (out : d = .out → OutboundVerdicts m t v) (in_ : d = .in_ → InboundVerdicts s m t v)
    (there : t[p].presence = .unreadable e) : v p = .rejected := by
  have some_ : v p ≠ .none := by
    cases d with
    | out =>
      rw [ne_eq, (out rfl p).1, there]
      nofun
    | in_ =>
      rw [ne_eq, (in_ rfl p).2, there]
      rintro (empty | ⟨l, c, present, -⟩)
      · cases empty
      · rw [there] at present
        cases present
  have free : v p ≠ .accepted := by
    cases d with
    | out =>
      rw [ne_eq, (out rfl p).2]
      rintro ⟨l, n, present, -⟩
      rw [there] at present
      cases present
    | in_ => exact (in_ rfl p).1
  cases verdict : v p with
  | rejected => rfl
  | none => exact absurd verdict some_
  | accepted => exact absurd verdict free

/-- Entries noted in a record keep to its entries. -/
theorem noting_tray (es : List Entry) (r : Handover) (t : Tray) :
    es.foldl Handover.noting { r with tray := t } = { es.foldl Handover.noting r with tray := t } := by
  induction es generalizing r with
  | nil => rfl
  | cons e es ih => exact ih (r.noting e)

theorem settledBy_noting (r : Handover) (t u : Tray) (o : Option Side) (gone left : List Text) (sd : Side) :
    (left.map (goneEntry .inner)).foldl Handover.noting { r.settledBy t o gone sd with tray := u } =
      { (gone.map (goneEntry sd) ++ left.map (goneEntry .inner)).foldl Handover.noting (r.without t o) with tray := u } := by
  rw [noting_tray, List.foldl_append]
  rfl

theorem expire_expected {n : Manifest} (there : n ∈ (st.modManifest m.id Manifest.expire).manifests) (named : n.id = m.id)
    (i : Item) (listed : i ∈ n.items) : i.status ≠ .expected := by
  obtain ⟨k, -, rfl⟩ := List.mem_map.1 there
  by_cases here : k.id = m.id
  · rw [if_pos here] at listed
    obtain ⟨j, -, rfl⟩ := List.mem_map.1 listed
    split
    · nofun
    · assumption
  · rw [if_neg here] at named
    exact absurd named here

theorem receivable_of (there : t[p].presence = .present l c.media) (record : s.cartridge? l = some c) {k : Nat}
    (out : c.custody = .out k) (first : ∀ (q : TrayIdx) (n : Char), q < p → t[q].presence ≠ .present l n)
    (expected : ∀ i ∈ m.items, i.label = l → i.status = .expected) : receivable s m t p l c :=
  ⟨there, record, ⟨k, out⟩, first, fun i listed =>
    expected i (List.mem_of_find?_eq_some listed) (by simpa using List.find?_some listed)⟩

theorem loadPhase_eq (resumed : Bool) (hu : u = withVerdicts t (loadVerdict s m t)) : u.loadPhase resumed =
    if resumed = true ∧ ∀ p : TrayIdx, loadVerdict s m t p ≠ .accepted then .idle
    else if ∃ p : TrayIdx, loadVerdict s m t p = .rejected then .loadReject
    else if ∃ p : TrayIdx, loadVerdict s m t p = .accepted then .awaitCourier
    else .idle := by
  have verdict (v : Verdict) : hasVerdict u v = true ↔ ∃ p : TrayIdx, loadVerdict s m t p = v := by
    rw [hasVerdict_iff, hu]
    simp only [withVerdicts_get]
  have none_ : hasVerdict u .accepted = false ↔ ∀ p : TrayIdx, loadVerdict s m t p ≠ .accepted := by
    rw [← Bool.not_eq_true, verdict, not_exists]
  unfold Tray.loadPhase
  simp only [Bool.and_eq_true, Bool.not_eq_true', none_, verdict]

theorem releaseLock_locked (settings : HatchSettings) (sh : Shutter) : (releaseLock settings sh).locked = false := by
  unfold releaseLock
  split <;> rfl

theorem takenToStaff_keeps (q : TrayPos) (s : State) :
    (takenToStaff h l q s).hatch = s.hatch ∧ (takenToStaff h l q s).powered = s.powered := by
  unfold takenToStaff takeHold
  cases s.cartridge? l with
  | none => exact ⟨rfl, rfl⟩
  | some c =>
    dsimp only
    by_cases zero : min (q.hold.getD 0) s.store.hold.holdMax = 0
    · rw [if_pos zero]
      exact ⟨rfl, rfl⟩
    · rw [if_neg zero]
      exact ⟨rfl, rfl⟩

theorem foldl_takenToStaff_keeps (as : List (Text × TrayPos)) (s : State) :
    (as.foldl (fun s a => takenToStaff h a.1 a.2 s) s).hatch = s.hatch ∧
      (as.foldl (fun s a => takenToStaff h a.1 a.2 s) s).powered = s.powered :=
  ⟨foldl_keeps (g := State.hatch) (step := fun s a => takenToStaff h a.1 a.2 s)
      (fun s a => (takenToStaff_keeps a.2 s).1) as s,
    foldl_keeps (g := State.powered) (step := fun s a => takenToStaff h a.1 a.2 s)
      (fun s a => (takenToStaff_keeps a.2 s).2) as s⟩

end Sys2Proof.Machine
end

