-- ==== Sys2Proof/Proofs/TrayJudged.lean ====
section
/-!
PROOFS. The tray's changes and every scan judged.
-/

namespace Sys2Proof.Machine

/-- Settles O52. -/
theorem trayIsReadAndJudged : Obligations.TrayIsReadAndJudged := by
  intro s h x on at_ idle standby
  have live : s.hatch[h] = x := at_.symm
  have ends {reads : Vector TrayRead 24} {t : State} (e : scanEnds h reads s = t) :
      exec (.trayScanEnd h reads) s = .next t := (event_powered on).trans (congrArg _ e)
  have secured {sh : Shutter} (locked : sh.locked = true) (closed : sh.sensorOpen = false) : sh.secured = true :=
    Shutter.secured_iff.2 ⟨locked, closed⟩
  refine ⟨?_, ?_, ?_, ?_, ?_, ?_, ?_, ?_, ?_, ?_⟩
  · -- a presence sensor changes (R91, R111)
    intro p occupied y other hy
    refine ⟨fun staff => ?_, fun l m staff free there accepted => ?_⟩
    · exact (fieldEvent_powered on).trans (congrArg _ (presenceChanges_plain live other idle standby staff hy))
    · subst free
      exact (fieldEvent_powered on).trans (congrArg _ (presenceChanges_taken live other staff there accepted hy))
  · -- a cartridge taken in STAFF-ACCESS takes its hold (R111)
    intro l q c n e r t found record hn he ht
    subst he
    rw [takenToStaff_of found record hn rfl rfl, ht]
    rfl
  · exact fun reads scan => ends (scanEnds_none live scan)
  · -- what a position's readings show (R92)
    intro r f hf
    subst hf
    refine ⟨?_, rfl, ?_, ?_⟩
    · unfold readPosition
      cases r.again <;> rfl
    · exact fun n l m run rest fails good => (readAttempts_append fails _ _).trans (readAttempts_good good rest)
    · exact fun n fails => ⟨readAttempts_append fails _ [], fun run e bad =>
        (readAttempts_append fails _ []).trans (by simp [readAttempts, bad])⟩
  · exact fun m t0 p => ⟨loadVerdict_none m, loadVerdict_accepted m⟩
  · -- readings set aside (R115)
    intro reads y scan hy
    refine ends ((scanEnds_setAside live scan).trans ?_)
    rw [hy]
    rfl
  · intro reads m t0 r removed gone release manifest found record named ht hr hg hrel
    replace hg : gone = goneFrom t0 (m.labelsIn .loaded) := hg.trans (goneFrom_eq ..).symm
    replace ht : t0 = scannedTray x.sensors reads := ht
    replace hrel : release = releaseLock s.store.hatch[h] := hrel
    refine ⟨?_, ?_, ?_, ?_, ?_, ?_, ?_⟩
    · -- a reconcile scan with a reject, phase by phase (R105, R106)
      intro v t1 scan reject ht1 out in_
      obtain ⟨sd, n, st, side, inbound, outbound, settings, -, run⟩ := reconcile_rejected live scan manifest found record ht
        hg reject ht1 out fun d p => ⟨(in_ d p).1, (in_ d p).2.trans (by simp only [receivable_iff])⟩
      refine ⟨sd, { s with choice := n, store := st }, side, fun d => ?_, fun d => ?_, ?_, ?_, ?_, ?_⟩
      · obtain ⟨rfl, rfl⟩ := inbound d
        rw [hr]
        rfl
      · rw [outbound d, hr]
        rfl
      · intro y phase ol il ic free hy
        refine ends ((run.trans (rejectsRemain_enters (by rw [phase]; nofun) (by rw [phase]; nofun))).trans ?_)
        refine (unlock_put_free (s := { s with choice := n }) .outer (by exact settings) (by exact ol)
          (by exact secured il ic) free).trans ?_
        rw [settings, hy, hrel]
        rfl
      · intro y phase runs ol il ic free hy
        refine ends ((run.trans (rejectsRemain_waits phase runs)).trans ?_)
        refine (unlock_put_free (s := { s with choice := n }) .outer (by exact settings) (by exact ol)
          (by exact secured il ic) free).trans ?_
        rw [hy, hrel]
        rfl
      · intro y phase expired hy
        refine ends ((run.trans (rejectsRemain_expired phase expired)).trans ?_)
        have positions : verdictPositions t1 .rejected = (List.finRange 24).filter fun p => decide (v p = .rejected) := by
          refine List.filter_congr fun p _ => ?_
          rw [beq_eq_decide, ht1]
          simp
        dsimp only
        rw [positions, hy, manifest]
        rfl
      · intro y phase hy
        refine ends ((run.trans (rejectsRemain_stuck phase)).trans ?_)
        rw [hy]
        rfl
    · -- an outbound reconcile with none, items left on the tray (R99)
      intro y scan out some_ all il ol oc free hy
      obtain ⟨sd, n, k, u, side, id, listed, tray, run⟩ := reconcile_clean live scan manifest found record ht hg out all
      have left := clean_left listed some_ all
      have settings : ((k.labelsIn .loaded).foldl (Store.goneBy m .inner)
          (gone.foldl (Store.goneBy m sd) s.store)).hatch = s.store.hatch := (goneBy_hatch ..).trans (goneBy_hatch ..)
      refine ⟨sd, n, k.labelsIn .loaded, side, listed, ends ((run.trans (finishOutbound_left id tray left)).trans ?_)⟩
      rw [toPhase_put]
      refine (unlock_put_free (s := { s with choice := n }) .inner (by exact settings) (by exact il)
        (by exact secured ol oc) free).trans ?_
      rw [settledBy_noting, hy, hrel, hr]
      rfl
    · -- an unreadable position is a reject in either direction
      intro scan phase ol il ic free unread
      obtain ⟨v, out, in_⟩ := verdicts_exist s m t0 r.direction
      have rejected (p : TrayIdx) (e : UnreadReason) (there : t0[p].presence = .unreadable e) : v p = .rejected :=
        unreadable_rejected out in_ there
      obtain ⟨sd, n, st, -, -, -, settings, receipts, run⟩ := reconcile_rejected live scan manifest found record ht hg
        (by obtain ⟨p, e, there⟩ := unread; exact ⟨p, rejected p e there⟩) rfl out in_
      have enters := rejectsRemain_enters (s := { s with choice := n }) (h := h) (st := st)
        (y := { x with scan := none, tray := withVerdicts t0 v }) (by rw [phase]; nofun) (by rw [phase]; nofun)
      have frees := run.trans (enters.trans
        (unlock_put_free (s := { s with choice := n }) .outer (by exact settings) (by exact ol)
          (by exact secured il ic) free))
      refine ⟨_, ends frees, ?_, ?_, ?_, ?_, receipts, rfl, fun p e there => ?_⟩
      · rw [State.put_get]
        rfl
      · rw [State.put_get]
        rfl
      · rw [State.put_get, settings]
        rfl
      · rw [State.put_get]
        exact releaseLock_locked ..
      · rw [State.put_get]
        exact (congrArg TrayPos.verdict (withVerdicts_get v)).trans (rejected p e there)
    · -- an outbound reconcile that finds the tray EMPTY (R99)
      intro sd scan out last empty
      obtain ⟨phase, over_, erased, written, cartridges, -⟩ := reconcile_departed (reads := reads) live scan manifest found
        record named out last empty
      refine ⟨_, ends rfl, phase, over_, erased, written, fun d there label => ?_, fun d there other => ?_⟩
      · rw [cartridges] at there
        exact (goneBy_written there label).trans (by cases sd <;> rfl)
      · rw [cartridges]
        exact goneBy_untouched other there
    · -- an inbound reconcile that finds the tray EMPTY (R104)
      intro scan in_ empty
      obtain ⟨phase, over_, erased, written, cartridges, manifests⟩ := reconcile_unreturned (reads := reads) live scan
        manifest found record named in_ empty
      refine ⟨_, ends rfl, phase, over_, erased, written, cartridges, fun n there same => ?_⟩
      rw [manifests] at there
      exact expire_expected there same
    · -- an inbound reconcile that takes its cartridges in (R104)
      intro scan in_ some_ all
      have all' : allReceivable s m t0 := by
        intro p there
        obtain ⟨l, c, k, present, known, out, first, expected⟩ := all p there
        exact ⟨l, c, receivable_of present known out first expected⟩
      obtain ⟨st, q, run, class_, tray, entries, taken⟩ := reconcile_received live scan manifest found record in_ ht
        some_ all'
      refine ⟨_, ends run, ?_, ?_, ?_, ?_, ?_, ?_, ?_, ?_, fun p empty => ?_, fun p l c there => ?_, q, ?_, class_, ?_, ?_⟩
      iterate 7
        · rw [State.put_get]
      · rw [State.put_get]
        rfl
      · rw [State.put_get]
        refine (acceptedTray_empty empty).trans ?_
        rw [ht, scannedTray_plain, ← ht, empty]
      · obtain ⟨l', c', k, present, known, out, first, expected⟩ := all p (by rw [there]; nofun)
        rw [there] at present
        obtain ⟨rfl, rfl⟩ := Presence.present.inj present
        have accepted := acceptedTray_receivable (receivable_of there known out first expected)
        refine ⟨?_, fun d stored label => taken d stored ?_⟩
        · rw [State.put_get]
          exact accepted
        · rw [label]
          exact mem_acceptedLabels.2 ⟨p, c'.media, by rw [accepted], by rw [accepted]⟩
      · exact Store.withRecord_get
      · rw [State.put_get]
        exact tray
      · intro e there
        rw [hr] at there
        exact entries e there
    · -- an unload scan (R100)
      intro scan
      obtain ⟨st, q, run, same, settings, ⟨k, stands⟩, plain, abort⟩ := unload_settled live scan manifest found record ht
      refine ⟨fun empty => ?_, fun some_ ol oc il free => ?_⟩
      · have bare (p : TrayIdx) : t0[p].presence = .empty := by
          rw [ht]
          exact scannedTray_empty.2 (empty p)
        obtain ⟨phase, over_, erased, written, -⟩ := toReceipt_ends (s := s) (h := h) (st := st) (r := q) (m := k)
          (y := { x with scan := none, tray := t0 }) (by rw [same, named]; exact stands) rfl
        exact ⟨_, ends (run.trans (toUnload_empty bare)), phase, over_, erased, written⟩
      · have full : ∃ p : TrayIdx, t0[p].presence ≠ .empty := by
          obtain ⟨p, there⟩ := some_
          refine ⟨p, fun empty => ?_⟩
          rw [ht, scannedTray_empty, there] at empty
          cases empty
        have frees := run.trans ((toUnload_left full).trans ((congrArg (unlock h .inner) (toPhase_put .unload)).trans
          (unlock_put_free .inner (by exact settings) (by exact il) (by exact secured ol oc) free)))
        refine ⟨_, ends frees, ?_, ?_, ?_, ?_, plain, fun class_ l loaded missing d there label =>
          abort class_ l loaded missing d there label⟩
        · rw [State.put_get]
          rfl
        · rw [State.put_get]
          rfl
        · rw [State.put_get]
          exact releaseLock_locked ..
        · rw [State.put_get]
          rfl
  · intro reads t0 held scan tray ht
    replace ht : t0 = scannedTray x.sensors reads := ht
    refine ⟨?_, ?_, ?_, ?_, ?_, ?_, ?_, ?_⟩
    · -- no class remembered, then RECEIPT
      intro y class_ hy
      refine ends ((scanEnds_resume live scan).trans ((resumeHatch_idle (by exact class_)).trans ?_))
      rw [hy, ht]
      rfl
    · intro y class_ hy
      refine ends ((scanEnds_resume live scan).trans ((resumeHatch_receipt (by exact class_)).trans ?_))
      rw [hy, ht]
      rfl
    · -- WAIT, IN-CONDITION and IN-STAFF with every cartridge found
      intro r c record class_ all
      have settled (other : c ≠ .receipt) := resume_settled live scan record class_ other tray ht
      rw [lostFrom_none all, List.foldl_nil] at settled
      refine ⟨fun y same hy => ?_, fun y same hy => ?_⟩
      · subst same
        refine ends ((settled nofun).trans (resumeIn_wait.trans ?_))
        rw [hy]
        rfl
      · refine ends ((settled (by rcases same with rfl | rfl <;> nofun)).trans ((resumeIn_conditioning same).trans ?_))
        rw [hy]
        rfl
    · -- a cartridge of WAIT found nowhere
      intro r p l n record class_ accepted there gone
      have settled := resume_settled live scan record class_ nofun tray ht
      simp only [settleLost_missing _ (.inr (.inl rfl))] at settled
      rw [foldl_goesMissing (r := r) (k := { r with phaseClass := .wait }) rfl rfl, resumeIn_wait] at settled
      refine ⟨_, ends settled, by rw [State.put_get], fun d stored label => ?_⟩
      refine losing_written (r := r) (st := s.store) stored ?_
      have lost : (l, held[p]) ∈ lostFrom held t0 := by
        refine mem_lostFrom.2 ⟨⟨p, acceptedLabel_eq_some.2 ⟨n, accepted, there, rfl⟩⟩, fun on => ?_⟩
        obtain ⟨q, k, here⟩ := mem_labelsOn.1 on
        exact gone q k here
      rw [label]
      exact List.mem_map_of_mem (f := Prod.fst) lost
    · -- OUT-ACCESS and IN-ACCESS: a reconcile scan
      intro r c y record class_ dir start hy
      exact (ends (resume_reconciles live scan record class_ dir start tray hy)).trans
        (event_powered (s := s.setHatch h y) on).symm
    · -- OUT-UNLOAD and ABORT-UNLOAD
      intro m r c gone st record class_ start manifest found named hg hs
      obtain ⟨st', q, rfl, same, settings, ⟨k, stands⟩, run⟩ := resume_unloads live scan record class_ start tray ht manifest
        found (hg.trans (goneFrom_eq ..).symm) hs
      refine ⟨fun y some_ ol oc il ic free hy => ?_, fun empty => ?_⟩
      · have full : ∃ p : TrayIdx, (reaccept held t0)[p].presence ≠ .empty := by
          obtain ⟨p, there⟩ := some_
          refine ⟨p, fun empty => ?_⟩
          rw [reaccept_presence, ht, scannedTray_empty, there] at empty
          cases empty
        refine ends (run.trans ((toUnload_left full).trans ((congrArg (unlock h .inner) (toPhase_put .unload)).trans
          ((unlock_put_free .inner (by exact settings) (by exact il) (by exact secured ol oc) free).trans ?_))))
        have closed : releaseLock s.store.hatch[h] x.inner =
            { x.inner with locked := false, unlock := some s.store.hatch[h].unlockTimeout } := releaseLock_closed ic
        rw [hy, ← closed]
        unfold Hatch.resumed
        rw [start]
        rfl
      · have bare (p : TrayIdx) : (reaccept held t0)[p].presence = .empty := by
          rw [reaccept_presence, ht]
          exact scannedTray_empty.2 (empty p)
        obtain ⟨phase, over_, erased, written, cartridges, manifests⟩ := toReceipt_ends (s := s) (h := h) (st := st')
          (r := q) (m := k) (y := { x.resumed with scan := none, tray := reaccept held t0 }) (by rw [same, named]; exact stands) rfl
        exact ⟨_, ends (run.trans (toUnload_empty bare)), phase, over_, erased, written, cartridges, manifests⟩
    · -- the cartridges found nowhere, dealt with before the class resumes
      intro r c lost y record class_ other hl hy
      rw [hl, ht] at hy
      refine ⟨fun missing => ?_, fun start staff => ?_⟩
      · refine (ends (resume_missing live scan record class_ other tray (hl.trans (by rw [ht])) missing hy)).trans ?_
        rw [foldl_post]
        exact (event_powered (f := scanEnds h reads) (by exact on)).symm
      · subst staff
        refine (ends (resume_staff live scan record class_ start tray (hl.trans (by rw [ht])) hy)).trans ?_
        obtain ⟨hatches, powered⟩ := foldl_takenToStaff_keeps (h := h) lost s
        rw [← hatches]
        exact (event_powered (f := scanEnds h reads) (by exact powered.trans on)).symm
    · -- the verdicts given again
      intro q
      refine ⟨reaccept_presence held t0 q, reaccept_accepted ?_⟩
      rw [ht, scannedTray_verdict]
      nofun
  · -- a resume of class LOAD (R117)
    intro reads m t0 held r scan tray class_ start record manifest found ht
    have settled := resume_settled live scan record class_ nofun tray ht
    rw [start, foldl_stands (c := .load) ⟨nofun, nofun, nofun⟩, Store.withRecord_of record] at settled
    obtain ⟨st, y, run, rows, over_, phase, -, idle⟩ := loadScanEnd_put (h := h) (t := t0) (y := { x.resumed with
      scan := none, phase := .loadScan, unlockDue := none, idle := none }) true manifest found rfl
    have loads := settled.trans ((congrArg (loadScanEnd h true t0) (toPhase_put .loadScan)).trans run)
    have judged : y.phase = if ∀ p : TrayIdx, loadVerdict s m t0 p ≠ .accepted then .idle
        else if ∃ p : TrayIdx, loadVerdict s m t0 p = .rejected then .loadReject
        else .awaitCourier := by
      rw [phase, loadPhase_eq true rfl]
      by_cases none_ : ∀ p : TrayIdx, loadVerdict s m t0 p ≠ .accepted
      · rw [if_pos ⟨rfl, none_⟩, if_pos none_]
      · have some_ : ∃ p : TrayIdx, loadVerdict s m t0 p = .accepted := by
          by_contra none'
          exact none_ (not_exists.1 none')
        rw [if_neg fun both => none_ both.2, if_neg none_, if_pos some_]
    refine ⟨_, ends loads, by rw [State.put_get, over_], by rw [State.put_get]; exact judged, fun none_ => ?_⟩
    rw [if_pos none_] at judged
    obtain ⟨⟨erased, inactive⟩, free⟩ := idle (phase.symm.trans judged)
    exact ⟨erased, by rw [State.put_get]; exact free, inactive⟩
  · -- a load scan (R95, R96)
    intro reads m t0 scan manifest found ht
    replace ht : t0 = scannedTray x.sensors reads := ht
    obtain ⟨st, y, run, rows, over_, phase, cartridges, -⟩ := loadScanEnd_put (h := h) (t := t0)
      (y := { x with scan := none }) false manifest found rfl
    have loads := (scanEnds_load live scan).trans ((congrArg (loadScanEnd h false · _) ht.symm).trans run)
    have at_tray (p : TrayIdx) := withVerdicts_get (t := t0) (p := p) (loadVerdict s m t0)
    refine ⟨_, ends loads, by rw [State.put_get, over_], fun p => ?_, ?_, fun p l c accepted there d stored label => ?_, ?_,
      rfl, rfl, rfl, rfl, rfl, fun d stored other unaccepted => ?_⟩
    · rw [State.put_get, rows]
      exact at_tray p
    · rw [State.put_get, phase, loadPhase_eq false rfl, if_neg fun both => Bool.false_ne_true both.1]
    · have present : d.label ∈ (acceptedLabels (withVerdicts t0 (loadVerdict s m t0))).map Prod.fst :=
        mem_acceptedLabels.2 ⟨p, c, by rw [at_tray]; exact accepted, by rw [at_tray, label]; exact there⟩
      have kept : d.label ∉ goneFrom (withVerdicts t0 (loadVerdict s m t0)) (m.labelsIn .loaded) := by
        rw [goneFrom_eq, label]
        intro gone
        refine of_decide_eq_true (List.mem_filter.1 gone).2 (mem_labelsOn.2 ⟨p, c, ?_⟩)
        rw [at_tray]
        exact there
      have stored' : d ∈ st.cartridges := stored
      rw [cartridges] at stored'
      exact (moveAll_written (f := (·.enter (.inHatchOut m.id))) (fun _ => rfl) (fun _ => rfl)
        ((moveAll_written (f := (·.enter (.picked m.id))) (fun _ => rfl) (fun _ => rfl) stored').2 kept)).1 present
    · simp only [State.put, Vector.toList_set]
      exact List.eraseIdx_set_eq
    · have stands : d ∈ st.cartridges := by
        rw [cartridges]
        refine moveAll_untouched ?_ (moveAll_untouched ?_ stored)
        · rw [goneFrom_eq]
          exact fun gone => other (List.mem_filter.1 gone).1
        · intro listed
          obtain ⟨p, n, accepted, there⟩ := mem_acceptedLabels.1 listed
          rw [at_tray] at accepted there
          exact unaccepted p n accepted there
      exact stands

end Sys2Proof.Machine
end
